-- ==== Sys2Proof/Word.lean ====
section
/-! DEFINITION. The word types of the model and their plainest arithmetic. -/

namespace Sys2Proof

/-- One byte of storage (R4). -/
abbrev Byte := BitVec 8

/-- A 32-bit word: one lane of a v-register, or one slot of a code line (R6, R295). -/
abbrev Word32 := BitVec 32

/-- A 64-bit word: a scalar or special register (R6). -/
abbrev Word64 := BitVec 64

/-- One bit per logical lane; bit i stands for lane i (R168). -/
abbrev Mask := BitVec 64

/-- A 128-byte line; byte o is bits [8o+7 : 8o] (R195, R295). -/
abbrev Line := BitVec 1024

/-- The values of one v-register, lane 0 first, always 64 of them (R6, R160). -/
abbrev Row := List Word32

/-- A map from natural numbers to values as plain data: keys strictly rising. -/
abbrev Tbl (α : Type) := List (Nat × α)

end Sys2Proof
end

