-- ==== Sys2Proof/Syntax.lean ====
section
/-! DEFINITION. The instruction set Linef as syntax, and the device events of the opcode table.
One constructor of `Instr` per row of spec/opcode_table.json (LAWS.json names the row of each).
Operand fields are read by the decoder into the types below, so the machine never sees a raw field. -/

namespace Sys2Proof

/-- MOD prefix payload (R307). A field of a group that is not enabled is 0 in a well-formed term. -/
structure Mod where
  ovr : Bool
  ovt : Bool
  ovg : Bool
  sat : Bool
  ftz : Bool
  rm  : BitVec 3
  et  : BitVec 5
  ge  : Bool
  gn  : Bool
  gp  : BitVec 7
deriving DecidableEq, Repr

/-- The immediate of an instruction, by the kind of word that carried it (R305, R309). -/
inductive Imm where
  | i22 (v : BitVec 22)
  | i32 (v : BitVec 32)
  | i64 (v : BitVec 64)
deriving DecidableEq, Repr

/-- A vector-class source field (R301). -/
inductive VSrc where
  | v (n : Fin 240)
  | b (k : Fin 4)
  | zero
  | laneId
  | ones
  | imm
deriving DecidableEq, Repr

/-- A vector-class destination field (R301). -/
inductive VDst where
  | v (n : Fin 240)
  | discard
deriving DecidableEq, Repr

/-- A scalar-class source field (R302). -/
inductive SSrc where
  | s (n : Fin 64)
  | zero
  | imm
deriving DecidableEq, Repr

/-- A scalar-class destination field (R302). -/
inductive SDst where
  | s (n : Fin 64)
  | discard
deriving DecidableEq, Repr

/-- Operand B of a scalar instruction: a scalar field (F = 0) or a signed byte (F = 1) (R350). -/
inductive SB where
  | reg (a : SSrc)
  | byte (v : BitVec 8)
deriving DecidableEq, Repr

/-- Operand B of a vector instruction: a vector field (F = 0) or a scalar broadcast (F = 1) (R346). -/
inductive VB where
  | vec (a : VSrc)
  | sreg (a : SSrc)
deriving DecidableEq, Repr

/-- Operand B of vtos: a lane number (F = 0) or a scalar (F = 1) (R353). -/
inductive LaneSel where
  | num (v : BitVec 8)
  | sreg (a : SSrc)
deriving DecidableEq, Repr

/-- Format operand of mxq and mxdq: the immediate (F = 0, B = 0xF7) or a scalar (F = 1) (R372). -/
inductive FmtSrc where
  | imm
  | sreg (a : SSrc)
deriving DecidableEq, Repr

/-- Target of br.u and call: near, or far by an IMM32 literal (R304). -/
inductive BTarget where
  | near (loff : BitVec 11) (slot : BitVec 5)
  | far (lit : BitVec 32)
deriving DecidableEq, Repr

/-- Address operand of a per-lane memory instruction (R380). -/
inductive MAddr where
  | pair (n : Fin 240)
  | sreg (n : Fin 64)
  | zero
deriving DecidableEq, Repr

/-- Access size and extension of the memory minor (R315). -/
inductive MSize where
  | u8 | s8 | u16 | s16 | b32 | b64 | b128
deriving DecidableEq, Repr

/-- Address space of the memory minor (R315, R380). -/
inductive Space where
  | glob | tile | win | priv | const
deriving DecidableEq, Repr

/-- Scopes (R203). -/
inductive Scope where
  | grp | team | clu | die | dev | sys
deriving DecidableEq, Repr

/-- Atomic operations (R391). -/
inductive AtomOp where
  | add | and | or | xor | min | max | umin | umax | exch | fadd
deriving DecidableEq, Repr

/-- What the EXT word of an atom names: value operand, ordered, scope (R308, R315). -/
structure AtomExt where
  c : VSrc
  ordered : Bool
  scope : Scope
deriving DecidableEq, Repr

/-- Comparisons of R75 and R84. -/
inductive Cmp where
  | eq | ne | lt | ge | allSet | anySet
deriving DecidableEq, Repr

/-- What the EXT word of a wwait names (R399). -/
structure WaitExt where
  scope : Scope
  p : Fin 128
  c : SSrc
deriving DecidableEq, Repr

/-- What the EXT word of mxld and mxst names: scope and scale descriptor (R401). -/
structure MxExt where
  scope : Scope
  c : SSrc
deriving DecidableEq, Repr

/-- Minors of iun (R361). -/
inductive IunOp where
  | abs | neg | not | clz | ctz | popc | brev | sext8 | sext16 | zext8 | zext16
deriving DecidableEq, Repr

/-- Minors of fun (R368). -/
inductive FunOp where
  | abs | neg | rcp | rsq | sqrt | exp2 | log2 | sinpi | cospi | floor | ceil | trunc | rint
deriving DecidableEq, Repr

/-- Minors of red and scan (R377). -/
inductive RedOp where
  | add | min | max | umin | umax | and | or | xor | fadd
deriving DecidableEq, Repr

/-- Operation and destination of vote (R376). -/
inductive VoteOp where
  | any (d : Fin 128)
  | all (d : Fin 128)
  | ballot (d : VDst)
  | count (d : VDst)
deriving DecidableEq, Repr

/-- Minors of pop (R379). -/
inductive PopOp where
  | and | or | xor | andn | orn | nand | nor | xnor | mov | not
deriving DecidableEq, Repr

/-- Conversion codes of cvt (R294, R370). -/
inductive CvtOp where
  | f32ToF16 | f32ToBf16 | f32ToE4m3 | f32ToE5m2 | f32ToE2m1
  | f16ToF32 | bf16ToF32 | e4m3ToF32 | e5m2ToF32 | e2m1ToF32
  | f32ToI32 | f32ToU32 | i32ToF32 | u32ToF32 | f32ToF64 | f64ToF32
  | i32ToF64 | f64ToI32 | f32ToI32Trunc | i32ToI16 | i32ToI8 | u32ToU16 | u32ToU8 | i64ToI32
deriving DecidableEq, Repr

/-- Special registers by index 0x000 to 0x017 (R342). -/
inductive SpReg where
  | mode | flags | gang | width | gid | tid | cid | core | xpc | xcause | xmode | xinfo
  | trapbase | csabase | rgnentry | rgnmask | drawkey | drawctr | rrcount | splits | clock
  | leasestat | extregs | fusestat
deriving DecidableEq, Repr

/-- Slot operand of rr (R429). -/
inductive RrSlot where
  | num (n : Fin 8)
  | sreg (n : Fin 64)
deriving DecidableEq, Repr

/-- Register operand of q.push (R405). -/
inductive QSrc where
  | s (a : SSrc)
  | v (n : Fin 240)
deriving DecidableEq, Repr

/-- Register operand of q.pop and q.peek (R405). -/
inductive QDst where
  | s (a : SDst)
  | v (n : Fin 240)
deriving DecidableEq, Repr

/-- Register space of a host write: the management aperture (physical function) or a function's BAR0 (R29, R90). -/
inductive RegSpace where
  | mgmt
  | bar0 (fn : Nat)
deriving DecidableEq, Repr

/-- Outcome of port training (R32): up with protocol, rate and width codes of R31, or failed. -/
inductive Training where
  /-- `flit68`: the partner allows no other flit mode than that of 68 bytes (R22). -/
  | up (proto : BitVec 2) (rate : BitVec 3) (width : BitVec 2) (flit68 : Bool)
  | failed
deriving DecidableEq, Repr

/-- A host access to device memory over CXL.mem (R59). -/
inductive HdmAccess where
  | readShared
  | readOwn
  | write (bytes : List Byte)
  | evict
deriving DecidableEq, Repr

/-- What a peer device asks for (R237, R147, R239). -/
inductive PeerReq where
  | write (queue : Nat) (va : Word64) (bytes : List Byte)
  | rendezvous (queue : Nat) (va : Word64) (add : Word64)
  | fail (queue : Nat) (va : Word64)
  | member (queue : Nat) (desc : BitVec 256) (bytes : List Byte)
deriving DecidableEq, Repr

/-- What an SPDM request asks for (R111, R28): a measurement report, or that the IDE streams of a port be keyed. -/
inductive SpdmReq where
  | measurements
  /-- A stream of a port is configured, for CXL.cache and CXL.mem, or for CXL.io: 0 the link stream, 1 to 4 selective. -/
  | ideConfig (port stream : Nat) (cxl : Bool)
  | ideKeys (port stream : Nat)
deriving DecidableEq, Repr

/-- A firmware image in a flash slot (R110): whether its signature verifies, its security version, what it measures. -/
structure Image where
  verifies : Bool
  version : BitVec 16
  words : List Word64
deriving DecidableEq, Repr

/-- How the steps of a boot ran (R109): the RESULT of each, the steps whose fallback fails, the cores and channels that
fail their tests, the ways that do (32 bits to a die, as in PWAYS), whether more than four fail on one slice, and the images
written to the alternate slots of steps 2 and 14 before it (R110). -/
structure BootRun where
  results : List (BitVec 8)
  fallbacks : BitVec 16
  cores : BitVec 288
  channels : BitVec 24
  ways : BitVec 128
  manyWays : Bool
  update2 : Option Image
  update14 : Option Image
deriving DecidableEq, Repr

/-- A buffer that hardware zeroes on change of owner (R108). -/
inductive ZBuf where
  | tile (team : Nat)
  | frame (n : Nat)
  | ways (part : Nat)
deriving DecidableEq, Repr

/-- One constructor per row of the opcode table. `m` is the MOD word and `im` the immediate, where present;
an EXT word shows as the operands it names. The rows without a word of their own are the device's events,
with the object each concerns. -/
inductive Instr where
  /-- NOP (R320). -/
  | nop (m : Option Mod)
  /-- BR_U (R323). -/
  | brU (m : Option Mod) (p : Fin 128) (neg : Bool) (t : BTarget)
  /-- BR_U_ANY (R323). -/
  | brUAny (m : Option Mod) (p : Fin 128) (neg : Bool) (t : BTarget)
  /-- BR_D (R324). -/
  | brD (m : Option Mod) (p : Fin 128) (neg : Bool) (loff : BitVec 11) (slot : BitVec 5) (j : BitVec 22)
  /-- CALL (R325). -/
  | call (m : Option Mod) (p : Fin 128) (neg : Bool) (t : BTarget)
  /-- BRX (R326). -/
  | brx (m : Option Mod) (a : SSrc)
  /-- BRX_CALL (R326). -/
  | brxCall (m : Option Mod) (a : SSrc)
  /-- JOIN (R327). -/
  | join (m : Option Mod) (n : Fin 21)
  /-- JOIN_TIMEOUT (R175, entry e of group g). -/
  | joinTimeout (g e : Nat)
  /-- YIELD (R328). -/
  | yield (m : Option Mod)
  /-- YIELD_C (R329). -/
  | yieldC (m : Option Mod) (q : Fin 8) (c : BitVec 22)
  /-- SLEEP (R330). -/
  | sleep (m : Option Mod) (n : BitVec 16)
  /-- SLEEP_EXPIRE (R330). -/
  | sleepExpire (g e : Nat)
  /-- EXIT (R331). -/
  | exit (m : Option Mod)
  /-- EXIT_SAVE (R331). -/
  | exitSave (m : Option Mod)
  /-- RGN (R332). -/
  | rgn (m : Option Mod) (v : BitVec 30) (sm : BitVec 8) (pm : BitVec 16)
  /-- MODE_IMM (R333). -/
  | modeImm (m : Option Mod) (v : BitVec 24)
  /-- MODE_SCALAR (R333). -/
  | modeScalar (m : Option Mod) (a : SSrc)
  /-- WSPLIT (R334). -/
  | wsplit (m : Option Mod) (d : SDst)
  /-- WFUSE (R335). -/
  | wfuse (m : Option Mod) (d : SDst) (sel : Bool)
  /-- WFUSE_TIMEOUT (R179). -/
  | wfuseTimeout (g : Nat)
  /-- LPC (R336). -/
  | lpc (m : Option Mod) (d : SSrc) (a : Fin 240) (blocks : BitVec 30)
  /-- BAR (R337). -/
  | bar (m : Option Mod) (n : Fin 16)
  /-- BAR_CLU (R337). -/
  | barClu (m : Option Mod) (n : Fin 16)
  /-- RACQ (R338). -/
  | racq (m : Option Mod) (k : Fin 30)
  /-- RREL (R338). -/
  | rrel (m : Option Mod) (k : Fin 30)
  /-- TRAP (R339). -/
  | trap (m : Option Mod) (c : BitVec 8)
  /-- BRK (R339). -/
  | brk (m : Option Mod) (c : BitVec 8)
  /-- XRET (R340). -/
  | xret (m : Option Mod)
  /-- SRD (R341). -/
  | srd (m : Option Mod) (d : SDst) (r : SpReg)
  /-- SWR (R341). -/
  | swr (m : Option Mod) (a : SSrc) (r : SpReg)
  /-- SADD (R350). -/
  | sadd (m : Option Mod) (im : Option Imm) (d : SDst) (a : SSrc) (b : SB)
  /-- SSUB (R350). -/
  | ssub (m : Option Mod) (im : Option Imm) (d : SDst) (a : SSrc) (b : SB)
  /-- SMUL (R350). -/
  | smul (m : Option Mod) (im : Option Imm) (d : SDst) (a : SSrc) (b : SB)
  /-- SAND (R350). -/
  | sand (m : Option Mod) (im : Option Imm) (d : SDst) (a : SSrc) (b : SB)
  /-- SOR (R350). -/
  | sor (m : Option Mod) (im : Option Imm) (d : SDst) (a : SSrc) (b : SB)
  /-- SXOR (R350). -/
  | sxor (m : Option Mod) (im : Option Imm) (d : SDst) (a : SSrc) (b : SB)
  /-- SSHL (R350). -/
  | sshl (m : Option Mod) (im : Option Imm) (d : SDst) (a : SSrc) (b : SB)
  /-- SSHR (R350). -/
  | sshr (m : Option Mod) (im : Option Imm) (d : SDst) (a : SSrc) (b : SB)
  /-- SSAR (R350). -/
  | ssar (m : Option Mod) (im : Option Imm) (d : SDst) (a : SSrc) (b : SB)
  /-- SMIN (R350). -/
  | smin (m : Option Mod) (im : Option Imm) (d : SDst) (a : SSrc) (b : SB)
  /-- SMAX (R350). -/
  | smax (m : Option Mod) (im : Option Imm) (d : SDst) (a : SSrc) (b : SB)
  /-- SMOV (R350). -/
  | smov (m : Option Mod) (im : Option Imm) (d : SDst) (b : SB)
  /-- SCMP_EQ (R351). -/
  | scmpEq (m : Option Mod) (im : Option Imm) (d : Fin 128) (a : SSrc) (b : SB)
  /-- SCMP_NE (R351). -/
  | scmpNe (m : Option Mod) (im : Option Imm) (d : Fin 128) (a : SSrc) (b : SB)
  /-- SCMP_LT (R351). -/
  | scmpLt (m : Option Mod) (im : Option Imm) (d : Fin 128) (a : SSrc) (b : SB)
  /-- SCMP_LTU (R351). -/
  | scmpLtu (m : Option Mod) (im : Option Imm) (d : Fin 128) (a : SSrc) (b : SB)
  /-- SCMP_LE (R351). -/
  | scmpLe (m : Option Mod) (im : Option Imm) (d : Fin 128) (a : SSrc) (b : SB)
  /-- SCMP_LEU (R351). -/
  | scmpLeu (m : Option Mod) (im : Option Imm) (d : Fin 128) (a : SSrc) (b : SB)
  /-- SBFX (R352). -/
  | sbfx (m : Option Mod) (im : Option Imm) (d : SDst) (a : SSrc) (b : SB) (w : BitVec 6)
  /-- VTOS (R353). -/
  | vtos (m : Option Mod) (d : SDst) (a : VSrc) (b : LaneSel)
  /-- SLD (R390). -/
  | sld (m : Option Mod) (im : Option Imm) (d : SDst) (a : SSrc) (sz : MSize) (ord : Bool) (sp : Space) (sc : Option Scope)
  /-- SST (R390). -/
  | sst (m : Option Mod) (im : Option Imm) (d : SSrc) (a : SSrc) (sz : MSize) (ord : Bool) (sp : Space) (sc : Option Scope)
  /-- IADD (R354). -/
  | iadd (m : Option Mod) (im : Option Imm) (d : VDst) (a : VSrc) (b : VB)
  /-- ISUB (R354). -/
  | isub (m : Option Mod) (im : Option Imm) (d : VDst) (a : VSrc) (b : VB)
  /-- IMUL (R354). -/
  | imul (m : Option Mod) (im : Option Imm) (d : VDst) (a : VSrc) (b : VB)
  /-- IMULH (R354). -/
  | imulh (m : Option Mod) (im : Option Imm) (d : VDst) (a : VSrc) (b : VB)
  /-- IMULHU (R354). -/
  | imulhu (m : Option Mod) (im : Option Imm) (d : VDst) (a : VSrc) (b : VB)
  /-- IMAD (R356). -/
  | imad (m : Option Mod) (im : Option Imm) (d : VDst) (a : VSrc) (b : VB) (c : Option VSrc)
  /-- AND (R354). -/
  | vAnd (m : Option Mod) (im : Option Imm) (d : VDst) (a : VSrc) (b : VB)
  /-- OR (R354). -/
  | vOr (m : Option Mod) (im : Option Imm) (d : VDst) (a : VSrc) (b : VB)
  /-- XOR (R354). -/
  | vXor (m : Option Mod) (im : Option Imm) (d : VDst) (a : VSrc) (b : VB)
  /-- ANDN (R354). -/
  | vAndn (m : Option Mod) (im : Option Imm) (d : VDst) (a : VSrc) (b : VB)
  /-- SHL (R354). -/
  | shl (m : Option Mod) (im : Option Imm) (d : VDst) (a : VSrc) (b : VB)
  /-- SHR (R354). -/
  | shr (m : Option Mod) (im : Option Imm) (d : VDst) (a : VSrc) (b : VB)
  /-- SAR (R354). -/
  | sar (m : Option Mod) (im : Option Imm) (d : VDst) (a : VSrc) (b : VB)
  /-- ROT (R354). -/
  | rot (m : Option Mod) (im : Option Imm) (d : VDst) (a : VSrc) (b : VB)
  /-- IMIN (R354). -/
  | imin (m : Option Mod) (im : Option Imm) (d : VDst) (a : VSrc) (b : VB)
  /-- IMAX (R354). -/
  | imax (m : Option Mod) (im : Option Imm) (d : VDst) (a : VSrc) (b : VB)
  /-- UMIN (R354). -/
  | umin (m : Option Mod) (im : Option Imm) (d : VDst) (a : VSrc) (b : VB)
  /-- UMAX (R354). -/
  | umax (m : Option Mod) (im : Option Imm) (d : VDst) (a : VSrc) (b : VB)
  /-- SEL (R357). -/
  | sel (m : Option Mod) (im : Option Imm) (d : VDst) (a : VSrc) (b : VB) (p : Fin 128)
  /-- LEA (R358). -/
  | lea (m : Option Mod) (im : Option Imm) (d : VDst) (a : VSrc) (b : VB) (k : Option (BitVec 6))
  /-- ADD64 (R358). -/
  | add64 (m : Option Mod) (im : Option Imm) (d : VDst) (a : VSrc) (b : VB)
  /-- BFX (R359). -/
  | bfx (m : Option Mod) (im : Option Imm) (d : VDst) (a : VSrc) (b : VB) (w : BitVec 6)
  /-- BFI (R359). -/
  | bfi (m : Option Mod) (im : Option Imm) (d : VDst) (a : VSrc) (b : VB) (w : BitVec 6) (c : VSrc)
  /-- MOV (R354). -/
  | mov (m : Option Mod) (im : Option Imm) (d : VDst) (b : VB)
  /-- ICMP_EQ (R360). -/
  | icmpEq (m : Option Mod) (im : Option Imm) (d : Fin 128) (a : VSrc) (b : VB)
  /-- ICMP_NE (R360). -/
  | icmpNe (m : Option Mod) (im : Option Imm) (d : Fin 128) (a : VSrc) (b : VB)
  /-- ICMP_LT (R360). -/
  | icmpLt (m : Option Mod) (im : Option Imm) (d : Fin 128) (a : VSrc) (b : VB)
  /-- ICMP_LE (R360). -/
  | icmpLe (m : Option Mod) (im : Option Imm) (d : Fin 128) (a : VSrc) (b : VB)
  /-- ICMP_LTU (R360). -/
  | icmpLtu (m : Option Mod) (im : Option Imm) (d : Fin 128) (a : VSrc) (b : VB)
  /-- ICMP_LEU (R360). -/
  | icmpLeu (m : Option Mod) (im : Option Imm) (d : Fin 128) (a : VSrc) (b : VB)
  /-- ITEST (R360). -/
  | itest (m : Option Mod) (im : Option Imm) (d : Fin 128) (a : VSrc) (b : VB)
  /-- IUN (R361). -/
  | iun (m : Option Mod) (d : VDst) (a : VSrc) (op : IunOp)
  /-- FADD (R363). -/
  | fadd (m : Option Mod) (im : Option Imm) (d : VDst) (a : VSrc) (b : VB)
  /-- FSUB (R363). -/
  | fsub (m : Option Mod) (im : Option Imm) (d : VDst) (a : VSrc) (b : VB)
  /-- FMUL (R363). -/
  | fmul (m : Option Mod) (im : Option Imm) (d : VDst) (a : VSrc) (b : VB)
  /-- FFMA (R363). -/
  | ffma (m : Option Mod) (im : Option Imm) (d : VDst) (a : VSrc) (b : VB) (c : Option VSrc)
  /-- FMIN (R364). -/
  | fmin (m : Option Mod) (im : Option Imm) (d : VDst) (a : VSrc) (b : VB)
  /-- FMAX (R364). -/
  | fmax (m : Option Mod) (im : Option Imm) (d : VDst) (a : VSrc) (b : VB)
  /-- FDOT2 (R365). -/
  | fdot2 (m : Option Mod) (im : Option Imm) (d : VDst) (a : VSrc) (b : VB) (c : Option VSrc)
  /-- FCMP_EQ (R366). -/
  | fcmpEq (m : Option Mod) (im : Option Imm) (d : Fin 128) (a : VSrc) (b : VB)
  /-- FCMP_NE (R366). -/
  | fcmpNe (m : Option Mod) (im : Option Imm) (d : Fin 128) (a : VSrc) (b : VB)
  /-- FCMP_LT (R366). -/
  | fcmpLt (m : Option Mod) (im : Option Imm) (d : Fin 128) (a : VSrc) (b : VB)
  /-- FCMP_LE (R366). -/
  | fcmpLe (m : Option Mod) (im : Option Imm) (d : Fin 128) (a : VSrc) (b : VB)
  /-- FCMP_UN (R366). -/
  | fcmpUn (m : Option Mod) (im : Option Imm) (d : Fin 128) (a : VSrc) (b : VB)
  /-- FCLASS (R367). -/
  | fclass (m : Option Mod) (d : VDst) (a : VSrc)
  /-- FUN (R368). -/
  | funop (m : Option Mod) (d : VDst) (a : VSrc) (op : FunOp)
  /-- DADD (R369). -/
  | dadd (m : Option Mod) (im : Option Imm) (d : VDst) (a : VSrc) (b : VB)
  /-- DMUL (R369). -/
  | dmul (m : Option Mod) (im : Option Imm) (d : VDst) (a : VSrc) (b : VB)
  /-- DFMA (R369). -/
  | dfma (m : Option Mod) (im : Option Imm) (d : VDst) (a : VSrc) (b : VB) (c : Option VSrc)
  /-- DCMP_LT (R369). -/
  | dcmpLt (m : Option Mod) (im : Option Imm) (d : Fin 128) (a : VSrc) (b : VB)
  /-- DCMP_EQ (R369). -/
  | dcmpEq (m : Option Mod) (im : Option Imm) (d : Fin 128) (a : VSrc) (b : VB)
  /-- CVT (R370). -/
  | cvt (m : Option Mod) (d : VDst) (a : VSrc) (op : CvtOp)
  /-- PACK (R371). -/
  | pack (m : Option Mod) (im : Option Imm) (d : VDst) (a : VSrc) (b : VB)
  /-- UNPACK (R371). -/
  | unpack (m : Option Mod) (im : Option Imm) (d : VDst) (a : VSrc) (b : VB)
  /-- MXQ (R372). -/
  | mxq (m : Option Mod) (im : Option Imm) (d : VDst) (a : VSrc) (f : FmtSrc) (c : Option (Fin 240))
  /-- MXDQ (R373). -/
  | mxdq (m : Option Mod) (im : Option Imm) (d : VDst) (a : VSrc) (f : FmtSrc) (c : Option (Fin 240))
  /-- SHFL (R375). -/
  | shfl (m : Option Mod) (im : Option Imm) (d : VDst) (a : VSrc) (b : VSrc)
  /-- SHFL_XOR (R375). -/
  | shflXor (m : Option Mod) (im : Option Imm) (d : VDst) (a : VSrc) (b : SSrc)
  /-- VOTE (R376). -/
  | vote (m : Option Mod) (op : VoteOp) (a : Fin 128)
  /-- RED (R377). -/
  | red (m : Option Mod) (d : VDst) (a : VSrc) (op : RedOp)
  /-- SCAN (R378). -/
  | scan (m : Option Mod) (d : VDst) (a : VSrc) (op : RedOp)
  /-- POP (R379). -/
  | pop (m : Option Mod) (op : PopOp) (d a b : Fin 128)
  /-- RR_READ (R430). -/
  | rrRead (m : Option Mod) (d : Fin 8) (n : RrSlot)
  /-- RR_WRITE (R431). -/
  | rrWrite (m : Option Mod) (d : Fin 8) (n : RrSlot)
  /-- RR_RETIRE (R432). -/
  | rrRetire (m : Option Mod) (n : RrSlot)
  /-- LD (R387). -/
  | ld (m : Option Mod) (im : Option Imm) (d : VDst) (a : MAddr) (sz : MSize) (ord : Bool) (sp : Space) (sc : Option Scope)
  /-- LD_NF (R388). -/
  | ldNf (m : Option Mod) (im : Option Imm) (d : VDst) (a : MAddr) (sz : MSize) (sp : Space) (p : Fin 128)
  /-- ST (R389). -/
  | st (m : Option Mod) (im : Option Imm) (d : VSrc) (a : MAddr) (sz : MSize) (ord : Bool) (sp : Space) (sc : Option Scope)
  /-- ATOM (R391). -/
  | atom (m : Option Mod) (im : Option Imm) (d : VDst) (a : MAddr) (op : AtomOp) (w8 : Bool) (sp : Space) (x : Option AtomExt)
  /-- ATOM_CAS (R392). -/
  | atomCas (m : Option Mod) (im : Option Imm) (d : VDst) (a : MAddr) (w8 : Bool) (sp : Space) (x : AtomExt)
  /-- LOAD_COMPLETE (R384, pending write id of group g). -/
  | loadComplete (g id : Nat)
  /-- LEASE (R394; x: an all-zero EXT word stands before it). -/
  | lease (m : Option Mod) (im : Option Imm) (x : Bool) (a : SSrc)
  /-- LEASE_END (R395). -/
  | leaseEnd (m : Option Mod) (p : Fin 128)
  /-- LEASE_END_COMPLETE (R216). -/
  | leaseEndComplete (g : Nat)
  /-- LEASE_EXPIRE (R215). -/
  | leaseExpire (line : Nat)
  /-- FENCE (R396). -/
  | fence (m : Option Mod) (sc : Scope)
  /-- FENCE_PHASE (R396). -/
  | fencePhase (m : Option Mod) (sc : Scope)
  /-- XFENCE (R396, R222). -/
  | xfence (m : Option Mod) (sc : Scope) (w r : BitVec 5)
  /-- CACHE_PREFETCH (R397). -/
  | cachePrefetch (m : Option Mod) (im : Option Imm) (x : Bool) (a : MAddr) (l2 : Bool) (sp : Space)
  /-- CACHE_PAGEREQ (R398). -/
  | cachePagereq (m : Option Mod) (im : Option Imm) (x : Bool) (a : MAddr) (wr mig : Bool)
  /-- CACHE_WB (R397). -/
  | cacheWb (m : Option Mod) (im : Option Imm) (x : Bool) (a : MAddr) (sp : Space)
  /-- CACHE_DROP (R397). -/
  | cacheDrop (m : Option Mod) (im : Option Imm) (x : Bool) (a : MAddr) (sp : Space)
  /-- CACHE_RESQ (R397). -/
  | cacheResq (m : Option Mod) (im : Option Imm) (x : Bool) (a : MAddr) (d : Fin 128)
  /-- WWAIT (R399). -/
  | wwait (m : Option Mod) (im : Option Imm) (d : SSrc) (a : SSrc) (tmo : BitVec 4) (w8 : Bool) (c : Cmp) (x : Option WaitExt)
  /-- WWAIT_POLL (R400). -/
  | wwaitPoll (g e : Nat)
  /-- WWAIT_TIMEOUT (R400). -/
  | wwaitTimeout (g e : Nat)
  /-- MXLD (R401). -/
  | mxld (m : Option Mod) (im : Option Imm) (d : Fin 240) (a : SSrc) (ord : Bool) (sp : Space) (x : Option MxExt)
  /-- MXST (R401). -/
  | mxst (m : Option Mod) (im : Option Imm) (d : Fin 240) (a : SSrc) (ord : Bool) (sp : Space) (x : Option MxExt)
  /-- Q_PUSH (R406). -/
  | qPush (m : Option Mod) (n : Fin 8) (a : QSrc)
  /-- Q_POP (R407). -/
  | qPop (m : Option Mod) (d : QDst) (n : Fin 8)
  /-- Q_PEEK (R407). -/
  | qPeek (m : Option Mod) (d : QDst) (n : Fin 8)
  /-- Q_STAT (R409). -/
  | qStat (m : Option Mod) (d : SDst) (n : Fin 8)
  /-- Q_BIND (R410). -/
  | qBind (m : Option Mod) (n : Fin 8) (port : Fin 16)
  /-- MMA (R411). -/
  | mma (m : Option Mod) (a : Fin 64)
  /-- MMA_ACC (R411). -/
  | mmaAcc (m : Option Mod) (a : Fin 64)
  /-- ENG_ERD (R415). -/
  | engErd (m : Option Mod) (c : Fin 2) (a : Fin 64)
  /-- ENG_EWR (R416). -/
  | engEwr (m : Option Mod) (c : Fin 2) (a : Fin 64)
  /-- ENG_ERESUME (R417). -/
  | engEresume (m : Option Mod) (c : Fin 2)
  /-- RND_TEX (R421). -/
  | rndTex (m : Option Mod) (im : Option Imm) (d a : Fin 240) (b : Fin 32)
  /-- RND_TEXQ (R422). -/
  | rndTexq (m : Option Mod) (im : Option Imm) (d a : Fin 240) (b : Fin 32)
  /-- RND_TRACE (R423). -/
  | rndTrace (m : Option Mod) (im : Option Imm) (d a : Fin 240) (b : Fin 32)
  /-- RND_TRACEC (R423). -/
  | rndTracec (m : Option Mod) (im : Option Imm) (d a : Fin 240) (b : Fin 32)
  /-- RND_VMARCH (R424). -/
  | rndVmarch (m : Option Mod) (im : Option Imm) (d a : Fin 240) (b : Fin 32)
  /-- RND_MSHEMIT (R427). -/
  | rndMshemit (m : Option Mod) (im : Option Imm) (d a : Fin 64) (b : Fin 32)
  /-- RND_DRAW (R425). -/
  | rndDraw (m : Option Mod) (d a : Fin 240)
  /-- RND_DRAW_TAB (R425). -/
  | rndDrawTab (m : Option Mod) (im : Option Imm) (d a : Fin 240) (b : Fin 32)
  /-- RND_DRAWSEED (R426). -/
  | rndDrawseed (m : Option Mod) (im : Option Imm) (d : Fin 240) (b : Fin 32)
  /-- RENDER_COMPLETE (R420, lane of pending write id of group g). -/
  | renderComplete (g id lane : Nat)
  /-- RENDER_FAULT_PARK (R116, the faulted lanes of pending write id). -/
  | renderFaultPark (g id : Nat)
  /-- QUAD_DELIVERY (R278, the next quad the core emits). -/
  | quadDelivery (core : Nat)
  /-- PIXEL_GROUP_START (R280). -/
  | pixelGroupStart (core : Nat)
  /-- LANE_GRANT (R66). -/
  | laneGrant (engine : Nat)
  /-- PARSE_STEP (R67). -/
  | parseStep (engine : Nat)
  /-- TLB_INVAL_DONE (R81, packet idx of queue q). -/
  | tlbInvalDone (q idx : Nat)
  /-- PSTATE_TRANSITION_DONE (R104). -/
  | pstateTransitionDone (die : Nat)
  /-- PACKET_RETIRE (R72). -/
  | packetRetire (q idx : Nat)
  /-- WATCH_POLL (R85, the polled arm id). -/
  | watchPoll (id : Nat)
  /-- TEAM_PLACE (R142). -/
  | teamPlace (part : Nat)
  /-- CLUSTER_PLACE (R145). -/
  | clusterPlace (part : Nat)
  /-- PREEMPT_REQUEST (R150). -/
  | preemptRequest (team : Nat)
  /-- TEAM_RESTART (R151). -/
  | teamRestart (team : Nat)
  /-- COPY_COMMAND_START (R234, command id in the intake of the die). -/
  | copyCommandStart (die id : Nat)
  /-- COPY_FAULT_PARK (R237). -/
  | copyFaultPark (die id : Nat)
  /-- COPY_COMPLETE (R235). -/
  | copyComplete (die id : Nat)
  /-- COLLECTIVE_MATCH (R239, the set of the member id). -/
  | collectiveMatch (die id : Nat)
  /-- COLLECTIVE_COMPLETE (R241). -/
  | collectiveComplete (die id : Nat)
  /-- ENGINE_RESULT_DELIVERY (R228, into the q-register of group g bound to port). -/
  | engineResultDelivery (g port : Nat)
  /-- MXE_FETCH_FAULT (R250). -/
  | mxeFetchFault (core ctx : Nat)
  /-- MXE_PARK (R250). -/
  | mxePark (core ctx : Nat)
  /-- MXE_COMPUTE_DONE (R248). -/
  | mxeComputeDone (core ctx : Nat)
  /-- CLUSTER_STAGE_PAGE (R119, pending entry page of the core filter). -/
  | clusterStagePage (core page : Nat)
  /-- FLE_PAGE_ARRIVAL (R120, entry page of the die cluster stage). -/
  | flePageArrival (die page : Nat)
  /-- FLE_HINT_ARRIVAL (R123, hint id). -/
  | fleHintArrival (id : Nat)
  /-- SORUS_CLOSE_TIMEOUT (R120). -/
  | sorusCloseTimeout
  /-- SORUS_PROCESS (R122). -/
  | sorusProcess
  /-- PAGE_HANDOFF (R52, move id). -/
  | pageHandoff (id : Nat)
  /-- SECTOR_FILL_COMPLETE (R444). -/
  | sectorFillComplete (frame sector : Nat)
  /-- DEVICE_TLB_INVAL_DONE (R464, move id). -/
  | deviceTlbInvalDone (id : Nat)
  /-- EVICTION_WRITEBACK_DONE (R54). -/
  | evictionWritebackDone (frame : Nat)
  /-- RECORD_REPLAY (R131). -/
  | recordReplay (core : Nat)
  /-- ACCESS_COUNTER_DECAY (R50). -/
  | accessCounterDecay
  /-- L1_EVICTION (R197). -/
  | l1Eviction (core line : Nat)
  /-- RDC_EVICTION (R197). -/
  | rdcEviction (die line : Nat)
  /-- RDC_STALE_DROP (R196). -/
  | rdcStaleDrop (die line : Nat)
  /-- POWER_ESTIMATE (R105). -/
  | powerEstimate
  /-- THERMAL_TRIP (R104). -/
  | thermalTrip (die : Nat)
  /-- THERMAL_RESTORE (R104). -/
  | thermalRestore (die : Nat)
  /-- CQCTL_WRITE (R90). -/
  | cqctlWrite (fn queue : Nat) (v : BitVec 32)
  /-- CQHEAD_WRITE (R94). -/
  | cqheadWrite (fn queue : Nat) (v : BitVec 32)
  /-- MSIX_TIMER_EXPIRE (R95). -/
  | msixTimerExpire (fn queue : Nat)
  /-- MSIX_VECTOR_UNMASK (R95). -/
  | msixVectorUnmask (fn vec : Nat)
  /-- PRREPLY_RESOLVED (R130). -/
  | prreplyResolved (fn : Nat) (v : Word64)
  /-- PRREPLY_FAILED (R130). -/
  | prreplyFailed (fn : Nat) (v : Word64)
  /-- PORTCTL_WRITE (R30). -/
  | portctlWrite (port : Nat) (v : BitVec 32)
  /-- PORT_TRAINING_DONE (R32). -/
  | portTrainingDone (port : Nat) (t : Training)
  /-- PORT_LINK_DOWN (R33). -/
  | portLinkDown (port : Nat)
  /-- PORT_RECOVERED (R33). -/
  | portRecovered (port : Nat)
  /-- PORT_RECOVERY_TIMEOUT (R33). -/
  | portRecoveryTimeout (port : Nat)
  /-- FLIT_CRC_FAIL (R17; `again`: of the flit that failed last). -/
  | flitCrcFail (link : Nat) (again : Bool)
  /-- IDE_INTEGRITY_FAIL (R28). -/
  | ideIntegrityFail (port : Nat)
  /-- GDDR_UNCORRECTABLE_ERROR (R21). -/
  | gddrUncorrectableError (pa : Nat)
  /-- DEVICE_RESET (R109). -/
  | deviceReset (r : BootRun)
  /-- VF_FLR (R101). -/
  | vfFlr (vf : Nat)
  /-- PCTL_ENABLE (R100). -/
  | pctlEnable (part : Nat)
  /-- PCTL_DISABLE (R101). -/
  | pctlDisable (part : Nat)
  /-- PADMR_WRITE (R100). -/
  | padmrWrite (v : Word64)
  /-- SSDATA_READ (R107). -/
  | ssdataRead
  /-- TFRTAIL_WRITE (R58). -/
  | tfrtailWrite (part : Nat) (v : BitVec 32)
  /-- REGISTER_WRITE (R8). -/
  | registerWrite (sp : RegSpace) (off : Nat) (v : Word64)
  /-- BAR_WINDOW_READ (R87). -/
  | barWindowRead (fn off n : Nat)
  /-- BAR_WINDOW_WRITE (R87). -/
  | barWindowWrite (fn off : Nat) (bytes : List Byte)
  /-- HOST_HDM_ACCESS (R59). -/
  | hostHdmAccess (pa : Nat) (k : HdmAccess)
  /-- HOST_BIRSP (R59). -/
  | hostBirsp (line : Nat)
  /-- POOL_BISNP (R60; the line's bytes in the pool after it, none for unchanged). -/
  | poolBisnp (line : Nat) (inv : Bool) (bytes : List Byte)
  /-- SPDM_REQUEST (R111). -/
  | spdmRequest (fn : Nat) (r : SpdmReq)
  /-- HOST_SNOOP (R86; the line's bytes after it, none for unchanged). -/
  | hostSnoop (line : Nat) (bytes : List Byte)
  /-- PEER_REQUEST (R237). -/
  | peerRequest (r : PeerReq)
  /-- COLLECTIVE_FAULT_PARK (R241). -/
  | collectiveFaultPark (die id : Nat)
  /-- ZEROING_COMPLETE (R108). -/
  | zeroingComplete (b : ZBuf)
deriving DecidableEq, Repr

end Sys2Proof
end

