-- ==== Sys2Proof/WellFormed.lean ====
section
/-! DEFINITION. Which terms of `Instr` the encoding admits: every check of the encoding chapters that looks at the
instruction alone and traps ILLEGAL_WORD (or PREFIX_MISMATCH for an unused immediate) when it fails.
Checks that look at the group (width, ET, HND, allocation, MOD's reserved RM and ET) are the machine's. -/

namespace Sys2Proof

/-- R307: a field of a group that is not enabled is 0. -/
def Mod.wf (m : Mod) : Bool :=
  (m.ovr || (!m.sat && !m.ftz && m.rm == 0)) && (m.ovt || m.et == 0) &&
  (m.ovg || (!m.ge && !m.gn && m.gp == 0))

/-- A MOD word, if present, is well formed. -/
def modOk (m : Option Mod) : Bool :=
  match m with
  | none => true
  | some m => m.wf

def VSrc.isImm : VSrc → Bool
  | .imm => true
  | _ => false

def SSrc.isImm : SSrc → Bool
  | .imm => true
  | _ => false

def SB.isImm : SB → Bool
  | .reg a => a.isImm
  | .byte _ => false

def VB.isImm : VB → Bool
  | .vec a => a.isImm
  | .sreg a => a.isImm

/-- Whether an optional third operand is the immediate. -/
def optImm (c : Option VSrc) : Bool :=
  match c with
  | none => false
  | some c => c.isImm

/-- R301, R346: what a 64-bit source field may name: an even register or a special value, never a latch. -/
def VSrc.pairOk : VSrc → Bool
  | .v n => n.val % 2 == 0
  | .b _ => false
  | _ => true

/-- R301: a 64-bit destination is an even register or the discard. -/
def VDst.pairOk : VDst → Bool
  | .v n => n.val % 2 == 0
  | .discard => true

def VB.pairOk : VB → Bool
  | .vec a => a.pairOk
  | .sreg _ => true

/-- A third d-pair operand, if present, may be a pair. -/
def optPairOk (c : Option VSrc) : Bool :=
  match c with
  | none => true
  | some c => c.pairOk

/-- R306: an immediate stands exactly when an operand names it. -/
def immOk (im : Option Imm) (named : Bool) : Bool := im.isSome == named

/-- R380: a per-lane address names an even d-pair, a scalar or zero. -/
def MAddr.wf : MAddr → Bool
  | .pair n => n.val % 2 == 0
  | _ => true

/-- R382: the register a load of the size may name. -/
def loadDst (d : VDst) (sz : MSize) : Bool :=
  match d, sz with
  | .v n, .b64 => n.val % 2 == 0
  | .v n, .b128 => n.val % 4 == 0
  | .discard, .b64 => false
  | .discard, .b128 => false
  | _, _ => true

/-- R382: the data a store of the size may name. Log 10: a latch holds 32 bits, so b64 and b128 refuse it. -/
def storeSrc (d : VSrc) (sz : MSize) : Bool :=
  match d, sz with
  | .imm, _ => false
  | .v n, .b64 => n.val % 2 == 0
  | .v n, .b128 => n.val % 4 == 0
  | .b _, .b64 => false
  | .b _, .b128 => false
  | _, _ => true

/-- R391: an atomic's value operand of the size. -/
def atomSrc (c : VSrc) (w8 : Bool) : Bool := !c.isImm && (!w8 || c.pairOk)

/-- R391, R392: spaces of atomics. -/
def atomSpace : Space → Bool
  | .glob | .tile | .win => true
  | .priv | .const => false

/-- R419: registers lo to lo + n − 1 exist. -/
def vrange (lo : Fin 240) (n : Nat) : Bool := lo.val + n ≤ 240

/-- R419: ranges [a, a+n) and [b, b+k) do not meet. -/
def apart (a : Fin 240) (n : Nat) (b : Fin 240) (k : Nat) : Bool := a.val + n ≤ b.val || b.val + k ≤ a.val

/-- A scalar operand of a form that takes no immediate. -/
def plainS (a : SSrc) : Bool := !a.isImm

/-- A vector operand of a form that takes no immediate. -/
def plainV (a : VSrc) : Bool := !a.isImm

/-- Binary scalar forms (R350). -/
def wfScalar (m : Option Mod) (im : Option Imm) (a : SSrc) (b : SB) : Bool :=
  modOk m && immOk im (a.isImm || b.isImm)

/-- Binary vector forms (R346). -/
def wfVector (m : Option Mod) (im : Option Imm) (a : VSrc) (b : VB) : Bool :=
  modOk m && immOk im (a.isImm || b.isImm)

/-- Three-source vector forms (R356, R363). -/
def wfVector3 (m : Option Mod) (im : Option Imm) (a : VSrc) (b : VB) (c : Option VSrc) : Bool :=
  modOk m && immOk im (a.isImm || b.isImm || optImm c)

/-- Branch targets (R304): none of the fields refuses a value. -/
def wfBranch (m : Option Mod) : Bool := modOk m

/-- R294, R370: operand parity by conversion code. -/
def CvtOp.parityOk (op : CvtOp) (d : VDst) (a : VSrc) : Bool :=
  match op with
  | .f32ToF64 | .i32ToF64 => d.pairOk
  | .f64ToF32 | .f64ToI32 | .i64ToI32 => a.pairOk
  | _ => true

/-- The encoding admits the instruction (R301 to R315 and the instruction chapters). A device event has no encoding
and no operand the encoding could refuse. -/
def Instr.wf (i : Instr) : Bool :=
  match i with
  | .nop m | .yield m | .exit m | .exitSave m | .xret m => modOk m
  | .brU m _ _ _ | .brUAny m _ _ _ | .call m _ _ _ => wfBranch m
  | .brD m _ _ _ _ _ => wfBranch m
  | .brx m a | .brxCall m a => modOk m && plainS a
  | .join m _ => modOk m
  | .yieldC m _ _ => modOk m
  | .sleep m _ => modOk m
  | .rgn m _ _ _ => modOk m
  | .modeImm m _ => modOk m
  | .modeScalar m a => modOk m && plainS a
  | .wsplit m _ => modOk m
  | .wfuse m _ _ => modOk m
  | .lpc m d _ _ => modOk m && plainS d
  | .bar m _ | .barClu m _ => modOk m
  | .racq m k | .rrel m k => modOk m && k.val != 0
  | .trap m _ | .brk m _ => modOk m
  | .srd m _ _ => modOk m
  | .swr m a _ => modOk m && plainS a
  | .sadd m im _ a b | .ssub m im _ a b | .smul m im _ a b | .sand m im _ a b | .sor m im _ a b
  | .sxor m im _ a b | .sshl m im _ a b | .sshr m im _ a b | .ssar m im _ a b | .smin m im _ a b
  | .smax m im _ a b => wfScalar m im a b
  | .smov m im _ b => modOk m && immOk im b.isImm
  | .scmpEq m im _ a b | .scmpNe m im _ a b | .scmpLt m im _ a b | .scmpLtu m im _ a b
  | .scmpLe m im _ a b | .scmpLeu m im _ a b => wfScalar m im a b
  | .sbfx m im _ a b _ => wfScalar m im a b
  | .vtos m _ a b => modOk m && plainV a &&
      (match b with
       | .num _ => true
       | .sreg s => plainS s)
  | .sld m _ _ a sz _ _ _ => modOk m && plainS a && sz != .b128
  | .sst m _ d a sz _ sp _ => modOk m && plainS d && plainS a && sz != .b128 && sp != .const
  | .iadd m im _ a b | .isub m im _ a b | .imul m im _ a b | .imulh m im _ a b | .imulhu m im _ a b
  | .vAnd m im _ a b | .vOr m im _ a b | .vXor m im _ a b | .vAndn m im _ a b | .shl m im _ a b
  | .shr m im _ a b | .sar m im _ a b | .rot m im _ a b | .imin m im _ a b | .imax m im _ a b
  | .umin m im _ a b | .umax m im _ a b => wfVector m im a b
  | .imad m im _ a b c => wfVector3 m im a b c
  | .sel m im _ a b _ => wfVector m im a b
  | .lea m im d a b k => wfVector m im a b && d.pairOk && a.pairOk &&
      (match k with
       | none => true
       | some k => k.toNat ≤ 32)
  | .add64 m im d a b => wfVector m im a b && d.pairOk && a.pairOk && b.pairOk
  | .bfx m im _ a b w => wfVector m im a b && 1 ≤ w.toNat && w.toNat ≤ 32
  | .bfi m im _ a b w c => wfVector3 m im a b (some c) && 1 ≤ w.toNat && w.toNat ≤ 32
  | .mov m im _ b => modOk m && immOk im b.isImm
  | .icmpEq m im _ a b | .icmpNe m im _ a b | .icmpLt m im _ a b | .icmpLe m im _ a b
  | .icmpLtu m im _ a b | .icmpLeu m im _ a b | .itest m im _ a b => wfVector m im a b
  | .iun m _ a _ => modOk m && plainV a
  | .fadd m im _ a b | .fsub m im _ a b | .fmul m im _ a b | .fmin m im _ a b | .fmax m im _ a b =>
      wfVector m im a b
  | .ffma m im _ a b c | .fdot2 m im _ a b c => wfVector3 m im a b c
  | .fcmpEq m im _ a b | .fcmpNe m im _ a b | .fcmpLt m im _ a b | .fcmpLe m im _ a b
  | .fcmpUn m im _ a b => wfVector m im a b
  | .fclass m _ a => modOk m && plainV a
  | .funop m _ a _ => modOk m && plainV a
  | .dadd m im d a b | .dmul m im d a b => wfVector m im a b && d.pairOk && a.pairOk && b.pairOk
  | .dfma m im d a b c => wfVector3 m im a b c && d.pairOk && a.pairOk && b.pairOk && optPairOk c
  | .dcmpLt m im _ a b | .dcmpEq m im _ a b => wfVector m im a b && a.pairOk && b.pairOk
  | .cvt m d a op => modOk m && plainV a && op.parityOk d a
  | .pack m im _ a b | .unpack m im _ a b => wfVector m im a b
  | .mxq m im _ a f _ | .mxdq m im _ a f _ => modOk m && immOk im (a.isImm ||
      (match f with
       | .imm => true
       | .sreg s => s.isImm))
  | .shfl m im _ a b => modOk m && immOk im b.isImm &&
      (match a with
       | .v _ | .b _ | .laneId => true
       | .zero | .ones | .imm => false)
  | .shflXor m im _ a b => modOk m && immOk im b.isImm &&
      (match a with
       | .v _ | .b _ | .laneId => true
       | .zero | .ones | .imm => false)
  | .vote m _ _ => modOk m
  | .red m _ a _ | .scan m _ a _ => modOk m && plainV a
  | .pop m op _ _ b => modOk m &&
      (match op with
       | .mov | .not => b.val == 0
       | _ => true)
  | .rrRead m _ _ | .rrWrite m _ _ | .rrRetire m _ => modOk m
  | .ld m _ d a sz _ _ _ => modOk m && a.wf && loadDst d sz
  | .ldNf m _ d a sz _ _ => modOk m && a.wf && loadDst d sz
  | .st m _ d a sz _ sp _ => modOk m && a.wf && storeSrc d sz && sp != .const
  | .atom m _ d a op w8 sp x => modOk m && a.wf && atomSpace sp && !(op == .fadd && w8) &&
      (match x with
       | none => (d != .discard) && (!w8 || d.pairOk)
       | some x => atomSrc x.c w8 && (!w8 || d.pairOk))
  | .atomCas m _ d a w8 sp x => modOk m && a.wf && atomSpace sp && (d != .discard) && (!w8 || d.pairOk) &&
      atomSrc x.c w8
  | .lease m _ _ a => modOk m && plainS a
  | .leaseEnd m _ => modOk m
  | .fence m _ => modOk m
  | .fencePhase m sc => modOk m && sc != .grp && sc != .team
  | .xfence m _ _ _ => modOk m
  | .cachePrefetch m _ _ a _ sp => modOk m && a.wf && (sp == .glob || sp == .const)
  | .cachePagereq m _ _ a _ _ => modOk m && a.wf
  | .cacheWb m _ _ a sp | .cacheDrop m _ _ a sp => modOk m && a.wf && (sp == .glob || sp == .priv)
  | .cacheResq m _ _ a _ => modOk m && a.wf
  | .wwait m _ d a _ _ _ x => modOk m && plainS d && plainS a &&
      (match x with
       | none => true
       | some x => plainS x.c)
  | .mxld m _ d a _ sp x | .mxst m _ d a _ sp x => modOk m && plainS a && (sp == .glob || sp == .tile) &&
      (match x with
       | none => true
       | some x => plainS x.c && d.val ≤ 0xEE)
  | .qPush m _ a => modOk m &&
      (match a with
       | .s a => plainS a
       | .v _ => true)
  | .qPop m _ _ | .qPeek m _ _ | .qStat m _ _ | .qBind m _ _ => modOk m
  | .mma m _ | .mmaAcc m _ => modOk m
  | .engErd m _ _ | .engEwr m _ _ | .engEresume m _ => modOk m
  | .rndTex m _ d a _ => modOk m && vrange d 4 && vrange a 4 && apart d 4 a 4
  | .rndTexq m _ d a _ => modOk m && vrange d 4 && apart d 4 a 1
  | .rndTrace m _ d a _ | .rndTracec m _ d a _ => modOk m && vrange d 5 && vrange a 8 && apart d 5 a 8
  | .rndVmarch m _ d a _ => modOk m && vrange d 7 && vrange a 10 && apart d 7 a 10 && a.val % 2 == 0
  | .rndMshemit m _ _ _ _ => modOk m
  | .rndDraw m d a | .rndDrawTab m _ d a _ => modOk m && a.val % 2 == 0 && apart d 1 a 2
  | .rndDrawseed m _ d _ => modOk m && d.val % 2 == 0
  | .joinTimeout .. | .sleepExpire .. | .wfuseTimeout .. | .loadComplete .. | .leaseEndComplete ..
  | .leaseExpire .. | .wwaitPoll .. | .wwaitTimeout .. | .renderComplete .. | .renderFaultPark ..
  | .quadDelivery .. | .pixelGroupStart .. | .laneGrant .. | .parseStep .. | .tlbInvalDone ..
  | .pstateTransitionDone .. | .packetRetire .. | .watchPoll .. | .teamPlace .. | .clusterPlace ..
  | .preemptRequest .. | .teamRestart .. | .copyCommandStart .. | .copyFaultPark .. | .copyComplete ..
  | .collectiveMatch .. | .collectiveComplete .. | .engineResultDelivery .. | .mxeFetchFault .. | .mxePark ..
  | .mxeComputeDone .. | .clusterStagePage .. | .flePageArrival .. | .fleHintArrival .. | .sorusCloseTimeout
  | .sorusProcess | .pageHandoff .. | .sectorFillComplete .. | .deviceTlbInvalDone ..
  | .evictionWritebackDone .. | .recordReplay .. | .accessCounterDecay | .l1Eviction .. | .rdcEviction ..
  | .rdcStaleDrop .. | .powerEstimate | .thermalTrip .. | .thermalRestore .. | .cqctlWrite .. | .cqheadWrite ..
  | .msixTimerExpire .. | .msixVectorUnmask .. | .prreplyResolved .. | .prreplyFailed .. | .portctlWrite ..
  | .portTrainingDone .. | .portLinkDown .. | .portRecovered .. | .portRecoveryTimeout .. | .flitCrcFail ..
  | .ideIntegrityFail .. | .gddrUncorrectableError .. | .deviceReset .. | .vfFlr .. | .pctlEnable ..
  | .pctlDisable .. | .padmrWrite .. | .ssdataRead | .tfrtailWrite .. | .registerWrite .. | .barWindowRead ..
  | .barWindowWrite .. | .hostHdmAccess .. | .hostBirsp .. | .poolBisnp .. | .spdmRequest .. | .hostSnoop ..
  | .peerRequest .. | .collectiveFaultPark .. | .zeroingComplete .. => true

end Sys2Proof
end

