-- ==== Sys2Proof/Decode.lean ====
section
/-! DEFINITION. Decoding of instruction words (R300 to R315) and the encoder written from the same tables.
Scanning collects the prefixes of an instruction; field readers turn raw fields into operands; what the encoding
refuses is refused by name. -/

namespace Sys2Proof

/-- Why words are no instruction. The first three are the traps of R306 in their order of precedence; `truncated`
says that the words end before the instruction does (R297: an instruction never crosses a line). -/
inductive DecodeErr where
  | prefixRepeat
  | prefixMismatch
  | illegalWord
  | truncated
deriving DecidableEq, Repr

/-- An instruction's fields before they are read as operands (R300, R305). -/
structure Raw where
  mod : Option (BitVec 22)
  ext : Option (BitVec 22)
  imm : Option Imm
  op : BitVec 7
  f : BitVec 1
  d : BitVec 8
  a : BitVec 8
  b : BitVec 8
deriving DecidableEq, Repr

/-! ### Words -/

/-- The word of five fields (R300). -/
def mkWord (op : BitVec 7) (f : BitVec 1) (d a b : BitVec 8) : Word32 := op ++ f ++ d ++ a ++ b

def wordOp (w : Word32) : BitVec 7 := w.extractLsb' 25 7
def wordF (w : Word32) : BitVec 1 := w.extractLsb' 24 1
def wordD (w : Word32) : BitVec 8 := w.extractLsb' 16 8
def wordA (w : Word32) : BitVec 8 := w.extractLsb' 8 8
def wordB (w : Word32) : BitVec 8 := w.extractLsb' 0 8

/-- The major of every prefix word (R305). -/
def prefixOp : BitVec 7 := 0x7F

/-- A prefix word of a kind and a payload (R305). -/
def mkPrefix (kind : BitVec 3) (payload : BitVec 22) : Word32 := prefixOp ++ kind ++ payload

def prefixKind (w : Word32) : BitVec 3 := w.extractLsb' 22 3
def prefixPayload (w : Word32) : BitVec 22 := w.extractLsb' 0 22

/-! ### Scanning the prefixes of one instruction -/

/-- What the words read so far of one instruction hold. `lits` says how many literal words of an immediate are still
to come, `lo` the low literal of an IMM64, `rank` the place of the last prefix in the order MOD, EXT, immediate. -/
structure Scan where
  mod : Option (BitVec 22)
  ext : Option (BitVec 22)
  imm : Option Imm
  lits : Nat
  wide : Bool
  lo : Word32
  rank : Nat
  rep : Bool
  mis : Bool
  ill : Bool
deriving DecidableEq, Repr

def Scan.start : Scan :=
  { mod := none, ext := none, imm := none, lits := 0, wide := false, lo := 0, rank := 0,
    rep := false, mis := false, ill := false }

/-- A prefix of place r in the order, already present or not, noted for PREFIX_REPEAT and PREFIX_MISMATCH (R306). -/
def Scan.place (s : Scan) (r : Nat) (present : Bool) : Scan :=
  { s with rep := s.rep || present, mis := s.mis || r < s.rank, rank := r }

/-- One prefix word (R305). -/
def Scan.prefixWord (s : Scan) (w : Word32) : Scan :=
  let pl := prefixPayload w
  match (prefixKind w).toNat with
  | 0 => { s.place 3 s.imm.isSome with imm := some (.i22 pl) }
  | 1 => { s.place 3 s.imm.isSome with imm := some (.i32 0), lits := 1, wide := false, ill := s.ill || pl != 0 }
  | 2 => { s.place 3 s.imm.isSome with imm := some (.i64 0), lits := 2, wide := true, ill := s.ill || pl != 0 }
  | 3 => { s.place 1 s.mod.isSome with mod := some pl }
  | 4 => { s.place 2 s.ext.isSome with ext := some pl }
  | _ => { s with ill := true }

/-- One literal word (R305): low word first. -/
def Scan.literal (s : Scan) (w : Word32) : Scan :=
  if s.lits == 2 then { s with lo := w, lits := 1 }
  else { s with imm := some (if s.wide then .i64 (w ++ s.lo) else .i32 w), lits := 0 }

/-- Reads words up to the instruction word: the scan, the instruction word, and the words after it. -/
def scanWords (s : Scan) (ws : List Word32) : Option (Scan × Word32 × List Word32) :=
  match ws with
  | [] => none
  | w :: rest =>
    if s.lits != 0 then scanWords (s.literal w) rest
    else if wordOp w == prefixOp then scanWords (s.prefixWord w) rest
    else some (s, w, rest)

/-- The fields of a scanned instruction. -/
def Scan.raw (s : Scan) (w : Word32) : Raw :=
  { mod := s.mod, ext := s.ext, imm := s.imm, op := wordOp w, f := wordF w, d := wordD w, a := wordA w,
    b := wordB w }

/-! ### MOD and EXT payloads -/

/-- MOD payload (R307). -/
def Mod.payload (m : Mod) : BitVec 22 :=
  BitVec.ofBool m.ovr ++ BitVec.ofBool m.ovt ++ BitVec.ofBool m.ovg ++ BitVec.ofBool m.sat ++
  BitVec.ofBool m.ftz ++ m.rm ++ m.et ++ BitVec.ofBool m.ge ++ BitVec.ofBool m.gn ++ m.gp

def Mod.ofPayload (v : BitVec 22) : Mod :=
  { ovr := v.getLsbD 21, ovt := v.getLsbD 20, ovg := v.getLsbD 19, sat := v.getLsbD 18, ftz := v.getLsbD 17,
    rm := v.extractLsb' 14 3, et := v.extractLsb' 9 5, ge := v.getLsbD 8, gn := v.getLsbD 7,
    gp := v.extractLsb' 0 7 }

/-- EXT payload (R308). -/
def mkExt (aux : BitVec 6) (pred : BitVec 7) (c : BitVec 8) : BitVec 22 := (0#1) ++ aux ++ pred ++ c

def extAux (v : BitVec 22) : BitVec 6 := v.extractLsb' 15 6
def extPred (v : BitVec 22) : BitVec 7 := v.extractLsb' 8 7
def extC (v : BitVec 22) : BitVec 8 := v.extractLsb' 0 8

/-! ### Field readers and their inverses -/

/-- A number below n, or nothing. -/
def finOf (n : Nat) (v : Nat) : Option (Fin n) := if h : v < n then some ⟨v, h⟩ else none

/-- Vector-class source (R301). -/
def VSrc.ofByte (x : BitVec 8) : Option VSrc :=
  let n := x.toNat
  if h : n < 240 then some (.v ⟨n, h⟩)
  else if h : n - 240 < 4 then some (.b ⟨n - 240, h⟩)
  else match n - 244 with
    | 0 => some .zero
    | 1 => some .laneId
    | 2 => some .ones
    | 3 => some .imm
    | _ => none

def VSrc.byte (a : VSrc) : BitVec 8 :=
  match a with
  | .v n => BitVec.ofNat 8 n.val
  | .b k => BitVec.ofNat 8 (240 + k.val)
  | .zero => 0xF4
  | .laneId => 0xF5
  | .ones => 0xF6
  | .imm => 0xF7

/-- Vector-class destination (R301). -/
def VDst.ofByte (x : BitVec 8) : Option VDst :=
  if h : x.toNat < 240 then some (.v ⟨x.toNat, h⟩)
  else if x == 0xFF then some .discard
  else none

def VDst.byte (d : VDst) : BitVec 8 :=
  match d with
  | .v n => BitVec.ofNat 8 n.val
  | .discard => 0xFF

/-- Scalar-class source (R302). -/
def SSrc.ofByte (x : BitVec 8) : Option SSrc :=
  if h : x.toNat < 64 then some (.s ⟨x.toNat, h⟩)
  else if x == 0x40 then some .zero
  else if x == 0x41 then some .imm
  else none

def SSrc.byte (a : SSrc) : BitVec 8 :=
  match a with
  | .s n => BitVec.ofNat 8 n.val
  | .zero => 0x40
  | .imm => 0x41

/-- Scalar-class destination (R302). -/
def SDst.ofByte (x : BitVec 8) : Option SDst :=
  if h : x.toNat < 64 then some (.s ⟨x.toNat, h⟩)
  else if x == 0x40 then some .discard
  else none

def SDst.byte (d : SDst) : BitVec 8 :=
  match d with
  | .s n => BitVec.ofNat 8 n.val
  | .discard => 0x40

/-- Operand B of a scalar instruction (R350). -/
def SB.ofField (f : BitVec 1) (x : BitVec 8) : Option SB :=
  if f == 0 then (SSrc.ofByte x).map .reg else some (.byte x)

def SB.f : SB → BitVec 1
  | .reg _ => 0
  | .byte _ => 1

def SB.byteOf : SB → BitVec 8
  | .reg a => a.byte
  | .byte v => v

/-- Operand B of a vector instruction (R346). -/
def VB.ofField (f : BitVec 1) (x : BitVec 8) : Option VB :=
  if f == 0 then (VSrc.ofByte x).map .vec else (SSrc.ofByte x).map .sreg

def VB.f : VB → BitVec 1
  | .vec _ => 0
  | .sreg _ => 1

def VB.byte : VB → BitVec 8
  | .vec a => a.byte
  | .sreg a => a.byte

/-- Lane operand of vtos (R353). -/
def LaneSel.ofField (f : BitVec 1) (x : BitVec 8) : Option LaneSel :=
  if f == 0 then some (.num x) else (SSrc.ofByte x).map .sreg

def LaneSel.f : LaneSel → BitVec 1
  | .num _ => 0
  | .sreg _ => 1

def LaneSel.byte : LaneSel → BitVec 8
  | .num v => v
  | .sreg a => a.byte

/-- Format operand of mxq and mxdq (R372). -/
def FmtSrc.ofField (f : BitVec 1) (x : BitVec 8) : Option FmtSrc :=
  if f == 0 then (if x == 0xF7 then some .imm else none) else (SSrc.ofByte x).map .sreg

def FmtSrc.f : FmtSrc → BitVec 1
  | .imm => 0
  | .sreg _ => 1

def FmtSrc.byte : FmtSrc → BitVec 8
  | .imm => 0xF7
  | .sreg a => a.byte

/-- Address operand (R380). -/
def MAddr.ofField (f : BitVec 1) (x : BitVec 8) : Option MAddr :=
  if f == 0 then (finOf 240 x.toNat).map .pair
  else if h : x.toNat < 64 then some (.sreg ⟨x.toNat, h⟩)
  else if x == 0x40 then some .zero
  else none

def MAddr.f : MAddr → BitVec 1
  | .pair _ => 0
  | .sreg _ => 1
  | .zero => 1

def MAddr.byte : MAddr → BitVec 8
  | .pair n => BitVec.ofNat 8 n.val
  | .sreg n => BitVec.ofNat 8 n.val
  | .zero => 0x40

/-- Predicate fields have bit 7 clear (R302). -/
def predOf (x : BitVec 8) : Option (Fin 128) := finOf 128 x.toNat

/-- The byte of a small register or predicate number. -/
def finByte (v : Nat) : BitVec 8 := BitVec.ofNat 8 v

/-- Field value that must be 0 (R303). -/
def must (c : Bool) : Option Unit := if c then some () else none

/-- SIZE of the memory minor (R315). -/
def MSize.ofCode (n : Nat) : Option MSize :=
  match n with
  | 0 => some .u8
  | 1 => some .s8
  | 2 => some .u16
  | 3 => some .s16
  | 4 => some .b32
  | 5 => some .b64
  | 6 => some .b128
  | _ => none

def MSize.code (x : MSize) : Nat :=
  match x with
  | .u8 => 0
  | .s8 => 1
  | .u16 => 2
  | .s16 => 3
  | .b32 => 4
  | .b64 => 5
  | .b128 => 6

/-- SPACE of the memory minor (R315). -/
def Space.ofCode (n : Nat) : Option Space :=
  match n with
  | 0 => some .glob
  | 1 => some .tile
  | 2 => some .win
  | 3 => some .priv
  | 4 => some .const
  | _ => none

def Space.code (x : Space) : Nat :=
  match x with
  | .glob => 0
  | .tile => 1
  | .win => 2
  | .priv => 3
  | .const => 4

/-- Scope codes (R203). -/
def Scope.ofCode (n : Nat) : Option Scope :=
  match n with
  | 0 => some .grp
  | 1 => some .team
  | 2 => some .clu
  | 3 => some .die
  | 4 => some .dev
  | 5 => some .sys
  | _ => none

def Scope.code (x : Scope) : Nat :=
  match x with
  | .grp => 0
  | .team => 1
  | .clu => 2
  | .die => 3
  | .dev => 4
  | .sys => 5

/-- Operation of an atomic (R391). -/
def AtomOp.ofCode (n : Nat) : Option AtomOp :=
  match n with
  | 0 => some .add
  | 1 => some .and
  | 2 => some .or
  | 3 => some .xor
  | 4 => some .min
  | 5 => some .max
  | 6 => some .umin
  | 7 => some .umax
  | 8 => some .exch
  | 9 => some .fadd
  | _ => none

def AtomOp.code (x : AtomOp) : Nat :=
  match x with
  | .add => 0
  | .and => 1
  | .or => 2
  | .xor => 3
  | .min => 4
  | .max => 5
  | .umin => 6
  | .umax => 7
  | .exch => 8
  | .fadd => 9

/-- Comparison codes (R75, R399). -/
def Cmp.ofCode (n : Nat) : Option Cmp :=
  match n with
  | 0 => some .eq
  | 1 => some .ne
  | 2 => some .lt
  | 3 => some .ge
  | 4 => some .allSet
  | 5 => some .anySet
  | _ => none

def Cmp.code (x : Cmp) : Nat :=
  match x with
  | .eq => 0
  | .ne => 1
  | .lt => 2
  | .ge => 3
  | .allSet => 4
  | .anySet => 5

/-- Minors of iun (R314). -/
def IunOp.ofCode (n : Nat) : Option IunOp :=
  match n with
  | 0 => some .abs
  | 1 => some .neg
  | 2 => some .not
  | 3 => some .clz
  | 4 => some .ctz
  | 5 => some .popc
  | 6 => some .brev
  | 7 => some .sext8
  | 8 => some .sext16
  | 9 => some .zext8
  | 10 => some .zext16
  | _ => none

def IunOp.code (x : IunOp) : Nat :=
  match x with
  | .abs => 0
  | .neg => 1
  | .not => 2
  | .clz => 3
  | .ctz => 4
  | .popc => 5
  | .brev => 6
  | .sext8 => 7
  | .sext16 => 8
  | .zext8 => 9
  | .zext16 => 10

/-- Minors of fun (R314). -/
def FunOp.ofCode (n : Nat) : Option FunOp :=
  match n with
  | 0 => some .abs
  | 1 => some .neg
  | 2 => some .rcp
  | 3 => some .rsq
  | 4 => some .sqrt
  | 5 => some .exp2
  | 6 => some .log2
  | 7 => some .sinpi
  | 8 => some .cospi
  | 9 => some .floor
  | 10 => some .ceil
  | 11 => some .trunc
  | 12 => some .rint
  | _ => none

def FunOp.code (x : FunOp) : Nat :=
  match x with
  | .abs => 0
  | .neg => 1
  | .rcp => 2
  | .rsq => 3
  | .sqrt => 4
  | .exp2 => 5
  | .log2 => 6
  | .sinpi => 7
  | .cospi => 8
  | .floor => 9
  | .ceil => 10
  | .trunc => 11
  | .rint => 12

/-- Minors of red and scan (R314). -/
def RedOp.ofCode (n : Nat) : Option RedOp :=
  match n with
  | 0 => some .add
  | 1 => some .min
  | 2 => some .max
  | 3 => some .umin
  | 4 => some .umax
  | 5 => some .and
  | 6 => some .or
  | 7 => some .xor
  | 8 => some .fadd
  | _ => none

def RedOp.code (x : RedOp) : Nat :=
  match x with
  | .add => 0
  | .min => 1
  | .max => 2
  | .umin => 3
  | .umax => 4
  | .and => 5
  | .or => 6
  | .xor => 7
  | .fadd => 8

/-- Minors of pop (R314). -/
def PopOp.ofCode (n : Nat) : Option PopOp :=
  match n with
  | 0 => some .and
  | 1 => some .or
  | 2 => some .xor
  | 3 => some .andn
  | 4 => some .orn
  | 5 => some .nand
  | 6 => some .nor
  | 7 => some .xnor
  | 8 => some .mov
  | 9 => some .not
  | _ => none

def PopOp.code (x : PopOp) : Nat :=
  match x with
  | .and => 0
  | .or => 1
  | .xor => 2
  | .andn => 3
  | .orn => 4
  | .nand => 5
  | .nor => 6
  | .xnor => 7
  | .mov => 8
  | .not => 9

/-- Conversion codes (R294). -/
def CvtOp.ofCode (n : Nat) : Option CvtOp :=
  match n with
  | 1 => some .f32ToF16
  | 2 => some .f32ToBf16
  | 3 => some .f32ToE4m3
  | 4 => some .f32ToE5m2
  | 5 => some .f32ToE2m1
  | 6 => some .f16ToF32
  | 7 => some .bf16ToF32
  | 8 => some .e4m3ToF32
  | 9 => some .e5m2ToF32
  | 10 => some .e2m1ToF32
  | 11 => some .f32ToI32
  | 12 => some .f32ToU32
  | 13 => some .i32ToF32
  | 14 => some .u32ToF32
  | 15 => some .f32ToF64
  | 16 => some .f64ToF32
  | 17 => some .i32ToF64
  | 18 => some .f64ToI32
  | 19 => some .f32ToI32Trunc
  | 20 => some .i32ToI16
  | 21 => some .i32ToI8
  | 22 => some .u32ToU16
  | 23 => some .u32ToU8
  | 24 => some .i64ToI32
  | _ => none

def CvtOp.code (x : CvtOp) : Nat :=
  match x with
  | .f32ToF16 => 1
  | .f32ToBf16 => 2
  | .f32ToE4m3 => 3
  | .f32ToE5m2 => 4
  | .f32ToE2m1 => 5
  | .f16ToF32 => 6
  | .bf16ToF32 => 7
  | .e4m3ToF32 => 8
  | .e5m2ToF32 => 9
  | .e2m1ToF32 => 10
  | .f32ToI32 => 11
  | .f32ToU32 => 12
  | .i32ToF32 => 13
  | .u32ToF32 => 14
  | .f32ToF64 => 15
  | .f64ToF32 => 16
  | .i32ToF64 => 17
  | .f64ToI32 => 18
  | .f32ToI32Trunc => 19
  | .i32ToI16 => 20
  | .i32ToI8 => 21
  | .u32ToU16 => 22
  | .u32ToU8 => 23
  | .i64ToI32 => 24

/-- Special-register index (R342). -/
def SpReg.ofCode (n : Nat) : Option SpReg :=
  match n with
  | 0 => some .mode
  | 1 => some .flags
  | 2 => some .gang
  | 3 => some .width
  | 4 => some .gid
  | 5 => some .tid
  | 6 => some .cid
  | 7 => some .core
  | 8 => some .xpc
  | 9 => some .xcause
  | 10 => some .xmode
  | 11 => some .xinfo
  | 12 => some .trapbase
  | 13 => some .csabase
  | 14 => some .rgnentry
  | 15 => some .rgnmask
  | 16 => some .drawkey
  | 17 => some .drawctr
  | 18 => some .rrcount
  | 19 => some .splits
  | 20 => some .clock
  | 21 => some .leasestat
  | 22 => some .extregs
  | 23 => some .fusestat
  | _ => none

def SpReg.code (x : SpReg) : Nat :=
  match x with
  | .mode => 0
  | .flags => 1
  | .gang => 2
  | .width => 3
  | .gid => 4
  | .tid => 5
  | .cid => 6
  | .core => 7
  | .xpc => 8
  | .xcause => 9
  | .xmode => 10
  | .xinfo => 11
  | .trapbase => 12
  | .csabase => 13
  | .rgnentry => 14
  | .rgnmask => 15
  | .drawkey => 16
  | .drawctr => 17
  | .rrcount => 18
  | .splits => 19
  | .clock => 20
  | .leasestat => 21
  | .extregs => 22
  | .fusestat => 23

/-- A bit as a field. -/
def bit (x : Bool) : BitVec 1 := BitVec.ofBool x

/-- Memory minor (R315): SIZE, ORDER, SPACE. -/
def memMinor (sz : MSize) (ord : Bool) (sp : Space) : BitVec 8 :=
  BitVec.ofNat 3 sz.code ++ (0#1) ++ bit ord ++ BitVec.ofNat 3 sp.code

def minorSize (x : BitVec 8) : Option MSize := MSize.ofCode (x.extractLsb' 5 3).toNat
def minorOrd (x : BitVec 8) : Option Bool := if x.getLsbD 4 then none else some (x.getLsbD 3)
def minorSpace (x : BitVec 8) : Option Space := Space.ofCode (x.extractLsb' 0 3).toNat

/-- The reserved bit of an EXT payload is 0 (R308). -/
def extOk (v : BitVec 22) : Bool := !v.getLsbD 21

/-- EXT of an ordinary load or store: a scope, nothing else (R308, R315). Log 11: the scope is read with ORDER 00 too. -/
def scopeOfExt (e : Option (BitVec 22)) : Option (Option Scope) :=
  match e with
  | none => some none
  | some v => if extOk v && extPred v == 0 && extC v == 0 then (Scope.ofCode (extAux v).toNat).map some else none

def extOfScope (sc : Option Scope) : Option (BitVec 22) := sc.map fun s => mkExt (BitVec.ofNat 6 s.code) 0 0

/-- EXT of an atomic (R308, R391). -/
def atomOfExt (v : BitVec 22) : Option AtomExt := do
  must (extOk v && !(extAux v).getLsbD 5 && !(extAux v).getLsbD 4 && extPred v == 0)
  let sc ← Scope.ofCode ((extAux v).extractLsb' 0 3).toNat
  let c ← VSrc.ofByte (extC v)
  pure { c := c, ordered := (extAux v).getLsbD 3, scope := sc }

def AtomExt.payload (x : AtomExt) : BitVec 22 :=
  mkExt ((0#2) ++ bit x.ordered ++ BitVec.ofNat 3 x.scope.code) 0 x.c.byte

/-- EXT of wwait (R399). -/
def waitOfExt (v : BitVec 22) : Option WaitExt := do
  must (extOk v)
  let sc ← Scope.ofCode (extAux v).toNat
  let c ← SSrc.ofByte (extC v)
  pure { scope := sc, p := ⟨(extPred v).toNat, by omega⟩, c := c }

def WaitExt.payload (x : WaitExt) : BitVec 22 := mkExt (BitVec.ofNat 6 x.scope.code) (BitVec.ofNat 7 x.p.val) x.c.byte

/-- EXT of mxld and mxst (R401). -/
def mxOfExt (v : BitVec 22) : Option MxExt := do
  must (extOk v && extPred v == 0)
  let sc ← Scope.ofCode (extAux v).toNat
  let c ← SSrc.ofByte (extC v)
  pure { scope := sc, c := c }

def MxExt.payload (x : MxExt) : BitVec 22 := mkExt (BitVec.ofNat 6 x.scope.code) 0 x.c.byte

/-- An EXT that may stand but holds nothing (R394, R397): present or absent. -/
def emptyExt (e : Option (BitVec 22)) : Option Bool :=
  match e with
  | none => some false
  | some v => if v == 0 then some true else none

def extOfEmpty (x : Bool) : Option (BitVec 22) := if x then some 0 else none

/-- EXT that holds only a third vector operand (R356, R363). -/
def thirdOfExt (e : Option (BitVec 22)) : Option (Option VSrc) :=
  match e with
  | none => some none
  | some v => if extOk v && extAux v == 0 && extPred v == 0 then (VSrc.ofByte (extC v)).map some else none

def extOfThird (c : Option VSrc) : Option (BitVec 22) := c.map fun c => mkExt 0 0 c.byte

/-- EXT that holds only a v-register (R372). -/
def regOfExt (e : Option (BitVec 22)) : Option (Option (Fin 240)) :=
  match e with
  | none => some none
  | some v => if extOk v && extAux v == 0 && extPred v == 0 then (finOf 240 (extC v).toNat).map some else none

def extOfReg (c : Option (Fin 240)) : Option (BitVec 22) := c.map fun c => mkExt 0 0 (finByte c.val)

/-- EXT that holds only a predicate (R357, R388, R395). -/
def predOfExt (e : Option (BitVec 22)) : Option (Fin 128) :=
  match e with
  | none => none
  | some v => if extOk v && extAux v == 0 && extC v == 0 then some ⟨(extPred v).toNat, by omega⟩ else none

def extOfPred (p : Fin 128) : Option (BitVec 22) := some (mkExt 0 (BitVec.ofNat 7 p.val) 0)

/-- EXT that holds only AUX (R352, R359). -/
def auxOfExt (e : Option (BitVec 22)) : Option (BitVec 6) :=
  match e with
  | none => none
  | some v => if extOk v && extPred v == 0 && extC v == 0 then some (extAux v) else none

def extOfAux (w : BitVec 6) : Option (BitVec 22) := some (mkExt w 0 0)

/-- Payload of the IMM22 of br.d and yield.c (R304). -/
def imm22 (im : Option Imm) : Option (BitVec 22) :=
  match im with
  | some (.i22 v) => some v
  | _ => none

/-- Literal of the IMM32 of rgn and lpc, with bits [31:30] 0 (R332, R336). -/
def imm30 (im : Option Imm) : Option (BitVec 30) :=
  match im with
  | some (.i32 v) => if v.extractLsb' 30 2 == 0 then some (v.extractLsb' 0 30) else none
  | _ => none

/-- Fields of a branch word (R304). -/
def branchPred (r : Raw) : Fin 128 := ⟨(r.d.extractLsb' 1 7).toNat, by omega⟩
def branchNeg (r : Raw) : Bool := r.d.getLsbD 0
def branchLoff (r : Raw) : BitVec 11 := (r.a ++ r.b).extractLsb' 5 11
def branchSlot (r : Raw) : BitVec 5 := r.b.extractLsb' 0 5

/-- Target of br.u and call: near, or far with LOFF and SLOT 0 (R304). -/
def branchTarget (r : Raw) : Option BTarget :=
  match r.imm with
  | some (.i32 v) => if branchLoff r == 0 && branchSlot r == 0 then some (.far v) else none
  | _ => some (.near (branchLoff r) (branchSlot r))

def branchD (p : Fin 128) (neg : Bool) : BitVec 8 := BitVec.ofNat 7 p.val ++ bit neg
def branchA (l : BitVec 11) : BitVec 8 := l.extractLsb' 3 8
def branchB (l : BitVec 11) (s : BitVec 5) : BitVec 8 := l.extractLsb' 0 3 ++ s

/-! ### Prefixes an instruction accepts (R313) -/

/-- How an instruction uses an immediate. -/
inductive ImmUse where
  | refused      -- none accepted
  | fields       -- consumed by a field that names it
  | offset       -- consumed implicitly, any kind
  | far          -- IMM32 only
  | only22
  | only32
deriving DecidableEq, Repr

/-- How the instruction of raw fields uses an immediate (R313, R395, R418). -/
def Raw.immUse (r : Raw) : ImmUse :=
  let n := r.op.toNat
  if n == 0x01 || n == 0x03 then .far
  else if n == 0x02 then .only22
  else if n == 0x06 then (if r.f == 1 then .only22 else .refused)
  else if n == 0x08 || n == 0x0C then .only32
  else if 0x18 ≤ n && n ≤ 0x2A then .fields
  else if n == 0x2D || n == 0x2E then .offset
  else if 0x30 ≤ n && n ≤ 0x4E then .fields
  else if 0x51 ≤ n && n ≤ 0x5C then .fields
  else if 0x5F ≤ n && n ≤ 0x63 then .fields
  else if 0x65 ≤ n && n ≤ 0x69 then .fields
  else if 0x70 ≤ n && n ≤ 0x74 then .offset
  else if n == 0x75 then (if r.f == 0 then .offset else .refused)
  else if 0x77 ≤ n && n ≤ 0x7A then .offset
  else if n == 0x7E then (if (r.b.extractLsb' 5 3) == 6 && r.f == 0 then .refused else .offset)
  else .refused

/-- A major that R313 reserves: no instruction, so no prefix is refused before ILLEGAL_WORD (DEDUCED, log 12). -/
def Raw.reserved (r : Raw) : Bool :=
  let n := r.op.toNat
  n == 0x16 || n == 0x17 || n == 0x2C || n == 0x2F || n == 0x4F || n == 0x6F

/-- Whether the instruction accepts EXT (R313). -/
def Raw.takesExt (r : Raw) : Bool :=
  let n := r.op.toNat
  n == 0x2A || n == 0x2D || n == 0x2E || n == 0x35 || n == 0x42 || n == 0x43 || n == 0x45 || n == 0x46 ||
  n == 0x54 || n == 0x57 || n == 0x61 || n == 0x67 || n == 0x68 || (0x70 ≤ n && n ≤ 0x75) ||
  (0x77 ≤ n && n ≤ 0x7A)

/-- Whether EXT C of the instruction is a vector-class source that may name the immediate. -/
def Raw.thirdVector (r : Raw) : Bool :=
  let n := r.op.toNat
  n == 0x35 || n == 0x46 || n == 0x54 || n == 0x57 || n == 0x61

/-- Whether some field of an instruction with field operands names the immediate (R301, R302, R346, R350). -/
def Raw.namesImm (r : Raw) : Bool :=
  if r.op.toNat < 0x30 then r.a == 0x41 || (r.f == 0 && r.b == 0x41)
  else r.a == 0xF7 || (if r.f == 0 then r.b == 0xF7 else r.b == 0x41) ||
    (r.thirdVector && (match r.ext with
      | none => false
      | some v => extC v == 0xF7))

/-- The immediate is of a kind the instruction accepts and something consumes it (R306). -/
def Raw.immFits (r : Raw) : Bool :=
  match r.imm with
  | none => true
  | some im =>
    match r.immUse, im with
    | .refused, _ => false
    | .fields, _ => r.namesImm
    | .offset, _ => true
    | .far, .i32 _ => true
    | .only32, .i32 _ => true
    | .only22, .i22 _ => true
    | _, _ => false

/-- PREFIX_MISMATCH for a prefix of a kind the instruction does not accept, or an unused immediate (R306). -/
def Raw.mismatch (r : Raw) : Bool := !r.reserved && ((r.ext.isSome && !r.takesExt) || !r.immFits)

/-! ### Operand reading, by family -/

/-- Shift of lea (R358): AUX of an EXT whose other fields are 0, or none. -/
def leaShift (e : Option (BitVec 22)) : Option (Option (BitVec 6)) :=
  match e with
  | none => some none
  | some v => (auxOfExt (some v)).map some

/-- Width and base operand of bfi (R359). -/
def bfiExt (e : Option (BitVec 22)) : Option (BitVec 6 × VSrc) :=
  match e with
  | none => none
  | some v => do
    must (extOk v && extPred v == 0)
    let c ← VSrc.ofByte (extC v)
    pure (extAux v, c)

/-- Minor and destination of vote (R376). -/
def voteOf (minor d : BitVec 8) : Option VoteOp :=
  match minor.toNat with
  | 0 => (predOf d).map .any
  | 1 => (predOf d).map .all
  | 2 => (VDst.ofByte d).map .ballot
  | 3 => (VDst.ofByte d).map .count
  | _ => none

def VoteOp.minor : VoteOp → BitVec 8
  | .any _ => 0
  | .all _ => 1
  | .ballot _ => 2
  | .count _ => 3

def VoteOp.dst : VoteOp → BitVec 8
  | .any d => finByte d.val
  | .all d => finByte d.val
  | .ballot d => d.byte
  | .count d => d.byte

/-- The predicate index of a pop field (R379). -/
def low7 (x : BitVec 8) : BitVec 8 := x &&& 0x7F

/-- Slot of rr (R429). -/
def slotOf (r : Raw) : Option RrSlot :=
  if r.f == 0 then do
    must (r.a == 0)
    pure (.num ⟨(r.b.extractLsb' 0 3).toNat, by omega⟩)
  else do
    must (r.b.extractLsb' 0 3 == 0)
    (finOf 64 r.a.toNat).map .sreg

/-- First of eight s-registers, as its number of eights (R429). -/
def rrBase (x : BitVec 8) : Option (Fin 8) := if x.toNat % 8 == 0 then finOf 8 (x.toNat / 8) else none

def qSrcOf (r : Raw) : Option QSrc :=
  if r.f == 0 then (SSrc.ofByte r.d).map .s else (finOf 240 r.d.toNat).map .v

def qDstOf (r : Raw) : Option QDst :=
  if r.f == 0 then (SDst.ofByte r.d).map .s else (finOf 240 r.d.toNat).map .v

/-- Operands of the control majors, which begin at 0x00. -/
def readControl (m : Option Mod) (r : Raw) : Option Instr :=
  match r.op.toNat - 0x00 with
  | 0 => do
    must (r.f == 0 && r.d == 0 && r.a == 0 && r.b == 0)
    pure (.nop m)
  | 1 => do
    let t ← branchTarget r
    pure (if r.f == 0 then .brU m (branchPred r) (branchNeg r) t else .brUAny m (branchPred r) (branchNeg r) t)
  | 2 => do
    must (r.f == 0)
    let j ← imm22 r.imm
    pure (.brD m (branchPred r) (branchNeg r) (branchLoff r) (branchSlot r) j)
  | 3 => do
    must (r.f == 0)
    let t ← branchTarget r
    pure (.call m (branchPred r) (branchNeg r) t)
  | 4 => do
    must (r.d == 0 && r.b == 0)
    let a ← SSrc.ofByte r.a
    pure (if r.f == 0 then .brx m a else .brxCall m a)
  | 5 => do
    must (r.f == 0 && r.a == 0 && r.b == 0)
    let n ← finOf 21 r.d.toNat
    pure (.join m n)
  | 6 => do
    if r.f == 0 then do
      must (r.d == 0 && r.a == 0 && r.b == 0)
      pure (.yield m)
    else do
      must (r.d == 0 && r.b == 0)
      let q ← finOf 8 r.a.toNat
      let c ← imm22 r.imm
      pure (.yieldC m q c)
  | 7 => do
    must (r.d == 0 && r.a == 0 && r.b == 0)
    pure (if r.f == 0 then .exit m else .exitSave m)
  | 8 => do
    must (r.f == 0)
    let v ← imm30 r.imm
    pure (.rgn m v r.d (r.a ++ r.b))
  | 9 => do
    if r.f == 0 then pure (.modeImm m (r.d ++ r.a ++ r.b)) else do
      must (r.d == 0 && r.b == 0)
      let a ← SSrc.ofByte r.a
      pure (.modeScalar m a)
  | 10 => do
    must (r.f == 0 && r.a == 0 && r.b == 0)
    let d ← SDst.ofByte r.d
    pure (.wsplit m d)
  | 11 => do
    must (r.f == 0 && r.b == 0 && r.a.toNat ≤ 1)
    let d ← SDst.ofByte r.d
    pure (.wfuse m d (r.a == 1))
  | 12 => do
    must (r.f == 0 && r.b == 0)
    let d ← SSrc.ofByte r.d
    let a ← finOf 240 r.a.toNat
    let v ← imm30 r.imm
    pure (.lpc m d a v)
  | 13 => do
    must (r.a == 0 && r.b == 0)
    let n ← finOf 16 r.d.toNat
    pure (if r.f == 0 then .bar m n else .barClu m n)
  | 14 => do
    must (r.f == 0 && r.d == 0 && r.a == 0)
    let k ← finOf 30 r.b.toNat
    pure (.racq m k)
  | 15 => do
    must (r.f == 0 && r.d == 0 && r.a == 0)
    let k ← finOf 30 r.b.toNat
    pure (.rrel m k)
  | 16 => do
    must (r.f == 0 && r.d == 0 && r.a == 0)
    pure (.trap m r.b)
  | 17 => do
    must (r.f == 0 && r.d == 0 && r.a == 0 && r.b == 0)
    pure (.xret m)
  | 18 => do
    must (r.f == 0 && r.d == 0 && r.a == 0)
    pure (.brk m r.b)
  | 19 => do
    must (r.f == 0)
    let d ← SDst.ofByte r.d
    let x ← SpReg.ofCode (r.a ++ r.b).toNat
    pure (.srd m d x)
  | 20 => do
    must (r.f == 0)
    let a ← SSrc.ofByte r.d
    let x ← SpReg.ofCode (r.a ++ r.b).toNat
    pure (.swr m a x)
  | 21 => do
    must (r.f == 0 && r.d == 0)
    pure (.sleep m (r.a ++ r.b))
  | _ => none

/-- Operands of the scalar majors, which begin at 0x18. -/
def readScalar (m : Option Mod) (r : Raw) : Option Instr :=
  match r.op.toNat - 0x18 with
  | 0 => do
    let d ← SDst.ofByte r.d
    let a ← SSrc.ofByte r.a
    let b ← SB.ofField r.f r.b
    pure (.sadd m r.imm d a b)
  | 1 => do
    let d ← SDst.ofByte r.d
    let a ← SSrc.ofByte r.a
    let b ← SB.ofField r.f r.b
    pure (.ssub m r.imm d a b)
  | 2 => do
    let d ← SDst.ofByte r.d
    let a ← SSrc.ofByte r.a
    let b ← SB.ofField r.f r.b
    pure (.smul m r.imm d a b)
  | 3 => do
    let d ← SDst.ofByte r.d
    let a ← SSrc.ofByte r.a
    let b ← SB.ofField r.f r.b
    pure (.sand m r.imm d a b)
  | 4 => do
    let d ← SDst.ofByte r.d
    let a ← SSrc.ofByte r.a
    let b ← SB.ofField r.f r.b
    pure (.sor m r.imm d a b)
  | 5 => do
    let d ← SDst.ofByte r.d
    let a ← SSrc.ofByte r.a
    let b ← SB.ofField r.f r.b
    pure (.sxor m r.imm d a b)
  | 6 => do
    let d ← SDst.ofByte r.d
    let a ← SSrc.ofByte r.a
    let b ← SB.ofField r.f r.b
    pure (.sshl m r.imm d a b)
  | 7 => do
    let d ← SDst.ofByte r.d
    let a ← SSrc.ofByte r.a
    let b ← SB.ofField r.f r.b
    pure (.sshr m r.imm d a b)
  | 8 => do
    let d ← SDst.ofByte r.d
    let a ← SSrc.ofByte r.a
    let b ← SB.ofField r.f r.b
    pure (.ssar m r.imm d a b)
  | 9 => do
    let d ← SDst.ofByte r.d
    let a ← SSrc.ofByte r.a
    let b ← SB.ofField r.f r.b
    pure (.smin m r.imm d a b)
  | 10 => do
    let d ← SDst.ofByte r.d
    let a ← SSrc.ofByte r.a
    let b ← SB.ofField r.f r.b
    pure (.smax m r.imm d a b)
  | 11 => do
    must (r.a == 0)
    let d ← SDst.ofByte r.d
    let b ← SB.ofField r.f r.b
    pure (.smov m r.imm d b)
  | 12 => do
    let d ← predOf r.d
    let a ← SSrc.ofByte r.a
    let b ← SB.ofField r.f r.b
    pure (.scmpEq m r.imm d a b)
  | 13 => do
    let d ← predOf r.d
    let a ← SSrc.ofByte r.a
    let b ← SB.ofField r.f r.b
    pure (.scmpNe m r.imm d a b)
  | 14 => do
    let d ← predOf r.d
    let a ← SSrc.ofByte r.a
    let b ← SB.ofField r.f r.b
    pure (.scmpLt m r.imm d a b)
  | 15 => do
    let d ← predOf r.d
    let a ← SSrc.ofByte r.a
    let b ← SB.ofField r.f r.b
    pure (.scmpLtu m r.imm d a b)
  | 16 => do
    let d ← predOf r.d
    let a ← SSrc.ofByte r.a
    let b ← SB.ofField r.f r.b
    pure (.scmpLe m r.imm d a b)
  | 17 => do
    let d ← predOf r.d
    let a ← SSrc.ofByte r.a
    let b ← SB.ofField r.f r.b
    pure (.scmpLeu m r.imm d a b)
  | 18 => do
    let d ← SDst.ofByte r.d
    let a ← SSrc.ofByte r.a
    let b ← SB.ofField r.f r.b
    let w ← auxOfExt r.ext
    pure (.sbfx m r.imm d a b w)
  | 19 => do
    let d ← SDst.ofByte r.d
    let a ← VSrc.ofByte r.a
    let b ← LaneSel.ofField r.f r.b
    pure (.vtos m d a b)
  | 21 => do
    must (r.f == 0)
    let d ← SDst.ofByte r.d
    let a ← SSrc.ofByte r.a
    let sz ← minorSize r.b
    let o ← minorOrd r.b
    let sp ← minorSpace r.b
    let sc ← scopeOfExt r.ext
    pure (.sld m r.imm d a sz o sp sc)
  | 22 => do
    must (r.f == 0)
    let d ← SSrc.ofByte r.d
    let a ← SSrc.ofByte r.a
    let sz ← minorSize r.b
    let o ← minorOrd r.b
    let sp ← minorSpace r.b
    let sc ← scopeOfExt r.ext
    pure (.sst m r.imm d a sz o sp sc)
  | _ => none

/-- Operands of the integer majors, which begin at 0x30. -/
def readInteger (m : Option Mod) (r : Raw) : Option Instr :=
  match r.op.toNat - 0x30 with
  | 0 => do
    let d ← VDst.ofByte r.d
    let a ← VSrc.ofByte r.a
    let b ← VB.ofField r.f r.b
    pure (.iadd m r.imm d a b)
  | 1 => do
    let d ← VDst.ofByte r.d
    let a ← VSrc.ofByte r.a
    let b ← VB.ofField r.f r.b
    pure (.isub m r.imm d a b)
  | 2 => do
    let d ← VDst.ofByte r.d
    let a ← VSrc.ofByte r.a
    let b ← VB.ofField r.f r.b
    pure (.imul m r.imm d a b)
  | 3 => do
    let d ← VDst.ofByte r.d
    let a ← VSrc.ofByte r.a
    let b ← VB.ofField r.f r.b
    pure (.imulh m r.imm d a b)
  | 4 => do
    let d ← VDst.ofByte r.d
    let a ← VSrc.ofByte r.a
    let b ← VB.ofField r.f r.b
    pure (.imulhu m r.imm d a b)
  | 5 => do
    let d ← VDst.ofByte r.d
    let a ← VSrc.ofByte r.a
    let b ← VB.ofField r.f r.b
    let c ← thirdOfExt r.ext
    pure (.imad m r.imm d a b c)
  | 6 => do
    let d ← VDst.ofByte r.d
    let a ← VSrc.ofByte r.a
    let b ← VB.ofField r.f r.b
    pure (.vAnd m r.imm d a b)
  | 7 => do
    let d ← VDst.ofByte r.d
    let a ← VSrc.ofByte r.a
    let b ← VB.ofField r.f r.b
    pure (.vOr m r.imm d a b)
  | 8 => do
    let d ← VDst.ofByte r.d
    let a ← VSrc.ofByte r.a
    let b ← VB.ofField r.f r.b
    pure (.vXor m r.imm d a b)
  | 9 => do
    let d ← VDst.ofByte r.d
    let a ← VSrc.ofByte r.a
    let b ← VB.ofField r.f r.b
    pure (.vAndn m r.imm d a b)
  | 10 => do
    let d ← VDst.ofByte r.d
    let a ← VSrc.ofByte r.a
    let b ← VB.ofField r.f r.b
    pure (.shl m r.imm d a b)
  | 11 => do
    let d ← VDst.ofByte r.d
    let a ← VSrc.ofByte r.a
    let b ← VB.ofField r.f r.b
    pure (.shr m r.imm d a b)
  | 12 => do
    let d ← VDst.ofByte r.d
    let a ← VSrc.ofByte r.a
    let b ← VB.ofField r.f r.b
    pure (.sar m r.imm d a b)
  | 13 => do
    let d ← VDst.ofByte r.d
    let a ← VSrc.ofByte r.a
    let b ← VB.ofField r.f r.b
    pure (.rot m r.imm d a b)
  | 14 => do
    let d ← VDst.ofByte r.d
    let a ← VSrc.ofByte r.a
    let b ← VB.ofField r.f r.b
    pure (.imin m r.imm d a b)
  | 15 => do
    let d ← VDst.ofByte r.d
    let a ← VSrc.ofByte r.a
    let b ← VB.ofField r.f r.b
    pure (.imax m r.imm d a b)
  | 16 => do
    let d ← VDst.ofByte r.d
    let a ← VSrc.ofByte r.a
    let b ← VB.ofField r.f r.b
    pure (.umin m r.imm d a b)
  | 17 => do
    let d ← VDst.ofByte r.d
    let a ← VSrc.ofByte r.a
    let b ← VB.ofField r.f r.b
    pure (.umax m r.imm d a b)
  | 18 => do
    let d ← VDst.ofByte r.d
    let a ← VSrc.ofByte r.a
    let b ← VB.ofField r.f r.b
    let p ← predOfExt r.ext
    pure (.sel m r.imm d a b p)
  | 19 => do
    let d ← VDst.ofByte r.d
    let a ← VSrc.ofByte r.a
    let b ← VB.ofField r.f r.b
    let k ← leaShift r.ext
    pure (.lea m r.imm d a b k)
  | 20 => do
    let d ← VDst.ofByte r.d
    let a ← VSrc.ofByte r.a
    let b ← VB.ofField r.f r.b
    pure (.add64 m r.imm d a b)
  | 21 => do
    let d ← VDst.ofByte r.d
    let a ← VSrc.ofByte r.a
    let b ← VB.ofField r.f r.b
    let w ← auxOfExt r.ext
    pure (.bfx m r.imm d a b w)
  | 22 => do
    let d ← VDst.ofByte r.d
    let a ← VSrc.ofByte r.a
    let b ← VB.ofField r.f r.b
    let x ← bfiExt r.ext
    pure (.bfi m r.imm d a b x.1 x.2)
  | 23 => do
    must (r.a == 0)
    let d ← VDst.ofByte r.d
    let b ← VB.ofField r.f r.b
    pure (.mov m r.imm d b)
  | 24 => do
    let d ← predOf r.d
    let a ← VSrc.ofByte r.a
    let b ← VB.ofField r.f r.b
    pure (.icmpEq m r.imm d a b)
  | 25 => do
    let d ← predOf r.d
    let a ← VSrc.ofByte r.a
    let b ← VB.ofField r.f r.b
    pure (.icmpNe m r.imm d a b)
  | 26 => do
    let d ← predOf r.d
    let a ← VSrc.ofByte r.a
    let b ← VB.ofField r.f r.b
    pure (.icmpLt m r.imm d a b)
  | 27 => do
    let d ← predOf r.d
    let a ← VSrc.ofByte r.a
    let b ← VB.ofField r.f r.b
    pure (.icmpLe m r.imm d a b)
  | 28 => do
    let d ← predOf r.d
    let a ← VSrc.ofByte r.a
    let b ← VB.ofField r.f r.b
    pure (.icmpLtu m r.imm d a b)
  | 29 => do
    let d ← predOf r.d
    let a ← VSrc.ofByte r.a
    let b ← VB.ofField r.f r.b
    pure (.icmpLeu m r.imm d a b)
  | 30 => do
    let d ← predOf r.d
    let a ← VSrc.ofByte r.a
    let b ← VB.ofField r.f r.b
    pure (.itest m r.imm d a b)
  | _ => none

/-- Operands of the float majors, which begin at 0x50. -/
def readFloat (m : Option Mod) (r : Raw) : Option Instr :=
  match r.op.toNat - 0x50 with
  | 0 => do
    must (r.f == 0)
    let d ← VDst.ofByte r.d
    let a ← VSrc.ofByte r.a
    let o ← IunOp.ofCode r.b.toNat
    pure (.iun m d a o)
  | 1 => do
    let d ← VDst.ofByte r.d
    let a ← VSrc.ofByte r.a
    let b ← VB.ofField r.f r.b
    pure (.fadd m r.imm d a b)
  | 2 => do
    let d ← VDst.ofByte r.d
    let a ← VSrc.ofByte r.a
    let b ← VB.ofField r.f r.b
    pure (.fsub m r.imm d a b)
  | 3 => do
    let d ← VDst.ofByte r.d
    let a ← VSrc.ofByte r.a
    let b ← VB.ofField r.f r.b
    pure (.fmul m r.imm d a b)
  | 4 => do
    let d ← VDst.ofByte r.d
    let a ← VSrc.ofByte r.a
    let b ← VB.ofField r.f r.b
    let c ← thirdOfExt r.ext
    pure (.ffma m r.imm d a b c)
  | 5 => do
    let d ← VDst.ofByte r.d
    let a ← VSrc.ofByte r.a
    let b ← VB.ofField r.f r.b
    pure (.fmin m r.imm d a b)
  | 6 => do
    let d ← VDst.ofByte r.d
    let a ← VSrc.ofByte r.a
    let b ← VB.ofField r.f r.b
    pure (.fmax m r.imm d a b)
  | 7 => do
    let d ← VDst.ofByte r.d
    let a ← VSrc.ofByte r.a
    let b ← VB.ofField r.f r.b
    let c ← thirdOfExt r.ext
    pure (.fdot2 m r.imm d a b c)
  | 8 => do
    let d ← predOf r.d
    let a ← VSrc.ofByte r.a
    let b ← VB.ofField r.f r.b
    pure (.fcmpEq m r.imm d a b)
  | 9 => do
    let d ← predOf r.d
    let a ← VSrc.ofByte r.a
    let b ← VB.ofField r.f r.b
    pure (.fcmpNe m r.imm d a b)
  | 10 => do
    let d ← predOf r.d
    let a ← VSrc.ofByte r.a
    let b ← VB.ofField r.f r.b
    pure (.fcmpLt m r.imm d a b)
  | 11 => do
    let d ← predOf r.d
    let a ← VSrc.ofByte r.a
    let b ← VB.ofField r.f r.b
    pure (.fcmpLe m r.imm d a b)
  | 12 => do
    let d ← predOf r.d
    let a ← VSrc.ofByte r.a
    let b ← VB.ofField r.f r.b
    pure (.fcmpUn m r.imm d a b)
  | 13 => do
    must (r.f == 0 && r.b == 0)
    let d ← VDst.ofByte r.d
    let a ← VSrc.ofByte r.a
    pure (.fclass m d a)
  | 14 => do
    must (r.f == 0)
    let d ← VDst.ofByte r.d
    let a ← VSrc.ofByte r.a
    let o ← FunOp.ofCode r.b.toNat
    pure (.funop m d a o)
  | 15 => do
    let d ← VDst.ofByte r.d
    let a ← VSrc.ofByte r.a
    let b ← VB.ofField r.f r.b
    pure (.dadd m r.imm d a b)
  | 16 => do
    let d ← VDst.ofByte r.d
    let a ← VSrc.ofByte r.a
    let b ← VB.ofField r.f r.b
    pure (.dmul m r.imm d a b)
  | 17 => do
    let d ← VDst.ofByte r.d
    let a ← VSrc.ofByte r.a
    let b ← VB.ofField r.f r.b
    let c ← thirdOfExt r.ext
    pure (.dfma m r.imm d a b c)
  | 18 => do
    let d ← predOf r.d
    let a ← VSrc.ofByte r.a
    let b ← VB.ofField r.f r.b
    pure (.dcmpLt m r.imm d a b)
  | 19 => do
    let d ← predOf r.d
    let a ← VSrc.ofByte r.a
    let b ← VB.ofField r.f r.b
    pure (.dcmpEq m r.imm d a b)
  | 20 => do
    must (r.f == 0)
    let d ← VDst.ofByte r.d
    let a ← VSrc.ofByte r.a
    let o ← CvtOp.ofCode r.b.toNat
    pure (.cvt m d a o)
  | 21 => do
    let d ← VDst.ofByte r.d
    let a ← VSrc.ofByte r.a
    let b ← VB.ofField r.f r.b
    pure (.pack m r.imm d a b)
  | 22 => do
    let d ← VDst.ofByte r.d
    let a ← VSrc.ofByte r.a
    let b ← VB.ofField r.f r.b
    pure (.unpack m r.imm d a b)
  | 23 => do
    let d ← VDst.ofByte r.d
    let a ← VSrc.ofByte r.a
    let x ← FmtSrc.ofField r.f r.b
    let c ← regOfExt r.ext
    pure (.mxq m r.imm d a x c)
  | 24 => do
    let d ← VDst.ofByte r.d
    let a ← VSrc.ofByte r.a
    let x ← FmtSrc.ofField r.f r.b
    let c ← regOfExt r.ext
    pure (.mxdq m r.imm d a x c)
  | 25 => do
    let d ← VDst.ofByte r.d
    let a ← VSrc.ofByte r.a
    if r.f == 0 then do
      let b ← VSrc.ofByte r.b
      pure (.shfl m r.imm d a b)
    else do
      let b ← SSrc.ofByte r.b
      pure (.shflXor m r.imm d a b)
  | 26 => do
    must (r.f == 0)
    let a ← predOf r.a
    let o ← voteOf r.b r.d
    pure (.vote m o a)
  | 27 => do
    must (r.f == 0)
    let d ← VDst.ofByte r.d
    let a ← VSrc.ofByte r.a
    let o ← RedOp.ofCode r.b.toNat
    pure (.red m d a o)
  | 28 => do
    must (r.f == 0)
    let d ← VDst.ofByte r.d
    let a ← VSrc.ofByte r.a
    let o ← RedOp.ofCode r.b.toNat
    pure (.scan m d a o)
  | 29 => do
    let o ← PopOp.ofCode (r.f ++ r.d.extractLsb' 7 1 ++ r.a.extractLsb' 7 1 ++ r.b.extractLsb' 7 1).toNat
    let d ← predOf (low7 r.d)
    let a ← predOf (low7 r.a)
    let b ← predOf (low7 r.b)
    pure (.pop m o d a b)
  | _ => none

/-- Operands of the memory majors, which begin at 0x70. -/
def readMemory (m : Option Mod) (r : Raw) : Option Instr :=
  match r.op.toNat - 0x70 with
  | 0 => do
    let d ← VDst.ofByte r.d
    let a ← MAddr.ofField r.f r.a
    let sz ← minorSize r.b
    let o ← minorOrd r.b
    let sp ← minorSpace r.b
    let sc ← scopeOfExt r.ext
    pure (.ld m r.imm d a sz o sp sc)
  | 1 => do
    let d ← VSrc.ofByte r.d
    let a ← MAddr.ofField r.f r.a
    let sz ← minorSize r.b
    let o ← minorOrd r.b
    let sp ← minorSpace r.b
    let sc ← scopeOfExt r.ext
    pure (.st m r.imm d a sz o sp sc)
  | 2 => do
    let d ← VDst.ofByte r.d
    let a ← MAddr.ofField r.f r.a
    let sz ← minorSize r.b
    let o ← minorOrd r.b
    let sp ← minorSpace r.b
    must (!o)
    let p ← predOfExt r.ext
    pure (.ldNf m r.imm d a sz sp p)
  | 3 => do
    let d ← VDst.ofByte r.d
    let a ← MAddr.ofField r.f r.a
    let op ← AtomOp.ofCode (r.b.extractLsb' 4 4).toNat
    let sp ← minorSpace r.b
    let x ← (match r.ext with
      | none => some none
      | some v => (atomOfExt v).map some)
    pure (.atom m r.imm d a op (r.b.getLsbD 3) sp x)
  | 4 => do
    let d ← VDst.ofByte r.d
    let a ← MAddr.ofField r.f r.a
    must (r.b.extractLsb' 4 4 == 0)
    let sp ← minorSpace r.b
    let v ← r.ext
    let x ← atomOfExt v
    pure (.atomCas m r.imm d a (r.b.getLsbD 3) sp x)
  | 5 => do
    must (r.d == 0 && r.b == 0)
    if r.f == 0 then do
      let a ← SSrc.ofByte r.a
      let x ← emptyExt r.ext
      pure (.lease m r.imm x a)
    else do
      must (r.a == 0)
      let p ← predOfExt r.ext
      pure (.leaseEnd m p)
  | 6 => do
    must (r.f == 0 && r.b.extractLsb' 6 2 == 0)
    let sc ← Scope.ofCode (r.b.extractLsb' 3 3).toNat
    match (r.b.extractLsb' 0 3).toNat with
    | 0 => do
      must (r.d == 0 && r.a == 0)
      pure (.fence m sc)
    | 1 => do
      must (r.d == 0 && r.a == 0)
      pure (.fencePhase m sc)
    | 2 => do
      must (r.d.toNat < 32 && r.a.toNat < 32)
      pure (.xfence m sc (r.d.extractLsb' 0 5) (r.a.extractLsb' 0 5))
    | _ => none
  | 7 => do
    must (r.b.extractLsb' 3 2 == 0)
    let a ← MAddr.ofField r.f r.a
    let x ← emptyExt r.ext
    let sp ← minorSpace r.b
    match (r.b.extractLsb' 5 3).toNat with
    | 0 => do
      must (r.d.toNat < 2)
      pure (.cachePrefetch m r.imm x a (r.d.getLsbD 0) sp)
    | 1 => do
      must (r.d.toNat < 4 && sp == .glob)
      pure (.cachePagereq m r.imm x a (r.d.getLsbD 0) (r.d.getLsbD 1))
    | 2 => do
      must (r.d == 0)
      pure (.cacheWb m r.imm x a sp)
    | 3 => do
      must (r.d == 0)
      pure (.cacheDrop m r.imm x a sp)
    | 4 => do
      must (sp == .glob)
      let d ← predOf r.d
      pure (.cacheResq m r.imm x a d)
    | _ => none
  | 8 => do
    must (r.f == 0)
    let d ← SSrc.ofByte r.d
    let a ← SSrc.ofByte r.a
    let c ← Cmp.ofCode (r.b.extractLsb' 0 3).toNat
    let x ← (match r.ext with
      | none => some none
      | some v => (waitOfExt v).map some)
    pure (.wwait m r.imm d a (r.b.extractLsb' 4 4) (r.b.getLsbD 3) c x)
  | 9 => do
    must (r.f == 1 && r.b.extractLsb' 5 3 == 6)
    let d ← finOf 240 r.d.toNat
    let a ← SSrc.ofByte r.a
    let o ← minorOrd r.b
    let sp ← minorSpace r.b
    let x ← (match r.ext with
      | none => some none
      | some v => (mxOfExt v).map some)
    pure (.mxld m r.imm d a o sp x)
  | 10 => do
    must (r.f == 1 && r.b.extractLsb' 5 3 == 6)
    let d ← finOf 240 r.d.toNat
    let a ← SSrc.ofByte r.a
    let o ← minorOrd r.b
    let sp ← minorSpace r.b
    let x ← (match r.ext with
      | none => some none
      | some v => (mxOfExt v).map some)
    pure (.mxst m r.imm d a o sp x)
  | _ => none

/-- Operands of the engine majors, which begin at 0x6E. -/
def readEngine (m : Option Mod) (r : Raw) : Option Instr :=
  match r.op.toNat - 0x6E with
  | 0 => do
    must (r.b.extractLsb' 3 2 == 0)
    let n ← slotOf r
    match (r.b.extractLsb' 5 3).toNat with
    | 0 => do
      let d ← rrBase r.d
      pure (.rrRead m d n)
    | 1 => do
      let d ← rrBase r.d
      pure (.rrWrite m d n)
    | 2 => do
      must (r.d == 0)
      pure (.rrRetire m n)
    | _ => none
  | 13 => do
    must (r.a == 0 && r.b.extractLsb' 3 2 == 0)
    let n : Fin 8 := ⟨(r.b.extractLsb' 0 3).toNat, by omega⟩
    match (r.b.extractLsb' 5 3).toNat with
    | 0 => do
      let s ← qSrcOf r
      pure (.qPush m n s)
    | 1 => do
      let d ← qDstOf r
      pure (.qPop m d n)
    | 2 => do
      let d ← qDstOf r
      pure (.qPeek m d n)
    | 3 => do
      must (r.f == 0)
      let d ← SDst.ofByte r.d
      pure (.qStat m d n)
    | 4 => do
      must (r.f == 0)
      let c ← finOf 16 r.d.toNat
      pure (.qBind m n c)
    | _ => none
  | 14 => do
    must (r.d == 0 && r.b == 0)
    let a ← finOf 64 r.a.toNat
    pure (if r.f == 0 then .mma m a else .mmaAcc m a)
  | 15 => do
    must (r.f == 0 && r.b.extractLsb' 0 5 == 0)
    let c ← finOf 2 r.d.toNat
    match (r.b.extractLsb' 5 3).toNat with
    | 0 => do
      let a ← finOf 64 r.a.toNat
      pure (.engErd m c a)
    | 1 => do
      let a ← finOf 64 r.a.toNat
      pure (.engEwr m c a)
    | 2 => do
      must (r.a == 0)
      pure (.engEresume m c)
    | _ => none
  | 16 => do
    let b : Fin 32 := ⟨(r.b.extractLsb' 0 5).toNat, by omega⟩
    match (r.b.extractLsb' 5 3).toNat with
    | 0 => do
      must (r.f == 0)
      let d ← finOf 240 r.d.toNat
      let a ← finOf 240 r.a.toNat
      pure (.rndTex m r.imm d a b)
    | 1 => do
      must (r.f == 0)
      let d ← finOf 240 r.d.toNat
      let a ← finOf 240 r.a.toNat
      pure (.rndTexq m r.imm d a b)
    | 2 => do
      must (r.f == 0)
      let d ← finOf 240 r.d.toNat
      let a ← finOf 240 r.a.toNat
      pure (.rndTrace m r.imm d a b)
    | 3 => do
      must (r.f == 0)
      let d ← finOf 240 r.d.toNat
      let a ← finOf 240 r.a.toNat
      pure (.rndTracec m r.imm d a b)
    | 4 => do
      must (r.f == 0)
      let d ← finOf 240 r.d.toNat
      let a ← finOf 240 r.a.toNat
      pure (.rndVmarch m r.imm d a b)
    | 5 => do
      must (r.f == 0)
      let d ← finOf 64 r.d.toNat
      let a ← finOf 64 r.a.toNat
      pure (.rndMshemit m r.imm d a b)
    | 6 => do
      let d ← finOf 240 r.d.toNat
      let a ← finOf 240 r.a.toNat
      if r.f == 0 then do
        must (b.val == 0)
        pure (.rndDraw m d a)
      else pure (.rndDrawTab m r.imm d a b)
    | 7 => do
      must (r.f == 0 && r.a == 0)
      let d ← finOf 240 r.d.toNat
      pure (.rndDrawseed m r.imm d b)
    | _ => none
  | _ => none

/-- An instruction from its fields, or nothing where R303 gives ILLEGAL_WORD. -/
def readRaw (m : Option Mod) (r : Raw) : Option Instr :=
  let n := r.op.toNat
  if n < 0x18 then readControl m r
  else if n < 0x30 then readScalar m r
  else if n < 0x50 then readInteger m r
  else if n < 0x6E then readFloat m r
  else if n == 0x6E || 0x7B ≤ n then readEngine m r
  else readMemory m r

/-- An instruction from its fields, in the order of R306 after PREFIX_REPEAT. `ill` says that a prefix word itself
holds a refused value. -/
def ofRaw (ill : Bool) (r : Raw) : Except DecodeErr Instr :=
  if r.mismatch then .error .prefixMismatch
  else if ill then .error .illegalWord
  else match readRaw (r.mod.map Mod.ofPayload) r with
    | none => .error .illegalWord
    | some i => if i.wf then .ok i else .error .illegalWord

/-- The instruction at the head of the words, and the words after it. -/
def decode (ws : List Word32) : Except DecodeErr (Instr × List Word32) :=
  match scanWords Scan.start ws with
  | none => .error .truncated
  | some (s, w, rest) =>
    if s.rep then .error .prefixRepeat
    else if s.mis then .error .prefixMismatch
    else (ofRaw s.ill (s.raw w)).map fun i => (i, rest)

/-- How many words the instruction at the head takes (R297), whether or not they decode. -/
def wordCount (ws : List Word32) : Option Nat :=
  match scanWords Scan.start ws with
  | none => none
  | some (_, _, rest) => some (ws.length - rest.length)

/-! ### The encoder -/

/-- The words of raw fields (R306: MOD, EXT, immediate, word). -/
def Raw.words (r : Raw) : List Word32 :=
  (match r.mod with
   | none => []
   | some v => [mkPrefix 3 v]) ++
  (match r.ext with
   | none => []
   | some v => [mkPrefix 4 v]) ++
  (match r.imm with
   | none => []
   | some (.i22 v) => [mkPrefix 0 v]
   | some (.i32 v) => [mkPrefix 1 0, v]
   | some (.i64 v) => [mkPrefix 2 0, v.extractLsb' 0 32, v.extractLsb' 32 32]) ++
  [mkWord r.op r.f r.d r.a r.b]

/-- Raw fields of an instruction. -/
def mkRaw (m : Option Mod) (e : Option (BitVec 22)) (im : Option Imm) (op : BitVec 7) (f : BitVec 1)
    (d a b : BitVec 8) : Raw :=
  { mod := m.map Mod.payload, ext := e, imm := im, op := op, f := f, d := d, a := a, b := b }

def branchRaw (m : Option Mod) (op : BitVec 7) (k : BitVec 1) (p : Fin 128) (neg : Bool) (t : BTarget) : Raw :=
  match t with
  | .near l s => mkRaw m none none op k (branchD p neg) (branchA l) (branchB l s)
  | .far v => mkRaw m none (some (.i32 v)) op k (branchD p neg) 0 0

def slotF : RrSlot → BitVec 1
  | .num _ => 0
  | .sreg _ => 1

def slotA : RrSlot → BitVec 8
  | .num _ => 0
  | .sreg n => finByte n.val

def slotB : RrSlot → BitVec 3
  | .num n => BitVec.ofNat 3 n.val
  | .sreg _ => 0

/-- A minor in [7:5] and a field in [4:0]. -/
def minor5 (k : BitVec 3) (x : BitVec 5) : BitVec 8 := k ++ x

def QSrc.f : QSrc → BitVec 1
  | .s _ => 0
  | .v _ => 1

def QSrc.byte : QSrc → BitVec 8
  | .s a => a.byte
  | .v n => finByte n.val

def QDst.f : QDst → BitVec 1
  | .s _ => 0
  | .v _ => 1

def QDst.byte : QDst → BitVec 8
  | .s d => d.byte
  | .v n => finByte n.val

/-- pop's minor bit placed over a predicate index (R379). -/
def popField (x : Bool) (n : Fin 128) : BitVec 8 := bit x ++ BitVec.ofNat 7 n.val

/-- The three low bits of pop's minor. -/
def PopOp.bit (op : PopOp) (k : Nat) : Bool := op.code.testBit k

/-- The fields of an instruction, from the opcode map (R313) and the instruction chapters; none for a device event,
which has no word. -/
def Instr.raw (i : Instr) : Option Raw :=
  match i with
  | .nop m => some (mkRaw m none none 0x00 0 0 0 0)
  | .brU m p n t => some (branchRaw m 0x01 0 p n t)
  | .brUAny m p n t => some (branchRaw m 0x01 1 p n t)
  | .brD m p n l s j => some (mkRaw m none (some (.i22 j)) 0x02 0 (branchD p n) (branchA l) (branchB l s))
  | .call m p n t => some (branchRaw m 0x03 0 p n t)
  | .brx m a => some (mkRaw m none none 0x04 0 0 a.byte 0)
  | .brxCall m a => some (mkRaw m none none 0x04 1 0 a.byte 0)
  | .join m n => some (mkRaw m none none 0x05 0 (finByte n.val) 0 0)
  | .yield m => some (mkRaw m none none 0x06 0 0 0 0)
  | .yieldC m q c => some (mkRaw m none (some (.i22 c)) 0x06 1 0 (finByte q.val) 0)
  | .exit m => some (mkRaw m none none 0x07 0 0 0 0)
  | .exitSave m => some (mkRaw m none none 0x07 1 0 0 0)
  | .rgn m v s p => some (mkRaw m none (some (.i32 ((0#2) ++ v))) 0x08 0 s ((p).extractLsb' 8 8) ((p).extractLsb' 0 8))
  | .modeImm m v => some (mkRaw m none none 0x09 0 (v.extractLsb' 16 8) (v.extractLsb' 8 8) (v.extractLsb' 0 8))
  | .modeScalar m a => some (mkRaw m none none 0x09 1 0 a.byte 0)
  | .wsplit m d => some (mkRaw m none none 0x0A 0 d.byte 0 0)
  | .wfuse m d x => some (mkRaw m none none 0x0B 0 d.byte (if x then 1 else 0) 0)
  | .lpc m d a v => some (mkRaw m none (some (.i32 ((0#2) ++ v))) 0x0C 0 d.byte (finByte a.val) 0)
  | .bar m n => some (mkRaw m none none 0x0D 0 (finByte n.val) 0 0)
  | .barClu m n => some (mkRaw m none none 0x0D 1 (finByte n.val) 0 0)
  | .racq m k => some (mkRaw m none none 0x0E 0 0 0 (finByte k.val))
  | .rrel m k => some (mkRaw m none none 0x0F 0 0 0 (finByte k.val))
  | .trap m c => some (mkRaw m none none 0x10 0 0 0 c)
  | .brk m c => some (mkRaw m none none 0x12 0 0 0 c)
  | .xret m => some (mkRaw m none none 0x11 0 0 0 0)
  | .srd m d x => some (mkRaw m none none 0x13 0 d.byte 0 (finByte x.code))
  | .swr m a x => some (mkRaw m none none 0x14 0 a.byte 0 (finByte x.code))
  | .sleep m n => some (mkRaw m none none 0x15 0 0 ((n).extractLsb' 8 8) ((n).extractLsb' 0 8))
  | .sadd m im d a b => some (mkRaw m none im 0x18 b.f d.byte a.byte b.byteOf)
  | .ssub m im d a b => some (mkRaw m none im 0x19 b.f d.byte a.byte b.byteOf)
  | .smul m im d a b => some (mkRaw m none im 0x1A b.f d.byte a.byte b.byteOf)
  | .sand m im d a b => some (mkRaw m none im 0x1B b.f d.byte a.byte b.byteOf)
  | .sor m im d a b => some (mkRaw m none im 0x1C b.f d.byte a.byte b.byteOf)
  | .sxor m im d a b => some (mkRaw m none im 0x1D b.f d.byte a.byte b.byteOf)
  | .sshl m im d a b => some (mkRaw m none im 0x1E b.f d.byte a.byte b.byteOf)
  | .sshr m im d a b => some (mkRaw m none im 0x1F b.f d.byte a.byte b.byteOf)
  | .ssar m im d a b => some (mkRaw m none im 0x20 b.f d.byte a.byte b.byteOf)
  | .smin m im d a b => some (mkRaw m none im 0x21 b.f d.byte a.byte b.byteOf)
  | .smax m im d a b => some (mkRaw m none im 0x22 b.f d.byte a.byte b.byteOf)
  | .smov m im d b => some (mkRaw m none im 0x23 b.f d.byte 0 b.byteOf)
  | .scmpEq m im d a b => some (mkRaw m none im 0x24 b.f (finByte d.val) a.byte b.byteOf)
  | .scmpNe m im d a b => some (mkRaw m none im 0x25 b.f (finByte d.val) a.byte b.byteOf)
  | .scmpLt m im d a b => some (mkRaw m none im 0x26 b.f (finByte d.val) a.byte b.byteOf)
  | .scmpLtu m im d a b => some (mkRaw m none im 0x27 b.f (finByte d.val) a.byte b.byteOf)
  | .scmpLe m im d a b => some (mkRaw m none im 0x28 b.f (finByte d.val) a.byte b.byteOf)
  | .scmpLeu m im d a b => some (mkRaw m none im 0x29 b.f (finByte d.val) a.byte b.byteOf)
  | .sbfx m im d a b w => some (mkRaw m (extOfAux w) im 0x2A b.f d.byte a.byte b.byteOf)
  | .vtos m d a b => some (mkRaw m none none 0x2B b.f d.byte a.byte b.byte)
  | .sld m im d a sz o sp sc => some (mkRaw m (extOfScope sc) im 0x2D 0 d.byte a.byte (memMinor sz o sp))
  | .sst m im d a sz o sp sc => some (mkRaw m (extOfScope sc) im 0x2E 0 d.byte a.byte (memMinor sz o sp))
  | .iadd m im d a b => some (mkRaw m none im 0x30 b.f d.byte a.byte b.byte)
  | .isub m im d a b => some (mkRaw m none im 0x31 b.f d.byte a.byte b.byte)
  | .imul m im d a b => some (mkRaw m none im 0x32 b.f d.byte a.byte b.byte)
  | .imulh m im d a b => some (mkRaw m none im 0x33 b.f d.byte a.byte b.byte)
  | .imulhu m im d a b => some (mkRaw m none im 0x34 b.f d.byte a.byte b.byte)
  | .vAnd m im d a b => some (mkRaw m none im 0x36 b.f d.byte a.byte b.byte)
  | .vOr m im d a b => some (mkRaw m none im 0x37 b.f d.byte a.byte b.byte)
  | .vXor m im d a b => some (mkRaw m none im 0x38 b.f d.byte a.byte b.byte)
  | .vAndn m im d a b => some (mkRaw m none im 0x39 b.f d.byte a.byte b.byte)
  | .shl m im d a b => some (mkRaw m none im 0x3A b.f d.byte a.byte b.byte)
  | .shr m im d a b => some (mkRaw m none im 0x3B b.f d.byte a.byte b.byte)
  | .sar m im d a b => some (mkRaw m none im 0x3C b.f d.byte a.byte b.byte)
  | .rot m im d a b => some (mkRaw m none im 0x3D b.f d.byte a.byte b.byte)
  | .imin m im d a b => some (mkRaw m none im 0x3E b.f d.byte a.byte b.byte)
  | .imax m im d a b => some (mkRaw m none im 0x3F b.f d.byte a.byte b.byte)
  | .umin m im d a b => some (mkRaw m none im 0x40 b.f d.byte a.byte b.byte)
  | .umax m im d a b => some (mkRaw m none im 0x41 b.f d.byte a.byte b.byte)
  | .add64 m im d a b => some (mkRaw m none im 0x44 b.f d.byte a.byte b.byte)
  | .fadd m im d a b => some (mkRaw m none im 0x51 b.f d.byte a.byte b.byte)
  | .fsub m im d a b => some (mkRaw m none im 0x52 b.f d.byte a.byte b.byte)
  | .fmul m im d a b => some (mkRaw m none im 0x53 b.f d.byte a.byte b.byte)
  | .fmin m im d a b => some (mkRaw m none im 0x55 b.f d.byte a.byte b.byte)
  | .fmax m im d a b => some (mkRaw m none im 0x56 b.f d.byte a.byte b.byte)
  | .dadd m im d a b => some (mkRaw m none im 0x5F b.f d.byte a.byte b.byte)
  | .dmul m im d a b => some (mkRaw m none im 0x60 b.f d.byte a.byte b.byte)
  | .pack m im d a b => some (mkRaw m none im 0x65 b.f d.byte a.byte b.byte)
  | .unpack m im d a b => some (mkRaw m none im 0x66 b.f d.byte a.byte b.byte)
  | .imad m im d a b c => some (mkRaw m (extOfThird c) im 0x35 b.f d.byte a.byte b.byte)
  | .ffma m im d a b c => some (mkRaw m (extOfThird c) im 0x54 b.f d.byte a.byte b.byte)
  | .fdot2 m im d a b c => some (mkRaw m (extOfThird c) im 0x57 b.f d.byte a.byte b.byte)
  | .dfma m im d a b c => some (mkRaw m (extOfThird c) im 0x61 b.f d.byte a.byte b.byte)
  | .sel m im d a b p => some (mkRaw m (extOfPred p) im 0x42 b.f d.byte a.byte b.byte)
  | .lea m im d a b k => some (mkRaw m (k.map fun k => mkExt k 0 0) im 0x43 b.f d.byte a.byte b.byte)
  | .bfx m im d a b w => some (mkRaw m (extOfAux w) im 0x45 b.f d.byte a.byte b.byte)
  | .bfi m im d a b w c => some (mkRaw m (some (mkExt w 0 c.byte)) im 0x46 b.f d.byte a.byte b.byte)
  | .mov m im d b => some (mkRaw m none im 0x47 b.f d.byte 0 b.byte)
  | .icmpEq m im d a b => some (mkRaw m none im 0x48 b.f (finByte d.val) a.byte b.byte)
  | .icmpNe m im d a b => some (mkRaw m none im 0x49 b.f (finByte d.val) a.byte b.byte)
  | .icmpLt m im d a b => some (mkRaw m none im 0x4A b.f (finByte d.val) a.byte b.byte)
  | .icmpLe m im d a b => some (mkRaw m none im 0x4B b.f (finByte d.val) a.byte b.byte)
  | .icmpLtu m im d a b => some (mkRaw m none im 0x4C b.f (finByte d.val) a.byte b.byte)
  | .icmpLeu m im d a b => some (mkRaw m none im 0x4D b.f (finByte d.val) a.byte b.byte)
  | .itest m im d a b => some (mkRaw m none im 0x4E b.f (finByte d.val) a.byte b.byte)
  | .fcmpEq m im d a b => some (mkRaw m none im 0x58 b.f (finByte d.val) a.byte b.byte)
  | .fcmpNe m im d a b => some (mkRaw m none im 0x59 b.f (finByte d.val) a.byte b.byte)
  | .fcmpLt m im d a b => some (mkRaw m none im 0x5A b.f (finByte d.val) a.byte b.byte)
  | .fcmpLe m im d a b => some (mkRaw m none im 0x5B b.f (finByte d.val) a.byte b.byte)
  | .fcmpUn m im d a b => some (mkRaw m none im 0x5C b.f (finByte d.val) a.byte b.byte)
  | .dcmpLt m im d a b => some (mkRaw m none im 0x62 b.f (finByte d.val) a.byte b.byte)
  | .dcmpEq m im d a b => some (mkRaw m none im 0x63 b.f (finByte d.val) a.byte b.byte)
  | .iun m d a o => some (mkRaw m none none 0x50 0 d.byte a.byte (finByte o.code))
  | .fclass m d a => some (mkRaw m none none 0x5D 0 d.byte a.byte 0)
  | .funop m d a o => some (mkRaw m none none 0x5E 0 d.byte a.byte (finByte o.code))
  | .cvt m d a o => some (mkRaw m none none 0x64 0 d.byte a.byte (finByte o.code))
  | .mxq m im d a x c => some (mkRaw m (extOfReg c) im 0x67 x.f d.byte a.byte x.byte)
  | .mxdq m im d a x c => some (mkRaw m (extOfReg c) im 0x68 x.f d.byte a.byte x.byte)
  | .shfl m im d a b => some (mkRaw m none im 0x69 0 d.byte a.byte b.byte)
  | .shflXor m im d a b => some (mkRaw m none im 0x69 1 d.byte a.byte b.byte)
  | .vote m o a => some (mkRaw m none none 0x6A 0 o.dst (finByte a.val) o.minor)
  | .red m d a o => some (mkRaw m none none 0x6B 0 d.byte a.byte (finByte o.code))
  | .scan m d a o => some (mkRaw m none none 0x6C 0 d.byte a.byte (finByte o.code))
  | .pop m o d a b => some (mkRaw m none none 0x6D (bit (o.bit 3)) (popField (o.bit 2) d) (popField (o.bit 1) a) (popField (o.bit 0) b))
  | .rrRead m d n => some (mkRaw m none none 0x6E (slotF n) (finByte (8 * d.val)) (slotA n) (minor5 0 ((0#2) ++ slotB n)))
  | .rrWrite m d n => some (mkRaw m none none 0x6E (slotF n) (finByte (8 * d.val)) (slotA n) (minor5 1 ((0#2) ++ slotB n)))
  | .rrRetire m n => some (mkRaw m none none 0x6E (slotF n) 0 (slotA n) (minor5 2 ((0#2) ++ slotB n)))
  | .ld m im d a sz o sp sc => some (mkRaw m (extOfScope sc) im 0x70 a.f d.byte a.byte (memMinor sz o sp))
  | .ldNf m im d a sz sp p => some (mkRaw m (extOfPred p) im 0x72 a.f d.byte a.byte (memMinor sz false sp))
  | .st m im d a sz o sp sc => some (mkRaw m (extOfScope sc) im 0x71 a.f d.byte a.byte (memMinor sz o sp))
  | .atom m im d a op w sp x => some (mkRaw m (x.map AtomExt.payload) im 0x73 a.f d.byte a.byte (BitVec.ofNat 4 op.code ++ bit w ++ BitVec.ofNat 3 sp.code))
  | .atomCas m im d a w sp x => some (mkRaw m (some x.payload) im 0x74 a.f d.byte a.byte ((0#4) ++ bit w ++ BitVec.ofNat 3 sp.code))
  | .lease m im x a => some (mkRaw m (extOfEmpty x) im 0x75 0 0 a.byte 0)
  | .leaseEnd m p => some (mkRaw m (extOfPred p) none 0x75 1 0 0 0)
  | .fence m sc => some (mkRaw m none none 0x76 0 0 0 ((0#2) ++ BitVec.ofNat 3 sc.code ++ (0#3)))
  | .fencePhase m sc => some (mkRaw m none none 0x76 0 0 0 ((0#2) ++ BitVec.ofNat 3 sc.code ++ (1#3)))
  | .xfence m sc w x => some (mkRaw m none none 0x76 0 ((0#3) ++ w) ((0#3) ++ x) ((0#2) ++ BitVec.ofNat 3 sc.code ++ (2#3)))
  | .cachePrefetch m im x a t sp => some (mkRaw m (extOfEmpty x) im 0x77 a.f ((0#7) ++ bit t) a.byte ((0#3) ++ (0#2) ++ BitVec.ofNat 3 sp.code))
  | .cachePagereq m im x a w g => some (mkRaw m (extOfEmpty x) im 0x77 a.f ((0#6) ++ bit g ++ bit w) a.byte (minor5 1 0))
  | .cacheWb m im x a sp => some (mkRaw m (extOfEmpty x) im 0x77 a.f 0 a.byte ((2#3) ++ (0#2) ++ BitVec.ofNat 3 sp.code))
  | .cacheDrop m im x a sp => some (mkRaw m (extOfEmpty x) im 0x77 a.f 0 a.byte ((3#3) ++ (0#2) ++ BitVec.ofNat 3 sp.code))
  | .cacheResq m im x a d => some (mkRaw m (extOfEmpty x) im 0x77 a.f (finByte d.val) a.byte (minor5 4 0))
  | .wwait m im d a t w c x => some (mkRaw m (x.map WaitExt.payload) im 0x78 0 d.byte a.byte (t ++ bit w ++ BitVec.ofNat 3 c.code))
  | .mxld m im d a o sp x => some (mkRaw m (x.map MxExt.payload) im 0x79 1 (finByte d.val) a.byte (memMinor .b128 o sp))
  | .mxst m im d a o sp x => some (mkRaw m (x.map MxExt.payload) im 0x7A 1 (finByte d.val) a.byte (memMinor .b128 o sp))
  | .qPush m n s => some (mkRaw m none none 0x7B s.f s.byte 0 (minor5 0 ((0#2) ++ BitVec.ofNat 3 n.val)))
  | .qPop m d n => some (mkRaw m none none 0x7B d.f d.byte 0 (minor5 1 ((0#2) ++ BitVec.ofNat 3 n.val)))
  | .qPeek m d n => some (mkRaw m none none 0x7B d.f d.byte 0 (minor5 2 ((0#2) ++ BitVec.ofNat 3 n.val)))
  | .qStat m d n => some (mkRaw m none none 0x7B 0 d.byte 0 (minor5 3 ((0#2) ++ BitVec.ofNat 3 n.val)))
  | .qBind m n c => some (mkRaw m none none 0x7B 0 (finByte c.val) 0 (minor5 4 ((0#2) ++ BitVec.ofNat 3 n.val)))
  | .mma m a => some (mkRaw m none none 0x7C 0 0 (finByte a.val) 0)
  | .mmaAcc m a => some (mkRaw m none none 0x7C 1 0 (finByte a.val) 0)
  | .engErd m c a => some (mkRaw m none none 0x7D 0 (finByte c.val) (finByte a.val) (minor5 0 0))
  | .engEwr m c a => some (mkRaw m none none 0x7D 0 (finByte c.val) (finByte a.val) (minor5 1 0))
  | .engEresume m c => some (mkRaw m none none 0x7D 0 (finByte c.val) 0 (minor5 2 0))
  | .rndTex m im d a b => some (mkRaw m none im 0x7E 0 (finByte d.val) (finByte a.val) (minor5 0 (BitVec.ofNat 5 b.val)))
  | .rndTexq m im d a b => some (mkRaw m none im 0x7E 0 (finByte d.val) (finByte a.val) (minor5 1 (BitVec.ofNat 5 b.val)))
  | .rndTrace m im d a b => some (mkRaw m none im 0x7E 0 (finByte d.val) (finByte a.val) (minor5 2 (BitVec.ofNat 5 b.val)))
  | .rndTracec m im d a b => some (mkRaw m none im 0x7E 0 (finByte d.val) (finByte a.val) (minor5 3 (BitVec.ofNat 5 b.val)))
  | .rndVmarch m im d a b => some (mkRaw m none im 0x7E 0 (finByte d.val) (finByte a.val) (minor5 4 (BitVec.ofNat 5 b.val)))
  | .rndMshemit m im d a b => some (mkRaw m none im 0x7E 0 (finByte d.val) (finByte a.val) (minor5 5 (BitVec.ofNat 5 b.val)))
  | .rndDraw m d a => some (mkRaw m none none 0x7E 0 (finByte d.val) (finByte a.val) (minor5 6 0))
  | .rndDrawTab m im d a b => some (mkRaw m none im 0x7E 1 (finByte d.val) (finByte a.val) (minor5 6 (BitVec.ofNat 5 b.val)))
  | .rndDrawseed m im d b => some (mkRaw m none im 0x7E 0 (finByte d.val) 0 (minor5 7 (BitVec.ofNat 5 b.val)))
  | .joinTimeout .. | .sleepExpire .. | .wfuseTimeout .. | .loadComplete .. | .leaseEndComplete ..
  | .leaseExpire .. | .wwaitPoll .. | .wwaitTimeout .. | .renderComplete .. | .renderFaultPark ..
  | .quadDelivery .. | .pixelGroupStart .. | .laneGrant .. | .parseStep .. | .tlbInvalDone ..
  | .pstateTransitionDone .. | .packetRetire .. | .watchPoll .. | .teamPlace .. | .clusterPlace ..
  | .preemptRequest .. | .teamRestart .. | .copyCommandStart .. | .copyFaultPark .. | .copyComplete ..
  | .collectiveMatch .. | .collectiveComplete .. | .engineResultDelivery .. | .mxeFetchFault .. | .mxePark ..
  | .mxeComputeDone .. | .clusterStagePage .. | .flePageArrival .. | .fleHintArrival .. | .sorusCloseTimeout
  | .sorusProcess | .pageHandoff .. | .sectorFillComplete .. | .deviceTlbInvalDone ..
  | .evictionWritebackDone .. | .recordReplay .. | .accessCounterDecay | .l1Eviction .. | .rdcEviction ..
  | .rdcStaleDrop .. | .powerEstimate | .thermalTrip .. | .thermalRestore .. | .cqctlWrite .. | .cqheadWrite ..
  | .msixTimerExpire .. | .msixVectorUnmask .. | .prreplyResolved .. | .prreplyFailed .. | .portctlWrite ..
  | .portTrainingDone .. | .portLinkDown .. | .portRecovered .. | .portRecoveryTimeout .. | .flitCrcFail ..
  | .ideIntegrityFail .. | .gddrUncorrectableError .. | .deviceReset .. | .vfFlr .. | .pctlEnable ..
  | .pctlDisable .. | .padmrWrite .. | .ssdataRead | .tfrtailWrite .. | .registerWrite .. | .barWindowRead ..
  | .barWindowWrite .. | .hostHdmAccess .. | .hostBirsp .. | .poolBisnp .. | .spdmRequest .. | .hostSnoop ..
  | .peerRequest .. | .collectiveFaultPark .. | .zeroingComplete .. => none

/-- The words of an instruction. A device event has none. -/
def encode (i : Instr) : List Word32 :=
  match i.raw with
  | none => []
  | some r => r.words

/-- Whether the instruction has a word of its own, so that decoding can give it. -/
def Instr.hasWord (i : Instr) : Bool := i.raw.isSome

/-! ### Words from bytes and numbers -/

/-- Four bytes as a word, little-endian (R4). -/
def wordOfBytes (b0 b1 b2 b3 : Byte) : Word32 := b3 ++ b2 ++ b1 ++ b0

/-- The words of a byte sequence; a tail of fewer than four bytes is no word. -/
def wordsOfBytes : List Byte → List Word32
  | b0 :: b1 :: b2 :: b3 :: rest => wordOfBytes b0 b1 b2 b3 :: wordsOfBytes rest
  | _ => []

/-- Total on any bytes: the instruction at the head of a byte sequence, and the words after it. -/
def decodeBytes (bs : List Byte) : Except DecodeErr (Instr × List Word32) := decode (wordsOfBytes bs)

/-- The first k words of a number whose bit 0 is bit 0 of the first word. -/
def tableWords (k w : Nat) : List Word32 :=
  match k with
  | 0 => []
  | k + 1 => BitVec.ofNat 32 w :: tableWords k (w / 2 ^ 32)

/-- The instruction the decoder reads from the bits of an opcode-table row: nbits bits, zeros above them, up to the
longest instruction of six words (R306). -/
def decodeTableWord (nbits w : Nat) : Option Instr :=
  match decode (tableWords 6 (w % 2 ^ nbits)) with
  | .ok (i, _) => some i
  | .error _ => none

end Sys2Proof
end

