-- ==== Sys2Proof/Machine/Tbl.lean ====
section
/-! DEFINITION. Tables: lists of (key, value) with keys strictly rising, read and written through these operations only. -/

namespace Sys2Proof.Machine

/-- The value at a key. -/
def Tbl.find? {α : Type} (t : Tbl α) (k : Nat) : Option α :=
  match t with
  | [] => none
  | (i, x) :: rest => if i == k then some x else Tbl.find? rest k

/-- The value at a key, or a default. -/
def Tbl.getD {α : Type} (t : Tbl α) (k : Nat) (d : α) : α := (Tbl.find? t k).getD d

/-- Sets the value at a key. -/
def Tbl.put {α : Type} (t : Tbl α) (k : Nat) (x : α) : Tbl α :=
  match t with
  | [] => [(k, x)]
  | (i, y) :: rest =>
    if k < i then (k, x) :: (i, y) :: rest
    else if i == k then (k, x) :: rest
    else (i, y) :: Tbl.put rest k x

/-- Removes a key. -/
def Tbl.del {α : Type} (t : Tbl α) (k : Nat) : Tbl α :=
  match t with
  | [] => []
  | (i, y) :: rest => if i == k then Tbl.del rest k else (i, y) :: Tbl.del rest k

/-- Sets the value at a key in a table that stands for a map with a default: the default is not listed. -/
def Tbl.setD {α : Type} [DecidableEq α] (t : Tbl α) (k : Nat) (d x : α) : Tbl α :=
  if x = d then Tbl.del t k else Tbl.put t k x

/-- Keys in order. -/
def Tbl.keys {α : Type} (t : Tbl α) : List Nat := t.map (·.1)

/-- Values in key order. -/
def Tbl.vals {α : Type} (t : Tbl α) : List α := t.map (·.2)

/-- Changes every value. -/
def Tbl.mapVals {α β : Type} (t : Tbl α) (f : Nat → α → β) : Tbl β := t.map fun (k, x) => (k, f k x)

/-- Changes the value at a key, if there is one. -/
def Tbl.modify {α : Type} (t : Tbl α) (k : Nat) (f : α → α) : Tbl α :=
  match Tbl.find? t k with
  | none => t
  | some x => Tbl.put t k (f x)

/-- The table that reads the same with default d and lists no default. -/
def Tbl.pack {α : Type} [DecidableEq α] (t : Tbl α) (d : α) : Tbl α :=
  (Tbl.keys t).foldl (fun u k => Tbl.setD u k d (Tbl.getD t k d)) []

/-- The canonical form: keys strictly rising. -/
def Tbl.wf {α : Type} (t : Tbl α) : Bool :=
  match t with
  | [] => true
  | [_] => true
  | (i, _) :: (j, y) :: rest => i < j && Tbl.wf ((j, y) :: rest)

/-- Element n of a list, or a default. -/
def nthD {α : Type} (l : List α) (n : Nat) (d : α) : α :=
  match l, n with
  | [], _ => d
  | x :: _, 0 => x
  | _ :: rest, n + 1 => nthD rest n d

/-- Sets element n of a list, if it exists. -/
def setNth {α : Type} (l : List α) (n : Nat) (x : α) : List α :=
  match l, n with
  | [], _ => []
  | _ :: rest, 0 => x :: rest
  | y :: rest, n + 1 => y :: setNth rest n x

/-- Changes element n of a list, if it exists. -/
def modNth {α : Type} (l : List α) (n : Nat) (f : α → α) : List α :=
  match l, n with
  | [], _ => []
  | y :: rest, 0 => f y :: rest
  | y :: rest, n + 1 => y :: modNth rest n f

/-- Inserts an element before the first of a greater key. -/
def insertOn {α : Type} (f : α → Nat) (l : List α) (x : α) : List α :=
  match l with
  | [] => [x]
  | y :: rest => if f x < f y then x :: y :: rest else y :: insertOn f rest x

/-- A list in ascending order of a key; elements of one key keep their order. -/
def sortOn {α : Type} (f : α → Nat) (l : List α) : List α := l.foldl (insertOn f) []

end Sys2Proof.Machine
end

