-- ==== Sys2Proof/Machine/Bits.lean ====
section
/-! DEFINITION. Bit fields, sign extension, byte order, lane masks and rows: the plain helpers of the meanings. -/

namespace Sys2Proof.Machine

/-- Bits [lo + n − 1 : lo] of a word as a number. -/
def bits {w : Nat} (x : BitVec w) (lo n : Nat) : Nat := (x.toNat >>> lo) % 2 ^ n

/-- Bit k of a word. -/
def bitAt {w : Nat} (x : BitVec w) (k : Nat) : Bool := x.getLsbD k

/-- The word with bits [lo + n − 1 : lo] replaced by the low n bits of v. -/
def setBits {w : Nat} (x : BitVec w) (lo n v : Nat) : BitVec w :=
  let m : BitVec w := BitVec.ofNat w ((2 ^ n - 1) <<< lo)
  (x &&& ~~~m) ||| (BitVec.ofNat w ((v % 2 ^ n) <<< lo) &&& m)

/-- sext(x, n) of R9: the low n bits, sign-extended. -/
def sextNat (x n w : Nat) : BitVec w :=
  let y := x % 2 ^ n
  if n == 0 then 0
  else if y < 2 ^ (n - 1) then BitVec.ofNat w y else BitVec.ofInt w ((y : Int) - (2 ^ n : Nat))

/-- The bytes of a number, low byte first (R4). -/
def bytesOf (n v : Nat) : List Byte :=
  match n with
  | 0 => []
  | n + 1 => BitVec.ofNat 8 v :: bytesOf n (v / 256)

/-- The number whose bytes these are, low byte first (R4). -/
def ofBytes (bs : List Byte) : Nat :=
  match bs with
  | [] => 0
  | b :: rest => b.toNat + 256 * ofBytes rest

/-- The numbers lo to lo + n − 1. -/
def upTo (lo n : Nat) : List Nat :=
  match n with
  | 0 => []
  | n + 1 => lo :: upTo (lo + 1) n

/-- Whether lane l is in the mask. -/
def hasLane (m : Mask) (l : Nat) : Bool := m.getLsbD l

/-- The mask of one lane. -/
def laneBit (l : Nat) : Mask := BitVec.ofNat 64 (1 <<< l)

/-- The mask of lanes 0 to w − 1. -/
def allLanes (w : Nat) : Mask := BitVec.ofNat 64 (2 ^ w - 1)

/-- The lanes of the mask in ascending order, among 0 to 63. -/
def lanesOf (m : Mask) : List Nat := (upTo 0 64).filter (hasLane m)

/-- The lowest lane of the mask. -/
def lowLane (m : Mask) : Option Nat := (lanesOf m).head?

/-- A mask from a test of each lane. -/
def maskOf (f : Nat → Bool) : Mask :=
  BitVec.ofNat 64 ((upTo 0 64).foldl (fun a l => if f l then a + 2 ^ l else a) 0)

/-- How many bits are set. -/
def popCount {w : Nat} (x : BitVec w) : Nat := (upTo 0 w).foldl (fun a k => if x.getLsbD k then a + 1 else a) 0

/-- The row that reads 0 in every lane. -/
def zeroRow : Row := List.replicate 64 0

/-- A row from a value for each lane. -/
def rowOf (f : Nat → Word32) : Row := (upTo 0 64).map f

/-- Lane l of a row. -/
def lane (r : Row) (l : Nat) : Word32 := nthD r l 0

/-- The old row with the lanes of the mask taken from the new one. -/
def blend (m : Mask) (new old : Row) : Row := rowOf fun l => if hasLane m l then lane new l else lane old l

/-- The row with lanes outside the mask zero (R166). -/
def maskRow (m : Mask) (r : Row) : Row := rowOf fun l => if hasLane m l then lane r l else 0

/-- Byte o of a line. -/
def lineByte (x : Line) (o : Nat) : Byte := x.extractLsb' (8 * o) 8

/-- The line with byte o replaced. -/
def setLineByte (x : Line) (o : Nat) (b : Byte) : Line :=
  (x &&& ~~~(BitVec.ofNat 1024 (255 <<< (8 * o)))) ||| BitVec.ofNat 1024 (b.toNat <<< (8 * o))

/-- Bit k set in a mask of any width. -/
def setBit {w : Nat} (x : BitVec w) (k : Nat) : BitVec w := x ||| BitVec.ofNat w (1 <<< k)

/-- Bit k cleared. -/
def clearBit {w : Nat} (x : BitVec w) (k : Nat) : BitVec w := x &&& ~~~(BitVec.ofNat w (1 <<< k))

/-- Adds a number to a sorted list without repeats. -/
def insertNat (l : List Nat) (k : Nat) : List Nat :=
  match l with
  | [] => [k]
  | i :: rest => if k < i then k :: i :: rest else if i == k then i :: rest else i :: insertNat rest k

/-- The least number not in the list, below a bound. -/
def freeBelow (n : Nat) (used : List Nat) : Option Nat := (upTo 0 n).find? fun k => !used.contains k

/-- n rounded up to a multiple of k. -/
def roundUp (n k : Nat) : Nat := (n + k - 1) / k * k

end Sys2Proof.Machine
end

