-- ==== Sys2Proof/Config.lean ====
section
/-! DEFINITION. What an implementation fixes, and the free values of the model.
Every constant here is opaque: no proof can see its value. A free value is applied to the counter
State.free, or to the operands it depends on (notes/assumptions/4.md). -/

namespace Sys2Proof

/-- Which of several moves, victims or orders the device takes where the spec gives no rule
(TLB replacement of R47, the order of write-backs of R452, the next event). Log 3, 4. -/
opaque Config.freeChoice : Nat → Nat

/-- The power estimate of R105, whose energy model the spec does not give. Log 4. -/
opaque Config.freeEstimate : Nat → BitVec 12

/-- The energy of one interval for one queue, in units of 1/256 µJ (R106). Log 4. -/
opaque Config.freeEnergy : Nat → Nat

/-- Where in each window of 64 cycles the evenly spaced withheld cycles begin (R105). Log 4. -/
opaque Config.withholdPhase : Nat → Nat

/-- The activity that one piece of COPY work stands for beside one instruction (R106). Log 4. -/
opaque Config.copyActivity : Nat

/-- The fused minimum of an image's security version (R110): 2 management, 14 CDP firmware. Log 5. -/
opaque Config.minVersion : Nat → BitVec 16

/-- The 64-bit device ID of R27 and R97. Log 5. -/
opaque Config.deviceId : Word64

/-- The SHA3-256 digest of a measured block (R111): block number and measured words. Log 5. -/
opaque Config.digest : Nat → List Word64 → BitVec 256

/-- The signature of a measurement report under the device identity key (R110, R111). Log 5. -/
opaque Config.signature : List (BitVec 256) → Word64

/-- A free word, for results the spec does not state. Log 4. -/
opaque Config.freeWord : Nat → Word64

end Sys2Proof
end

