-- ==== Sys2Proof/Machine/State.lean ====
section
/-! DEFINITION. The state of the device as plain data, the reasons to stop, and the state after reset.
Tables are lists of (key, value) with keys strictly rising; where a table stands for a map with a default, no entry
holds the default. Field docstrings name the rule of spec/ that gives the state. -/

namespace Sys2Proof.Machine

/-- Reasons to stop with a fault. -/
inductive Fault where
  /-- Raised by no instruction: an instruction that no split executes changes nothing (log 3). Safe. -/
  | noIssuer
deriving DecidableEq, Repr

/-- Reasons to refuse. -/
inductive Refusal where
  /-- An instruction whose meaning is not written. Raised by no arm once every instruction has its meaning. Safe. -/
  | notModelled (mnemonic : String)
deriving DecidableEq, Repr

/-! ### Splits and groups -/

/-- How control came to the PC of an entry (R296 to R298): within the line, by falling through into a line, by a
control transfer, by a return, or by a transfer whose SLOT of 28 to 31 enters no slot (R304). -/
inductive Via where
  | seq
  | fall
  | transfer
  | xret
  | noSlot
deriving DecidableEq, Repr

/-- What a split waits for (R167, R327 to R330, R337, R338, R394, R400, R406, R407, R412, R415, R427). -/
inductive Wait where
  /-- Nothing: ready as far as the split's own progress goes. -/
  | run
  /-- At a join (R173): the PC after it, the deadline and the exponent of its timeout. -/
  | join (next : Word64) (deadline : Option Nat) (exp : BitVec 5)
  /-- sleep: until the die clock reaches the number (R330). -/
  | sleep (till : Nat)
  /-- yield: another split of the quarter must issue first (R328). -/
  | yield
  /-- yield.c: an entry in the q-register (R329). -/
  | entry (q : Fin 8)
  /-- q.pop or q.peek on an empty q-register (R407). -/
  | pop (q : Fin 8)
  /-- q.push on a full intake or q-register (R406). -/
  | push (q : Fin 8)
  /-- Barrier (R337): the PC after it. -/
  | bar (n : Fin 16) (clu : Bool) (next : Word64)
  /-- racq: blocks asked for (R163). -/
  | racq (k : Nat) (next : Word64)
  /-- wfuse (R179): selector, result register, deadline. -/
  | wfuse (sel : Bool) (d : Option (Fin 64)) (deadline : Nat) (next : Word64)
  /-- wsplit, wfuse and fences: until earlier operations of the group are performed, then issued again. -/
  | drain
  /-- lpc rendezvous (R181). -/
  | lpc (mask : Word64) (key : Nat) (blocks : BitVec 30) (next : Word64)
  /-- mma rendezvous or wait for the context (R412), with the descriptor once it has been read. -/
  | mma (acc : Bool) (va : Word64) (desc : List Word64) (next : Word64)
  /-- A lease begin not granted (R394): line at its home. -/
  | lease (line : Nat) (next : Word64)
  /-- lease.end waiting for the homes' answers (R395): predicate, lanes. -/
  | leaseEnd (p : Fin 128) (lanes : Mask) (next : Word64)
  /-- wwait armed (R400): identifier, word PA, width 8, mask, comparison, comparand, outcome predicate, lanes, scope, deadline,
  whether it has no watch entry and polls, next poll time. -/
  | watch (id pa : Nat) (w8 : Bool) (mask : Word64) (c : Cmp) (comp : Word64) (p : Option (Fin 128)) (lanes : Mask)
      (scope : Scope) (deadline : Option Nat) (poll : Bool) (pollAt : Nat) (next : Word64)
  /-- An engine context that is RUNNING (R415). -/
  | context (c : Fin 2)
  /-- mshemit until it completes (R427). -/
  | mshemit (next : Word64)
  /-- A replay record that blocks the split (R117, R322): slot, and whether the instruction issues again after it. -/
  | record (slot : Fin 8)
deriving DecidableEq, Repr

/-- A run in progress (R157): PC of its first instruction, vector results so far (R312), the last instruction issued
before a park (R132), and whether instructions up to it are being passed again. -/
structure Run where
  first : Word64
  results : Nat
  last : Word64
  again : Bool
deriving DecidableEq, Repr

/-- One entry of the split table (R167). -/
structure Entry where
  pc : Word64
  via : Via
  src : Word64
  mask : Mask
  mode : BitVec 19
  join : BitVec 48
  jseq : BitVec 6
  wait : Wait
  run : Option Run
deriving DecidableEq, Repr

/-- A value in a q-register (R228, R405): 8 bytes, or one word per lane. `counted` is true until the entry's first
pop (R407). -/
structure QEntry where
  word : Word64
  row : Row
  counted : Bool
deriving DecidableEq, Repr

/-- A q-register (R225, R408). -/
structure QReg where
  port : BitVec 4
  entries : List QEntry
  retained : List QEntry
deriving DecidableEq, Repr

/-- One 32-bit destination of an operation in flight: register, lanes still to be written, values. -/
structure PendReg where
  reg : Nat
  lanes : Mask
  row : Row
deriving DecidableEq, Repr

/-- An operation of the group in flight whose results are still to be written (R384, R385, R420). -/
structure Pend where
  pc : Word64
  entry : Nat
  /-- Lanes whose results have returned or will, but are not written yet. -/
  lanes : Mask
  /-- Lanes recorded in a replay record. -/
  parked : Mask
  regs : List PendReg
  sdst : Option (Fin 64)
  sval : Word64
  pdst : Option (Fin 128)
  pval : Mask
  counted : Bool
  /-- Scope of the acquire that follows the loads (R387). -/
  acquire : Option Scope
  /-- Registers an instruction may not write while lanes are parked (R253, R385). -/
  srcV : List Nat
  srcS : List Nat
  render : Bool
  /-- Issued at or after RGNENTRY, so discarded by a pre-emption (R133). -/
  region : Bool
  /-- A store or atomic without a result: only parked lanes keep it. -/
  noResult : Bool
  /-- Lanes whose completion sets FLAGS.NV (R425). -/
  nv : Mask := 0
  /-- DRAWKEY and DRAWCTR as they stood at issue (R267). -/
  drawkey : Word64 := 0
  drawctr : Word64 := 0
deriving DecidableEq, Repr

/-- A replay-record slot (R114): eight words, and what the core keeps beside them. -/
structure RrSlotState where
  words : List Word64
  /-- The operation in flight the record belongs to; 0 none. -/
  pend : Nat
  entry : Nat
  /-- VA pages (or guest pages) not yet resolved, with class (R118). -/
  pages : List (Nat × Nat)
  region : Bool
  /-- Order of parks (R131). -/
  stamp : Nat
  /-- Engine command or context the record belongs to, for UNIT 2 to 4. -/
  cmd : Nat
  /-- The cause an UNRESOLVED record raises; 0 the cause of its class (R135, R462, R463). -/
  why : BitVec 8
  /-- eng.erd: the image as it stood at issue (R415). -/
  image : List Byte := []
  /-- Spilled progress of lanes, until the record has a slot (R116). -/
  spill : Tbl (List Byte) := []
  /-- Frames that the eviction hand skips until the record has replayed once (R131). -/
  guards : List Nat := []
deriving DecidableEq, Repr

/-- The region snapshot (R185): split table, DEPTH and BSEQ, with the lanes not exited (which `lpc` moves, R181). -/
structure Snapshot where
  live : Mask
  entries : Tbl Entry
  depth : Nat
  bseq : BitVec 6
deriving DecidableEq, Repr

/-- RGNMASK (R185). -/
structure RgnMask where
  all : Bool
  pmask : BitVec 16
  smask : BitVec 8
  vmask : BitVec 30
deriving DecidableEq, Repr

/-- A line that a group has leased (R213, R218): its address at its home, the PA as translation gave it, and whether it is
still held or has been lost. -/
structure HeldLease where
  line : Nat
  pa : Nat
  held : Bool
deriving DecidableEq, Repr

/-- A group (R2, R160 to R191). -/
structure Group where
  team : Nat
  index : Nat
  quarter : Nat
  slot : Nat
  /-- WIDTH.W (R180). -/
  width : Nat
  /-- The halves the group has become by wsplit, newest first: true the upper one. WIDTH.HALF is the newest (R180). -/
  halves : List Bool
  /-- Where its lanes stood at launch, one entry for each 16 lanes: group index, width at launch, lane of the first of
  them (R199). -/
  home : List (Nat × Nat × Nat)
  /-- Lanes not exited (R176, R188). -/
  live : Mask
  baseBlk : Nat
  extBlk : Nat
  v : Tbl Row
  s : Tbl Word64
  p : Tbl Mask
  /-- Latch chain b0 to b3, newest first (R166), each with the operation in flight it waits for (0 none). -/
  latch : List (Row × Nat)
  q : Tbl QReg
  entries : Tbl Entry
  /-- Entries as they stood at the last trap, while HND = 1: their waits go on (R187). -/
  suspended : Tbl Entry
  /-- DEPTH below the frame of the last trap. -/
  sdepth : Nat
  /-- The PC after each join location met, for a merge of HELD records alone (R174; DEDUCED, log 15). -/
  joinNext : Tbl Word64
  /-- For each ARM record, by depth: the PC of its br.d, and whether its target enters no slot (R324). -/
  arms : Tbl (Word64 × Bool)
  depth : Nat
  bseq : BitVec 6
  hnd : Bool
  jto : Bool
  flags : BitVec 7
  xpc : Word64
  xcause : BitVec 8
  xmode : BitVec 19
  xinfo : Word64
  trapbase : Word64
  csabase : Word64
  rgnentry : Word64
  rgnmask : RgnMask
  snap : Snapshot
  drawkey : Word64
  drawctr : Word64
  fusestat : BitVec 32
  /-- LEASESTAT.ENDOK and LOST (R218). -/
  endok : Bool
  lost : BitVec 4
  rr : Tbl RrSlotState
  outstanding : Nat
  pend : Tbl Pend
  /-- Faulted operations held while all slots are in use (R113): the pend, its pages. -/
  overflow : List RrSlotState
  /-- Lines leased, in order of begin (R213, R218). -/
  leases : List HeldLease
  ending : Bool
  /-- A PREEMPT held until xret or the end of an mshemit (R340, R428). -/
  preempt : Bool
  /-- mshemit: 0 none, 1 reading, 2 emitting (R427, R428). -/
  mshemit : Nat
  /-- FAILED contexts whose trap this group has taken (R412). -/
  failTaken : BitVec 2
  /-- Scalar sources of an mshemit in flight (R253). -/
  emitSrc : List Nat
  /-- HELD and LOST of LEASESTAT as `wsplit` has copied them, until the next end (R178). -/
  statCopy : BitVec 8
deriving DecidableEq, Repr

/-! ### Teams -/

/-- The kernel object's fields that a team keeps (R137). -/
structure Kernel where
  width : Nat
  groups : Nat
  baseBlk : Nat
  extKib : Nat
  tileKib : Nat
  priv : Nat
  csaStride : Word64
  csaVa : Word64
  restoreVa : Word64
  trapVa : Word64
  entry : Word64
deriving DecidableEq, Repr

/-- Private memory of a team, by launch index, lane and offset, in two layers (R199, R200): written back, and dirty in L1. -/
structure PrivMem where
  back : Tbl Byte
  dirty : Tbl Byte
deriving DecidableEq, Repr

/-- What the dispatcher keeps of a group for a restart (R193): which group it is, DEPTH, BSEQ, and what the model keeps
beside its stack. -/
structure Restart where
  index : Nat
  width : Nat
  halves : List Bool
  home : List (Nat × Nat × Nat)
  arms : Tbl (Word64 × Bool)
  depth : Nat
  bseq : BitVec 6
  joins : Tbl Word64
deriving DecidableEq, Repr

/-- One entry of a process-group table (R96). -/
structure PgEntry where
  devid : Word64
  rank : Nat
  first : Nat
  last : Nat
  rvin : Word64
  rvout : Word64
deriving DecidableEq, Repr

/-- What the CDP keeps of a process-group table: the devices, and the index of this one. -/
structure PgTable where
  entries : List PgEntry
  own : Nat
deriving DecidableEq, Repr

/-- A team (R137 to R151, R183). -/
structure Team where
  queue : Nat
  packet : Nat
  index : Nat
  part : Nat
  ctxidx : Nat
  asid : Nat
  prio : Nat
  start : Nat
  args : Word64
  kernel : Kernel
  /-- CLT, CLW, CLH (0 outside a cluster), rank, first team key of the cluster (R144, R146). -/
  clt : Nat
  clw : Nat
  clh : Nat
  rank : Nat
  cluster : Nat
  core : Nat
  placed : Bool
  restarting : Bool
  preempting : Bool
  gang : BitVec 35
  tile : Tbl Byte
  zeroing : Bool
  priv : PrivMem
  /-- Groups that have not ended, by group key. -/
  groups : List Nat
  /-- Extended-block units of 0.5 KiB in use per quarter (R163). -/
  extUsed : List Nat
  racqFifo : List (Nat × Nat)
  /-- Arrivals at team and cluster barriers: barrier id, group keys (R184). -/
  arrivals : Tbl (List Nat)
  cluArrivals : Tbl (List Nat)
  failed : Bool
  /-- DEPTH and BSEQ of each group for a restart (R193). -/
  restart : Tbl Restart
  saved : Bool
  /-- Private frames taken: frame numbers (R142). -/
  frames : List Nat
  /-- Slots (quarter, slot) and half-KiB of each quarter's register file that the team holds (R140, R141). -/
  slots : List (Nat × Nat)
  units : List Nat
  /-- The process group of a PGROUP launch (R96). -/
  pg : Option PgTable
deriving DecidableEq, Repr

/-! ### Caches, cores and dies -/

/-- A pending page of a fault filter, cluster stage or the FLE: partition, context, page number, class (R118). -/
structure PageKey where
  part : Nat
  ctx : Nat
  page : Nat
  s2 : Bool
deriving DecidableEq, Repr

/-- A cached line: bytes held, which of them are valid, dirty (R196, R197); class RO or constant. -/
structure CLine where
  data : Line
  valid : BitVec 128
  dirty : BitVec 128
  ro : Bool
  const : Bool
  part : Nat
  /-- RDC: writer mask (R196), FILLSTAMP. -/
  writers : BitVec 72
  stamp : Nat
  /-- RDC: cores whose render reads treat the line as absent (R222). -/
  xstale : BitVec 72
  /-- RDC: the way of its slice that holds it (R195, R99). -/
  way : Nat
  /-- The page that a migration hint for the line's publications names, where its leaf has MIG = 1 (R50). -/
  hint : Option PageKey
deriving DecidableEq, Repr

/-- A TLB entry (R47): tag, VA range, output, attributes of both stages combined. -/
structure Tlb where
  part : Nat
  asid : Nat
  va : Nat
  size : Nat
  pa : Nat
  w : Bool
  x : Bool
  xr : Bool
  d : Bool
  ac : BitVec 2
  mig : Bool
  /-- PA of the stage-2 leaf it was built on, 0 where there is none (R464). -/
  leaf2 : Nat
  /-- Two stages: the guest PA it maps from, and the guest pages of the stage-1 tables it used (R81). -/
  two : Bool
  gpa : Nat
  gpas : List Nat
deriving DecidableEq, Repr

/-- A walk-cache entry (R47): partition, ASID (stage 1), the level's shift and index, and the table PA it points to, or
the stage-2 leaf and its PA. -/
structure WalkEnt where
  part : Nat
  asid : Nat
  sh : Nat
  idx : Nat
  leaf : Bool
  val : Nat
  epa : Nat
deriving DecidableEq, Repr

/-- A fault-filter entry (R118): the page, its class, union of ACC, waiting records as (group key, slot). -/
structure FilterEntry where
  key : PageKey
  cls : Nat
  acc : BitVec 5
  waiters : List (Nat × Nat)
  sent : Bool
  pred : Bool
  hint : Bool
deriving DecidableEq, Repr

/-- A selector of one quarter (R153, R154). -/
structure Quarter where
  wheel : Nat
  lastSlot : Nat
  /-- Of each slot, the entry that issued last: 0 to 3 the lo group's, 4 to 7 the hi group's. -/
  lastEntries : List Nat
  /-- Run in progress: group key and entry. -/
  run : Option (Nat × Nat)
  /-- Wheel positions whose hi half was served last (R154). -/
  turns : BitVec 64
deriving DecidableEq, Repr

/-- The operands of one chunk, as the tile fetch unit has read them (R247): rows of A, pieces of B, scales. -/
structure Chunk where
  depth : Nat
  a : List (List Byte)
  b : List (List Byte)
  sa : List (List Byte)
  sb : List (List Byte)
deriving DecidableEq, Repr

/-- Why the fetch of a chunk did not complete (R250): a parked class with its address, or a trap. -/
structure ChunkFault where
  depth : Nat
  operand : Nat
  cls : Nat
  addr : Nat
  trap : BitVec 8
deriving DecidableEq, Repr

/-- An MXE context (R242 to R250). -/
structure MxeCtx where
  state : BitVec 3
  /-- The eight words of its descriptor. -/
  desc : List Word64
  descVa : Word64
  /-- Counters of control word 0. -/
  pops : Nat
  depth : Nat
  row : Nat
  col : Nat
  fop : BitVec 3
  /-- GANG as latched (control word 1). -/
  gang : Word64
  /-- Accumulator words that are not 0, by 64 · row + column. -/
  acc : Tbl (BitVec 32)
  owner : Nat
  /-- Members of the gang, member 0 first (`Group.ident`). -/
  members : List Nat
  staged : List Chunk
  fault : Option ChunkFault
  /-- Whether delivery runs (DRAIN), and how many pops have been taken. -/
  delivering : Bool
  taken : Nat
  flags : BitVec 7
  /-- Cause of a FAILED context. -/
  cause : BitVec 8
deriving DecidableEq, Repr

/-- A raster state as an mshemit has read it (R275), with the launch and the context it works for. -/
structure Raster where
  queue : Nat
  packet : Nat
  part : Nat
  ctxidx : Nat
  asid : Nat
  prio : Nat
  va : Word64
  pkobj : Word64
  kernel : Option Kernel
  mapva : Word64
  args : Word64
  sw : Nat
  sh : Nat
  zctl : BitVec 4
  zclear : BitVec 32
deriving DecidableEq, Repr

/-- A raster quad on its way to a core, or waiting there for a pixel group (R278 to R280): MESHID, triangle, covered
pixels, position, owning core and depth slot, and bu, bv, z of each pixel. -/
structure Quad where
  raster : Raster
  mesh : Word32
  tri : Nat
  cover : BitVec 4
  x : Nat
  y : Nat
  core : Nat
  slot : Nat
  words : List Word32
deriving DecidableEq, Repr

/-- An mshemit in progress on the RSU of a core (R276 to R280). -/
structure RsuJob where
  group : Nat
  entry : Nat
  state : Word64
  meshlets : Word64
  count : Nat
  /-- First meshlet whose data is incomplete. -/
  next : Nat
  raster : Option Raster
  quads : List Quad
  read : Bool
deriving DecidableEq, Repr

/-- A core (R1, R195). -/
structure Core where
  quarters : List Quarter
  l1 : Tbl CLine
  icache : Tbl Line
  xcache : Tbl Line
  acqstamp : Nat
  tlb : List Tlb
  filter : List FilterEntry
  mxe : List MxeCtx
  rsu : List RsuJob
  /-- Depth store of the RSU (R279): the raster state that holds it, and its words that are not ZCLEAR, by
  1024 · slot + 32 · row + column. -/
  depthFor : Option Raster
  depth : Tbl (BitVec 32)
  pixel : List Quad
  patch : Nat
deriving DecidableEq, Repr

/-- A command in an engine intake or in progress (R227, R234, R239). -/
structure EngCmd where
  id : Nat
  /-- The COPY packet (queue, packet index) the command comes from, if it is one. -/
  packet : Option (Nat × Nat)
  team : Nat
  /-- Which group of the team (`Group.ident`), for results across a restart (R230). -/
  ident : Nat
  part : Nat
  ctxidx : Nat
  asid : Nat
  port : BitVec 4
  words : List Word64
  /-- 0 in the intake, 1 running, 2 parked, 3 finished. -/
  phase : Nat
  done : Nat
  status : Nat
  cls : Nat
  elemMask : Mask
  record : Option Nat
  /-- Collective: the matched set it belongs to; 0 none yet. -/
  set : Nat
  /-- Fault met and not yet parked: class, address, ACC. -/
  fault : Option (Nat × Nat × Nat)
  /-- The launch the command belongs to: queue and packet (R147, R239). -/
  launch : Nat × Nat
  /-- A member that lives on another device: its SRC bytes (R238, R239). -/
  data : List Byte := []
  remote : Bool := false
  pg : Option PgTable := none
  /-- CLT and cluster of the pushing team (R239). -/
  clt : Nat := 0
  cluster : Nat := 0
deriving DecidableEq, Repr

/-- What members of one collective share (R239): scope, KEY, launching packet, cluster (scope 00). -/
structure CollKey where
  scope : Nat
  key : Nat
  launch : Nat × Nat
  cluster : Nat
deriving DecidableEq, Repr

/-- A result held for a group while no q-register is bound to its port, or during pre-emption (R228, R230). -/
structure HeldResult where
  team : Nat
  ident : Nat
  port : BitVec 4
  entry : QEntry
deriving DecidableEq, Repr

/-- A cluster-stage entry (R119). -/
structure StageEntry where
  key : PageKey
  cls : Nat
  acc : BitVec 5
  count : Nat
  pred : Bool
  sent : Bool
deriving DecidableEq, Repr

/-- A compute die (R1, R104, R195). -/
structure Die where
  clock : Nat
  pstate : Nat
  changing : Option Nat
  thermal : Bool
  tlb : List Tlb
  /-- RDC lines, by 16 · line + partition: a line is held only in ways of the partition that filled it (R99, R198). -/
  rdc : Tbl CLine
  stage : List StageEntry
  copy : List EngCmd
  coll : List EngCmd
  copyRr : Tbl RrSlotState
deriving DecidableEq, Repr

/-! ### Memory side -/

/-- A watch entry (R83): the word, its condition, and whom it wakes. -/
structure Watch where
  id : Nat
  /-- Slice of the word's home and entry number there (R83). -/
  slice : Nat
  entry : Nat
  part : Nat
  pa : Nat
  w8 : Bool
  mask : Word64
  cmp : Cmp
  comp : Word64
  /-- 0 group split, 1 CDP packet, 2 queue write index (R83). -/
  kind : Nat
  token : Nat
  token2 : Nat
  polled : Bool
  /-- It has fired, with this word, and its entry waits to be posted (R94). -/
  fired : Option Nat
deriving DecidableEq, Repr

/-- Who asks a home for a line: a group, an engine's command, the CDP for a queue, the tile fetch of a matrix context, or an
agent whose every try is a request of its own (an eviction, a snoop, a walk). -/
inductive Asker where
  | group (k : Nat)
  | cmd (id : Nat)
  | queue (q : Nat)
  | mxe (core ctx : Nat)
  | once
deriving DecidableEq, Repr

/-- A request that waits at a home (R213, R214): a lease begin of a group, with the PA as translated, or an access. -/
inductive LeaseReq where
  | lease (k pa : Nat)
  | access (a : Asker)
deriving DecidableEq, Repr

/-- A lease at its home (R213 to R216): holder, deadline, image, and what waits, in order of arrival (R214). -/
structure LeaseHold where
  holder : Option Nat
  deadline : Nat
  image : Line
  written : BitVec 128
  queue : List LeaseReq
deriving DecidableEq, Repr

/-- A frame's directory entry (R49) with the records waiting protection (R131). -/
structure Frame where
  blk : Nat
  part : Nat
  state : Nat
  refb : Bool
  valid : BitVec 16
  dirty : BitVec 16
  leaf : Tbl Nat
  /-- For each sector that a leaf maps, the entry above that leaf's table. -/
  up : Tbl Nat
deriving DecidableEq, Repr

/-- A migration, an eviction or a remote mapping in progress (R52, R54, R56, R464). -/
structure Move where
  id : Nat
  part : Nat
  /-- 0 page into a frame, 1 eviction, 2 remote mapping. -/
  kind : Nat
  frame : Nat
  sector : Nat
  /-- Step of R52 or R54 reached. -/
  step : Nat
  /-- The handoff has begun: later requests wait for the new home (R52 step 3). -/
  handing : Bool
  /-- Output ranges whose entries the invalidation removes, tables replaced, leaves rewritten (R464). -/
  ranges : List (Nat × Nat)
  tables : List Nat
  leaves : List Nat
  /-- The invalidation has completed. -/
  inval : Bool
  /-- The page that is resolved then. -/
  key : Option PageKey
deriving DecidableEq, Repr

/-! ### The Fulling Engine -/

/-- A page entry of a sorus (R121), with the times a RESOLVED reply has failed (R130). -/
structure FlePage where
  key : PageKey
  acc : BitVec 5
  cls : Nat
  pred : Bool
  doneSt : Nat
  waits : List Nat
  hv : Bool
  hdie : Nat
  tries : Nat
  /-- It waits in its sorus for a tag, a table frame or the end of an eviction (R55, R58, R127). -/
  held : Bool
  /-- The guest page whose stage-2 translation a stage-1 page lacks (R122). -/
  gpage : Option Nat
deriving DecidableEq, Repr

/-- A sorus slot (R121). -/
structure Sorus where
  state : Nat
  opened : Nat
  order : Nat
  pages : List FlePage
deriving DecidableEq, Repr

/-- A page request outstanding (R127): function, stage-2 VF (0 for its own), tag, page. -/
structure PageReq where
  fn : Nat
  vf : Nat
  tag : Nat
  page : FlePage
deriving DecidableEq, Repr

/-- The FLE (R120 to R130). -/
structure Fle where
  sori : Tbl Sorus
  order : Nat
  reqs : List PageReq
  /-- Pages that enter the open sorus as soon as a slot is free (R120, R130). -/
  queue : List FlePage
  hints : List (Nat × PageKey × Nat × Bool)
  pol : BitVec 32
deriving DecidableEq, Repr

/-! ### Host interface -/

/-- What leaves on a peer port: a write, a rendezvous atomic (added, or set), or a collective member (R27, R147, R237, R239). -/
inductive PeerMsg where
  | write (rank : Nat) (va : Word64) (bytes : List Byte)
  | add (rank : Nat) (va : Word64) (n : Word64)
  | set (rank : Nat) (va : Word64) (n : Word64)
  | member (desc : List Word64) (off : Nat) (bytes : List Byte)
deriving DecidableEq, Repr

/-- A request through a BAR window (R87): function, offset, bytes left to read with those read, or bytes to write. -/
inductive WinReq where
  | read (fn off n : Nat) (got : List Byte)
  | write (fn off : Nat) (bytes : List Byte)
deriving DecidableEq, Repr

/-- A packet copied from a ring (R69 to R80). -/
structure Packet where
  queue : Nat
  index : Nat
  words : List Word64
  /-- 0 held, not started; 7 started, its lane still serves it (R76, R88); 1 started; 2 effect complete; 3 and 4 a PGROUP
  at steps 2 and 5 of R147, 8 past them; 5 failed, its signal still to be set; 6 failed, its running teams still counted
  (R89). -/
  phase : Nat
  start : Nat
  kernel : Option Kernel
  asid : Nat
  /-- Next linear index to place, end of the share, teams placed and not ended. -/
  nextTeam : Nat
  endTeam : Nat
  running : Nat
  restarts : List Nat
  watches : List Nat
  latched : List Bool
  cmds : List Nat
  /-- Quotas in force when the packet started (R103). -/
  quota : BitVec 64
  /-- The process group of a PGROUP. -/
  pg : Option PgTable
  /-- An ADMIN command that was refused (R80). -/
  refused : Bool := false
  /-- Its completion signal's page is waited for; that word can not be written (R88). -/
  stuck : Bool := false
  nosig : Bool := false
  /-- It was held behind 16 packets in flight, so it waits as though BARRIER were set (R69). -/
  barred : Bool := false
  /-- Rendezvous words whose page could not be resolved, which are left as they are (R88, R148). -/
  lost : List Nat := []
  /-- Its PGROUP has aborted on another device (R148, R239). -/
  gone : Bool := false
deriving DecidableEq, Repr

/-- A queue: the fields of its descriptor (R63), its lane request, its write-index watch, and the page it is parked on
(R88). -/
structure Queue where
  base : Word64
  widx : Word64
  ridx : Word64
  seen : Word64
  energy : Word64
  faultva : Word64
  size : Nat
  prio : Nat
  part : Nat
  stat : Nat
  en : Bool
  ctx : Nat
  inflight : Nat
  abcode : Nat
  abidx : Word64
  asked : Bool
  watch : Nat
  parked : Option PageKey
  /-- Limits of its copying into the lane: packets served in a row (R66). -/
  served : Nat
  /-- When it asked for its lane (R66). -/
  askedAt : Nat
  /-- The packet whose access parked it (R88). -/
  blocked : Option Nat
deriving DecidableEq, Repr

/-- A completion queue (R90). -/
structure Cq where
  base : Word64
  ctl : BitVec 32
  head : BitVec 32
  tail : BitVec 32
  irq : BitVec 32
  stat : BitVec 32
  phase : Bool
  buffer : List (BitVec 128)
  unann : Nat
  since : Nat
deriving DecidableEq, Repr

/-- A function: physical function 0, VF1 to VF8 (R90, R95, R125, R87). -/
structure Fn where
  cqs : Tbl Cq
  tmapdir : Word64
  winbase : Word64
  masked : BitVec 2048
  pending : BitVec 2048
  sent : List Nat
deriving DecidableEq, Repr

/-- A partition (R39, R58, R99 to R105). `withheld` is WHELD, `capUnmet` the time of the last CAP_UNMET entry, `ptr` and
`lastDie` where placement stands (R142), `hand` the eviction hand of each die (R54), `spare` the spare tables (R58). -/
structure Part where
  coreset : BitVec 288
  pqueue : BitVec 32
  pframes : BitVec 64
  pways : BitVec 64
  pwatch : BitVec 32
  pcap : BitVec 64
  pctl : BitVec 32
  quota : BitVec 64
  ctxtbase : Word64
  ctxtcount : Nat
  tfrbase : Word64
  tfrsize : Nat
  tfrhead : BitVec 32
  tfrtail : BitVec 32
  spare : List Nat
  ptr : Nat
  lastDie : Nat
  hand : Tbl Nat
  capUnmet : Option Nat
  withheld : Nat
  est : BitVec 12
  padmw : Word64
  padmr : Word64
  /-- EN = 0 has been written, or the VF reset: the tear-down runs (R101). -/
  tearing : Bool
deriving DecidableEq, Repr

/-- A port (R22, R26, R28 to R33): PORTCTL, PORTSTAT, when a recovery ends, and whether it left the pool's active set. -/
structure Port where
  ctl : BitVec 32
  stat : BitVec 32
  deadline : Nat
  lost : Bool
  /-- It has been up since ENABLE last rose (R33), and runs in 68-byte flit mode (R22). -/
  ran : Bool
  flit68 : Bool
  /-- Configured IDE streams (R28): whether each protects CXL.cache and CXL.mem, and whether it is keyed. -/
  streams : Tbl (Bool × Bool)
deriving DecidableEq, Repr

/-- A die-to-die link (R14, R17). -/
structure LinkState where
  errors : Nat
  replays : Nat
  failed : Bool
deriving DecidableEq, Repr

/-- The two flash slots of a firmware (R109, R110): the image that a normal start loads, the previous one, and whether this
start runs that. -/
structure Firmware where
  current : Image
  other : Image
  backup : Bool
deriving DecidableEq, Repr

/-- The boot-step record as it will stand at the next start, and the maps in force since this one (R109). A map bit
set is a unit taken out of use. -/
structure Boot where
  steps : List (BitVec 64)
  coreMap : BitVec 288
  channelMap : BitVec 24
  portMap : BitVec 8
  coreOut : BitVec 288
  channelOut : BitVec 24
  portOut : BitVec 8
  /-- PORTCTL of each port as the record loads it (R29). -/
  ctl : List (BitVec 32)
  stopped : Bool
  /-- Port 0 trains PCIe directly since this start (R32). -/
  pcieOnly : Bool
  /-- Ways masked since this start, 32 bits to a die (step 8). -/
  waysOut : BitVec 128
  /-- The management firmware of step 2, the CDP firmware of step 14. -/
  mgmt : Firmware
  cdp : Firmware
deriving DecidableEq, Repr

/-! ### The whole -/

/-- Moves the step can take; what the spec leaves to order and chance is a choice among them (DESIGN CHOICE, log 3). -/
inductive Act where
  /-- One selection cycle of a quarter (R153). -/
  | cycle (core quarter : Nat)
  /-- A device event. -/
  | event (i : Instr)
  /-- The clock of a die, or of the hub (4), advances by n + 1 cycles. -/
  | tick (die n : Nat)
  /-- A cache fills a line ahead of use: core, line (R205, R397). -/
  | fill (core line : Nat)
  /-- A line leaves an L2 slice: its predictor is lost (R215). -/
  | dropL2 (line : Nat)
  /-- A GDDR7 channel corrects an error (R21). -/
  | corrected (channel : Nat)
  /-- An engine performs the next piece of a command: die, id. -/
  | copyStep (die id : Nat)
  | collStep (die id : Nat)
  /-- A matrix engine performs its next chunk or pop. -/
  | mxeStep (core ctx : Nat)
deriving DecidableEq, Repr

/-- The split for which an instruction executes: group key, entry, and the PC and line facts of the instruction. -/
structure Focus where
  group : Nat
  entry : Nat
  /-- PC of the first prefix, of the instruction word, and of the next instruction. -/
  pc : Word64
  word : Word64
  next : Word64
  /-- The next instruction lies in the next line (fall-through). -/
  nextFall : Bool
deriving DecidableEq, Repr

/-- The memory image: bytes by physical address; what is not listed reads 0 (DESIGN CHOICE, log 2). -/
abbrev Memory := Tbl Byte

/-- Everything outside the cores, the dies and memory's bytes. -/
structure Dev where
  /-- Poisoned sectors (R21), with the bytes written since. -/
  poison : Tbl (BitVec 4096)
  /-- Corrected errors counted on each GDDR7 channel, 6 to a die (R21). -/
  corrected : Tbl Nat
  zeroingFrames : List Nat
  /-- The hub's cycle count, and the cycles of the last power estimate and the last decay of the counters (R105, R50). -/
  hub : Nat
  estimated : Nat
  decayed : Nat
  /-- Activity of each queue since the last estimate (R106). -/
  activity : Tbl Nat
  watches : List Watch
  nextId : Nat
  sharers : Tbl (List (Nat × BitVec 4))
  leases : Tbl LeaseHold
  predict : Tbl (Nat × Bool)
  counters : Tbl (List Nat)
  /-- Lines the host holds (R59): whether it may write them, and the order of their record. -/
  hostLines : Tbl (Bool × Nat)
  /-- Lines whose BISnp is out: whether it is BISnpInv (R59). -/
  heldBirsp : Tbl Bool
  frames : Tbl Frame
  /-- The partition that a frame last belonged to (R108). -/
  frameOwner : Tbl Nat
  moves : List Move
  migthresh : BitVec 32
  walk1 : List WalkEnt
  walk2 : List WalkEnt
  fle : Fle
  qdtbase : Word64
  queues : Tbl Queue
  /-- Each engine's lanes: lane number and queue. -/
  lanes : List (Tbl Nat)
  laneReqs : List (List Nat)
  packets : List Packet
  fns : Tbl Fn
  parts : Tbl Part
  ssidx : Word64
  ssdata : Word64
  held : List HeldResult
  /-- Collectives whose members did not agree: later members complete MISMATCH too (R239). -/
  mismatched : List CollKey
  energy : Tbl Nat
  ports : List Port
  links : List LinkState
  poolPorts : BitVec 8
  boot : Boot
  stopped : Bool
  /-- The last answer of the SPDM responder (R111), and of a read through a window or over CXL.mem: none for Unsupported
  Request (R87). -/
  spdm : List Word64
  hostRead : Option (List Byte)
  peerOut : List PeerMsg
  /-- Requests of peers that wait for a page (R237). -/
  peerWaits : List (PeerReq × PageKey)
  /-- Requests through the BAR windows in the order port 0 received them (R87). -/
  window : List WinReq
deriving DecidableEq, Repr

/-- The device, the model's own focus, agenda, due events and free-value counter. -/
structure State where
  focus : Option Focus
  agenda : List Act
  pending : List Instr
  free : Nat
  mem : Memory
  groups : Tbl Group
  teams : Tbl Team
  cores : Tbl Core
  dies : Tbl Die
  dev : Dev
deriving DecidableEq, Repr

/-- PORTCTL after reset (R29): IDEREQ and LOFLIT; on port 0 ROLE 01 and ENABLE as well. -/
def ctlReset (n : Nat) : BitVec 32 := if n == 0 then 0x415 else 0x410

/-- A port after reset: PORTSTAT is 0 (R31). -/
def Port.reset (n : Nat) : Port :=
  { ctl := ctlReset n, stat := 0, deadline := 0, lost := false, ran := false, flit68 := false, streams := [] }

/-- Firmware that passes every check (DESIGN CHOICE, log 6). -/
def Firmware.reset : Firmware :=
  { current := { verifies := true, version := 0xFFFF, words := [] },
    other := { verifies := true, version := 0xFFFF, words := [] }, backup := false }

/-- The boot-step record of a device on which nothing has failed (DESIGN CHOICE, log 6). -/
def Boot.reset : Boot :=
  { steps := List.replicate 16 0, coreMap := 0, channelMap := 0, portMap := 0, coreOut := 0, channelOut := 0,
    portOut := 0, ctl := [0, 1, 2, 3, 4, 5, 6, 7].map ctlReset, stopped := false, pcieOnly := false, waysOut := 0,
    mgmt := Firmware.reset, cdp := Firmware.reset }

/-- FLEPOL after reset (R123): SEQEN and TMAPEN 1, SEQN 100, WAITMIG 0x08. -/
def Fle.reset : Fle :=
  { sori := [], order := 0, reqs := [], queue := [], hints := [], pol := 0x1C008 }

/-- Everything outside the cores, dies and bytes after reset. An unlisted function, partition, port register, frame or
queue is at the reset value that the operation which reads it names (`fnAt`, `partAt`, `queueAt`). -/
def Dev.reset : Dev :=
  { poison := [], corrected := [], zeroingFrames := [], hub := 0, estimated := 0, decayed := 0, activity := [], watches := [], nextId := 1, sharers := [], leases := [], predict := [],
    counters := [], hostLines := [], heldBirsp := [], frames := [], frameOwner := [], moves := [], migthresh := 0x20, walk1 := [],
    walk2 := [], fle := Fle.reset, qdtbase := 0, queues := [], lanes := List.replicate 8 [],
    laneReqs := List.replicate 8 [], packets := [], fns := [], parts := [], ssidx := 0,
    ssdata := 0, held := [], mismatched := [], energy := [],
    ports := [Port.reset 0, Port.reset 1, Port.reset 2, Port.reset 3, Port.reset 4, Port.reset 5, Port.reset 6,
      Port.reset 7],
    links := List.replicate 8 { errors := 0, replays := 0, failed := false }, poolPorts := 0, boot := Boot.reset,
    stopped := false, spdm := [], hostRead := none, peerOut := [], peerWaits := [], window := [] }

/-- The machine right after reset: no group, every register at its reset value, memory with nothing listed. An unlisted
core or die is at its reset value (`coreAt`, `dieAt`). -/
def State.reset : State :=
  { focus := none, agenda := [], pending := [], free := 0, mem := [], groups := [], teams := [], cores := [],
    dies := [], dev := Dev.reset }

end Sys2Proof.Machine
end

