-- ==== Sys2Proof/Machine/Prog.lean ====
section
/-! DEFINITION. Programs over the state: what a meaning does is a sequence of reads and of the named updates below,
and nothing else, so that what every update keeps every meaning keeps. -/

namespace Sys2Proof.Machine

/-- What an unlisted byte of memory reads as (DESIGN CHOICE, log 2). -/
def memDefault : Byte := 0

/-- Reads one byte of memory. -/
def Memory.get (m : Memory) (a : Nat) : Byte := Tbl.getD m a memDefault

/-- Writes one byte of memory, keeping the canonical form. -/
def Memory.set (m : Memory) (a : Nat) (b : Byte) : Memory := Tbl.setD m a memDefault b

/-- The canonical form of memory: addresses strictly rising, no entry equal to what an unlisted address reads as. -/
def Memory.wf (m : Memory) : Bool := Tbl.wf m && m.all fun c => c.2 != memDefault

/-- The updates of the state. -/
inductive Upd where
  | byte (a : Nat) (b : Byte)
  | group (k : Nat) (g : Group)
  | noGroup (k : Nat)
  | team (k : Nat) (t : Team)
  | noTeam (k : Nat)
  | core (k : Nat) (c : Core)
  | noCore (k : Nat)
  | die (k : Nat) (d : Die)
  | noDie (k : Nat)
  | dev (d : Dev)
  | focus (f : Option Focus)
  | agenda (l : List Act)
  | pending (l : List Instr)
  | free (n : Nat)
deriving DecidableEq, Repr

/-- The effect of one update. -/
def Upd.apply (u : Upd) (s : State) : State :=
  match u with
  | .byte a b => { s with mem := s.mem.set a b }
  | .group k g => { s with groups := Tbl.put s.groups k g }
  | .noGroup k => { s with groups := Tbl.del s.groups k }
  | .team k t => { s with teams := Tbl.put s.teams k t }
  | .noTeam k => { s with teams := Tbl.del s.teams k }
  | .core k c => { s with cores := Tbl.put s.cores k c }
  | .noCore k => { s with cores := Tbl.del s.cores k }
  | .die k d => { s with dies := Tbl.put s.dies k d }
  | .noDie k => { s with dies := Tbl.del s.dies k }
  | .dev d => { s with dev := d }
  | .focus f => { s with focus := f }
  | .agenda l => { s with agenda := l }
  | .pending l => { s with pending := l }
  | .free n => { s with free := n }

/-- A program that answers an α. -/
inductive Prog (α : Type) where
  | pure (a : α)
  | upd (u : Upd) (k : Prog α)
  | get (k : State → Prog α)

/-- One program after another. -/
def Prog.bind {α β : Type} (p : Prog α) (f : α → Prog β) : Prog β :=
  match p with
  | .pure a => f a
  | .upd u k => .upd u (Prog.bind k f)
  | .get k => .get fun s => Prog.bind (k s) f

/-- The structure behind do notation for programs. -/
@[reducible] def Prog.monad : Monad Prog := { pure := Prog.pure, bind := Prog.bind }

/-- Runs a program: its answer and the state it leaves. A program always ends. -/
def Prog.run {α : Type} (p : Prog α) (s : State) : α × State :=
  match p with
  | .pure a => (a, s)
  | .upd u k => Prog.run k (u.apply s)
  | .get k => Prog.run (k s) s

/-- Outcome of an instruction. -/
abbrev Out := Host.Outcome State Fault Refusal

/-- A program as the outcome of a step. -/
def Prog.outcome {α : Type} (p : Prog α) (s : State) : Out := .next (p.run s).2

/-- What an instruction of a split does: the program for a state in which the split stands there to execute it. -/
structure Meaning where
  prog : State → Option (Prog Unit)

/-- An instruction as the outcome of a step. One that no split executes changes nothing (DESIGN CHOICE, log 3). -/
def Meaning.outcome (m : Meaning) (s : State) : Out :=
  match m.prog s with
  | some p => p.outcome s
  | none => .next s

/-- Reads something of the state. -/
def look {α : Type} (f : State → α) : Prog α := .get fun s => .pure (f s)

/-- Makes one update. -/
def emit (u : Upd) : Prog Unit := .upd u (.pure ())

/-- Does nothing. -/
def skip : Prog Unit := .pure ()

/-- Changes the device part. -/
def modDev (f : Dev → Dev) : Prog Unit := .get fun s => .upd (.dev (f s.dev)) (.pure ())

/-- Makes an event due. -/
def due (i : Instr) : Prog Unit := .get fun s => .upd (.pending (s.pending ++ [i])) (.pure ())

/-- A fresh index for the free values (DESIGN CHOICE, log 4). -/
def fresh : Prog Nat := .get fun s => .upd (.free (s.free + 1)) (.pure s.free)

/-- A fresh identifier. -/
def newId : Prog Nat := .get fun s => .upd (.dev { s.dev with nextId := s.dev.nextId + 1 }) (.pure s.dev.nextId)

/-- Does something for each element, in order. -/
def each {α : Type} (l : List α) (f : α → Prog Unit) : Prog Unit :=
  match l with
  | [] => skip
  | x :: rest => Prog.bind (f x) fun _ => each rest f

/-- The answers for each element, in order. -/
def collect {α β : Type} (l : List α) (f : α → Prog β) : Prog (List β) :=
  match l with
  | [] => .pure []
  | x :: rest => Prog.bind (f x) fun y => Prog.bind (collect rest f) fun ys => .pure (y :: ys)

/-- Whether some element answers true; every element is asked, in order. -/
def anyOf {α : Type} (l : List α) (f : α → Prog Bool) : Prog Bool :=
  match l with
  | [] => .pure false
  | x :: rest => Prog.bind (f x) fun b => Prog.bind (anyOf rest f) fun c => .pure (b || c)

end Sys2Proof.Machine
end

