-- ==== Sys2Proof/Machine/Operands.lean ====
section
/-! DEFINITION. Operands: which registers an instruction names (for REG_RANGE, latch and readiness checks), its kind
(whole-group, non-idempotent, control), and the reading of every operand form. -/

namespace Sys2Proof.Machine

/-- Registers an instruction reads and writes, by number. -/
structure RegUse where
  vr : List Nat := []
  vw : List Nat := []
  sr : List Nat := []
  sw : List Nat := []
  pr : List Nat := []
  pw : List Nat := []
  latch : List Nat := []
deriving DecidableEq, Repr

def RegUse.both (a b : RegUse) : RegUse :=
  { vr := a.vr ++ b.vr, vw := a.vw ++ b.vw, sr := a.sr ++ b.sr, sw := a.sw ++ b.sw, pr := a.pr ++ b.pr,
    pw := a.pw ++ b.pw, latch := a.latch ++ b.latch }

/-- All of a list of uses. -/
def joinUse (l : List RegUse) : RegUse := l.foldl RegUse.both {}

/-- n registers from the field of a vector source. -/
def useV (a : VSrc) (n : Nat) : RegUse :=
  match a with
  | .v r => { vr := upTo r.val n }
  | .b k => { latch := [k.val] }
  | _ => {}

def useS (a : SSrc) : RegUse :=
  match a with
  | .s r => { sr := [r.val] }
  | _ => {}

def useSB (b : SB) : RegUse :=
  match b with
  | .reg a => useS a
  | .byte _ => {}

def useVB (b : VB) (n : Nat) : RegUse :=
  match b with
  | .vec a => useV a n
  | .sreg a => useS a

def defV (d : VDst) (n : Nat) : RegUse :=
  match d with
  | .v r => { vw := upTo r.val n }
  | .discard => {}

def defS (d : SDst) : RegUse :=
  match d with
  | .s r => { sw := [r.val] }
  | .discard => {}

def defP (d : Fin 128) : RegUse := { pw := [d.val] }
def useP (a : Fin 128) : RegUse := { pr := [a.val] }

def useAddr (a : MAddr) : RegUse :=
  match a with
  | .pair r => { vr := [r.val, r.val + 1] }
  | .sreg r => { sr := [r.val] }
  | .zero => {}

/-- Third operand: EXT C, or the old destination without EXT (R356, R363). -/
def useThird (c : Option VSrc) (d : VDst) (n : Nat) : RegUse :=
  match c with
  | some c => useV c n
  | none =>
    match d with
    | .v r => { vr := upTo r.val n }
    | .discard => {}

/-- Registers of an access size (R382). -/
def sizeRegs (sz : MSize) : Nat :=
  match sz with
  | .b64 => 2
  | .b128 => 4
  | _ => 1

/-- Registers of an atomic (R391). -/
def atomRegs (w8 : Bool) : Nat := if w8 then 2 else 1

/-- Registers of the source and the destination of a conversion (R294, R370). -/
def cvtSrcRegs (op : CvtOp) : Nat :=
  match op with
  | .f64ToF32 | .f64ToI32 | .i64ToI32 => 2
  | _ => 1

def cvtDstRegs (op : CvtOp) : Nat :=
  match op with
  | .f32ToF64 | .i32ToF64 => 2
  | _ => 1

/-- The registers an instruction names. -/
def regUse (i : Instr) : RegUse :=
  match i with
  | .brU _ p _ _
  | .brUAny _ p _ _
  | .brD _ p _ _ _ _ => useP p
  | .call _ p _ _ => joinUse [useP p, { sw := [62] }]
  | .brx _ x
  | .modeScalar _ x
  | .swr _ x _ => useS x
  | .brxCall _ x => joinUse [useS x, { sw := [62] }]
  | .wsplit _ d
  | .wfuse _ d _
  | .srd _ d _
  | .qStat _ d _ => defS d
  | .lpc _ d x b => joinUse [useS d, { vr := x.val :: ((upTo 0 30).filter b.getLsbD).flatMap fun k => upTo (8 * k) 8 }]
  | .sadd _ _ d x y
  | .ssub _ _ d x y
  | .smul _ _ d x y
  | .sand _ _ d x y
  | .sor _ _ d x y
  | .sxor _ _ d x y
  | .sshl _ _ d x y
  | .sshr _ _ d x y
  | .ssar _ _ d x y
  | .smin _ _ d x y
  | .smax _ _ d x y => joinUse [defS d, useS x, useSB y]
  | .smov _ _ d y => joinUse [defS d, useSB y]
  | .scmpEq _ _ d x y
  | .scmpNe _ _ d x y
  | .scmpLt _ _ d x y
  | .scmpLtu _ _ d x y
  | .scmpLe _ _ d x y
  | .scmpLeu _ _ d x y => joinUse [defP d, useS x, useSB y]
  | .sbfx _ _ d x y _ => joinUse [defS d, useS x, useSB y]
  | .vtos _ d x y => joinUse [defS d, useV x 1, (match y with
      | .num _ => {}
      | .sreg z => useS z)]
  | .sld _ _ d x _ _ _ _ => joinUse [defS d, useS x]
  | .sst _ _ d x _ _ _ _ => joinUse [useS d, useS x]
  | .iadd _ _ d x y
  | .isub _ _ d x y
  | .imul _ _ d x y
  | .imulh _ _ d x y
  | .imulhu _ _ d x y
  | .vAnd _ _ d x y
  | .vOr _ _ d x y
  | .vXor _ _ d x y
  | .vAndn _ _ d x y
  | .shl _ _ d x y
  | .shr _ _ d x y
  | .sar _ _ d x y
  | .rot _ _ d x y
  | .imin _ _ d x y
  | .imax _ _ d x y
  | .umin _ _ d x y
  | .umax _ _ d x y
  | .fadd _ _ d x y
  | .fsub _ _ d x y
  | .fmul _ _ d x y
  | .fmin _ _ d x y
  | .fmax _ _ d x y
  | .pack _ _ d x y
  | .unpack _ _ d x y => joinUse [defV d 1, useV x 1, useVB y 1]
  | .imad _ _ d x y z
  | .ffma _ _ d x y z
  | .fdot2 _ _ d x y z => joinUse [defV d 1, useV x 1, useVB y 1, useThird z d 1]
  | .sel _ _ d x y p => joinUse [defV d 1, useV x 1, useVB y 1, useP p]
  | .lea _ _ d x y _ => joinUse [defV d 2, useV x 2, useVB y 1]
  | .add64 _ _ d x y
  | .dadd _ _ d x y
  | .dmul _ _ d x y => joinUse [defV d 2, useV x 2, useVB y 2]
  | .dfma _ _ d x y z => joinUse [defV d 2, useV x 2, useVB y 2, useThird z d 2]
  | .bfx _ _ d x y _ => joinUse [defV d 1, useV x 1, useVB y 1]
  | .bfi _ _ d x y _ z => joinUse [defV d 1, useV x 1, useVB y 1, useV z 1]
  | .mov _ _ d y => joinUse [defV d 1, useVB y 1]
  | .icmpEq _ _ d x y
  | .icmpNe _ _ d x y
  | .icmpLt _ _ d x y
  | .icmpLe _ _ d x y
  | .icmpLtu _ _ d x y
  | .icmpLeu _ _ d x y
  | .itest _ _ d x y
  | .fcmpEq _ _ d x y
  | .fcmpNe _ _ d x y
  | .fcmpLt _ _ d x y
  | .fcmpLe _ _ d x y
  | .fcmpUn _ _ d x y => joinUse [defP d, useV x 1, useVB y 1]
  | .dcmpLt _ _ d x y
  | .dcmpEq _ _ d x y => joinUse [defP d, useV x 2, useVB y 2]
  | .iun _ d x _
  | .fclass _ d x
  | .funop _ d x _
  | .red _ d x _
  | .scan _ d x _ => joinUse [defV d 1, useV x 1]
  | .cvt _ d x op => joinUse [defV d (cvtDstRegs op), useV x (cvtSrcRegs op)]
  | .mxq _ _ d x f c => joinUse [defV d 1, useV x 1, (match f with
      | .imm => {}
      | .sreg z => useS z), (match c with
      | none => {}
      | some c => { vw := [c.val] })]
  | .mxdq _ _ d x f c => joinUse [defV d 1, useV x 1, (match f with
      | .imm => {}
      | .sreg z => useS z), (match c with
      | none => {}
      | some c => { vr := [c.val] })]
  | .shfl _ _ d x y => joinUse [defV d 1, useV x 1, useV y 1]
  | .shflXor _ _ d x y => joinUse [defV d 1, useV x 1, useS y]
  | .vote _ op x => joinUse [useP x, (match op with
      | .any d => defP d
      | .all d => defP d
      | .ballot d => defV d 1
      | .count d => defV d 1)]
  | .pop _ _ d x y => joinUse [defP d, useP x, useP y]
  | .rrRead _ d n => joinUse [{ sw := upTo (8 * d.val) 8 }, (match n with
      | .num _ => {}
      | .sreg z => { sr := [z.val] })]
  | .rrWrite _ d n => joinUse [{ sr := upTo (8 * d.val) 8 }, (match n with
      | .num _ => {}
      | .sreg z => { sr := [z.val] })]
  | .rrRetire _ n => (match n with
      | .num _ => {}
      | .sreg z => { sr := [z.val] })
  | .ld _ _ d x sz _ _ _ => joinUse [defV d (sizeRegs sz), useAddr x]
  | .ldNf _ _ d x sz _ p => joinUse [defV d (sizeRegs sz), useAddr x, defP p]
  | .st _ _ d x sz _ _ _ => joinUse [useV d (sizeRegs sz), useAddr x]
  | .atom _ _ d x _ w _ e => joinUse [defV d (atomRegs w), useAddr x, useThird (e.map (·.c)) d (atomRegs w)]
  | .atomCas _ _ d x w _ e => joinUse [defV d (atomRegs w), useThird none d (atomRegs w), useAddr x, useV e.c (atomRegs w)]
  | .lease _ _ _ x => useS x
  | .leaseEnd _ p => defP p
  | .cachePrefetch _ _ _ x _ _
  | .cachePagereq _ _ _ x _ _
  | .cacheWb _ _ _ x _
  | .cacheDrop _ _ _ x _ => useAddr x
  | .cacheResq _ _ _ x d => joinUse [useAddr x, defP d]
  | .wwait _ _ d x _ _ _ e => joinUse [useS d, useS x, (match e with
      | none => {}
      | some e => (useS e.c).both (defP e.p))]
  | .mxld _ _ d x _ _ e => joinUse [{ vw := upTo d.val (if e.isSome then 2 else 1) }, useS x, (match e with
      | none => {}
      | some e => useS e.c)]
  | .mxst _ _ d x _ _ e => joinUse [{ vr := upTo d.val (if e.isSome then 2 else 1) }, useS x, (match e with
      | none => {}
      | some e => useS e.c)]
  | .qPush _ _ x => (match x with
      | .s y => useS y
      | .v r => { vr := [r.val] })
  | .qPop _ d _
  | .qPeek _ d _ => (match d with
      | .s y => defS y
      | .v r => { vw := [r.val] })
  | .mma _ x
  | .mmaAcc _ x
  | .engErd _ _ x
  | .engEwr _ _ x => { sr := [x.val] }
  | .rndTex _ _ d x b => { vw := upTo d.val 4, vr := upTo x.val 4, sr := [b.val] }
  | .rndTexq _ _ d x b => { vw := upTo d.val 4, vr := [x.val], sr := [b.val] }
  | .rndTrace _ _ d x b
  | .rndTracec _ _ d x b => { vw := upTo d.val 5, vr := upTo x.val 8, sr := [b.val] }
  | .rndVmarch _ _ d x b => { vw := upTo d.val 7 ++ upTo (x.val + 8) 2, vr := upTo x.val 10, sr := [b.val] }
  | .rndMshemit _ _ d x b => { sr := [d.val, x.val, b.val] }
  | .rndDraw _ d x => { vw := [d.val, x.val, x.val + 1], vr := upTo x.val 2 }
  | .rndDrawTab _ _ d x b => { vw := [d.val, x.val, x.val + 1], vr := upTo x.val 2, sr := [b.val] }
  | .rndDrawseed _ _ d b => { vw := upTo d.val 2, sr := [b.val] }
  | .nop .. | .join .. | .joinTimeout .. | .yield .. | .yieldC .. | .sleep ..
  | .sleepExpire .. | .exit .. | .exitSave .. | .rgn .. | .modeImm .. | .wfuseTimeout ..
  | .bar .. | .barClu .. | .racq .. | .rrel .. | .trap .. | .brk ..
  | .xret .. | .loadComplete .. | .leaseEndComplete .. | .leaseExpire .. | .fence .. | .fencePhase ..
  | .xfence .. | .wwaitPoll .. | .wwaitTimeout .. | .qBind .. | .engEresume .. | .renderComplete ..
  | .renderFaultPark .. | .quadDelivery .. | .pixelGroupStart .. | .laneGrant .. | .parseStep .. | .tlbInvalDone ..
  | .pstateTransitionDone .. | .packetRetire .. | .watchPoll .. | .teamPlace .. | .clusterPlace .. | .preemptRequest ..
  | .teamRestart .. | .copyCommandStart .. | .copyFaultPark .. | .copyComplete .. | .collectiveMatch .. | .collectiveComplete ..
  | .engineResultDelivery .. | .mxeFetchFault .. | .mxePark .. | .mxeComputeDone .. | .clusterStagePage .. | .flePageArrival ..
  | .fleHintArrival .. | .sorusCloseTimeout .. | .sorusProcess .. | .pageHandoff .. | .sectorFillComplete .. | .deviceTlbInvalDone ..
  | .evictionWritebackDone .. | .recordReplay .. | .accessCounterDecay .. | .l1Eviction .. | .rdcEviction .. | .rdcStaleDrop ..
  | .powerEstimate .. | .thermalTrip .. | .thermalRestore .. | .cqctlWrite .. | .cqheadWrite .. | .msixTimerExpire ..
  | .msixVectorUnmask .. | .prreplyResolved .. | .prreplyFailed .. | .portctlWrite .. | .portTrainingDone .. | .portLinkDown ..
  | .portRecovered .. | .portRecoveryTimeout .. | .flitCrcFail .. | .ideIntegrityFail .. | .gddrUncorrectableError .. | .deviceReset ..
  | .vfFlr .. | .pctlEnable .. | .pctlDisable .. | .padmrWrite .. | .ssdataRead .. | .tfrtailWrite ..
  | .registerWrite .. | .barWindowRead .. | .barWindowWrite .. | .hostHdmAccess .. | .hostBirsp .. | .poolBisnp ..
  | .spdmRequest .. | .hostSnoop .. | .peerRequest .. | .collectiveFaultPark .. | .zeroingComplete .. => {}

/-- The MOD word of an instruction. -/
def instrMod (i : Instr) : Option Mod :=
  match i with
  | .nop m .. => m
  | .brU m .. => m
  | .brUAny m .. => m
  | .brD m .. => m
  | .call m .. => m
  | .brx m .. => m
  | .brxCall m .. => m
  | .join m .. => m
  | .yield m .. => m
  | .yieldC m .. => m
  | .sleep m .. => m
  | .exit m .. => m
  | .exitSave m .. => m
  | .rgn m .. => m
  | .modeImm m .. => m
  | .modeScalar m .. => m
  | .wsplit m .. => m
  | .wfuse m .. => m
  | .lpc m .. => m
  | .bar m .. => m
  | .barClu m .. => m
  | .racq m .. => m
  | .rrel m .. => m
  | .trap m .. => m
  | .brk m .. => m
  | .xret m .. => m
  | .srd m .. => m
  | .swr m .. => m
  | .sadd m .. => m
  | .ssub m .. => m
  | .smul m .. => m
  | .sand m .. => m
  | .sor m .. => m
  | .sxor m .. => m
  | .sshl m .. => m
  | .sshr m .. => m
  | .ssar m .. => m
  | .smin m .. => m
  | .smax m .. => m
  | .smov m .. => m
  | .scmpEq m .. => m
  | .scmpNe m .. => m
  | .scmpLt m .. => m
  | .scmpLtu m .. => m
  | .scmpLe m .. => m
  | .scmpLeu m .. => m
  | .sbfx m .. => m
  | .vtos m .. => m
  | .sld m .. => m
  | .sst m .. => m
  | .iadd m .. => m
  | .isub m .. => m
  | .imul m .. => m
  | .imulh m .. => m
  | .imulhu m .. => m
  | .imad m .. => m
  | .vAnd m .. => m
  | .vOr m .. => m
  | .vXor m .. => m
  | .vAndn m .. => m
  | .shl m .. => m
  | .shr m .. => m
  | .sar m .. => m
  | .rot m .. => m
  | .imin m .. => m
  | .imax m .. => m
  | .umin m .. => m
  | .umax m .. => m
  | .sel m .. => m
  | .lea m .. => m
  | .add64 m .. => m
  | .bfx m .. => m
  | .bfi m .. => m
  | .mov m .. => m
  | .icmpEq m .. => m
  | .icmpNe m .. => m
  | .icmpLt m .. => m
  | .icmpLe m .. => m
  | .icmpLtu m .. => m
  | .icmpLeu m .. => m
  | .itest m .. => m
  | .iun m .. => m
  | .fadd m .. => m
  | .fsub m .. => m
  | .fmul m .. => m
  | .ffma m .. => m
  | .fmin m .. => m
  | .fmax m .. => m
  | .fdot2 m .. => m
  | .fcmpEq m .. => m
  | .fcmpNe m .. => m
  | .fcmpLt m .. => m
  | .fcmpLe m .. => m
  | .fcmpUn m .. => m
  | .fclass m .. => m
  | .funop m .. => m
  | .dadd m .. => m
  | .dmul m .. => m
  | .dfma m .. => m
  | .dcmpLt m .. => m
  | .dcmpEq m .. => m
  | .cvt m .. => m
  | .pack m .. => m
  | .unpack m .. => m
  | .mxq m .. => m
  | .mxdq m .. => m
  | .shfl m .. => m
  | .shflXor m .. => m
  | .vote m .. => m
  | .red m .. => m
  | .scan m .. => m
  | .pop m .. => m
  | .rrRead m .. => m
  | .rrWrite m .. => m
  | .rrRetire m .. => m
  | .ld m .. => m
  | .ldNf m .. => m
  | .st m .. => m
  | .atom m .. => m
  | .atomCas m .. => m
  | .lease m .. => m
  | .leaseEnd m .. => m
  | .fence m .. => m
  | .fencePhase m .. => m
  | .xfence m .. => m
  | .cachePrefetch m .. => m
  | .cachePagereq m .. => m
  | .cacheWb m .. => m
  | .cacheDrop m .. => m
  | .cacheResq m .. => m
  | .wwait m .. => m
  | .mxld m .. => m
  | .mxst m .. => m
  | .qPush m .. => m
  | .qPop m .. => m
  | .qPeek m .. => m
  | .qStat m .. => m
  | .qBind m .. => m
  | .mma m .. => m
  | .mmaAcc m .. => m
  | .engErd m .. => m
  | .engEwr m .. => m
  | .engEresume m .. => m
  | .rndTex m .. => m
  | .rndTexq m .. => m
  | .rndTrace m .. => m
  | .rndTracec m .. => m
  | .rndVmarch m .. => m
  | .rndMshemit m .. => m
  | .rndDraw m .. => m
  | .rndDrawTab m .. => m
  | .rndDrawseed m .. => m
  | .joinTimeout .. | .sleepExpire .. | .wfuseTimeout .. | .loadComplete .. | .leaseEndComplete .. | .leaseExpire ..
  | .wwaitPoll .. | .wwaitTimeout .. | .renderComplete .. | .renderFaultPark .. | .quadDelivery .. | .pixelGroupStart ..
  | .laneGrant .. | .parseStep .. | .tlbInvalDone .. | .pstateTransitionDone .. | .packetRetire .. | .watchPoll ..
  | .teamPlace .. | .clusterPlace .. | .preemptRequest .. | .teamRestart .. | .copyCommandStart .. | .copyFaultPark ..
  | .copyComplete .. | .collectiveMatch .. | .collectiveComplete .. | .engineResultDelivery .. | .mxeFetchFault .. | .mxePark ..
  | .mxeComputeDone .. | .clusterStagePage .. | .flePageArrival .. | .fleHintArrival .. | .sorusCloseTimeout .. | .sorusProcess ..
  | .pageHandoff .. | .sectorFillComplete .. | .deviceTlbInvalDone .. | .evictionWritebackDone .. | .recordReplay .. | .accessCounterDecay ..
  | .l1Eviction .. | .rdcEviction .. | .rdcStaleDrop .. | .powerEstimate .. | .thermalTrip .. | .thermalRestore ..
  | .cqctlWrite .. | .cqheadWrite .. | .msixTimerExpire .. | .msixVectorUnmask .. | .prreplyResolved .. | .prreplyFailed ..
  | .portctlWrite .. | .portTrainingDone .. | .portLinkDown .. | .portRecovered .. | .portRecoveryTimeout .. | .flitCrcFail ..
  | .ideIntegrityFail .. | .gddrUncorrectableError .. | .deviceReset .. | .vfFlr .. | .pctlEnable .. | .pctlDisable ..
  | .padmrWrite .. | .ssdataRead .. | .tfrtailWrite .. | .registerWrite .. | .barWindowRead .. | .barWindowWrite ..
  | .hostHdmAccess .. | .hostBirsp .. | .poolBisnp .. | .spdmRequest .. | .hostSnoop .. | .peerRequest ..
  | .collectiveFaultPark .. | .zeroingComplete .. => none

/-- Control instructions: majors 0x01 to 0x15 (R311). -/
def isControl (i : Instr) : Bool :=
  match i with
  | .brU .. | .brUAny .. | .brD .. | .call .. | .brx .. | .brxCall ..
  | .join .. | .yield .. | .yieldC .. | .sleep .. | .exit .. | .exitSave ..
  | .rgn .. | .modeImm .. | .modeScalar .. | .wsplit .. | .wfuse .. | .lpc ..
  | .bar .. | .barClu .. | .racq .. | .rrel .. | .trap .. | .brk ..
  | .xret .. | .srd .. | .swr .. => true
  | _ => false

/-- Non-idempotent instructions (R186). Log 13: a scalar q.push counts, since only the binding tells its port. -/
def nonIdempotent (i : Instr) : Bool :=
  match i with
  | .sst _ _ _ _ _ o _ _ => o
  | .st _ _ _ _ _ o _ _ => o
  | .mxst _ _ _ _ o _ _ => o
  | .qPush _ _ (.s _) => true
  | .qPush _ _ (.v _) => false
  | .atom .. | .atomCas .. | .lease .. | .leaseEnd .. | .mma .. | .mmaAcc ..
  | .bar .. | .barClu .. | .yieldC .. | .wwait .. | .exit .. | .exitSave ..
  | .racq .. | .rrel .. | .rndMshemit .. => true
  | _ => false

/-- Whole-group instructions whatever the state (R182). A q.push to an engine is one as well, by its binding. -/
def wholeGroup (i : Instr) : Bool :=
  match i with
  | .mma .. | .mmaAcc .. | .wsplit .. | .wfuse .. | .lpc .. | .bar ..
  | .barClu .. | .rgn .. => true
  | _ => false

/-- Whether the word is a device event, with no word of its own. -/
def isEvent (i : Instr) : Bool := !i.hasWord

/-! ### Values of operands -/

/-- V of R309: IMM22 and IMM32 sign-extend to 64 bits. -/
def immValue (im : Option Imm) : Word64 :=
  match im with
  | none => 0
  | some (.i22 v) => v.signExtend 64
  | some (.i32 v) => v.signExtend 64
  | some (.i64 v) => v

/-- Value of a special register file read: s-registers (R302). -/
def Group.sreg (g : Group) (n : Nat) : Word64 := Tbl.getD g.s n 0

/-- A v-register's row (R162). -/
def Group.vreg (g : Group) (n : Nat) : Row := Tbl.getD g.v n zeroRow

/-- A predicate: p0 reads 1 in every lane (R302). -/
def Group.preg (g : Group) (n : Nat) : Mask := if n == 0 then BitVec.allOnes 64 else Tbl.getD g.p n 0

/-- Writes an s-register. -/
def Group.setS (g : Group) (n : Nat) (x : Word64) : Group := { g with s := Tbl.setD g.s n 0 x }

/-- Writes lanes of a v-register. -/
def Group.setV (g : Group) (n : Nat) (m : Mask) (r : Row) : Group :=
  { g with v := Tbl.setD g.v n zeroRow (blend m r (g.vreg n)) }

/-- Writes lanes of a predicate; a write to p0 is ignored (R302). -/
def Group.setP (g : Group) (n : Nat) (m x : Mask) : Group :=
  if n == 0 then g else { g with p := Tbl.setD g.p n 0 ((g.preg n &&& ~~~m) ||| (x &&& m)) }

/-- The rows of latch bk (R166). -/
def Group.latchRow (g : Group) (k : Nat) : Row := (nthD g.latch k (zeroRow, 0)).1

/-- A 32-bit vector-class source as a row (R301). -/
def Group.vsrc (g : Group) (a : VSrc) (im : Option Imm) : Row :=
  match a with
  | .v n => g.vreg n.val
  | .b k => g.latchRow k.val
  | .zero => zeroRow
  | .laneId => rowOf fun l => BitVec.ofNat 32 l
  | .ones => rowOf fun _ => 0xFFFFFFFF
  | .imm => rowOf fun _ => (immValue im).extractLsb' 0 32

/-- A 64-bit vector-class source at a lane (R301): a pair holds its low half in the lower register. -/
def Group.vsrc64 (g : Group) (a : VSrc) (im : Option Imm) (l : Nat) : Word64 :=
  match a with
  | .v n => lane (g.vreg (n.val + 1)) l ++ lane (g.vreg n.val) l
  | .b k => (lane (g.latchRow k.val) l).setWidth 64
  | .zero => 0
  | .laneId => BitVec.ofNat 64 l
  | .ones => BitVec.allOnes 64
  | .imm => immValue im

/-- A scalar-class source (R302). -/
def Group.ssrc (g : Group) (a : SSrc) (im : Option Imm) : Word64 :=
  match a with
  | .s n => g.sreg n.val
  | .zero => 0
  | .imm => immValue im

/-- Operand B of a scalar instruction (R350). -/
def Group.sb (g : Group) (b : SB) (im : Option Imm) : Word64 :=
  match b with
  | .reg a => g.ssrc a im
  | .byte v => v.signExtend 64

/-- Operand B of a vector instruction as a row (R346). -/
def Group.vb (g : Group) (b : VB) (im : Option Imm) : Row :=
  match b with
  | .vec a => g.vsrc a im
  | .sreg a => rowOf fun _ => (g.ssrc a im).extractLsb' 0 32

/-- A 64-bit operand B at a lane (R346). -/
def Group.vb64 (g : Group) (b : VB) (im : Option Imm) (l : Nat) : Word64 :=
  match b with
  | .vec a => g.vsrc64 a im l
  | .sreg a => g.ssrc a im

/-- The third operand: EXT C, or the old destination (R356). -/
def Group.third (g : Group) (c : Option VSrc) (d : VDst) (im : Option Imm) : Row :=
  match c with
  | some c => g.vsrc c im
  | none =>
    match d with
    | .v n => g.vreg n.val
    | .discard => zeroRow

def Group.third64 (g : Group) (c : Option VSrc) (d : VDst) (im : Option Imm) (l : Nat) : Word64 :=
  match c with
  | some c => g.vsrc64 c im l
  | none =>
    match d with
    | .v n => g.vsrc64 (.v n) im l
    | .discard => 0

end Sys2Proof.Machine
end

