-- ==== Sys2Proof/Machine/Flags.lean ====
section
/-! DEFINITION. FLAGS (R291), MODE (R310) and the MOD override (R307): bits, effective values, guards. -/

namespace Sys2Proof.Machine

/-- FLAGS bits (R291). -/
abbrev Flags := BitVec 7

def fNV : Flags := 0x01
def fDZ : Flags := 0x02
def fOF : Flags := 0x04
def fUF : Flags := 0x08
def fNX : Flags := 0x10
def fISAT : Flags := 0x20
def fTINV : Flags := 0x40

/-- A flag, set or not. -/
def flagIf (c : Bool) (f : Flags) : Flags := if c then f else 0

/-- The union of the flags of some lanes (R291: hardware only ever sets the bits). -/
def orFlags (l : List Flags) : Flags := l.foldl (· ||| ·) 0

/-- Sets flags of a group (R291). -/
def Group.raise (g : Group) (f : Flags) : Group := { g with flags := g.flags ||| f }

/-- MODE fields (R310). -/
def modeSat (m : BitVec 19) : Bool := m.getLsbD 18
def modeFtz (m : BitVec 19) : Bool := m.getLsbD 17
def modeRm (m : BitVec 19) : Nat := (m.extractLsb' 14 3).toNat
def modeEt (m : BitVec 19) : Nat := (m.extractLsb' 9 5).toNat
def modeGe (m : BitVec 19) : Bool := m.getLsbD 8
def modeGn (m : BitVec 19) : Bool := m.getLsbD 7
def modeGp (m : BitVec 19) : Nat := (m.extractLsb' 0 7).toNat

/-- A MODE value holds a defined RM and ET (R286, R287). -/
def modeLegal (m : BitVec 19) : Bool := modeRm m ≤ 3 && modeEt m ≤ 2

/-- A 64-bit value may be written to MODE (R310). -/
def modeWritable (v : Word64) : Bool := bits v 19 45 == 0 && modeLegal (v.extractLsb' 0 19)

/-- A MOD word names a reserved RM or ET in an enabled group (R307). -/
def modIllegal (m : Option Mod) : Bool :=
  match m with
  | none => false
  | some m => (m.ovr && m.rm.toNat > 3) || (m.ovt && m.et.toNat > 2)

/-- MODE in force for one instruction (R307): the split's copy with the MOD override. -/
structure Eff where
  rm : Nat
  et : Nat
  ftz : Bool
  sat : Bool
  ge : Bool
  gn : Bool
  gp : Nat
deriving DecidableEq, Repr

def effMode (mode : BitVec 19) (m : Option Mod) : Eff :=
  let base : Eff :=
    { rm := modeRm mode, et := modeEt mode, ftz := modeFtz mode, sat := modeSat mode,
      ge := modeGe mode, gn := modeGn mode, gp := modeGp mode }
  match m with
  | none => base
  | some m =>
    let a : Eff := if m.ovr then { base with rm := m.rm.toNat, ftz := m.ftz, sat := m.sat } else base
    let b : Eff := if m.ovt then { a with et := m.et.toNat } else a
    if m.ovg then { b with ge := m.ge, gn := m.gn, gp := m.gp.toNat } else b

/-- Lanes that pass the guard (R9, R310). -/
def guardMask (g : Group) (e : Eff) : Mask :=
  if e.ge then (if e.gn then ~~~(g.preg e.gp) else g.preg e.gp) else BitVec.allOnes 64

/-- active(l) of R9. -/
def activeMask (g : Group) (e : Eff) (mask : Mask) : Mask := mask &&& guardMask g e

/-- The split guard of R320: tested at the lowest lane of the split's MASK. -/
def splitGuard (g : Group) (e : Eff) (mask : Mask) : Bool :=
  match lowLane mask with
  | none => false
  | some l => hasLane (guardMask g e) l

end Sys2Proof.Machine
end

