-- ==== Sys2Proof/Machine/Num.lean ====
section
/-! DEFINITION. Number formats and rounding (R281 to R294). A finite value is m · 2^e exactly; each result is rounded
once. Functions that are not algebraic are enclosed between two dyadic bounds which are narrowed until both round alike. -/

namespace Sys2Proof.Machine

/-! ### Formats -/

/-- How a format spends its top codes (R281, R288). -/
inductive FKind where
  | ieee
  | e4m3
  | e2m1
deriving DecidableEq, Repr

/-- A floating-point format (R281). -/
structure Fmt where
  ebits : Nat
  mbits : Nat
  bias : Nat
  kind : FKind
deriving DecidableEq, Repr

def fp64 : Fmt := ⟨11, 52, 1023, .ieee⟩
def fp32 : Fmt := ⟨8, 23, 127, .ieee⟩
def fp16 : Fmt := ⟨5, 10, 15, .ieee⟩
def bf16 : Fmt := ⟨8, 7, 127, .ieee⟩
def e5m2 : Fmt := ⟨5, 2, 15, .ieee⟩
def e4m3 : Fmt := ⟨4, 3, 7, .e4m3⟩
def e2m1 : Fmt := ⟨2, 1, 1, .e2m1⟩

def Fmt.width (f : Fmt) : Nat := 1 + f.ebits + f.mbits

/-- The sign bit as a number. -/
def Fmt.sign (f : Fmt) (neg : Bool) : Nat := if neg then 2 ^ (f.ebits + f.mbits) else 0

/-- The code of +∞, where the format has one. -/
def Fmt.infCode (f : Fmt) : Nat := (2 ^ f.ebits - 1) * 2 ^ f.mbits

/-- The code of the largest finite value (R281). -/
def Fmt.maxCode (f : Fmt) : Nat :=
  match f.kind with
  | .ieee => f.infCode - 1
  | .e4m3 => 0x7E
  | .e2m1 => 0x7

/-- The canonical NaN (R282). -/
def Fmt.nanCode (f : Fmt) : Nat :=
  match f.kind with
  | .ieee => f.infCode + 2 ^ (f.mbits - 1)
  | .e4m3 => 0x7F
  | .e2m1 => 0

/-- A value of a format: NaN (signalling or not), infinity, or ± m · 2^e. -/
inductive FVal where
  | nan (sig : Bool)
  | inf (neg : Bool)
  | fin (neg : Bool) (m : Nat) (e : Int)
deriving DecidableEq, Repr

def FVal.isNan : FVal → Bool
  | .nan _ => true
  | _ => false

def FVal.isSig : FVal → Bool
  | .nan s => s
  | _ => false

def FVal.isInf : FVal → Bool
  | .inf _ => true
  | _ => false

def FVal.isZero : FVal → Bool
  | .fin _ m _ => m == 0
  | _ => false

def FVal.neg? : FVal → Bool
  | .nan _ => false
  | .inf s => s
  | .fin s _ _ => s

def FVal.flip : FVal → FVal
  | .nan s => .nan s
  | .inf s => .inf (!s)
  | .fin s m e => .fin (!s) m e

/-- The value of a code (R281). FP8 NaNs are quiet (R282). -/
def unpack (f : Fmt) (code : Nat) : FVal :=
  let c := code % 2 ^ f.width
  let s := c / 2 ^ (f.ebits + f.mbits) == 1
  let mag := c % 2 ^ (f.ebits + f.mbits)
  let e := mag / 2 ^ f.mbits
  let m := mag % 2 ^ f.mbits
  let finite : FVal :=
    if e == 0 then .fin s m (1 - (f.bias : Int) - f.mbits)
    else .fin s (m + 2 ^ f.mbits) ((e : Int) - f.bias - f.mbits)
  match f.kind with
  | .ieee =>
    if e == 2 ^ f.ebits - 1 then
      (if m == 0 then .inf s else .nan (f.width ≥ 16 && m / 2 ^ (f.mbits - 1) == 0))
    else finite
  | .e4m3 => if mag == 0x7F then .nan false else finite
  | .e2m1 => finite

/-! ### Rounding -/

/-- Rounding in force: RM, whether nearest ties go away from zero (R287), SAT and FTZ. -/
structure FMode where
  rm : Nat
  sat : Bool
  ftz : Bool
deriving DecidableEq, Repr

/-- Nearest, ties to even, nothing else. -/
def nearestEven : FMode := ⟨0, false, false⟩

/-- A code and the flags it raises. -/
structure FRes where
  code : Nat
  flags : Flags
deriving DecidableEq, Repr

/-- Whether the magnitude rounds up: kept value n, remainder rem of 2^k, more beyond it or not (R287). -/
def roundsUp (rm : Nat) (away neg : Bool) (n rem k : Nat) (more : Bool) : Bool :=
  let inexact := rem != 0 || more
  match rm with
  | 0 =>
    if k == 0 then false
    else
      let half := 2 ^ (k - 1)
      rem > half || (rem == half && (more || away || n % 2 == 1))
  | 1 => false
  | 2 => !neg && inexact
  | _ => neg && inexact

/-- Splits m · 2^e at 2^q: the multiple of 2^q at or below it, the remainder, and the width of the remainder. -/
def splitAt2 (m : Nat) (e q : Int) : Nat × Nat × Nat :=
  if q ≤ e then (m * 2 ^ (e - q).toNat, 0, 0)
  else
    let k := (q - e).toNat
    (m / 2 ^ k, m % 2 ^ k, k)

/-- What a finite result beyond the largest finite becomes (R288). -/
def overflowCode (f : Fmt) (md : FMode) (neg : Bool) : Nat :=
  let keep := match f.kind with
    | .e4m3 => true
    | .e2m1 => true
    | .ieee => (f == e5m2 && md.sat) || md.rm == 1 || (md.rm == 2 && neg) || (md.rm == 3 && !neg)
  f.sign neg + (if keep then f.maxCode else f.infCode)

/-- Rounds ± m · 2^e, with `more` saying that the exact value lies strictly above m · 2^e in magnitude (and below
(m + 1) · 2^e), to a format (R287 to R289). -/
def roundTo (f : Fmt) (md : FMode) (neg : Bool) (m : Nat) (e : Int) (more : Bool) : FRes :=
  if m == 0 && !more then ⟨f.sign neg, 0⟩
  else
    let away := f.width < 16
    let top : Int := (Nat.log2 m : Int) + e
    let emin : Int := 1 - (f.bias : Int)
    let q0 : Int := top - f.mbits
    let qmin : Int := emin - f.mbits
    let q := if q0 < qmin || m == 0 then qmin else q0
    let (n, rem, k) := splitAt2 m e q
    let up := roundsUp md.rm away neg n rem k more
    let n1 := if up then n + 1 else n
    let inexact := rem != 0 || more
    let mag := (q - qmin).toNat * 2 ^ f.mbits + n1
    let (n2, rem2, k2) := splitAt2 m e q0
    let carried := (if roundsUp md.rm away neg n2 rem2 k2 more then n2 + 1 else n2) == 2 ^ (f.mbits + 1)
    let tiny := m == 0 || (top < emin && !(top + 1 == emin && carried))
    if mag > f.maxCode then ⟨overflowCode f md neg, fOF ||| fNX⟩
    else if md.ftz && f == fp32 && mag < 2 ^ f.mbits then
      ⟨f.sign neg, flagIf (mag != 0 || inexact) (fUF ||| fNX)⟩
    else ⟨f.sign neg + mag, flagIf inexact fNX ||| flagIf (tiny && inexact) fUF⟩

/-- The FP32 operand read of R289: a subnormal reads as a zero of its sign under FTZ. -/
def readOperand (f : Fmt) (md : FMode) (code : Nat) : FVal :=
  match unpack f code with
  | .fin s m e => if md.ftz && f == fp32 && m < 2 ^ f.mbits then .fin s 0 e else .fin s m e
  | x => x

/-! ### Exact sums and products -/

/-- The product of two values, or nothing where it is invalid (0 × ∞). -/
def mulExact (a b : FVal) : Option FVal :=
  match a, b with
  | .nan s, _ => some (.nan s)
  | _, .nan s => some (.nan s)
  | .inf s, .inf t => some (.inf (s != t))
  | .inf s, .fin t m _ => if m == 0 then none else some (.inf (s != t))
  | .fin t m _, .inf s => if m == 0 then none else some (.inf (s != t))
  | .fin s m e, .fin t n k => some (.fin (s != t) (m * n) (e + k))

/-- The least exponent of the finite terms. -/
def minExp (l : List FVal) (d : Int) : Int :=
  l.foldl (fun a x => match x with
    | .fin _ m e => if m == 0 then a else if e < a then e else a
    | _ => a) d

/-- A first exponent among the terms that are not zero. -/
def anyExp (l : List FVal) : Int :=
  match l with
  | [] => 0
  | .fin _ m e :: rest => if m == 0 then anyExp rest else e
  | _ :: rest => anyExp rest

/-- A finite term as an integer multiple of 2^k, for k at or below its exponent. -/
def scaled (x : FVal) (k : Int) : Int :=
  match x with
  | .fin s m e => if m == 0 then 0 else (if s then -1 else 1) * ((m : Int) * 2 ^ (e - k).toNat)
  | _ => 0

/-- The sum of some values, or nothing where infinities of both signs meet. NaN terms are handled before. -/
def sumExact (rm : Nat) (l : List FVal) : Option FVal :=
  if l.any FVal.isInf then
    (if l.any (fun x => x.isInf && x.neg?) && l.any (fun x => x.isInf && !x.neg?) then none
     else some (.inf (l.any fun x => x.isInf && x.neg?)))
  else
    let k := minExp l (anyExp l)
    let t := l.foldl (fun a x => a + scaled x k) (0 : Int)
    if t == 0 then
      let neg := if l.all FVal.neg? then true else if l.all (fun x => !x.neg?) then false else rm == 3
      some (.fin neg 0 0)
    else some (.fin (t < 0) t.natAbs k)

/-- A value rounded to a format; a NaN gives the canonical NaN. -/
def roundVal (f : Fmt) (md : FMode) (x : FVal) : FRes :=
  match x with
  | .nan _ => ⟨f.nanCode, 0⟩
  | .inf s => ⟨f.sign s + f.infCode, 0⟩
  | .fin s m e => roundTo f md s m e false

/-- rn of an exact sum of products (R292): each product is of two values; `plain` terms are added as they are. -/
def sumOfProducts (f : Fmt) (md : FMode) (prods : List (FVal × FVal)) (plain : List FVal) : FRes :=
  let inputs := plain ++ prods.map (·.1) ++ prods.map (·.2)
  let nv := flagIf (inputs.any FVal.isSig) fNV
  let ps := prods.map fun (a, b) => mulExact a b
  if ps.any Option.isNone then ⟨f.nanCode, fNV⟩
  else
    let terms := plain ++ ps.filterMap id
    if terms.any FVal.isNan then ⟨f.nanCode, nv⟩
    else match sumExact md.rm terms with
      | none => ⟨f.nanCode, fNV⟩
      | some x =>
        let r := roundVal f md x
        ⟨r.code, r.flags ||| nv⟩

/-! ### Arithmetic of one element (R363 to R369) -/

def fAdd (f : Fmt) (md : FMode) (a b : Nat) : FRes :=
  sumOfProducts f md [] [readOperand f md a, readOperand f md b]

def fSub (f : Fmt) (md : FMode) (a b : Nat) : FRes :=
  sumOfProducts f md [] [readOperand f md a, (readOperand f md b).flip]

def fMul (f : Fmt) (md : FMode) (a b : Nat) : FRes :=
  sumOfProducts f md [(readOperand f md a, readOperand f md b)] []

def fFma (f : Fmt) (md : FMode) (a b c : Nat) : FRes :=
  sumOfProducts f md [(readOperand f md a, readOperand f md b)] [readOperand f md c]

/-- Order of two values that are not NaN: less, equal. −0 and +0 are equal. -/
def fLt (a b : FVal) : Bool :=
  match a, b with
  | .nan _, _ => false
  | _, .nan _ => false
  | .inf s, .inf t => s && !t
  | .inf s, .fin _ _ _ => s
  | .fin _ _ _, .inf t => !t
  | .fin _ _ _, .fin _ _ _ =>
    let k := minExp [a, b] (anyExp [a, b])
    scaled a k < scaled b k

def fEq (a b : FVal) : Bool :=
  match a, b with
  | .nan _, _ => false
  | _, .nan _ => false
  | .inf s, .inf t => s == t
  | .inf _, .fin _ _ _ => false
  | .fin _ _ _, .inf _ => false
  | .fin _ _ _, .fin _ _ _ =>
    let k := minExp [a, b] (anyExp [a, b])
    scaled a k == scaled b k

/-- minimumNumber and maximumNumber (R364): the code read under FTZ is returned. -/
def fMinMax (f : Fmt) (md : FMode) (isMax : Bool) (a b : Nat) : FRes :=
  let x := readOperand f md a
  let y := readOperand f md b
  let code (v : FVal) (c : Nat) : Nat :=
    match v with
    | .fin s m _ => if m == 0 then f.sign s else c % 2 ^ f.width
    | _ => c % 2 ^ f.width
  let nv := flagIf (x.isSig || y.isSig) fNV
  if x.isNan && y.isNan then ⟨f.nanCode, nv⟩
  else if x.isNan then ⟨code y b, nv⟩
  else if y.isNan then ⟨code x a, nv⟩
  else
    let less := fLt x y || (fEq x y && x.neg? && !y.neg?)
    if less != isMax then ⟨code x a, nv⟩ else ⟨code y b, nv⟩

/-- Comparisons of R366 and R369. -/
inductive FCmp where
  | eq
  | ne
  | lt
  | le
  | un
deriving DecidableEq, Repr

def fCompare (f : Fmt) (md : FMode) (c : FCmp) (a b : Nat) : Bool × Flags :=
  let x := readOperand f md a
  let y := readOperand f md b
  let un := x.isNan || y.isNan
  let sig := flagIf (x.isSig || y.isSig) fNV
  match c with
  | .eq => (fEq x y, sig)
  | .ne => (un || !fEq x y, sig)
  | .lt => (fLt x y, flagIf un fNV)
  | .le => (fLt x y || fEq x y, flagIf un fNV)
  | .un => (un, sig)

/-- The class mask of a code (R367). -/
def fClass (f : Fmt) (code : Nat) : Nat :=
  match unpack f code with
  | .nan sig => if sig then 1 else 2
  | .inf s => if s then 4 else 512
  | .fin s m _ =>
    if m == 0 then (if s then 32 else 64)
    else if m < 2 ^ f.mbits then (if s then 16 else 128)
    else (if s then 8 else 256)

/-- fun abs and neg (R368): a NaN gives the canonical NaN; no flags. Log 14: under FTZ a subnormal reads as a zero. -/
def fSign (f : Fmt) (md : FMode) (isNeg : Bool) (a : Nat) : FRes :=
  match readOperand f md a with
  | .nan _ => ⟨f.nanCode, 0⟩
  | v =>
    let mag := match v with
      | .fin _ m _ => if m == 0 then 0 else a % 2 ^ (f.ebits + f.mbits)
      | _ => a % 2 ^ (f.ebits + f.mbits)
    ⟨f.sign (isNeg && !v.neg?) + mag, 0⟩

/-- An integral value (R368 minors 9 to 12): rounding direction and whether NX is reported. -/
def fIntegral (f : Fmt) (md : FMode) (rm : Nat) (nx : Bool) (a : Nat) : FRes :=
  match readOperand f md a with
  | .nan sig => ⟨f.nanCode, flagIf sig fNV⟩
  | .inf s => ⟨f.sign s + f.infCode, 0⟩
  | .fin s m e =>
    let (n, rem, k) := splitAt2 m e 0
    let n1 := if roundsUp rm false s n rem k false then n + 1 else n
    let r := roundTo f ⟨0, false, false⟩ s n1 0 false
    ⟨r.code, flagIf (nx && rem != 0) fNX⟩

/-! ### Correctly rounded functions (R290) -/

/-- Integer square root, digit by digit: the largest r below 2^k added to acc with (acc + r)² at most n. -/
def isqrtBits (k acc n : Nat) : Nat :=
  match k with
  | 0 => acc
  | k + 1 =>
    let t := acc + 2 ^ k
    if t * t ≤ n then isqrtBits k t n else isqrtBits k acc n

def isqrt (n : Nat) : Nat := isqrtBits (Nat.log2 n / 2 + 1) 0 n

/-- Reciprocal of m · 2^e. -/
def rcpVal (md : FMode) (neg : Bool) (m : Nat) (e : Int) : FRes :=
  let k := Nat.log2 m + 80
  roundTo fp32 { md with rm := 0 } neg (2 ^ k / m) (-(k : Int) - e) (2 ^ k % m != 0)

/-- m · 2^e with an even exponent. -/
def evenExp (m : Nat) (e : Int) : Nat × Int := if e % 2 == 0 then (m, e) else (2 * m, e - 1)

def sqrtVal (md : FMode) (m : Nat) (e : Int) : FRes :=
  let (m, e) := evenExp m e
  let n := m * 4 ^ 64
  let r := isqrt n
  roundTo fp32 { md with rm := 0 } false r (e / 2 - 64) (r * r != n)

def rsqVal (md : FMode) (m : Nat) (e : Int) : FRes :=
  let (m, e) := evenExp m e
  let k := Nat.log2 m + 80
  let r := isqrt (4 ^ k / m)
  roundTo fp32 { md with rm := 0 } false r (-(k : Int) - e / 2) (r * r * m != 4 ^ k)

/-- Fixed-point product at p fractional bits, rounded down. -/
def fxMul (p a b : Nat) : Nat := a * b / 2 ^ p

/-- Sum of odd powers z^(2j+1)/(2j+1), n terms from term j, alternating or not: arctan or artanh of a fixed-point z. -/
def oddSeries (p : Nat) (alt : Bool) (z2 : Nat) (n j : Nat) (pw : Nat) : Int :=
  match n with
  | 0 => 0
  | n + 1 =>
    let t : Int := (pw / (2 * j + 1) : Nat)
    (if alt && j % 2 == 1 then -t else t) + oddSeries p alt z2 n (j + 1) (fxMul p pw z2)

/-- artanh of a fixed-point z at most 1/3, within 2^-(p - 12). -/
def artanhFx (p z : Nat) : Nat := (oddSeries p false (fxMul p z z) (p / 3 + 2) 0 z).toNat

/-- arctan of 1/n. -/
def arctanInv (p n : Nat) : Int := oddSeries p true (2 ^ p / (n * n)) (p / 4 + 2) 0 (2 ^ p / n)

/-- ln 2 = 2 artanh(1/3). -/
def ln2Fx (p : Nat) : Nat := 2 * artanhFx p (2 ^ p / 3)

/-- π by Machin's formula. -/
def piFx (p : Nat) : Nat := (16 * arctanInv p 5 - 4 * arctanInv p 239).toNat

/-- exp of a fixed-point y below 1: n terms of the series from term j. -/
def expSeries (p y n j t : Nat) : Nat :=
  match n with
  | 0 => 0
  | n + 1 => t + expSeries p y n (j + 1) (fxMul p t y / (j + 1))

/-- sin of a fixed-point y below 2: n terms, y² = y2. -/
def sinSeries (p y2 n j t : Nat) : Int :=
  match n with
  | 0 => 0
  | n + 1 => (t : Int) - sinSeries p y2 n (j + 1) (fxMul p t y2 / ((2 * j + 2) * (2 * j + 3)))

/-- Rounds a value enclosed in [lo, hi] · 2^e: the code both ends round to, if they agree. The value is irrational, so
it is never exact and never a tie. -/
def encloses (md : FMode) (neg : Bool) (lo hi : Nat) (e : Int) : Option FRes :=
  let a := roundTo fp32 { md with rm := 0 } neg lo e true
  let b := roundTo fp32 { md with rm := 0 } neg hi e true
  if a == b then some a else none

/-- Tries an enclosure at precision p, 2p, 4p, … -/
def refine (f : Nat → Option FRes) (p : Nat) (fuel : Nat) : FRes :=
  match fuel with
  | 0 => ⟨0, 0⟩
  | fuel + 1 =>
    match f p with
    | some r => r
    | none => refine f (2 * p) fuel

/-- Slack of every fixed-point enclosure: 2^12 units. -/
def fxSlack : Nat := 4096

/-- How many times an enclosure is narrowed: to 512 · 2^9 bits. -/
def refineFuel : Nat := 10

/-- The part of m · 2^e as floor and fixed-point fraction at p bits (rounded down). -/
def fxParts (neg : Bool) (m : Nat) (e : Int) (p : Nat) : Int × Nat :=
  let s : Int := if neg then -(m : Int) else m
  let t : Int := if 0 ≤ e + p then s * 2 ^ (e + p).toNat else s / (2 ^ (-(e + p)).toNat : Nat)
  (t / (2 ^ p : Nat), (t % (2 ^ p : Nat)).toNat)

/-- Whether m · 2^e is an integer, and which. -/
def asInteger (m : Nat) (e : Int) : Option Nat :=
  if 0 ≤ e then some (m * 2 ^ e.toNat) else if m % 2 ^ (-e).toNat == 0 then some (m / 2 ^ (-e).toNat) else none

/-- exp2 of ± m · 2^e. -/
def exp2Val (md : FMode) (neg : Bool) (m : Nat) (e : Int) : FRes :=
  let top : Int := (Nat.log2 m : Int) + e
  if m != 0 && top ≥ 9 then
    (if neg then roundTo fp32 { md with rm := 0 } false 1 (-400) true
     else roundTo fp32 { md with rm := 0 } false 1 400 true)
  else match asInteger m e with
    | some n => roundTo fp32 { md with rm := 0 } false 1 (if neg then -(n : Int) else n) false
    | none =>
      if top < -60 then
        (if neg then roundTo fp32 { md with rm := 0 } false (2 ^ 100 - 1) (-100) true
         else roundTo fp32 { md with rm := 0 } false (2 ^ 100) (-100) true)
      else refine (fun p =>
        let (n, fr) := fxParts neg m e p
        let y := fxMul p fr (ln2Fx p)
        let x := expSeries p y (p / 3 + 20) 0 (2 ^ p)
        encloses md false (x - fxSlack) (x + fxSlack) (n - p)) 256 refineFuel

/-- log2 of m · 2^e, m positive. -/
def log2Val (md : FMode) (m : Nat) (e : Int) : FRes :=
  let n : Int := (Nat.log2 m : Int) + e
  if m == 2 ^ Nat.log2 m then
    roundTo fp32 { md with rm := 0 } (n < 0) n.natAbs 0 false
  else refine (fun p =>
    let y := m * 2 ^ p / 2 ^ Nat.log2 m
    let z := (y - 2 ^ p) * 2 ^ p / (y + 2 ^ p)
    let l := 2 * artanhFx p z * 2 ^ p / ln2Fx p
    let t : Int := n * 2 ^ p + l
    encloses md (t < 0) (t.natAbs - fxSlack) (t.natAbs + fxSlack) (-(p : Int))) 256 refineFuel

/-- sin(π x) of x = m · 2^e with 0 < x ≤ 1/2 and x not 1/2: rounded with the sign given. -/
def sinPiCore (md : FMode) (neg : Bool) (m : Nat) (e : Int) : FRes :=
  refine (fun p =>
    let x := if 0 ≤ e + p then m * 2 ^ (e + p).toNat else m / 2 ^ (-(e + p)).toNat
    let y := fxMul p x (piFx p)
    let r := (sinSeries p (fxMul p y y) (p / 6 + 10) 0 y).toNat
    encloses md neg (r - fxSlack) (r + fxSlack) (-(p : Int))) 512 refineFuel

/-- sin(π x) for x = n · 2^-k (k at least 1), n taken modulo 2^(k+1); zero has the sign given. -/
def sinPiDyadic (md : FMode) (zeroNeg neg : Bool) (n k : Nat) : FRes :=
  let r := n % 2 ^ (k + 1)
  let neg2 := neg != (r ≥ 2 ^ k)
  let r1 := r % 2 ^ k
  if r1 == 0 then ⟨fp32.sign zeroNeg, 0⟩
  else
    let r2 := if 2 * r1 > 2 ^ k then 2 ^ k - r1 else r1
    if 2 * r2 == 2 ^ k then roundTo fp32 { md with rm := 0 } neg2 1 0 false
    else sinPiCore md neg2 r2 (-(k : Int))

/-- sinpi (R290). -/
def sinpiVal (md : FMode) (neg : Bool) (m : Nat) (e : Int) : FRes :=
  if m == 0 || 0 ≤ e then ⟨fp32.sign neg, 0⟩
  else sinPiDyadic md neg neg m (-e).toNat

/-- cospi (R290): sin(π (|x| + 1/2)); a zero is +0. -/
def cospiVal (md : FMode) (m : Nat) (e : Int) : FRes :=
  if m == 0 then roundTo fp32 { md with rm := 0 } false 1 0 false
  else if 0 ≤ e then roundTo fp32 { md with rm := 0 } (m * 2 ^ e.toNat % 2 == 1) 1 0 false
  else
    let k := (-e).toNat
    sinPiDyadic md false false (m + 2 ^ (k - 1)) k

/-- The transcendental minors of fun on one FP32 code (R290). -/
def fTranscend (md : FMode) (op : FunOp) (a : Nat) : FRes :=
  let nan (f : Flags) : FRes := ⟨fp32.nanCode, f⟩
  let inf (s : Bool) (f : Flags) : FRes := ⟨fp32.sign s + fp32.infCode, f⟩
  let zero (s : Bool) : FRes := ⟨fp32.sign s, 0⟩
  match readOperand fp32 md a with
  | .nan sig => nan (flagIf sig fNV)
  | .inf s =>
    match op with
    | .rcp => zero s
    | .rsq => if s then nan fNV else zero false
    | .sqrt => if s then nan fNV else inf false 0
    | .exp2 => if s then zero false else inf false 0
    | .log2 => if s then nan fNV else inf false 0
    | _ => nan fNV
  | .fin s m e =>
    match op with
    | .rcp => if m == 0 then inf s fDZ else rcpVal md s m e
    | .rsq => if m == 0 then inf s fDZ else if s then nan fNV else rsqVal md m e
    | .sqrt => if m == 0 then zero s else if s then nan fNV else sqrtVal md m e
    | .exp2 => exp2Val md s m e
    | .log2 => if m == 0 then inf true fDZ else if s then nan fNV else log2Val md m e
    | .sinpi => sinpiVal md s m e
    | _ => cospiVal md m e

/-! ### Conversions (R294) -/

/-- A value to an integer range, rounded: NaN gives 0 and NV, out of range the bound and NV. -/
def toIntRange (rm : Nat) (lo hi : Int) (x : FVal) : Int × Flags :=
  match x with
  | .nan _ => (0, fNV)
  | .inf s => (if s then lo else hi, fNV)
  | .fin s m e =>
    let (n, rem, k) := splitAt2 m e 0
    let n1 := if roundsUp rm false s n rem k false then n + 1 else n
    let v : Int := if s then -(n1 : Int) else n1
    if v < lo then (lo, fNV) else if v > hi then (hi, fNV) else (v, flagIf (rem != 0) fNX)

/-- An integer to a format. -/
def ofIntVal (f : Fmt) (md : FMode) (v : Int) : FRes := roundTo f md (v < 0) v.natAbs 0 false

/-- A float code to another format (R288 for infinities and NaN of the narrow formats). -/
def convert (src dst : Fmt) (md : FMode) (a : Nat) : FRes :=
  match readOperand src md a with
  | .nan sig =>
    match dst.kind with
    | .e2m1 => ⟨0, fNV⟩
    | _ => ⟨dst.nanCode, flagIf sig fNV⟩
  | .inf s =>
    match dst.kind with
    | .ieee => ⟨dst.sign s + dst.infCode, 0⟩
    | _ => ⟨dst.sign s + dst.maxCode, fNV⟩
  | .fin s m e => roundTo dst md s m e false

/-- Clamp of an integer for the narrowing conversions: low bits, or clamped with ISAT under SAT. -/
def narrow (sat : Bool) (lo hi : Int) (w : Nat) (v : Int) : Nat × Flags :=
  if sat && v < lo then ((lo % (2 ^ w : Nat)).toNat, fISAT)
  else if sat && v > hi then ((hi % (2 ^ w : Nat)).toNat, fISAT)
  else ((v % (2 ^ w : Nat)).toNat, 0)

/-- rn to FP32, nearest ties to even, of the sum and product of FP32 codes, flags dropped: what the MXE, the collective
engine and the render units use (R246, R240, R287). -/
def add32 (a b : Nat) : Nat := (fAdd fp32 nearestEven a b).code
def sub32 (a b : Nat) : Nat := (fSub fp32 nearestEven a b).code
def mul32 (a b : Nat) : Nat := (fMul fp32 nearestEven a b).code
def fma32 (a b c : Nat) : Nat := (fFma fp32 nearestEven a b c).code
def lt32 (a b : Nat) : Bool := fLt (unpack fp32 a) (unpack fp32 b)
def eq32 (a b : Nat) : Bool := fEq (unpack fp32 a) (unpack fp32 b)
def le32 (a b : Nat) : Bool := lt32 a b || eq32 a b
def isNan32 (a : Nat) : Bool := (unpack fp32 a).isNan

/-- Exact quotient of two finite values rounded to FP32, nearest ties to even; 0/0 and ∞/∞ give NaN. -/
def div32 (a b : Nat) : Nat :=
  match unpack fp32 a, unpack fp32 b with
  | .nan _, _ => fp32.nanCode
  | _, .nan _ => fp32.nanCode
  | .inf _, .inf _ => fp32.nanCode
  | .inf s, .fin t _ _ => fp32.sign (s != t) + fp32.infCode
  | .fin s _ _, .inf t => fp32.sign (s != t)
  | .fin s m e, .fin t n k =>
    if n == 0 then (if m == 0 then fp32.nanCode else fp32.sign (s != t) + fp32.infCode)
    else
      let sh := Nat.log2 n + 80
      (roundTo fp32 nearestEven (s != t) (m * 2 ^ sh / n) (e - k - sh) (m * 2 ^ sh % n != 0)).code

end Sys2Proof.Machine
end

