-- ==== Sys2Proof/Machine/GroupOps.lean ====
section
/-! DEFINITION. Pure operations on one group: its entries, commit points (R186), the latch chain (R166), the words of
stack records (R168), and the values of its computed special registers. -/

namespace Sys2Proof.Machine

/-- ESTATE of a wait (R167). -/
def Wait.estate (w : Wait) : BitVec 3 :=
  match w with
  | .run | .sleep _ | .yield => 0
  | .join .. => 1
  | _ => 2

/-- The exponent of a waiting join's timeout; 0 none (R168). -/
def Wait.jexp (w : Wait) : BitVec 5 :=
  match w with
  | .join _ _ x => x
  | _ => 0

/-- The entry with a PC reached by a transfer from src. -/
def Entry.goto (e : Entry) (pc src : Word64) : Entry := { e with pc := pc, via := .transfer, src := src, run := none }

/-- The entry at the instruction after the one of the focus. -/
def Entry.step (e : Entry) (f : Focus) : Entry :=
  { e with pc := f.next, via := if f.nextFall then .fall else .seq, src := f.pc, wait := .run }

/-- The entry at a PC that follows the instruction at src: the next slot of its line, or the next line (R296). -/
def Entry.after (e : Entry) (next src : Word64) : Entry :=
  { e with pc := next, via := if next.toNat / 128 == src.toNat / 128 then .seq else .fall, src := src,
           wait := .run, run := none }

/-- Blocks the group holds (R162). -/
def Group.blocks (g : Group) : Nat := g.baseBlk + g.extBlk

/-- Lanes of the group's width. -/
def Group.lanes (g : Group) : Mask := allLanes g.width

/-- Sets an entry of the split table. -/
def Group.setEntry (g : Group) (n : Nat) (e : Entry) : Group := { g with entries := Tbl.put g.entries n e }

/-- Frees an entry. -/
def Group.freeEntry (g : Group) (n : Nat) : Group := { g with entries := Tbl.del g.entries n }

/-- The lowest free entry (R171). -/
def Group.firstFree (g : Group) : Option Nat := freeBelow 4 (Tbl.keys g.entries)

/-- Binding of an entry (R167). -/
def Entry.binding (e : Entry) : BitVec 48 × BitVec 6 := (e.join, e.jseq)

/-- The entry that answers a test, in the split table or among the entries a handler set aside: which table, number. -/
def Group.findWait (g : Group) (t : Entry → Bool) : Option (Bool × Nat × Entry) :=
  match g.entries.find? fun x => t x.2 with
  | some (n, e) => some (false, n, e)
  | none =>
    match g.suspended.find? fun x => t x.2 with
    | some (n, e) => some (true, n, e)
    | none => none

/-- Sets an entry in the table findWait named. -/
def Group.setWait (g : Group) (sus : Bool) (n : Nat) (e : Entry) : Group :=
  if sus then { g with suspended := Tbl.put g.suspended n e } else g.setEntry n e

/-- RGNMASK with the whole allocation live (R185). -/
def RgnMask.whole : RgnMask := { all := true, pmask := 0, smask := 0, vmask := 0 }

/-- Operations in flight and records no longer belong to the region (R133). -/
def Group.leaveRegion (g : Group) : Group :=
  { g with pend := Tbl.mapVals g.pend fun _ p => { p with region := false },
           rr := Tbl.mapVals g.rr fun _ r => { r with region := false },
           overflow := g.overflow.map fun r => { r with region := false },
           q := Tbl.mapVals g.q fun _ q => { q with retained := [] } }

/-- A commit point (R186): the region entry moves to the next PC, the snapshot is the split table as it stands (with
the committing entry already at that PC), and retained q-register entries are released (R408). -/
def Group.commit (g : Group) (next : Word64) (sus : Bool := false) : Group :=
  { g.leaveRegion with
    rgnentry := next, rgnmask := RgnMask.whole,
    snap := { live := g.live, entries := if sus then g.suspended else g.entries, depth := if sus then g.sdepth else g.depth,
              bseq := g.bseq } }

/-- Shifts the latch chain (R166): inactive lanes enter zero; `id` is the operation the value waits for, 0 none. -/
def Group.shiftLatch (g : Group) (m : Mask) (r : Row) (id : Nat) : Group :=
  { g with latch := ((maskRow m r, id) :: g.latch).take 4 }

/-- An older pending write of a register loses the lanes a newer write takes (R384). -/
def Group.overtake (g : Group) (reg : Nat) (m : Mask) : Group :=
  if g.pend.isEmpty then g
  else { g with pend := Tbl.mapVals g.pend fun _ p =>
          { p with regs := p.regs.map fun x => if x.reg == reg then { x with lanes := x.lanes &&& ~~~m } else x } }

/-- Writes lanes of a v-register in program order (R348). -/
def Group.writeV (g : Group) (n : Nat) (m : Mask) (r : Row) : Group := (g.overtake n m).setV n m r

/-- Writes an s-register in program order. -/
def Group.writeS (g : Group) (n : Nat) (x : Word64) : Group :=
  if g.pend.isEmpty then g.setS n x
  else { g.setS n x with pend := Tbl.mapVals g.pend fun _ p =>
          if (p.sdst.map Fin.val) == some n then { p with sdst := none } else p }

/-- Writes lanes of a predicate in program order. -/
def Group.writeP (g : Group) (n : Nat) (m x : Mask) : Group := g.setP n m x

/-- Writes a vector destination and shifts the latch chain. -/
def Group.result (g : Group) (d : VDst) (m : Mask) (r : Row) : Group :=
  (match d with
   | .v n => g.writeV n.val m r
   | .discard => g).shiftLatch m r 0

/-- Writes a d-pair destination: low rows, high rows; the chain shifts once, with the low half (R166). -/
def Group.result64 (g : Group) (d : VDst) (m : Mask) (lo hi : Row) : Group :=
  (match d with
   | .v n => (g.writeV n.val m lo).writeV (n.val + 1) m hi
   | .discard => g).shiftLatch m lo 0

/-- Writes a scalar destination. -/
def Group.resultS (g : Group) (d : SDst) (x : Word64) : Group :=
  match d with
  | .s n => g.writeS n.val x
  | .discard => g

/-- A q-register. -/
def Group.qreg (g : Group) (n : Nat) : QReg := (Tbl.find? g.q n).getD { port := 0, entries := [], retained := [] }

/-! ### Stack records (R168) -/

/-- A divergence-stack record or frame entry. -/
structure Rec where
  join : BitVec 48
  jseq : BitVec 6
  oseq : BitVec 6
  entry : Nat
  estate : BitVec 3
  mode : BitVec 19
  jexp : BitVec 5
  mask : Mask
  kind : BitVec 3
  pc : BitVec 48
deriving DecidableEq, Repr

/-- KIND values (R168). -/
def kFree : BitVec 3 := 0
def kArm : BitVec 3 := 1
def kHeld : BitVec 3 := 2
def kNest : BitVec 3 := 3
def kFrame : BitVec 3 := 4
def kEntry : BitVec 3 := 5

/-- The four words of a record, word i in logical lane i (R169). -/
def Rec.words (r : Rec) : List Word64 :=
  [ r.kind ++ (0#13) ++ r.pc.extractLsb' 2 46 ++ (0#2),
    r.mask,
    r.jseq ++ r.oseq ++ BitVec.ofNat 2 r.entry ++ r.estate ++ r.mode ++ (0#23) ++ r.jexp,
    r.join.extractLsb' 2 46 ++ (0#18) ]

/-- The record of four words. -/
def Rec.ofWords (w : List Word64) : Rec :=
  let w0 := nthD w 0 0
  let w2 := nthD w 2 0
  let w3 := nthD w 3 0
  { join := w3.extractLsb' 18 46 ++ (0#2), jseq := w2.extractLsb' 58 6, oseq := w2.extractLsb' 52 6,
    entry := (w2.extractLsb' 50 2).toNat, estate := w2.extractLsb' 47 3, mode := w2.extractLsb' 28 19,
    jexp := w2.extractLsb' 0 5, mask := nthD w 1 0, kind := w0.extractLsb' 61 3,
    pc := w0.extractLsb' 2 46 ++ (0#2) }

/-- A freed record: KIND 000 (R169; DESIGN CHOICE, log 16: every field is written 0). -/
def Rec.free : Rec := Rec.ofWords [0, 0, 0, 0]

/-- The record of a live entry (KIND 101, R187). -/
def Entry.record (e : Entry) (n : Nat) : Rec :=
  { join := e.join, jseq := e.jseq, oseq := 0, entry := n, estate := e.wait.estate, mode := e.mode,
    jexp := e.wait.jexp, mask := e.mask, kind := kEntry, pc := e.pc.extractLsb' 0 48 }

/-- STKTOP: the declared private size rounded up to 128 (R169). -/
def stkTop (priv : Nat) : Nat := roundUp priv 128

/-- Span of the private keys of one launched group. -/
def privSpan : Nat := 0x100000000

/-- Private byte p of lane l (R199): the group-private offset in the group as launched, above its launch index. -/
def privOffset (g : Group) (l p : Nat) : Nat :=
  let h := nthD g.home (l / 16) (0, 16, 0)
  privSpan * h.1 + 4 * h.2.1 * (p / 4) + 4 * (h.2.2 + l % 16) + p % 4

/-- Whether a key of private memory belongs to a lane of the group. -/
def Group.ownsPriv (g : Group) (key : Nat) : Bool :=
  g.home.any fun h =>
    let l := key % privSpan % (4 * h.2.1) / 4
    key / privSpan == h.1 && h.2.2 ≤ l && l < h.2.2 + 16

/-- WIDTH.HALF (R180). -/
def Group.half (g : Group) : Bool :=
  match g.halves with
  | [] => false
  | b :: _ => b

/-- WIDTH (R180). -/
def Group.widthWord (g : Group) : Word64 := BitVec.ofNat 64 (256 * g.half.toNat + g.width)

/-- Which group of its team: its launch index and first lane. -/
def Group.ident (g : Group) : Nat :=
  let h := nthD g.home 0 (g.index, g.width, 0)
  64 * h.1 + h.2.2

/-- A byte of a group's private memory: the L1-dirty layer over the written-back one (R199, R200). -/
def PrivMem.get (m : PrivMem) (off : Nat) : Byte :=
  match Tbl.find? m.dirty off with
  | some b => b
  | none => Tbl.getD m.back off 0

def PrivMem.set (m : PrivMem) (off : Nat) (b : Byte) : PrivMem := { m with dirty := Tbl.put m.dirty off b }

def PrivMem.empty : PrivMem := { back := [], dirty := [] }

/-- Writes back the dirty bytes a test names (R200). -/
def PrivMem.writeBack (m : PrivMem) (t : Nat → Bool) : PrivMem :=
  { back := (m.dirty.filter fun x => t x.1).foldl (fun b x => Tbl.put b x.1 x.2) m.back,
    dirty := m.dirty.filter fun x => !t x.1 }

/-- n private bytes of lane l from offset p. -/
def privBytes (m : PrivMem) (g : Group) (l p n : Nat) : List Byte :=
  (upTo p n).map fun q => m.get (privOffset g l q)

/-- Writes private bytes of lane l from offset p. -/
def privWrite (m : PrivMem) (g : Group) (l p : Nat) (bs : List Byte) : PrivMem :=
  match bs with
  | [] => m
  | b :: rest => privWrite (m.set (privOffset g l p) b) g l (p + 1) rest

/-- The record at depth k (R169). -/
def readRec (m : PrivMem) (g : Group) (top k : Nat) : Rec :=
  Rec.ofWords ((upTo 0 4).map fun l => BitVec.ofNat 64 (ofBytes (privBytes m g l (top - 8 * (k + 1)) 8)))

/-- Writes four words as the record at depth k (R169). -/
def writeRecWords (m : PrivMem) (g : Group) (top k : Nat) (ws : List Word64) : PrivMem :=
  (upTo 0 4).foldl (fun m l => privWrite m g l (top - 8 * (k + 1)) (bytesOf 8 (nthD ws l 0).toNat)) m

def writeRec (m : PrivMem) (g : Group) (top k : Nat) (r : Rec) : PrivMem := writeRecWords m g top k r.words

/-- A record at depth k fits above private offset 0 (R169). -/
def recFits (top k : Nat) : Bool := 8 * (k + 1) ≤ top

/-- DEPTH once it has fallen past every free record at the top (R169). -/
def settleDepth (m : PrivMem) (g : Group) (top depth : Nat) : Nat :=
  match depth with
  | 0 => 0
  | d + 1 => if (readRec m g top d).kind == kFree then settleDepth m g top d else d + 1

/-! ### Computed special registers -/

/-- RRCOUNT: slots not FREE (R113). -/
def Group.rrCount (g : Group) : Nat := g.rr.length

/-- SPLITS (R170). -/
def Group.splits (g : Group) : Word64 :=
  let waitj := (upTo 0 4).foldl (fun a n => match Tbl.find? g.entries n with
    | some e => if e.wait.estate == 1 then a + 2 ^ n else a
    | none => a) 0
  let live := (upTo 0 4).foldl (fun a n => if (Tbl.find? g.entries n).isSome then a + 2 ^ n else a) 0
  BitVec.ofNat 64 ((g.depth % 65536) * 2 ^ 32 + g.bseq.toNat * 2 ^ 26 + g.hnd.toNat * 2 ^ 25 +
    g.jto.toNat * 2 ^ 24 + waitj * 16 + live)

/-- LEASESTAT (R218), with what `wsplit` has copied into it (R178; log 8). -/
def Group.leaseStat (g : Group) : Word64 :=
  let held := ((upTo 0 4).foldl (fun a k => if (g.leases[k]?).any (·.held) then a + 2 ^ k else a) 0)
  BitVec.ofNat 64 (g.endok.toNat * 512 + g.lost.toNat * 16 + held) ||| g.statCopy.setWidth 64

/-- RGNMASK as a register (R185). -/
def RgnMask.word (m : RgnMask) : Word64 :=
  BitVec.ofNat 64 (m.all.toNat * 2 ^ 54 + m.pmask.toNat * 2 ^ 38 + m.smask.toNat * 2 ^ 30 + m.vmask.toNat)

/-- CORE (R343): quarter, slot, die, y, x of core c. -/
def coreWord (c quarter slot : Nat) : Word64 :=
  BitVec.ofNat 64 (quarter * 2 ^ 24 + slot * 2 ^ 20 + (c / 72) * 2 ^ 16 + (c % 72 / 12) * 2 ^ 8 + c % 12)

/-- The core of a group key, and the key of a core's slot (R160): (core · 64 + 16 · quarter + slot) · 2 + half. -/
def keyCore (k : Nat) : Nat := k / 128

def groupKey (core quarter slot : Nat) (hi : Bool) : Nat := ((core * 64 + quarter * 16 + slot) * 2) + hi.toNat

/-- Die of a core. -/
def dieOf (core : Nat) : Nat := core / 72

end Sys2Proof.Machine
end

