-- ==== Sys2Proof/Machine/Mem.lean ====
section
/-! DEFINITION. The memory side: the physical map (R34, R35), homes (R36), frames (R48 to R54), completion queues and
MSI-X (R90 to R95), watches (R83 to R86), leases at their homes (R213 to R216), and accesses performed at home. -/

namespace Sys2Proof.Machine

/-! ### Physical map -/

def hostBase : Nat := 0x1000000000000
def poolBase : Nat := 0x8000000000000
def paLimit : Nat := 0x10000000000000
def localLimit : Nat := 0x4000000000
def dieSpan : Nat := 0x1000000000
def mgmtBase : Nat := 0x4000000000

def isLocal (pa : Nat) : Bool := pa < localLimit
def isHost (pa : Nat) : Bool := hostBase ≤ pa && pa < 2 * hostBase
def isPool (pa : Nat) : Bool := poolBase ≤ pa && pa < paLimit

/-- Enabled channels of a die (R19, R20): those not taken out by the channel map. -/
def dieChannels (d : Dev) (die : Nat) : Nat := 6 - popCount (d.boot.channelOut.extractLsb' (6 * die) 6)

/-- The channel, 0 to 23, that holds a local PA (R19): granule g of the die lies on its enabled channel g mod n, in ascending
order. None on a die without channels. -/
def channelOf (d : Dev) (pa : Nat) : Option Nat :=
  let die := pa / 0x1000000000
  let on := (upTo 0 6).filter fun k => !d.boot.channelOut.getLsbD (6 * die + k)
  if on.isEmpty then none else (on[pa % 0x1000000000 / 256 % on.length]?).map fun k => 6 * die + k

/-- Enabled capacity of a die (R35): 8 GiB per enabled channel. -/
def dieCapacity (d : Dev) (die : Nat) : Nat := dieChannels d die * 0x200000000

/-- Where the frame directory begins on a die: the top 128 MiB of the enabled capacity (R35). -/
def directoryStart (d : Dev) (die : Nat) : Nat := dieCapacity d die - 0x8000000

/-- A PA a context may reach (R34, R35): local below the frame directory, host memory, or the pool. -/
def paReachable (d : Dev) (pa : Nat) : Bool :=
  if isLocal pa then pa % dieSpan < directoryStart d (pa / dieSpan) else isHost pa || isPool pa

/-- Whether a PA names storage at all: what a physical-function window reaches (R87). -/
def paExists (d : Dev) (pa : Nat) : Bool :=
  if isLocal pa then pa % dieSpan < dieCapacity d (pa / dieSpan) else isHost pa || isPool pa

/-- Bits [lo + n − 1 : lo] of a number. -/
def nbits (x lo n : Nat) : Nat := x / 2 ^ lo % 2 ^ n

/-- The local rule of R36: die and slice of a local PA. -/
def localHome (pa : Nat) : Nat × Nat :=
  let die := pa / dieSpan
  let q := pa % dieSpan / 4096
  (die, nbits q 0 7 ^^^ nbits q 7 7 ^^^ nbits q 14 7)

/-- The hash home of R36 for page number q of the pool, or of host memory. -/
def hashHome (q : Nat) : Nat × Nat :=
  (nbits q 0 2 ^^^ nbits q 8 2 ^^^ nbits q 16 2 ^^^ nbits q 24 2 ^^^ nbits q 32 2,
   nbits q 2 7 ^^^ nbits q 9 7 ^^^ nbits q 16 7 ^^^ nbits q 23 7 ^^^ nbits q 30 7)

/-! ### Frames -/

/-- The frame that holds a pool block (R48: at most one), while it serves or fills: not one being evicted. -/
def blockFrame (d : Dev) (blk : Nat) : Option (Nat × Frame) :=
  d.frames.find? fun x => x.2.blk == blk && (x.2.state == 2 || x.2.state == 3)

/-- The frame being evicted that holds a pool block (R54). -/
def evictingFrame (d : Dev) (blk : Nat) : Option (Nat × Frame) :=
  d.frames.find? fun x => x.2.blk == blk && x.2.state == 4

/-- Pool block of a pool PA (R49). -/
def poolBlock (pa : Nat) : Nat := (pa - poolBase) / 65536

/-- Sector of a PA within its frame or block. -/
def sectorOf (pa : Nat) : Nat := pa / 4096 % 16

/-- Pool PA of a sector of a block. -/
def blockPa (blk sector : Nat) : Nat := poolBase + blk * 65536 + sector * 4096

/-- Where the bytes of a PA are served. -/
inductive Place where
  /-- At this storage address. -/
  | at (a : Nat)
  /-- Not yet, while a handoff, a fill or a write-back goes on (R52, R54): where the bytes are meanwhile, and the frame and
  sector whose fill ends the wait. -/
  | wait (a : Nat) (fill : Option (Nat × Nat))
deriving DecidableEq, Repr

/-- Whether the hash homes of a block have handed its lines over to its frame (R52 step 3, R444). -/
def blockServed (d : Dev) (frame : Nat) : Bool :=
  !(d.moves.any fun m => m.kind == 0 && m.frame == frame && m.step < 3)

/-- Whether the frame's home has handed an evicted block back to the hash homes (R54 step 3). -/
def handedBack (d : Dev) (frame : Nat) : Bool :=
  !(d.moves.any fun m => m.kind == 1 && m.frame == frame && m.step < 3)

/-- Whether a handoff of a frame has begun and waits for leases to end (R52 step 3). -/
def handingOff (d : Dev) (frame : Nat) : Bool :=
  d.moves.any fun m => m.handing && m.frame == frame && m.step < 3

/-- The frame that serves a pool block now (R36, R52, R54): from the handoff to it until the handoff back. -/
def servingFrame (d : Dev) (blk : Nat) : Option Nat :=
  match blockFrame d blk with
  | some (n, _) => if blockServed d n then some n else none
  | none =>
    match evictingFrame d blk with
    | some (n, _) => if handedBack d n then none else some n
    | none => none

/-- Where a PA is served (R36, R52, R54, R444): a block that has a frame is served there once it has been handed over. Requests
that arrive after a handoff has begun wait for the new home. -/
def placeOf (d : Dev) (pa : Nat) : Place :=
  let k := sectorOf pa
  if isPool pa then
    match blockFrame d (poolBlock pa) with
    | some (n, f) =>
      if !blockServed d n then (if handingOff d n then .wait pa none else .at pa)
      else if f.valid.getLsbD k then .at (n * 65536 + pa % 65536)
      else .wait pa (some (n, k))
    | none =>
      match evictingFrame d (poolBlock pa) with
      | some (n, f) =>
        if !f.valid.getLsbD k then .at pa
        else if handedBack d n || handingOff d n then .wait (n * 65536 + pa % 65536) none
        else .at (n * 65536 + pa % 65536)
      | none => .at pa
  else if isLocal pa then
    match Tbl.find? d.frames (pa / 65536) with
    | some f =>
      if (f.state == 2 || f.state == 3) && !f.valid.getLsbD k then
        .wait (blockPa f.blk 0 + pa % 65536) (some (pa / 65536, k))
      else if f.state == 4 && (handedBack d (pa / 65536) || handingOff d (pa / 65536)) then .wait pa none
      else .at pa
    | none => .at pa
  else .at pa

/-- Where the bytes of a PA are stored now: of a sector not yet filled in the pool, of one not yet written back in the
frame. -/
def storedAt (d : Dev) (pa : Nat) : Nat :=
  match placeOf d pa with
  | .at a => a
  | .wait a _ => a

/-- Home die and slice of a PA (R36). -/
def homeOf (d : Dev) (pa : Nat) : Nat × Nat :=
  if isLocal pa then localHome pa
  else if isPool pa then
    match servingFrame d (poolBlock pa) with
    | some n => localHome (n * 65536 + pa % 65536)
    | none => hashHome ((pa - poolBase) / 4096)
  else hashHome ((pa - hostBase) / 4096)

/-- Slice number over the package. -/
def sliceOf (d : Dev) (pa : Nat) : Nat := (homeOf d pa).1 * 128 + (homeOf d pa).2

/-! ### Clocks, dies, cores -/

def Quarter.reset : Quarter := { wheel := 0, lastSlot := 15, lastEntries := List.replicate 16 7, run := none, turns := 0 }

/-- An idle MXE context: STATE 000 and FOP 111 (R414). -/
def MxeCtx.idle : MxeCtx :=
  { state := 0, desc := List.replicate 8 0, descVa := 0, pops := 0, depth := 0, row := 0, col := 0, fop := 7, gang := 0,
    acc := [], owner := 0, members := [], staged := [], fault := none, delivering := false, taken := 0, flags := 0,
    cause := 0 }

def Core.reset : Core :=
  { quarters := List.replicate 4 Quarter.reset, l1 := [], icache := [], xcache := [], acqstamp := 0, tlb := [],
    filter := [], mxe := [MxeCtx.idle, MxeCtx.idle], rsu := [], depthFor := none, depth := [], pixel := [], patch := 0 }

def Die.reset : Die :=
  { clock := 0, pstate := 4, changing := none, thermal := false, tlb := [], rdc := [], stage := [], copy := [],
    coll := [], copyRr := [] }

def coreAt (s : State) (c : Nat) : Core := Tbl.getD s.cores c Core.reset
def dieAt (s : State) (d : Nat) : Die := Tbl.getD s.dies d Die.reset
def clockAt (s : State) (d : Nat) : Nat := (dieAt s d).clock

/-- The hub's cycle count (R121): its clock runs at one fixed rate (R104). -/
def hubClock (s : State) : Nat := s.dev.hub

def modCore (c : Nat) (f : Core → Core) : Prog Unit := .get fun s => .upd (.core c (f (coreAt s c))) (.pure ())
def modDie (d : Nat) (f : Die → Die) : Prog Unit := .get fun s => .upd (.die d (f (dieAt s d))) (.pure ())

/-- Changes a group that exists. -/
def modGroup (k : Nat) (f : Group → Group) : Prog Unit :=
  .get fun s => match Tbl.find? s.groups k with
    | some g => .upd (.group k (f g)) (.pure ())
    | none => .pure ()

/-- Changes a team that exists. -/
def modTeam (k : Nat) (f : Team → Team) : Prog Unit :=
  .get fun s => match Tbl.find? s.teams k with
    | some t => .upd (.team k (f t)) (.pure ())
    | none => .pure ()

/-! ### Bytes at home -/

/-- A byte at its place. -/
def byteAt (s : State) (pa : Nat) : Byte := s.mem.get (storedAt s.dev pa)

/-- n bytes at home. -/
def homeBytes (s : State) (pa n : Nat) : List Byte := (upTo pa n).map (byteAt s)

/-- A number of n bytes at home. -/
def homeNat (s : State) (pa n : Nat) : Nat := ofBytes (homeBytes s pa n)

/-- A byte of a poisoned sector is written: once all have been, the sector is no longer poisoned (R21). -/
def healByte (a : Nat) : Prog Unit := .get fun s =>
  match Tbl.find? s.dev.poison (a / 4096) with
  | none => skip
  | some m =>
    let m1 : BitVec 4096 := m ||| (1 <<< (a % 4096))
    modDev fun d => { d with poison := if m1 == BitVec.allOnes 4096 then Tbl.del d.poison (a / 4096)
                                       else Tbl.put d.poison (a / 4096) m1 }

/-- Writes bytes where they are placed; a write to a pool that no port reaches is lost (R26). -/
def storeBytes (pa : Nat) (bs : List Byte) : Prog Unit :=
  match bs with
  | [] => skip
  | b :: rest => .get fun s =>
    let a := storedAt s.dev pa
    if isPool a && s.dev.poolPorts == 0 then storeBytes (pa + 1) rest
    else .upd (.byte a b) (Prog.bind (healByte a) fun _ => storeBytes (pa + 1) rest)

/-- A poisoned 4 KiB sector (R21); so reads the pool while no port reaches it (R26). -/
def poisoned (d : Dev) (pa : Nat) : Bool :=
  let a := storedAt d pa
  (Tbl.find? d.poison (a / 4096)).isSome || (isPool a && d.poolPorts == 0)

/-- Poisons a sector (R21, R26). -/
def poisonSector (a : Nat) : Prog Unit := modDev fun d => { d with poison := Tbl.put d.poison (a / 4096) 0 }

/-! ### Completion queues and MSI-X -/

def Cq.reset : Cq :=
  { base := 0, ctl := 0, head := 0, tail := 0, irq := 0, stat := 0, phase := true, buffer := [], unann := 0, since := 0 }

def Fn.reset : Fn :=
  { cqs := [], tmapdir := 0, winbase := 0, masked := BitVec.allOnes 2048, pending := 0, sent := [] }

def fnAt (d : Dev) (n : Nat) : Fn := Tbl.getD d.fns n Fn.reset
def cqAt (d : Dev) (n q : Nat) : Cq := Tbl.getD (fnAt d n).cqs q Cq.reset

def modCq (n q : Nat) (f : Cq → Cq) : Prog Unit :=
  modDev fun d =>
    let x := fnAt d n
    let y : Fn := { x with cqs := Tbl.put x.cqs q (f (cqAt d n q)) }
    { d with fns := Tbl.put d.fns n y }

/-- Entries of a completion queue: a power of two from 16 to 65,536 (R90: SIZELOG2 4 to 16). -/
def Cq.size (c : Cq) : Nat := 2 ^ bits c.ctl 0 5

def Cq.enabled (c : Cq) : Bool := c.ctl.getLsbD 31

/-- Full: CQTAIL + 1 = CQHEAD modulo the size (R94). -/
def Cq.full (c : Cq) : Bool := (c.tail.toNat + 1) % c.size == c.head.toNat % c.size

/-- Sends or holds the MSI-X message of a completion queue (R95): a masked vector sets its pending bit. -/
def sendMsix (n q : Nat) : Prog Unit :=
  modDev fun d =>
    let c := cqAt d n q
    let v := bits c.irq 18 11
    let f := fnAt d n
    let f1 : Fn := if f.masked.getLsbD v then { f with pending := setBit f.pending v }
      else { f with sent := f.sent ++ [v] }
    { d with fns := Tbl.put d.fns n { f1 with cqs := Tbl.put f1.cqs q { c with unann := 0, since := 0 } } }

/-- Writes one entry to the ring in host memory and advances CQTAIL (R91): the phase inverts at the wrap. -/
def ringWrite (n q : Nat) (e : BitVec 128) : Prog Unit :=
  letI := Prog.monad
  do
    let c ← look fun s => cqAt s.dev n q
    let ph : BitVec 128 := if c.phase then 1 else 0
    storeBytes (hostBase + c.base.toNat + 16 * c.tail.toNat) (bytesOf 16 ((e &&& ~~~1#128) ||| ph).toNat)
    let now ← look hubClock
    let t := (c.tail.toNat + 1) % c.size
    modCq n q fun c =>
      { c with tail := BitVec.ofNat 32 t, phase := if t == 0 then !c.phase else c.phase, unann := c.unann + 1,
               since := if c.unann == 0 then now else c.since }

/-- Writes buffered entries while the queue is enabled and has room (R94), at most the buffer's. -/
def drainCq (n q : Nat) (fuel : Nat) : Prog Unit :=
  match fuel with
  | 0 => skip
  | fuel + 1 => .get fun s =>
    let c := cqAt s.dev n q
    match c.buffer with
    | [] => skip
    | e :: rest =>
      if c.enabled && !c.full then
        Prog.bind (modCq n q fun c => { c with buffer := rest }) fun _ =>
        Prog.bind (ringWrite n q e) fun _ => drainCq n q fuel
      else skip

/-- Announces written entries when their number reaches COUNT, or at once with TIMER 0 (R95). -/
def announceCq (n q : Nat) : Prog Unit := .get fun s =>
  let c := cqAt s.dev n q
  if c.unann != 0 && (c.unann ≥ bits c.irq 0 8 + 1 || bits c.irq 8 10 == 0) then sendMsix n q else skip

/-- How many entries all queues of a function buffer (R94: 256 per function). -/
def buffered (d : Dev) (n : Nat) : Nat := (fnAt d n).cqs.foldl (fun a x => a + x.2.buffer.length) 0

/-- Whether a queue takes one more entry now: in its ring, or in the function's buffer (R94). -/
def cqTakes (d : Dev) (n q : Nat) : Bool :=
  let c := cqAt d n q
  (c.enabled && !c.full && c.buffer.isEmpty) || buffered d n < 256

/-- Posts an entry (R91, R94). Queue 0 loses entries beyond the buffer and counts them; the others lose nothing. -/
def postCq (n q : Nat) (e : BitVec 128) : Prog Unit := .get fun s =>
  let c := cqAt s.dev n q
  if q == 0 && !cqTakes s.dev n q then
    modCq n q fun c =>
      let lost := min 0xFFFF (bits c.stat 16 16 + 1)
      { c with stat := setBits (setBit c.stat 0) 16 16 lost }
  else
    Prog.bind (modCq n q fun c => { c with buffer := c.buffer ++ [e] }) fun _ =>
    Prog.bind (drainCq n q (c.buffer.length + 1)) fun _ => announceCq n q

/-- A completion-queue entry (R91). -/
def cqEntry (info tag detail queue code src : Nat) : BitVec 128 :=
  BitVec.ofNat 128 ((info % 2 ^ 64) * 2 ^ 64 + (tag % 2 ^ 16) * 2 ^ 48 + (detail % 2 ^ 16) * 2 ^ 32 +
    (queue % 2 ^ 16) * 2 ^ 16 + (code % 256) * 256 + (src % 16) * 16)

/-- Function of a partition: the physical function for 0, VFn for n. -/
def fnOfPart (p : Nat) : Nat := p

/-! ### Queues -/

/-- A queue that nothing has created (R63). -/
def Queue.reset : Queue :=
  { base := 0, widx := 0, ridx := 0, seen := 0, energy := 0, faultva := 0, size := 0, prio := 0, part := 0, stat := 0,
    en := false, ctx := 0, inflight := 0, abcode := 0, abidx := 0, asked := false, watch := 0, parked := none,
    served := 0, askedAt := 0, blocked := none }

def queueAt (d : Dev) (q : Nat) : Queue := Tbl.getD d.queues q Queue.reset

/-- The queue descriptor's first eight words (R63); the other eight are reserved. -/
def Queue.words (x : Queue) : List Word64 :=
  [ x.base, x.widx, x.ridx, x.seen, x.energy, x.faultva,
    BitVec.ofNat 64 (x.size % 32 + x.prio % 4 * 2 ^ 5 + x.part % 16 * 2 ^ 7 + x.stat % 8 * 2 ^ 11 + x.en.toNat * 2 ^ 14 +
      x.ctx % 256 * 2 ^ 24 + x.inflight % 256 * 2 ^ 32 + x.abcode % 256 * 2 ^ 40),
    x.abidx ]

/-- Changes a queue; its descriptor in memory follows (R62). -/
def modQueue (q : Nat) (f : Queue → Queue) : Prog Unit :=
  letI := Prog.monad
  do
    modDev fun d => { d with queues := Tbl.put d.queues q (f (queueAt d q)) }
    let x ← look fun s => queueAt s.dev q
    let base ← look fun s => s.dev.qdtbase.toNat
    storeBytes (base + 128 * q) (x.words.flatMap fun w => bytesOf 8 w.toNat)

/-- Queue states (R63). -/
def qIdle : Nat := 0
def qActive : Nat := 1
def qWaiting : Nat := 2
def qParked : Nat := 3
def qAborted : Nat := 4

/-- The engine that serves a queue (R66). -/
def engineOf (q : Nat) : Nat := q % 8

/-- The lane that serves a queue, if any. -/
def laneOf (d : Dev) (q : Nat) : Option Nat :=
  ((nthD d.lanes (engineOf q) []).find? fun x => x.2 == q).map (·.1)

/-- A queue asks its engine for a lane (R65, R66): one request at a time. -/
def askLane (q : Nat) : Prog Unit :=
  letI := Prog.monad
  do
    let d ← look fun s => s.dev
    if (queueAt d q).asked || (laneOf d q).isSome then pure ()
    else do
      let now ← look hubClock
      modQueue q fun x => { x with asked := true, askedAt := now }
      modDev fun d => { d with laneReqs := modNth d.laneReqs (engineOf q) (· ++ [q]) }
      due (.laneGrant (engineOf q))

/-- A queue gives its lane back; a request that waits for one may be granted. -/
def dropLane (q : Nat) : Prog Unit := .get fun s =>
  Prog.bind (modDev fun d => { d with lanes := modNth d.lanes (engineOf q) fun l => l.filter fun x => x.2 != q }) fun _ =>
  if (laneOf s.dev q).isSome && !(nthD s.dev.laneReqs (engineOf q) []).isEmpty then due (.laneGrant (engineOf q)) else skip

/-! ### Acquire and release of a core -/

/-- Clean L1 copies are discarded (R207): those of PRV lines, and of RO lines too at system scope; constant-space lines
only at system scope (R381). A line with dirty bytes keeps them. -/
def discardClean (system : Bool) (l1 : Tbl CLine) : Tbl CLine :=
  l1.filterMap fun (k, c) =>
    if (c.ro || c.const) && !system then some (k, c)
    else if c.dirty == 0 then none
    else some (k, { c with valid := c.dirty })

/-- Acquire of a core at a scope (R207): group and team scope do nothing. The instruction cache goes too where R299 says
so. -/
def acquireLines (core : Nat) (sc : Scope) (code : Bool) : Prog Unit :=
  match sc with
  | .grp => skip
  | .team => skip
  | _ => .get fun s =>
    let now := clockAt s (dieOf core)
    let sys := sc == .sys
    modCore core fun c => { c with
      l1 := discardClean sys c.l1, acqstamp := now % 2 ^ 32, icache := if code then [] else c.icache }

/-- An acquire that invalidates the instruction cache at device scope or wider (R299). -/
def acquireCore (core : Nat) (sc : Scope) : Prog Unit := acquireLines core sc (sc == .dev || sc == .sys)

/-! ### Watches -/

/-- The condition of a watch on a word (R84). -/
def watchHolds (w8 : Bool) (mask : Word64) (c : Cmp) (comp : Word64) (word : Nat) : Bool :=
  let n := if w8 then 64 else 32
  let y : BitVec 64 := sextNat (BitVec.ofNat 64 word &&& mask).toNat n 64
  let mk : BitVec 64 := sextNat mask.toNat n 64
  let comp : BitVec 64 := sextNat comp.toNat n 64
  match c with
  | .eq => y == comp
  | .ne => y != comp
  | .lt => y.slt comp
  | .ge => !y.slt comp
  | .allSet => y == mk
  | .anySet => y != 0

/-- Bytes of a watched word. -/
def watchSize (w8 : Bool) : Nat := if w8 then 8 else 4

/-- The wake of a group's wait (R400): acquire, the outcome predicate, the commit, and on to the next instruction. -/
def finishWwait (k : Nat) (t : Entry → Bool) (r : Bool) : Prog Unit := .get fun s =>
  match Tbl.find? s.groups k with
  | none => skip
  | some g =>
    match g.findWait t with
    | some (sus, n, e) =>
      match e.wait with
      | .watch _ _ _ _ _ _ p lanes sc _ _ _ next =>
        let g1 := match p with
          | some p => g.writeP p.val lanes (if r then BitVec.allOnes 64 else 0)
          | none => g
        let g2 := (g1.setWait sus n (e.after next e.pc)).commit next sus
        Prog.bind (acquireLines (keyCore k) sc (r && (sc == .dev || sc == .sys))) fun _ => emit (.group k g2)
      | _ => skip
    | none => skip

/-- The entry that waits on a watch. -/
def waitsOn (id : Nat) (e : Entry) : Bool :=
  match e.wait with
  | .watch i .. => i == id
  | _ => false

/-- Removes a watch. -/
def dropWatch (id : Nat) : Prog Unit := modDev fun d => { d with watches := d.watches.filter fun x => x.id != id }

/-- The firing of a watch armed by WATCH_ARM is posted with the word's value at the firing; while completion queue 2 takes no
entry the watch entry stays allocated (R94). -/
def postWatch (w : Watch) (word : Nat) : Prog Unit := .get fun s =>
  if cqTakes s.dev w.token 2 then
    Prog.bind (dropWatch w.id) fun _ =>
    postCq w.token 2 (cqEntry ((word % 2 ^ 52) * 4096 + w.token2 % 4096) 0 (w.token2 / 4096) 0xFFFF 1 7)
  else modDev fun d => { d with watches := d.watches.map fun x => if x.id == w.id then { x with fired := some word } else x }

/-- A fired watch wakes its waiter (R84): a group's split, a queue, or completion queue 2 of a function; its entry is freed. -/
def wakeWatch (w : Watch) : Prog Unit := .get fun s =>
  match w.kind with
  | 0 => Prog.bind (dropWatch w.id) fun _ => finishWwait w.token (waitsOn w.id) true
  | 1 =>
    let isIt := fun (p : Packet) => p.queue == w.token && p.index == w.token2
    let drop := fun (p : Packet) => if isIt p then { p with watches := p.watches.filter (· != w.id) } else p
    Prog.bind (dropWatch w.id) fun _ =>
    Prog.bind (modDev fun d => { d with packets := d.packets.map drop }) fun _ =>
    if s.dev.packets.any (fun p => isIt p && (p.phase == 3 || p.phase == 4)) then due (.packetRetire w.token w.token2)
    else askLane w.token
  | 2 =>
    Prog.bind (dropWatch w.id) fun _ =>
    Prog.bind (modQueue w.token fun x => { x with watch := 0 }) fun _ => .get fun s =>
      let x := queueAt s.dev w.token
      if x.stat == qAborted then due (.packetRetire w.token x.ridx.toNat) else askLane w.token
  | _ => postWatch w (homeNat s w.pa (watchSize w.w8))

/-- Fires some watches, in order (R84). -/
def fireAll (ws : List Watch) : Prog Unit :=
  match ws with
  | [] => skip
  | w :: rest => Prog.bind (wakeWatch w) fun _ => fireAll rest

/-- Firings of a function that found no room are posted, in entry order, while completion queue 2 takes them (R94). -/
def postFired (n : Nat) : Prog Unit := .get fun s =>
  each ((sortOn (·.entry) s.dev.watches).filter fun w => w.kind == 3 && w.token == n) fun w =>
    match w.fired with
    | some word => postWatch w word
    | none => skip

/-- The address of a word or a line at its storage: alias PAs meet there. -/
def canonPa (d : Dev) (pa : Nat) : Nat := storedAt d pa

/-- Watches that a write to [pa, pa + n) makes true, in ascending entry number: the condition was false and has become true
(R84). Polled arms evaluate only when they poll (R85), and those that have fired no more (R94). Words are compared where they
are stored, so an alias PA meets its watches (R52). -/
def firedBy (before after : State) (pa n : Nat) : List Watch :=
  let lo := canonPa before.dev pa
  sortOn (·.entry) (before.dev.watches.filter fun w =>
    let at_ := canonPa before.dev w.pa
    !w.polled && w.fired.isNone && lo < at_ + watchSize w.w8 && at_ < lo + n &&
    !watchHolds w.w8 w.mask w.cmp w.comp (homeNat before w.pa (watchSize w.w8)) &&
    watchHolds w.w8 w.mask w.cmp w.comp (homeNat after w.pa (watchSize w.w8)))

/-- Entry numbers in use on a slice, and how many a partition holds there. -/
def sliceUse (d : Dev) (sl : Nat) : List Nat :=
  (d.watches.filter fun w => !w.polled && w.slice == sl).map (·.entry)

def partUse (d : Dev) (sl p : Nat) : Nat :=
  (d.watches.filter fun w => !w.polled && w.slice == sl && w.part == p).length

/-! ### Leases at their homes -/

/-- Line address of a PA. -/
def lineOf (pa : Nat) : Nat := pa / 128 * 128

/-- Whether who asks still does: a group that lives, a command in progress, a queue that has a lane or packets, a context that
runs. -/
def Asker.live (s : State) (a : Asker) : Bool :=
  match a with
  | .group k => (Tbl.find? s.groups k).isSome
  | .cmd id => s.dies.any fun d => (d.2.copy ++ d.2.coll).any fun c => c.id == id && c.phase == 1
  | .queue q => (laneOf s.dev q).isSome || s.dev.packets.any (·.queue == q)
  | .mxe core n => ((coreAt s core).mxe[n]?).any (·.state == 1)
  | .once => false

/-- Whether a request that waits at a home still stands. -/
def LeaseReq.live (s : State) (r : LeaseReq) : Bool :=
  match r with
  | .lease k _ => Asker.live s (.group k)
  | .access a => a.live s

/-- What has waited longest at a home (R214). -/
def LeaseHold.head (s : State) (h : LeaseHold) : Option LeaseReq := h.queue.find? (·.live s)

/-- Whether a request to a line waits behind a lease or behind earlier requests (R214): the holder's own do not. -/
def leaseBlocks (s : State) (line : Nat) (who : Asker) : Bool :=
  match Tbl.find? s.dev.leases line with
  | some h =>
    match h.holder with
    | some g => who != .group g
    | none =>
      match h.head s with
      | some r => r != .access who
      | none => false
  | none => false

/-- A request takes its place in the order of arrival at a home (R214). -/
def joinQueue (line : Nat) (r : LeaseReq) : Prog Unit :=
  modDev fun d => { d with leases := Tbl.modify d.leases line fun h =>
    if r == LeaseReq.access Asker.once || h.queue.contains r then h else { h with queue := h.queue ++ [r] } }

/-- A request whose turn has come leaves the queue; the next is served after it (R214). -/
def leaveQueue (line : Nat) (who : Asker) : Prog Unit := .get fun s =>
  match Tbl.find? s.dev.leases line with
  | none => skip
  | some h =>
    if h.queue.contains (.access who) then
      Prog.bind (modDev fun d => { d with leases := Tbl.put d.leases line { h with queue := h.queue.erase (.access who) } })
        fun _ => if h.holder.isSome then skip else due (.leaseExpire line)
    else skip

/-- Whether a line is leased by this group. -/
def leasedBy (s : State) (line k : Nat) : Bool :=
  match Tbl.find? s.dev.leases line with
  | some h => h.holder == some k
  | none => false

/-- Predictor fields of a line (R215): LOG and EXP. -/
def predictor (d : Dev) (line : Nat) : Nat × Bool := Tbl.getD d.predict line (0, false)

/-- Length of a lease (R215). -/
def leaseLen (log : Nat) : Nat := 64 * 2 ^ log

/-- Whether the lease has expired (R215): from the cycle after the deadline's cycle onwards. -/
def leaseExpired (now deadline : Nat) : Bool :=
  let x := (now + 2 ^ 32 - deadline % 2 ^ 32) % 2 ^ 32
  0 < x && x < 2 ^ 31

/-- The split of a group that waits for the grant of a line. -/
def waitsLease (line : Nat) (e : Entry) : Bool :=
  match e.wait with
  | .lease l _ => l == line
  | _ => false

/-- Lines of an L2 slice (R195). -/
def sliceLines : Nat := 49152

/-- Sets a line's predictor. A slice keeps one only for the lines it holds: the first of another line that is not leased goes
where there is no room (DESIGN CHOICE, log 3). -/
def setPredictor (line : Nat) (x : Nat × Bool) : Prog Unit :=
  modDev fun d =>
    let sl := sliceOf d line
    let mine := d.predict.filter fun y => y.1 != line && sliceOf d y.1 == sl
    let full := x != (0, false) && mine.length ≥ sliceLines
    let out := mine.find? fun y => (Tbl.find? d.leases y.1).elim true (·.holder.isNone)
    let base := match full, out with
      | true, some y => Tbl.del d.predict y.1
      | _, _ => d.predict
    { d with predict := Tbl.setD base line (0, false) x }

/-- The line's bytes at home as a line. -/
def homeLine (s : State) (line : Nat) : Line := BitVec.ofNat 1024 (ofBytes (homeBytes s line 128))

/-- Grants a line to a group (R213, R215): image, deadline, predictor; the waiting split goes on, committed. `pa` is the PA as
translated. -/
def grantLease (line k pa : Nat) : Prog Unit := .get fun s =>
  let (log, exp) := predictor s.dev line
  let log1 := if exp then min (log + 1) 7 else log
  let now := clockAt s (homeOf s.dev line).1
  let h : LeaseHold :=
    { holder := some k, deadline := (now + leaseLen log1) % 2 ^ 32, image := homeLine s line, written := 0,
      queue := match Tbl.find? s.dev.leases line with
        | some h => h.queue
        | none => [] }
  Prog.bind (modDev fun d => { d with leases := Tbl.put d.leases line h }) fun _ =>
  Prog.bind (setPredictor line (log1, false)) fun _ =>
  modGroup k fun g =>
    let g1 : Group := { g with leases := g.leases ++ [({ line, pa, held := true } : HeldLease)] }
    match g1.findWait (waitsLease line) with
    | some (sus, n, e) =>
      match e.wait with
      | .lease _ next => (g1.setWait sus n (e.after next e.pc)).commit next sus
      | _ => g1
    | none => g1

/-- Serves what has waited longest on a line that no group holds (R213, R214): a begin is granted, an access goes when its
agent asks again. -/
def serveQueue (line : Nat) : Prog Unit := .get fun s =>
  match Tbl.find? s.dev.leases line with
  | none => skip
  | some h =>
    if h.holder.isSome then skip
    else
      let q := h.queue.dropWhile fun r => !r.live s
      match q with
      | [] => modDev fun d => { d with leases := Tbl.del d.leases line }
      | .access _ :: _ => modDev fun d => { d with leases := Tbl.put d.leases line { h with queue := q } }
      | .lease k pa :: rest =>
        Prog.bind (modDev fun d => { d with leases := Tbl.put d.leases line { h with queue := rest } }) fun _ =>
        grantLease line k pa

/-- The home drops a hold and discards its image; the queue is served (R215 to R217). -/
def dropHold (line : Nat) : Prog Unit := .get fun s =>
  match Tbl.find? s.dev.leases line with
  | none => skip
  | some h =>
    Prog.bind (modDev fun d => { d with leases := Tbl.put d.leases line { h with holder := none } }) fun _ =>
    serveQueue line

/-- Requests that a test selects leave the queue of a line, which is served on. -/
def withdraw (line : Nat) (out : LeaseReq → Bool) : Prog Unit :=
  Prog.bind (modDev fun d =>
    { d with leases := Tbl.modify d.leases line fun h => { h with queue := h.queue.filter fun r => !out r } }) fun _ =>
  serveQueue line

/-- Whether a request is a begin of a group. -/
def LeaseReq.begins (k : Nat) (r : LeaseReq) : Bool :=
  match r with
  | .lease j _ => j == k
  | .access _ => false

/-- A queued begin of a group is withdrawn from a line (R216, R386). -/
def withdrawBegin (line k : Nat) : Prog Unit := withdraw line (LeaseReq.begins k)

/-- Accesses of an agent that no longer come leave the queues in which they stand. -/
def withdrawAsker (who : Asker) : Prog Unit := .get fun s =>
  each (Tbl.keys (s.dev.leases.filter fun x => x.2.queue.contains (.access who))) fun line =>
    withdraw line (· == .access who)

/-- Accesses of a group leave the queues (R187, R217). -/
def withdrawAccesses (k : Nat) : Prog Unit := withdrawAsker (.group k)

/-- Accesses of the CDP for a queue leave the queues: its packet goes no further. -/
def withdrawQueue (q : Nat) : Prog Unit := withdrawAsker (.queue q)

/-! ### Writes performed at home -/

/-- The frame side of an access at home (R53, R54): REFB, and DIRTY for a write. -/
def touchFrame (pa : Nat) (write : Bool) : Prog Unit :=
  modDev fun d =>
    let a := canonPa d pa
    if isLocal a then
      match Tbl.find? d.frames (a / 65536) with
      | some f =>
        if 2 ≤ f.state then
          let f1 : Frame := { f with refb := true, dirty := if write then setBit f.dirty (sectorOf a) else f.dirty }
          { d with frames := Tbl.put d.frames (a / 65536) f1 }
        else d
      | none => d
    else d

/-- The pool page a PA belongs to: its own, or the one that its frame caches in the sector. -/
def poolPage (d : Dev) (pa : Nat) : Option Nat :=
  if isPool pa then some (pa / 4096)
  else if isLocal pa then
    match Tbl.find? d.frames (pa / 65536) with
    | some f => if 2 ≤ f.state then some (blockPa f.blk (sectorOf pa) / 4096) else none
    | none => none
  else none

/-- The access counter of a pool page for a requesting die (R50). A full table loses the page with the smallest sum, of several
the lowest page (DESIGN CHOICE, log 40). -/
def countAccess (page die : Nat) : Prog Unit :=
  modDev fun d =>
    let row := Tbl.getD d.counters page [0, 0, 0, 0]
    let row1 := modNth row die fun n => min 255 (n + 1)
    let sl := sliceOf d (page * 4096)
    let mine := d.counters.filter fun x => sliceOf d (x.1 * 4096) == sl
    let full := mine.length ≥ 2048 && (Tbl.find? d.counters page).isNone
    let least := mine.foldl (fun (a : Option (Nat × Nat)) x =>
      let sum := x.2.foldl (· + ·) 0
      match a with
      | none => some (x.1, sum)
      | some (p, m) => if sum < m then some (x.1, sum) else some (p, m)) none
    let base := if full then
      match least with
      | some (p, _) => Tbl.del d.counters p
      | none => d.counters
      else d.counters
    { d with counters := Tbl.put base page row1 }

/-- The lines that n bytes from a PA lie in. -/
def linesOf (pa n : Nat) : List Nat := (upTo (pa / 128) ((pa % 128 + n + 127) / 128)).map (128 * ·)

/-- The predictors of written lines reset (R215). -/
def resetPredict (ls : List Nat) : Prog Unit :=
  modDev fun d =>
    let cs := ls.map (canonPa d)
    { d with predict := d.predict.filter fun x => !cs.contains x.1 }

/-- A write performed at the home of the bytes by an agent other than a lease end: one event (R204). The predictors of its
lines reset (R215), the frame side follows, and watches fire. -/
def homeWrite (pa : Nat) (bs : List Byte) : Prog Unit :=
  letI := Prog.monad
  do
    let before ← look id
    storeBytes pa bs
    touchFrame pa true
    resetPredict (linesOf pa bs.length)
    let after ← look id
    fireAll (firedBy before after pa bs.length)

/-- Writes the masked bytes of a line at home as one event (R212). -/
def homeWriteMasked (line : Nat) (data : Line) (mask : BitVec 128) (leaseEnd : Bool := false) : Prog Unit :=
  letI := Prog.monad
  do
    let before ← look id
    each (upTo 0 128) fun o => if mask.getLsbD o then storeBytes (line + o) [lineByte data o] else skip
    touchFrame line true
    (if leaseEnd || mask == 0 then skip else resetPredict [line])
    let after ← look id
    fireAll (firedBy before after line 128)

/-! ### What holds a request at a home -/

def portAt (d : Dev) (n : Nat) : Port := nthD d.ports n (Port.reset n)

/-- STATE of a port (R31). -/
def Port.state (p : Port) : Nat := bits p.stat 4 3

/-- Port 0 runs as a PCIe endpoint (R24), of a device whose boot has not stopped (R109). -/
def pcieMode (d : Dev) : Bool := bits (portAt d 0).stat 12 2 == 2 && (portAt d 0).state == 2 && !d.boot.stopped

/-- Port 0 runs CXL, likewise. -/
def cxlMode (d : Dev) : Bool := bits (portAt d 0).stat 12 2 == 1 && (portAt d 0).state == 2 && !d.boot.stopped

/-- Whether a line is held by the host and an access conflicts with it (R59): the BISnp is sent and its BIRsp due. In PCIe mode
the host holds none (R24). -/
def hostConflict (s : State) (line : Nat) (write : Bool) : Bool :=
  match Tbl.find? s.dev.hostLines line with
  | some (own, _) => (write || own) && !pcieMode s.dev
  | none => false

/-- Active pool ports in ascending order (R25, R26). -/
def activePorts (d : Dev) : List Nat := (upTo 0 8).filter fun p => d.poolPorts.getLsbD p

/-- The port a pool page leaves on (R25). -/
def poolPort (d : Dev) (pa : Nat) : Option Nat :=
  let ppn := pa / 4096
  let h := nbits ppn 0 12 ^^^ nbits ppn 12 12 ^^^ nbits ppn 24 12 ^^^ nbits ppn 36 4
  let l := activePorts d
  if l.isEmpty then none else l[h % l.length]?

/-- The streams that protect CXL.cache and CXL.mem are keyed (R28): there is one, and each is. -/
def Port.cxlKeyed (p : Port) : Bool := p.streams.any (·.2.1) && p.streams.all fun x => !x.2.1 || x.2.2

/-- A port holds traffic while it trains again or recovers (R28, R33), and CXL.cache and CXL.mem traffic until its
CXL streams are keyed (R28). -/
def Port.holdsTraffic (p : Port) : Bool :=
  p.state == 1 || p.state == 3 || (p.state == 2 && p.ctl.getLsbD 10 && !p.cxlKeyed && bits p.stat 12 2 == 1)

/-- Nothing reaches the device over port 0: its boot has stopped, or the port has failed (R32, R109). -/
def hostDeaf (d : Dev) : Bool := d.boot.stopped || (d.ports[0]?).elim false fun p => p.state == 4

/-- What the host asks for over port 0. -/
def fromHost (p : Prog Unit) : Prog Unit := .get fun s => if hostDeaf s.dev then skip else p

/-- Whether an access must wait for its port. -/
def awaitsPort (d : Dev) (pa : Nat) : Bool :=
  let at_ := fun (n : Nat) => (d.ports[n]?).elim false Port.holdsTraffic
  if isHost pa then at_ 0 else if isPool pa then (poolPort d pa).elim false at_ else false

/-- Why a request to a line cannot be performed now, but for leases: its frame is being zeroed, its port, a host copy, or a
sector in motion. Answers true and makes the event that ends the wait due. -/
def siteHolds (pa : Nat) (write : Bool) : Prog Bool := .get fun s =>
  let line := lineOf pa
  if s.dev.zeroingFrames.contains (canonPa s.dev pa / 65536) || awaitsPort s.dev (canonPa s.dev pa) then .pure true
  else if hostConflict s line write then
    (if (Tbl.find? s.dev.heldBirsp line).isSome then .pure true
     else .upd (.dev { s.dev with heldBirsp := Tbl.put s.dev.heldBirsp line write })
       (.upd (.pending (s.pending ++ [.hostBirsp line])) (.pure true)))
  else match placeOf s.dev pa with
    | .at _ => .pure false
    | .wait _ none => .pure true
    | .wait _ (some (n, k)) =>
      if s.pending.contains (.sectorFillComplete n k) then .pure true
      else .upd (.pending (s.pending ++ [.sectorFillComplete n k])) (.pure true)

/-- Whether a request to a line must wait at its home: behind a lease or earlier requests, in order of arrival (R214), or for
what `siteHolds` names. -/
def holdsRequest (pa : Nat) (write : Bool) (who : Asker) : Prog Bool := .get fun s =>
  let cl := lineOf (canonPa s.dev pa)
  if leaseBlocks s cl who then Prog.bind (joinQueue cl (.access who)) fun _ => .pure true
  else Prog.bind (siteHolds pa write) fun held =>
    if held then .pure true else Prog.bind (leaveQueue cl who) fun _ => .pure false

/-- Whether a request to a line would wait, with nothing asked for. -/
def heldNow (s : State) (pa : Nat) (write : Bool) : Bool :=
  leaseBlocks s (lineOf (canonPa s.dev pa)) .once || s.dev.zeroingFrames.contains (canonPa s.dev pa / 65536) ||
  awaitsPort s.dev (canonPa s.dev pa) || hostConflict s (lineOf pa) write || placeOf s.dev pa != .at (storedAt s.dev pa)

end Sys2Proof.Machine
end

