-- ==== Sys2Proof/Machine/Translate.lean ====
section
/-! DEFINITION. Translation: causes (R189), fault classes (R112), page-table entries (R40 to R45), walks of one and two
stages, TLBs and walk caches (R47, R449). -/

namespace Sys2Proof.Machine

/-! ### Cause codes (R189) -/

abbrev Cause := BitVec 8

def cIllegal : Cause := 0x01
def cMismatch : Cause := 0x02
def cRepeat : Cause := 0x03
def cHeader : Cause := 0x04
def cRegRange : Cause := 0x05
def cStale : Cause := 0x06
def cPartial : Cause := 0x07
def cGang : Cause := 0x08
def cAlign : Cause := 0x09
def cLeaseOrder : Cause := 0x0A
def cBinding : Cause := 0x0B
def cRacq : Cause := 0x0C
def cSoftware : Cause := 0x0D
def cBreak : Cause := 0x0E
def cMode : Cause := 0x0F
def cUnresolved : Cause := 0x10
def cPermission : Cause := 0x11
def cS2Unresolved : Cause := 0x12
def cS2Permission : Cause := 0x13
def cMemory : Cause := 0x14
def cDescriptor : Cause := 0x15
def cStack : Cause := 0x16
def cWidth : Cause := 0x17
def cPreempt : Cause := 0x1F

/-! ### Contexts -/

/-- An access type; its ACC bit is that of R114. -/
inductive Acc where
  | read | write | atomic | exec | render
deriving DecidableEq, Repr

def Acc.bits (a : Acc) : BitVec 5 :=
  match a with
  | .read => 1
  | .write => 2
  | .atomic => 4
  | .exec => 8
  | .render => 16

/-- Whether the access needs W (R43). -/
def Acc.writes (a : Acc) : Bool :=
  match a with
  | .write | .atomic => true
  | _ => false

/-- On whose behalf an address is translated: its context, and the TLBs in front of the walk. -/
structure Agent where
  part : Nat
  ctxidx : Nat
  asid : Nat
  core : Option Nat
  die : Option Nat
  /-- Who asks at the homes (R214). -/
  who : Asker := .once
deriving DecidableEq, Repr

/-- A context descriptor (R38). -/
structure CtxDesc where
  s1root : Nat
  s2root : Nat
  s2en : Bool
  asid : Nat
deriving DecidableEq, Repr

/-- Partition p at reset (R99): partition 0 owns everything and is enabled. -/
def Part.reset (p : Nat) (d : Dev) : Part :=
  { coreset := if p == 0 then ~~~d.boot.coreOut else 0, pqueue := if p == 0 then 0x20000000 else 0,
    pframes := if p == 0 then BitVec.ofNat 64 ((upTo 0 4).foldl (fun a k => a + (dieCapacity d k / 0x40000000) * 2 ^ (8 * k)) 0)
      else 0,
    pways := if p == 0 then 0xFFFFFFFF else 0, pwatch := if p == 0 then 128 else 0, pcap := 0,
    pctl := if p == 0 then 1 else 0, quota := 64 + 1024 * 2 ^ 16 + 384 * 2 ^ 32, ctxtbase := 0, ctxtcount := 0,
    tfrbase := 0, tfrsize := 0, tfrhead := 0, tfrtail := 0, spare := [], ptr := 287, lastDie := 3, hand := [],
    capUnmet := none, withheld := 0, est := 0, padmw := 0, padmr := 0, tearing := false }

def partAt (d : Dev) (p : Nat) : Part := (Tbl.find? d.parts p).getD (Part.reset p d)

/-- Whether cycle j of a window of 64 is withheld with WHELD = w: w evenly spaced cycles (R105). -/
def withheldCycle (w j : Nat) : Bool := j % 64 * w % 64 < w

/-- Whether a partition's work is withheld in this cycle of a die; `phase` is where its window begins (R105). -/
def withholds (s : State) (part die phase : Nat) : Bool :=
  let w := (partAt s.dev part).withheld
  w != 0 && withheldCycle w (clockAt s die + Config.withholdPhase phase)

/-- Activity of a queue's work (R106). -/
def noteActivity (queue n : Nat) : Prog Unit :=
  modDev fun d => { d with activity := Tbl.setD d.activity queue 0 (Tbl.getD d.activity queue 0 + n) }

def modPart (p : Nat) (f : Part → Part) : Prog Unit :=
  modDev fun d => { d with parts := Tbl.put d.parts p (f (partAt d p)) }

/-- Reads descriptor k of a partition's table (R39): none for a disabled context or a bad descriptor. -/
def readCtx (s : State) (part k : Nat) : Option CtxDesc :=
  let p := partAt s.dev part
  if p.ctxtcount ≤ k then none
  else
    let d : BitVec 256 := BitVec.ofNat 256 (homeNat s (p.ctxtbase.toNat + 32 * k) 32)
    let bad := bits d 196 60 != 0 || bits d 176 16 != 0 || bits d 116 44 != 0 || bits d 65 11 != 0 ||
      bits d 52 12 != 0 || bits d 1 11 != 0 || bits d 192 4 != part || (part != 0 && !d.getLsbD 64)
    if !d.getLsbD 0 || bad then none
    else some { s1root := bits d 12 40 * 4096, s2root := bits d 76 40 * 4096, s2en := d.getLsbD 64,
                asid := bits d 160 16 }

/-! ### Entries -/

/-- What an entry is (R41, R42). -/
inductive EntryKind where
  | absent | deferred | leaf | table | bad
deriving DecidableEq, Repr

def eV (e : Nat) : Bool := e % 2 == 1
def eLeaf (e : Nat) : Bool := nbits e 1 1 == 1
def eAc (e : Nat) : Nat := nbits e 2 2
def eW (e : Nat) : Bool := nbits e 4 1 == 1
def eX (e : Nat) : Bool := nbits e 5 1 == 1
def eXr (e : Nat) : Bool := nbits e 6 1 == 1
def eA (e : Nat) : Bool := nbits e 7 1 == 1
def eD (e : Nat) : Bool := nbits e 8 1 == 1
def eC (e : Nat) : Bool := nbits e 9 1 == 1
def eMig (e : Nat) : Bool := nbits e 10 1 == 1
def eOa (e : Nat) : Nat := nbits e 12 40 * 4096

/-- Kind of the entry read at the level of shift `sh` for an address. The OA of a stage-1 entry under two stages is a
guest PA, so the ranges of R34 and R35 are checked only where it is a PA of the device (`host`; DEDUCED, log 18). -/
def entryKind (d : Dev) (e sh addr : Nat) (host : Bool) : EntryKind :=
  if !eV e && nbits e 63 1 == 0 then .absent
  else
    let rsv := nbits e 60 (if eV e then 4 else 3) != 0 || nbits e 52 4 != 0 || nbits e 11 1 != 0
    let oa := eOa e
    if eV e && !eLeaf e then
      if rsv || sh == 12 || nbits e 8 3 != 0 || nbits e 2 5 != 0 || (host && !paReachable d oa) then .bad else .table
    else if rsv || !eLeaf e || sh == 39 || (eC e && sh != 12) || eAc e == 3 || (eAc e == 1 && eW e) ||
        oa % 2 ^ sh != 0 || (eC e && nbits oa 12 4 != nbits addr 12 4) ||
        (host && (!paReachable d oa || (eMig e && !(isPool oa || isLocal oa)) || (!eV e && !isPool oa))) then .bad
    else if eV e then .leaf else .deferred

/-! ### Walks -/

/-- How a stage of a walk ends: at a leaf, with a fault class and its address, with a trap, or it must wait for a line. -/
inductive Walk where
  | leaf (e epa sh : Nat) (gpas : List Nat)
  | fault (cls addr : Nat)
  | trap (c : Cause)
  | wait
deriving DecidableEq, Repr

/-- An entry read at home at system scope: none while the line is held (R214). -/
def readEntry (epa : Nat) : Prog (Option Nat) :=
  letI := Prog.monad
  do
    let held ← holdsRequest epa false .once
    let e ← look fun s => homeNat s epa 8
    if held then pure none else pure (some e)

/-- Whether an OR that would change an entry must wait at its home (R59, R214). -/
def orHeld (epa bits : Nat) : Prog Bool := .get fun s =>
  if homeNat s epa 8 ||| bits == homeNat s epa 8 then .pure false else holdsRequest epa true .once

/-- Sets bits of an entry by an atomic OR at its home (R45). -/
def orEntry (epa bits : Nat) : Prog Unit := .get fun s =>
  let e := homeNat s epa 8
  if e ||| bits == e then skip else homeWrite epa (bytesOf 8 (e ||| bits))

/-- A full structure loses an entry of the device's choice (R47). -/
def insertCapped {α : Type} (cap : Nat) (l : List α) (x : α) : Prog (List α) :=
  letI := Prog.monad
  do
    if l.length < cap then pure (l ++ [x])
    else
      let n ← fresh
      pure (l.eraseIdx (Config.freeChoice n % l.length) ++ [x])

def cacheWalk1 (w : WalkEnt) : Prog Unit :=
  letI := Prog.monad
  do
    let l ← look fun s => s.dev.walk1
    let l1 ← insertCapped 4096 l w
    modDev fun d => { d with walk1 := l1 }

def cacheWalk2 (w : WalkEnt) : Prog Unit :=
  letI := Prog.monad
  do
    let l ← look fun s => s.dev.walk2
    let l1 ← insertCapped 4096 l w
    modDev fun d => { d with walk2 := l1 }

/-- The walk-cache entry for an address. -/
def findWalk (l : List WalkEnt) (part asid sh addr : Nat) (leaf : Bool) : Option WalkEnt :=
  l.find? fun w => w.part == part && w.asid == asid && w.sh == sh && w.leaf == leaf && w.idx == addr / 2 ^ sh

/-- One stage-2 walk from a table through the levels left (R40 to R45). -/
def walk2 (part gpa table : Nat) (levels : List Nat) : Prog Walk :=
  letI := Prog.monad
  match levels with
  | [] => pure (.trap cS2Permission)
  | sh :: rest => do
    let epa := table + 8 * (gpa / 2 ^ sh % 512)
    match ← readEntry epa with
    | none => pure .wait
    | some e =>
      let d ← look fun s => s.dev
      if poisoned d epa then pure (.trap cMemory)
      else match entryKind d e sh gpa true with
        | .absent => pure (.fault 4 gpa)
        | .deferred => pure (.fault 3 gpa)
        | .bad => pure (.trap cS2Permission)
        | .leaf => do
          cacheWalk2 { part, asid := 0, sh, idx := gpa / 2 ^ sh, leaf := true, val := e, epa }
          pure (.leaf e epa sh [gpa / 4096])
        | .table => do
          if ← orHeld epa 0x80 then pure .wait
          else do
          orEntry epa 0x80
          cacheWalk2 { part, asid := 0, sh, idx := gpa / 2 ^ sh, leaf := false, val := eOa e, epa }
          walk2 part gpa (eOa e) rest

/-- The deepest cached pointer for an address: the table and the levels left. -/
def resume (l : List WalkEnt) (part asid addr root : Nat) : Nat × List Nat :=
  match findWalk l part asid 21 addr false with
  | some w => (w.val, [12])
  | none =>
    match findWalk l part asid 30 addr false with
    | some w => (w.val, [21, 12])
    | none =>
      match findWalk l part asid 39 addr false with
      | some w => (w.val, [30, 21, 12])
      | none => (root, [39, 30, 21, 12])

/-- PA that a leaf gives an address. -/
def leafPa (e sh addr : Nat) : Nat := eOa e + addr % 2 ^ sh

/-- A stage-2 walk with its walk cache. A guest PA above 48 bits has no index; it, a root or an output in a range refused by
R34 or R35 is malformed (DEDUCED, log 18). -/
def stage2 (part root gpa : Nat) : Prog Walk := .get fun s =>
  if 2 ^ 48 ≤ gpa || !paReachable s.dev root then .pure (.trap cS2Permission)
  else
    let hit := [30, 21, 12].findSome? fun sh => findWalk s.dev.walk2 part 0 sh gpa true
    let w : Prog Walk := match hit with
      | some w => .pure (.leaf w.val w.epa w.sh [gpa / 4096])
      | none =>
        let (table, levels) := resume s.dev.walk2 part 0 gpa root
        walk2 part gpa table levels
    Prog.bind w fun r => .pure (match r with
      | .leaf e _ sh _ => if paReachable s.dev (leafPa e sh gpa) then r else .trap cS2Permission
      | r => r)

/-- One stage-1 walk; with two stages every table address goes through stage 2 (R47). -/
def walk1 (a : Agent) (c : CtxDesc) (va table : Nat) (levels : List Nat) (gpas : List Nat) : Prog Walk :=
  letI := Prog.monad
  match levels with
  | [] => pure (.trap cPermission)
  | sh :: rest => do
    let t ← if c.s2en then do
        match ← stage2 a.part c.s2root table with
        | .leaf e epa sh2 g => do
          if ← orHeld epa 0x80 then pure Walk.wait
          else do
            orEntry epa 0x80
            pure (Walk.leaf (leafPa e sh2 table) 0 0 g)
        | w => pure w
      else pure (Walk.leaf table 0 0 [])
    match t with
    | .leaf tpa _ _ g => do
      let epa := tpa + 8 * (va / 2 ^ sh % 512)
      match ← readEntry epa with
      | none => pure .wait
      | some e =>
        let d ← look fun s => s.dev
        if poisoned d epa then pure (.trap cMemory)
        else match entryKind d e sh va (!c.s2en) with
          | .absent => pure (.fault 1 va)
          | .deferred => pure (.fault 0 va)
          | .bad => pure (.trap cPermission)
          | .leaf => pure (.leaf e epa sh (gpas ++ g))
          | .table => do
            if ← orHeld epa 0x80 then pure .wait
            else do
            orEntry epa 0x80
            cacheWalk1 { part := a.part, asid := a.asid, sh, idx := va / 2 ^ sh, leaf := false, val := eOa e, epa }
            walk1 a c va (eOa e) rest (gpas ++ g)
    | w => pure w

/-- Whether a page of a context waits in the FLE: in a sorus, for a request, or for a slot. -/
def Fle.waitsIn (f : Fle) (part ctx : Nat) : Bool :=
  let mine := fun (p : FlePage) => p.key.part == part && p.key.ctx == ctx && p.doneSt == 0
  f.sori.any (fun x => x.2.pages.any mine) || f.reqs.any (fun r => mine r.page) || f.queue.any mine

/-- A descriptor has been read and its context is disabled: the FLE looks at the pages of it that wait (R462). -/
def noteDisabled (part ctx : Nat) : Prog Unit := .get fun s =>
  if s.dev.fle.waitsIn part ctx && !s.pending.contains .sorusProcess then due .sorusProcess else skip

/-- A stage-1 walk with its walk cache. A disabled context reads as absent (R39, R462); a root in a range refused by R34 or R35
is malformed (DEDUCED, log 18). -/
def stage1 (a : Agent) (va : Nat) : Prog (Walk × Option CtxDesc) := .get fun s =>
  match readCtx s a.part a.ctxidx with
  | none => Prog.bind (noteDisabled a.part a.ctxidx) fun _ => .pure (.fault 1 va, none)
  | some c =>
    if !c.s2en && !paReachable s.dev c.s1root then .pure (.trap cPermission, some c)
    else
    let (table, levels) := resume s.dev.walk1 a.part a.asid va c.s1root
    Prog.bind (walk1 a c va table levels []) fun w => .pure (w, some c)

/-- What a leaf lacks for an access (R43): nothing, W on a class that allows writing, or a permission that traps. -/
inductive Lack where
  | none | upgrade | denied
deriving DecidableEq, Repr

/-- The class of two leaves together (R44): HX if either says so, else RO if either does, else PRV. -/
def effClass (a b : Nat) : Nat := if a == 2 || b == 2 then 2 else if a == 1 || b == 1 then 1 else 0

/-- What a leaf lacks for an access, under the effective class (R43, R44). -/
def lacks (e cls : Nat) (acc : Acc) : Lack :=
  match acc with
  | .read => .none
  | .exec => if eX e then .none else .denied
  | .render => if eXr e then .none else .denied
  | .write | .atomic => if eW e then .none else if cls == 1 then .denied else .upgrade

/-- Result of a translation. -/
inductive Tr where
  | ok (t : Tlb) (pa : Nat)
  | fault (cls addr : Nat)
  | trap (c : Cause)
  | wait
deriving DecidableEq, Repr

/-- Whether a TLB entry serves an access (R45: one installed with D = 0 serves no write). -/
def Tlb.serves (t : Tlb) (acc : Acc) : Bool :=
  match acc with
  | .read => true
  | .exec => t.x
  | .render => t.xr
  | .write | .atomic => t.w && t.d && t.ac != 1

def Tlb.covers (t : Tlb) (a : Agent) (va : Nat) : Bool :=
  t.part == a.part && t.asid == a.asid && t.va ≤ va && va < t.va + t.size

def Tlb.pas (t : Tlb) (va : Nat) : Nat := t.pa + (va - t.va)

/-- The combined entry of two leaves (R44). A leaf of a C group gives an entry for its own 4 KiB, which R41 allows beside one for
the group's 64 KiB (DESIGN CHOICE, log 18). -/
def combine (a : Agent) (va : Nat) (e1 sh1 : Nat) (two : Option (Nat × Nat × Nat)) (d : Bool)
    (gpas : List Nat) : Tlb :=
  match two with
  | none =>
    let size := 2 ^ sh1
    { part := a.part, asid := a.asid, va := va / size * size, size, pa := leafPa e1 sh1 (va / size * size), w := eW e1,
      x := eX e1, xr := eXr e1, d, ac := BitVec.ofNat 2 (eAc e1), mig := eMig e1, leaf2 := 0,
      two := false, gpa := 0, gpas }
  | some (e2, epa2, sh2) =>
    let size := 2 ^ min sh1 sh2
    let base := va / size * size
    let ac := effClass (eAc e1) (eAc e2)
    { part := a.part, asid := a.asid, va := base, size, pa := leafPa e2 sh2 (leafPa e1 sh1 base),
      w := eW e1 && eW e2, x := eX e1 && eX e2, xr := eXr e1 && eXr e2, d, ac := BitVec.ofNat 2 ac, mig := eMig e2,
      leaf2 := epa2, two := true, gpa := leafPa e1 sh1 base, gpas }

/-- Installs an entry in the TLBs of the agent, in place of one for the same address. -/
def installTlb (a : Agent) (t : Tlb) : Prog Unit :=
  letI := Prog.monad
  do
    let keep := fun (x : Tlb) => !(x.part == t.part && x.asid == t.asid && x.va < t.va + t.size && t.va < x.va + x.size)
    match a.core with
    | some c => do
      let l ← look fun s => (coreAt s c).tlb.filter keep
      let l1 ← insertCapped 256 l t
      modCore c fun x => { x with tlb := l1 }
    | none => pure ()
    match a.die with
    | some n => do
      let l ← look fun s => (dieAt s n).tlb.filter keep
      let l1 ← insertCapped 16384 l t
      modDie n fun x => { x with tlb := l1 }
    | none => pure ()

/-- What a missing permission becomes: a fault class or a trap (R43, R112). -/
def lackTr (k : Lack) (s2 : Bool) (addr : Nat) : Option Tr :=
  match k with
  | .none => none
  | .upgrade => some (.fault (if s2 then 5 else 2) addr)
  | .denied => some (.trap (if s2 then cS2Permission else cPermission))

/-- The translation through one or two leaves completes: A, and D for a write, are set, and the TLBs take the entry (R45, R47). An
output in a range refused by R34 or R35 is malformed. -/
def finishWalk (a : Agent) (acc : Acc) (va : Nat) (t : Tlb) (epas : List Nat) : Prog Tr :=
  letI := Prog.monad
  do
    let marks := if acc.writes then 0x180 else 0x80
    let d ← look fun s => s.dev
    if !paReachable d (t.pas va) then pure (.trap (if t.two then cS2Permission else cPermission))
    else if ← anyOf epas fun epa => orHeld epa marks then pure .wait
    else do
      each epas fun epa => orEntry epa marks
      installTlb a t
      pure (.ok t (t.pas va))

/-- What two leaves lack for an access (R43, R44): stage 1 first. -/
def lackTwo (e1 e2 : Nat) (acc : Acc) (va gpa : Nat) : Option Tr :=
  let cls := effClass (eAc e1) (eAc e2)
  (lackTr (lacks e1 cls acc) false va).orElse fun _ => lackTr (lacks e2 cls acc) true gpa

/-- A full walk (R40 to R45). A in the leaves, and D for a write, are set once the translation completes. A missing W is judged
by the effective class, so after stage 2 (R44). -/
def fullWalk (a : Agent) (va : Nat) (acc : Acc) : Prog Tr :=
  letI := Prog.monad
  do
    let (w, c) ← stage1 a va
    match w, c with
    | .leaf e1 epa1 sh1 gpas, some c =>
      if c.s2en then do
        let gpa := leafPa e1 sh1 va
        if lacks e1 0 acc == .denied then pure (.trap cPermission)
        else match ← stage2 a.part c.s2root gpa with
          | .leaf e2 epa2 sh2 _ =>
            match lackTwo e1 e2 acc va gpa with
            | some r => pure r
            | none =>
              let t := combine a va e1 sh1 (some (e2, epa2, sh2)) (acc.writes || (eD e1 && eD e2)) gpas
              finishWalk a acc va t [epa1, epa2]
          | .fault k x => pure (.fault k x)
          | .trap k => pure (.trap k)
          | .wait => pure .wait
      else
        match lackTr (lacks e1 (eAc e1) acc) false va with
        | some r => pure r
        | none => finishWalk a acc va (combine a va e1 sh1 none (acc.writes || eD e1) []) [epa1]
    | .fault k x, _ => pure (.fault k x)
    | .trap k, _ => pure (.trap k)
    | _, _ => pure .wait

/-- Whether a pool PA that a TLB entry gives has moved to a frame, or a frame's sector away (R52 MOVED). -/
def movedAway (d : Dev) (pa : Nat) : Bool :=
  if isPool pa then
    match blockFrame d (poolBlock pa) with
    | some (n, f) => (Tbl.find? f.leaf (sectorOf pa)).isSome && blockServed d n
    | none => false
  else if isLocal pa then
    match Tbl.find? d.frames (pa / 65536) with
    | some f => f.state == 4 && handedBack d (pa / 65536)
    | none => false
  else false

/-- Translates an address for an access (R37 to R47). A TLB entry whose page has moved is dropped and the walk made
again (R52). -/
def translate (a : Agent) (va : Nat) (acc : Acc) : Prog Tr :=
  letI := Prog.monad
  do
    if 2 ^ 48 ≤ va then pure (.trap cPermission)
    else
      let s ← look id
      let use := fun (l : List Tlb) => l.find? fun t =>
        t.covers a va && t.serves acc && !movedAway s.dev (t.pas va) && paReachable s.dev (t.pas va)
      let h1 := match a.core with
        | some c => use (coreAt s c).tlb
        | none => none
      match h1 with
      | some t => pure (.ok t (t.pas va))
      | none => do
        let h2 := match a.die with
          | some n => use (dieAt s n).tlb
          | none => none
        match h2 with
        | some t => do
          installTlb { a with die := none } t
          pure (.ok t (t.pas va))
        | none => fullWalk a va acc

/-- Invalidates translations (R81, R464): TLB entries and walk-cache entries that the tests select. -/
def dropTlbs (p : Tlb → Bool) (w1 w2 : WalkEnt → Bool) : Prog Unit :=
  letI := Prog.monad
  do
    let cs ← look fun s => Tbl.keys s.cores
    for c in cs do
      modCore c fun x => { x with tlb := x.tlb.filter fun t => !p t }
    let ds ← look fun s => Tbl.keys s.dies
    for n in ds do
      modDie n fun x => { x with tlb := x.tlb.filter fun t => !p t }
    modDev fun d => { d with walk1 := d.walk1.filter (fun w => !w1 w), walk2 := d.walk2.filter (fun w => !w2 w) }

/-- TLB_INVAL of a range (R81): s2 takes guest pages; none for the ASID takes every one; 0 pages takes everything. -/
def invalRange (part : Nat) (asid : Option Nat) (addr pages : Nat) (s2 : Bool) : Prog Unit :=
  let lo := addr / 4096 * 4096
  let hi := if pages == 0 then 2 ^ 64 else lo + 4096 * pages
  let touches := fun (b n : Nat) => pages == 0 || (b < hi && lo < b + n)
  let mine := fun (x : Nat) => match asid with
    | none => true
    | some k => x == k
  if s2 then
    dropTlbs (fun t => t.part == part && t.two &&
        (touches t.gpa t.size || t.gpas.any fun g => touches (4096 * g) 4096))
      (fun _ => false) (fun w => w.part == part && touches (w.idx * 2 ^ w.sh) (2 ^ w.sh))
  else
    dropTlbs (fun t => t.part == part && mine t.asid && touches t.va t.size)
      (fun w => w.part == part && mine w.asid && touches (w.idx * 2 ^ w.sh) (2 ^ w.sh)) (fun _ => false)

/-- The device's own invalidation (R464): by output range, by tables replaced, by stage-2 leaves. -/
def invalOutput (part lo hi : Nat) (tables leaves : List Nat) : Prog Unit :=
  dropTlbs (fun t => t.part == part && ((t.pa < hi && lo < t.pa + t.size) || (t.two && leaves.contains t.leaf2)))
    (fun w => w.part == part && tables.contains w.val)
    (fun w => w.part == part && (if w.leaf then (eOa w.val < hi && lo < eOa w.val + 2 ^ w.sh) || leaves.contains w.epa
      else tables.contains w.val))

end Sys2Proof.Machine
end

