-- ==== Sys2Proof/Machine/Access.lean ====
section
/-! DEFINITION. Accesses: the paths to storage (R195 to R202, R220), L1 and RDC lines and their write-backs, release
and acquire (R205 to R207), lease images (R214, R453), tile, window and private memory. -/

namespace Sys2Proof.Machine

/-! ### Locations -/

/-- A translated location: PA under which it is served, class (0 PRV, 1 RO, 2 HX), MIG, the page a hint would name, and the
PA as translation gave it. -/
structure Loc where
  pa : Nat
  ac : BitVec 2
  mig : Bool
  key : PageKey
  raw : Nat
deriving DecidableEq, Repr

/-- The page that a hint for the location names (R50). -/
def Loc.hint (x : Loc) : Option PageKey := if x.mig then some x.key else none

/-- The PA under which a line is served and cached: of a sector that its frame holds, the frame's (R52); aliases meet
there. -/
def servedPa (d : Dev) (pa : Nat) : Nat :=
  match placeOf d pa with
  | .at a => a
  | .wait .. => pa

/-- The location of an address under a TLB entry. -/
def Tlb.loc (t : Tlb) (d : Dev) (a : Agent) (va : Nat) : Loc :=
  { pa := servedPa d (t.pas va), ac := t.ac, mig := t.mig, raw := t.pas va,
    key := { part := a.part, ctx := a.ctxidx, s2 := t.two,
             page := if t.two then (t.gpa + (va - t.va)) / 4096 else va / 4096 } }

/-- The agent of a team's core path (R47). -/
def teamAgent (t : Team) : Agent :=
  { part := t.part, ctxidx := t.ctxidx, asid := t.asid, core := some t.core, die := some (dieOf t.core) }

/-! ### Requests that reach a home -/

/-- A migration hint to the FLE (R50, R398): the page, the die it names. -/
def sendHint (key : PageKey) (die : Nat) : Prog Unit :=
  letI := Prog.monad
  do
    let id ← newId
    modDev fun d => { d with fle := { d.fle with hints := d.fle.hints ++ [(id, key, die, true)] } }
    due (.fleHintArrival id)

/-- A request of a die for a pool page reaches its home (R50): the counter counts, and at MIGTHRESH a hint goes out for a page
whose leaf has MIG = 1, and the page's counters clear. -/
def noteLine (die pa : Nat) (hint : Option PageKey) : Prog Unit :=
  letI := Prog.monad
  do
    match ← look fun s => poolPage s.dev pa with
    | none => pure ()
    | some page => do
      countAccess page die
      let d ← look fun s => s.dev
      let th := d.migthresh.toNat % 256
      let n := nthD (Tbl.getD d.counters page []) die 0
      match hint with
      | some key =>
        if th != 0 && th ≤ n then do
          modDev fun d => { d with counters := Tbl.del d.counters page }
          sendHint key die
        else pure ()
      | none => pure ()

/-- A request of a die reaches the home of a location (R50, R53). -/
def noteRequest (die : Nat) (x : Loc) (write : Bool) : Prog Unit :=
  Prog.bind (touchFrame x.pa write) fun _ => noteLine die x.pa x.hint

/-! ### Private memory in its frames (R140, R200) -/

/-- Storage of a byte of a team's private memory: the groups in launch order, in the team's frames in the order they were
taken (DESIGN CHOICE, log 56). -/
def Team.privPa (t : Team) (key : Nat) : Option Nat :=
  let o := key / privSpan * (t.kernel.width * (stkTop t.kernel.priv + 1024)) + key % privSpan
  (t.frames[o / 65536]?).map fun n => n * 65536 + o % 65536

/-- The dirty private bytes of a team that a test selects are written back to its frames (R200). -/
def writeBackPriv (team : Nat) (sel : Nat → Bool) : Prog Unit := .get fun s =>
  match Tbl.find? s.teams team with
  | none => skip
  | some t =>
    Prog.bind (each (t.priv.dirty.filter fun x => sel x.1) fun x =>
      match t.privPa x.1 with
      | some pa => emit (.byte pa x.2)
      | none => skip) fun _ =>
    modTeam team fun t => { t with priv := t.priv.writeBack sel }

/-- Teams that stand on a core. -/
def coreTeams (s : State) (core : Nat) : List Nat :=
  (s.teams.filter fun x => x.2.core == core && x.2.placed).map (·.1)

/-- How many lines the keys of a table name. -/
def countLines (last : Option Nat) (l : Tbl Byte) : Nat :=
  match l with
  | [] => 0
  | (k, _) :: rest => if last == some (k / 128) then countLines last rest else countLines (some (k / 128)) rest + 1

/-! ### Lines of L1 and RDC -/

/-- L1 key of a location: constant-space copies are kept apart (R381). -/
def l1Key (pa : Nat) (const : Bool) : Nat := pa / 128 * 2 + const.toNat

/-- A line with nothing in it. -/
def CLine.empty (ro const : Bool) (part : Nat) : CLine :=
  { data := 0, valid := 0, dirty := 0, ro, const, part, writers := 0, stamp := 0, xstale := 0, way := 0, hint := none }

/-- Mask of n bytes from offset o of a line. -/
def byteMask (o n : Nat) : BitVec 128 := BitVec.ofNat 128 ((2 ^ n - 1) <<< (o % 128))

/-- The bytes of a line that a byte mask selects, as a mask of bits. -/
def spread (m : BitVec 128) : Line :=
  BitVec.ofNat 1024 ((upTo 0 128).foldl (fun a o => if m.getLsbD o then a + 255 * 2 ^ (8 * o) else a) 0)

/-- x with the masked bytes taken from y. -/
def mergeLine (x y : Line) (m : BitVec 128) : Line := (x &&& ~~~(spread m)) ||| (y &&& spread m)

/-- n bytes of a line from offset o. -/
def lineBytes (x : Line) (o n : Nat) : List Byte := (upTo (o % 128) n).map (lineByte x)

/-- Writes bytes into a line from offset o. -/
def setLineBytes (x : Line) (o : Nat) (bs : List Byte) : Line :=
  match bs with
  | [] => x
  | b :: rest => setLineBytes (setLineByte x o b) (o + 1) rest

def modL1 (core key : Nat) (f : CLine → CLine) : Prog Unit :=
  modCore core fun c => { c with l1 := Tbl.modify c.l1 key f }

def modRdc (die key : Nat) (f : CLine → CLine) : Prog Unit :=
  modDie die fun d => { d with rdc := Tbl.modify d.rdc key f }

/-- RDC key of a line for a partition, and back. -/
def rdcKey (line part : Nat) : Nat := 16 * line + part

def rdcLine (key : Nat) : Nat := key / 16

/-- The RDC slice of a line (R195): PA[10:7] xor PA[16:13]. -/
def rdcSlice (line : Nat) : Nat := nbits line 0 4 ^^^ nbits line 6 4

/-- RDC keys under which a die holds a line. -/
def rdcKeys (s : State) (die line : Nat) : List Nat := (Tbl.keys (dieAt s die).rdc).filter fun k => rdcLine k == line

/-- Whether the line's home is on the core's die. -/
def homeOnDie (s : State) (line die : Nat) : Bool := (homeOf s.dev line).1 == die

/-- Lines of one way of an RDC slice, and of an L1 (R195). -/
def wayLines : Nat := 3072

def l1Lines : Nat := 4096

/-- An RDC line's dirty bytes are written to the home (R197). -/
def pushRdc (die key : Nat) : Prog Unit :=
  letI := Prog.monad
  do
    match ← look fun s => Tbl.find? (dieAt s die).rdc key with
    | none => pure ()
    | some c =>
      if c.dirty == 0 then pure ()
      else do
        noteLine die (128 * rdcLine key) c.hint
        homeWriteMasked (128 * rdcLine key) c.data c.dirty
        modRdc die key fun c => { c with dirty := 0, writers := 0 }

/-- RDC ways of a die that a partition owns (R99), but for those masked at boot (R109). -/
def rdcWays (d : Dev) (part die : Nat) : List Nat := (upTo 0 16).filter fun w =>
  (partAt d part).pways.getLsbD (16 + w) && !d.boot.waysOut.getLsbD (32 * die + 16 + w)

/-- A way for a line in its RDC slice, of those its partition owns (R99, R195): one with room, else the way of a line that
leaves, of the device's choice. None where the partition owns none, or no line may leave. -/
def rdcRoom (die part line : Nat) : Prog (Option Nat) :=
  letI := Prog.monad
  do
    let s ← look id
    let ways := rdcWays s.dev part die
    let mine := (dieAt s die).rdc.filter fun x => rdcSlice (rdcLine x.1) == rdcSlice line && ways.contains x.2.way
    match ways.find? fun w => (mine.filter fun x => x.2.way == w).length < wayLines with
    | some w => pure (some w)
    | none => do
      let i ← fresh
      let r := Config.freeChoice i % (mine.length + 1)
      match (mine.drop r ++ mine.take r).find? fun x => x.2.dirty == 0 || !heldNow s (128 * rdcLine x.1) true with
      | none => pure none
      | some x => do
        pushRdc die x.1
        modDie die fun d => { d with rdc := Tbl.del d.rdc x.1 }
        pure (some x.2.way)

/-- An L1 line's dirty bytes go to the home on the core's own die, or into the die's RDC line (R197), or home where the RDC
has no way for them. The line stays, clean. -/
def pushL1 (core key : Nat) : Prog Unit :=
  letI := Prog.monad
  do
    match ← look fun s => Tbl.find? (coreAt s core).l1 key with
    | none => pure ()
    | some c =>
      if c.dirty == 0 then pure ()
      else do
        let line := key / 2
        let die := dieOf core
        let home : Prog Unit := do
          noteLine die (128 * line) c.hint
          homeWriteMasked (128 * line) c.data c.dirty
          modL1 core key fun c => { c with dirty := 0 }
        if ← look fun s => homeOnDie s (128 * line) die then home
        else do
          let old ← look fun s => Tbl.find? (dieAt s die).rdc (rdcKey line c.part)
          let way ← match old with
            | some r => pure (some r.way)
            | none => rdcRoom die c.part line
          match way with
          | none => if ← look fun s => heldNow s (128 * line) true then pure () else home
          | some way => do
            let r := old.getD (CLine.empty c.ro false c.part)
            let r1 : CLine := { r with data := mergeLine r.data c.data c.dirty, valid := r.valid ||| c.dirty, way,
                                       dirty := r.dirty ||| c.dirty, writers := setBit r.writers (core % 72), hint := c.hint }
            modDie die fun d => { d with rdc := Tbl.put d.rdc (rdcKey line c.part) r1 }
            modL1 core key fun c => { c with dirty := 0 }

/-- The core's dirty bytes of a line are written to its home (R211, R213). -/
def flushLine (core line : Nat) : Prog Unit :=
  letI := Prog.monad
  do
    pushL1 core (2 * line)
    let ks ← look fun s => rdcKeys s (dieOf core) line
    each ks (pushRdc (dieOf core))

/-- The core's copies of a line are dropped: in L1, with its dirty bytes (write them back first), and the clean ones of its
die's RDC, which hold nothing newer than the home (R205, R211). -/
def dropL1 (core line : Nat) : Prog Unit :=
  letI := Prog.monad
  do
    modCore core fun c => { c with l1 := Tbl.del (Tbl.del c.l1 (2 * line)) (2 * line + 1) }
    modDie (dieOf core) fun d => { d with rdc := d.rdc.filter fun x => !(rdcLine x.1 == line && x.2.dirty == 0) }

/-- Whether a line holds dirty bytes of the core in L1 or the RDC. -/
def lineDirty (s : State) (core line : Nat) : Bool :=
  (match Tbl.find? (coreAt s core).l1 (2 * line) with
   | some c => c.dirty != 0
   | none => false) ||
  (dieAt s (dieOf core)).rdc.any fun x => rdcLine x.1 == line && x.2.dirty != 0 && x.2.writers.getLsbD (core % 72)

/-- Lines with dirty bytes of the core. -/
def dirtyLines (s : State) (core : Nat) : List Nat :=
  let a := (Tbl.keys (coreAt s core).l1).map (· / 2)
  let b := (Tbl.keys (dieAt s (dieOf core)).rdc).map rdcLine
  (a ++ b).foldl (fun l x => if lineDirty s core x then insertNat l x else l) []

/-- publish() of R9 for a core, on behalf of a group: each dirty line is written home as one event, the lines in an
order of the device's choice (R452), then the die's clean RDC copies are discarded. Answers whether some line must still wait
at its home (R214). -/
def publish (core : Nat) (who : Option Nat) : Prog Bool :=
  letI := Prog.monad
  do
    let n ← fresh
    let ls ← look fun s => dirtyLines s core
    let r := Config.freeChoice n % (ls.length + 1)
    let wait ← anyOf (ls.drop r ++ ls.take r) fun line => do
      if ← holdsRequest (128 * line) true (who.elim .once .group) then pure true
      else do
        flushLine core line
        look fun s => lineDirty s core line
    let ts ← look fun s => coreTeams s core
    each ts fun k => writeBackPriv k fun _ => true
    if wait then pure true
    else do
      modDie (dieOf core) fun d => { d with rdc := d.rdc.filter fun x => x.2.dirty != 0 }
      pure false

/-- RDC copies of a line that a partition holds are invalidated: clean bytes go, bytes not yet published stay (R60, R198). -/
def invalRdc (line part : Nat) (dies : Nat → Bool) : Prog Unit :=
  each ((upTo 0 4).filter dies) fun n => modDie n fun d =>
    match Tbl.find? d.rdc (rdcKey line part) with
    | some c => if c.dirty == 0 then { d with rdc := Tbl.del d.rdc (rdcKey line part) }
        else { d with rdc := Tbl.put d.rdc (rdcKey line part) { c with valid := c.dirty } }
    | none => d

/-- Sharer record of a fill by a remote die (R198): a third partition's fill first invalidates the older pair. -/
def noteSharer (line part die : Nat) : Prog Unit :=
  letI := Prog.monad
  do
    let l ← look fun s => Tbl.getD s.dev.sharers line []
    match l.find? (·.1 == part) with
    | some _ => do
      let l1 := l.map fun x => if x.1 == part then (x.1, setBit x.2 die) else x
      modDev fun d => { d with sharers := Tbl.put d.sharers line l1 }
    | none => do
      match l with
      | [a, b] => do
        invalRdc line a.1 a.2.getLsbD
        modDev fun d => { d with sharers := Tbl.put d.sharers line [b, (part, setBit 0 die)] }
      | _ => modDev fun d => { d with sharers := Tbl.put d.sharers line (l ++ [(part, setBit 0 die)]) }

/-- Whether a core's path-C read hits an RDC copy of its partition (R196): every byte valid, clean, and filled since its last
acquire. -/
def rdcFresh (s : State) (core part line : Nat) : Bool :=
  match Tbl.find? (dieAt s (dieOf core)).rdc (rdcKey line part) with
  | some c => c.dirty == 0 && c.valid == BitVec.allOnes 128 &&
      (c.stamp + 2 ^ 32 - (coreAt s core).acqstamp) % 2 ^ 32 < 2 ^ 31
  | none => false

/-- Whether the bytes are valid in L1. -/
def l1Has (s : State) (core : Nat) (pa n : Nat) (const : Bool) : Bool :=
  match Tbl.find? (coreAt s core).l1 (l1Key pa const) with
  | some c => c.valid &&& byteMask pa n == byteMask pa n
  | none => false

/-- A line is filled into the die's RDC from its home, where the RDC has a way for it. Dirty bytes there are written home
first. Answers the line's bytes. -/
def fillRdc (die part : Nat) (x : Loc) : Prog Line :=
  letI := Prog.monad
  do
    let line := x.pa / 128
    pushRdc die (rdcKey line part)
    noteRequest die x false
    noteSharer line part die
    let old ← look fun s => Tbl.find? (dieAt s die).rdc (rdcKey line part)
    let way ← match old with
      | some r => pure (some r.way)
      | none => rdcRoom die part line
    let data ← look fun s => homeLine s (128 * line)
    let now ← look fun s => clockAt s die % 2 ^ 32
    match way with
    | none => pure data
    | some way => do
      let c : CLine := { data, valid := BitVec.allOnes 128, dirty := 0, ro := x.ac == 1, const := false, part, writers := 0,
                         stamp := now, xstale := 0, way, hint := x.hint }
      modDie die fun d => { d with rdc := Tbl.put d.rdc (rdcKey line part) c }
      pure data

/-- Names the private line of a team that holds an offset, as an L1 line no storage has (R199, R200). -/
def privVictim (team off : Nat) : Nat := team * 2 ^ 48 + off / 128

/-- A private line leaves L1: its dirty bytes are written back (R200). -/
def evictPrivate (core line : Nat) : Prog Unit := .get fun s =>
  let team := line / 2 ^ 48
  if (Tbl.find? s.teams team).any (fun t => t.placed && t.core == core) then
    writeBackPriv team fun off => off / 128 == line % 2 ^ 48
  else skip

/-- Room for one more line in a core's L1 (R195): a line of the device's choice leaves a full one. Answers whether there is
room. -/
def l1Room (core : Nat) : Prog Bool :=
  letI := Prog.monad
  do
    let s ← look id
    let l := (coreAt s core).l1
    let ts := coreTeams s core
    let own := ts.foldl (fun n k => n + (Tbl.find? s.teams k).elim 0 fun t => countLines none t.priv.dirty) 0
    if l.length + own < l1Lines then pure true
    else do
      let i ← fresh
      let priv := ts.flatMap fun k => (Tbl.find? s.teams k).elim [] fun t => (t.priv.dirty.take 1).map fun x => privVictim k x.1
      let out := l.filter fun x => x.2.dirty == 0 || !homeOnDie s (x.1 / 2 * 128) (dieOf core) ||
        !heldNow s (x.1 / 2 * 128) true
      let vs := out.map (·.1) ++ priv
      let v := nthD vs (Config.freeChoice i % vs.length) 0
      if vs.isEmpty then pure false
      else if 2 ^ 48 ≤ v then do
        evictPrivate core v
        pure true
      else do
        pushL1 core v
        if (← look fun s => (Tbl.find? (coreAt s core).l1 v).any (·.dirty != 0)) then pure false
        else do
          modCore core fun c => { c with l1 := Tbl.del c.l1 v }
          pure true

/-- A line is filled into L1 (R195 to R197): from its home on the die, or through the RDC. The core's own dirty bytes
stay. Answers the line's bytes; a line that finds no room is not kept. -/
def fillL1 (core part : Nat) (x : Loc) (const : Bool) : Prog Line :=
  letI := Prog.monad
  do
    let line := x.pa / 128
    let near ← look fun s => homeOnDie s x.pa (dieOf core)
    let fresh ← look fun s => rdcFresh s core part line
    let data ← if near then do
        noteRequest (dieOf core) x false
        look fun s => homeLine s (128 * line)
      else if fresh then
        look fun s => (Tbl.getD (dieAt s (dieOf core)).rdc (rdcKey line part) (CLine.empty false false part)).data
      else fillRdc (dieOf core) part x
    let held ← look fun s => (Tbl.find? (coreAt s core).l1 (l1Key x.pa const)).isSome
    let room ← if held then pure true else l1Room core
    let old ← look fun s => Tbl.getD (coreAt s core).l1 (l1Key x.pa const) (CLine.empty (x.ac == 1) const part)
    let c : CLine := { old with data := mergeLine data old.data old.dirty, valid := BitVec.allOnes 128,
                                ro := x.ac == 1, const, part, hint := x.hint }
    (if room then modCore core fun k => { k with l1 := Tbl.put k.l1 (l1Key x.pa const) c } else pure ())
    pure c.data

/-! ### Leases held by a group -/

/-- Whether the group holds the line, and whether it has lost it since its last end (R453). -/
def Group.holds (g : Group) (line : Nat) : Bool := g.leases.any fun x => x.line == line && x.held

def Group.lostLine (g : Group) (line : Nat) : Bool := g.leases.any (fun x => x.line == line && !x.held) && !g.holds line

/-- Key of a line at its home: aliases of one line meet there. -/
def leaseKey (s : State) (pa : Nat) : Nat := lineOf (canonPa s.dev pa)

/-- Reads the group's image. -/
def imageRead (s : State) (pa n : Nat) : List Byte :=
  match Tbl.find? s.dev.leases (leaseKey s pa) with
  | some h => lineBytes h.image pa n
  | none => homeBytes s pa n

/-- Writes the group's image. -/
def imageWrite (pa : Nat) (bs : List Byte) : Prog Unit := .get fun s =>
  match Tbl.find? s.dev.leases (leaseKey s pa) with
  | some h =>
    let h1 : LeaseHold := { h with image := setLineBytes h.image (pa % 128) bs,
                                   written := h.written ||| byteMask pa bs.length }
    emit (.dev { s.dev with leases := Tbl.put s.dev.leases (leaseKey s pa) h1 })
  | none => skip

/-- The group's image of the line exists. -/
def hasImage (s : State) (pa k : Nat) : Bool := leasedBy s (leaseKey s pa) k

/-! ### Accesses of a group -/

/-- Storage that an access of a lane names. -/
inductive Place3 where
  | glob (x : Loc) (const : Bool)
  | tile (team off : Nat)
  | priv (lane off : Nat)
deriving DecidableEq, Repr

/-- What a read gives. -/
inductive Got where
  | bytes (bs : List Byte)
  | wait
  | poison
deriving DecidableEq, Repr

/-- Reads bytes at home (path C at home, HX, ordered loads; R208, R210). Copies older than what it reads are dropped with the
core's dirty bytes written home, so that later loads read nothing earlier (R204). -/
def readHome (k core n : Nat) (x : Loc) : Prog Got :=
  letI := Prog.monad
  do
    let s ← look id
    if hasImage s x.pa k then pure (.bytes (imageRead s x.pa n))
    else if ← holdsRequest x.pa (lineDirty s core (x.pa / 128)) (.group k) then pure .wait
    else do
      flushLine core (x.pa / 128)
      noteRequest (dieOf core) x false
      let s1 ← look id
      if lineDirty s1 core (x.pa / 128) then pure .wait
      else if poisoned s1.dev x.pa then pure .poison
      else do
        dropL1 core (x.pa / 128)
        pure (.bytes (homeBytes s1 x.pa n))

/-- Reads bytes through L1 and the RDC (R205). -/
def readCached (k core part n : Nat) (x : Loc) (const : Bool) : Prog Got :=
  letI := Prog.monad
  do
    let s ← look id
    if hasImage s x.pa k then pure (.bytes (imageRead s x.pa n))
    else if l1Has s core x.pa n const then
      pure (.bytes (lineBytes (Tbl.getD (coreAt s core).l1 (l1Key x.pa const) (CLine.empty false false 0)).data x.pa n))
    else do
      let need := homeOnDie s x.pa (dieOf core) || !rdcFresh s core part (x.pa / 128)
      let dirty := (Tbl.find? (dieAt s (dieOf core)).rdc (rdcKey (x.pa / 128) part)).any fun c => c.dirty != 0
      if need && (← holdsRequest x.pa dirty (.group k)) then pure .wait
      else if need && poisoned s.dev x.pa then pure .poison
      else do
        let y ← fillL1 core part x const
        pure (.bytes (lineBytes y x.pa n))

/-- Tile bytes of a team, zero where nothing has been written (R108). -/
def tileBytes (t : Team) (off n : Nat) : List Byte := (upTo off n).map fun o => Tbl.getD t.tile o 0

def tileWrite (t : Team) (off : Nat) (bs : List Byte) : Team :=
  match bs with
  | [] => t
  | b :: rest => tileWrite { t with tile := Tbl.setD t.tile off 0 b } (off + 1) rest

/-- Reads n bytes for group k (`home` is an ordered load). -/
def readPlace (k : Nat) (g : Group) (n : Nat) (p : Place3) (home : Bool) : Prog Got :=
  letI := Prog.monad
  do
    match p with
    | .glob x const => do
      let part ← look fun s => (Tbl.find? s.teams g.team).elim 0 (·.part)
      if home || x.ac == 2 then readHome k (keyCore k) n x else readCached k (keyCore k) part n x const
    | .tile team off => do
      match ← look fun s => Tbl.find? s.teams team with
      | some t => pure (if t.zeroing then .wait else .bytes (tileBytes t off n))
      | none => pure (.bytes (List.replicate n 0))
    | .priv l off => do
      match ← look fun s => Tbl.find? s.teams g.team with
      | some t => pure (.bytes (privBytes t.priv g l off n))
      | none => pure (.bytes (List.replicate n 0))

/-- Whether a write of group k to a place must wait (`home` is an ordered store or an atomic). -/
def writeHeld (k : Nat) (p : Place3) (home : Bool) : Prog Bool :=
  letI := Prog.monad
  do
    match p with
    | .glob x _ => do
      let s ← look id
      if hasImage s x.pa k then pure false
      else if home || x.ac == 2 then holdsRequest x.pa true (.group k)
      else if (Tbl.find? (coreAt s (keyCore k)).l1 (l1Key x.pa false)).isSome then pure false
      else do
        let room ← l1Room (keyCore k)
        pure !room
    | .tile team _ => look fun s => (Tbl.find? s.teams team).elim false (·.zeroing)
    | .priv .. => pure false

/-- A write at home by a core (HX, ordered stores, atomics): the core's copy of the line is written back and dropped. -/
def writeHome (core : Nat) (x : Loc) (bs : List Byte) : Prog Unit :=
  letI := Prog.monad
  do
    flushLine core (x.pa / 128)
    dropL1 core (x.pa / 128)
    noteRequest (dieOf core) x true
    homeWrite x.pa bs

/-- Writes bytes for group k (R389, R453). -/
def writePlace (k : Nat) (g : Group) (p : Place3) (bs : List Byte) (home : Bool) : Prog Unit :=
  letI := Prog.monad
  do
    match p with
    | .glob x _ => do
      let s ← look id
      if hasImage s x.pa k then imageWrite x.pa bs
      else if g.lostLine (leaseKey s x.pa) then pure ()
      else if home || x.ac == 2 then writeHome (keyCore k) x bs
      else do
        let part := (Tbl.find? s.teams g.team).elim 0 (·.part)
        let _ ← if (Tbl.find? (coreAt s (keyCore k)).l1 (l1Key x.pa false)).isSome then pure true else l1Room (keyCore k)
        let s ← look id
        let old := Tbl.getD (coreAt s (keyCore k)).l1 (l1Key x.pa false) (CLine.empty false false part)
        let m := byteMask x.pa bs.length
        let c : CLine := { old with data := setLineBytes old.data (x.pa % 128) bs, valid := old.valid ||| m,
                                    dirty := old.dirty ||| m, part, hint := x.hint }
        modCore (keyCore k) fun y => { y with l1 := Tbl.put y.l1 (l1Key x.pa false) c }
    | .tile team off => modTeam team fun t => tileWrite t off bs
    | .priv l off => modTeam g.team fun t => { t with priv := privWrite t.priv g l off bs }

/-- An atomic of group k: the old bytes, and the new ones written unless none (R391 to R393, R453). -/
def atomicPlace (k : Nat) (g : Group) (p : Place3) (n : Nat) (f : List Byte → Option (List Byte)) : Prog (List Byte) :=
  letI := Prog.monad
  do
    match p with
    | .glob x _ => do
      let s ← look id
      if hasImage s x.pa k then do
        let old := imageRead s x.pa n
        (match f old with
         | some bs => imageWrite x.pa bs
         | none => pure ())
        pure old
      else do
        flushLine (keyCore k) (x.pa / 128)
        dropL1 (keyCore k) (x.pa / 128)
        noteRequest (dieOf (keyCore k)) x true
        let old ← look fun s => homeBytes s x.pa n
        (match f old with
         | some bs => if g.lostLine (leaseKey s x.pa) then pure () else homeWrite x.pa bs
         | none => pure ())
        pure old
    | .tile team off => do
      let old ← look fun s => (Tbl.find? s.teams team).elim (List.replicate n 0) fun t => tileBytes t off n
      (match f old with
       | some bs => modTeam team fun t => tileWrite t off bs
       | none => pure ())
      pure old
    | .priv l off => do
      let old ← look fun s => (Tbl.find? s.teams g.team).elim (List.replicate n 0) fun t => privBytes t.priv g l off n
      (match f old with
       | some bs => modTeam g.team fun t => { t with priv := privWrite t.priv g l off bs }
       | none => pure ())
      pure old

/-- Whether an atomic would read a poisoned sector. -/
def placePoisoned (s : State) (k : Nat) (p : Place3) : Bool :=
  match p with
  | .glob x _ => !hasImage s x.pa k && poisoned s.dev x.pa
  | _ => false

/-! ### Release -/

/-- UNIT of a record (R114). -/
def RrSlotState.unit (r : RrSlotState) : Nat := bits (nthD r.words 0 0) 0 4

def RrSlotState.stat (r : RrSlotState) : Nat := bits (nthD r.words 0 0) 8 3

def RrSlotState.cls (r : RrSlotState) : Nat := bits (nthD r.words 0 0) 12 3

def RrSlotState.mask (r : RrSlotState) : Mask := nthD r.words 1 0

/-- Whether some path-C access of the group is still parked, so not performed (R207, R396). -/
def Group.pathCParked (g : Group) : Bool :=
  (g.rr.any fun x => x.2.unit == 0) || (g.overflow.any fun r => r.unit == 0)

/-- Release at a scope (R207). Answers whether it must still wait. -/
def releaseCore (k : Nat) (g : Group) (sc : Scope) : Prog Bool :=
  letI := Prog.monad
  do
    if g.pathCParked then pure true
    else match sc with
      | .grp => pure false
      | .team => pure false
      | _ => do
        publish (keyCore k) (some k)

end Sys2Proof.Machine
end

