-- ==== Sys2Proof/Machine/Caches.lean ====
section
/-! DEFINITION. What caches do of themselves: evictions and stale lines (R196, R197, R200), fills ahead of use (R205, R397),
lost predictors (R215). -/

namespace Sys2Proof.Machine

/-- L1_EVICTION (R197): dirty bytes go to the home on the core's own die, or into the die's RDC line, and the line leaves.
While its home holds the write, it stays. -/
def execL1Eviction (core line : Nat) (s : State) : Out :=
  (letI := Prog.monad
   do
    if 2 ^ 48 ≤ line then evictPrivate core line
    else
      match ← look fun s => Tbl.find? (coreAt s core).l1 line with
      | none => pure ()
      | some c => do
        let near ← look fun s => homeOnDie s (line / 2 * 128) (dieOf core)
        let held ← if c.dirty != 0 && near then holdsRequest (line / 2 * 128) true .once else pure false
        if held then pure ()
        else do
          pushL1 core line
          if (← look fun s => (Tbl.find? (coreAt s core).l1 line).any fun (y : CLine) => y.dirty != 0) then pure ()
          else modCore core fun c => { c with l1 := Tbl.del c.l1 line }).outcome s

/-- RDC_EVICTION (R197): the dirty bytes are written home and the line leaves. `key` names the line and its partition
(`rdcKey`). -/
def execRdcEviction (die key : Nat) (s : State) : Out :=
  (letI := Prog.monad
   do
    match ← look fun s => Tbl.find? (dieAt s die).rdc key with
    | none => pure ()
    | some c => do
      let held ← if c.dirty != 0 then holdsRequest (128 * rdcLine key) true .once else pure false
      if held then pure ()
      else do
        pushRdc die key
        modDie die fun d => { d with rdc := Tbl.del d.rdc key }).outcome s

/-- A clean RDC line filled more than 2^30 cycles ago (R196). -/
def rdcStale (now : Nat) (c : CLine) : Bool :=
  c.dirty == 0 && 2 ^ 30 < (now % 2 ^ 32 + 2 ^ 32 - c.stamp % 2 ^ 32) % 2 ^ 32

/-- RDC_STALE_DROP (R196). -/
def execRdcStaleDrop (die key : Nat) (s : State) : Out :=
  (.get fun s => match Tbl.find? (dieAt s die).rdc key with
    | none => skip
    | some c =>
      if rdcStale (clockAt s die) c then modDie die fun d => { d with rdc := Tbl.del d.rdc key } else skip : Prog Unit).outcome s

/-- A core fills a line ahead of use, under a translation it holds (R205, R397); lines of class HX never enter L1. -/
def fillMove (core line : Nat) : Prog Unit :=
  letI := Prog.monad
  do
    let s ← look id
    let pa := 128 * line
    match (coreAt s core).tlb.find? fun t => t.pa ≤ pa && pa < t.pa + t.size && t.ac != 2 with
    | none => pure ()
    | some t => do
      let va := t.va + (pa - t.pa)
      let a : Agent := { part := t.part, ctxidx := 0, asid := t.asid, core := some core, die := some (dieOf core) }
      let x : Loc := { t.loc s.dev a va with mig := false }
      let dirty := (Tbl.find? (dieAt s (dieOf core)).rdc (rdcKey line t.part)).any fun c => c.dirty != 0
      let held ← holdsRequest x.pa dirty .once
      if held || poisoned s.dev x.pa then pure () else Prog.bind (fillL1 core t.part x false) fun _ => pure ()

/-- A line leaves its L2 slice: its predictor is lost (R215). A leased line is pinned (R213). -/
def dropPredictor (line : Nat) : Prog Unit :=
  modDev fun d => if (Tbl.find? d.leases line).any (·.holder.isSome) then d else { d with predict := Tbl.del d.predict line }

end Sys2Proof.Machine
end

