-- ==== Sys2Proof/Machine/Queues.lean ====
section
/-! DEFINITION. What the Carding Processor and the cores share: accesses in a queue's context (R82, R88), arming of
watches (R83 to R86), pages raised to the FLE, packets in flight, and the abort of a queue (R89). -/

namespace Sys2Proof.Machine

/-! ### Watches -/

/-- Frees a watch by its identifier. -/
def freeWatch (id : Nat) : Prog Unit :=
  dropWatch id

/-- Arms a watch (R83 to R86): an entry of the word's slice, or a polled arm where the slice has none for it or the word lies
in host memory behind PCIe. A condition
that already holds fires at once. Answers the identifier. -/
def armWatch (part pa : Nat) (w8 : Bool) (mask : Word64) (c : Cmp) (comp : Word64) (kind token token2 : Nat) :
    Prog (Nat × Bool) :=
  letI := Prog.monad
  do
    let id ← newId
    let d ← look fun s => s.dev
    let sl := sliceOf d pa
    let used := sliceUse d sl
    let free := freeBelow 128 used
    let polled := free.isNone || (isHost pa && pcieMode d) || (partAt d part).pwatch.toNat % 256 ≤ partUse d sl part
    let w : Watch := { id, slice := sl, entry := free.getD 0, part, pa, w8, mask, cmp := c, comp, kind, token, token2,
                       polled, fired := none }
    let word ← look fun s => homeNat s pa (watchSize w8)
    if watchHolds w8 mask c comp word then do
      modDev fun d => { d with watches := d.watches ++ [w] }
      fireAll [w]
      pure (id, polled)
    else do
      modDev fun d => { d with watches := d.watches ++ [w] }
      (if polled && kind != 0 then due (.watchPoll id) else pure ())
      pure (id, polled)

/-! ### Pages to the FLE -/

/-- Number of a page key, as events name it. -/
def PageKey.code (k : PageKey) : Nat :=
  ((k.part * 256 + k.ctx) * 2 + k.s2.toNat) * 2 ^ 40 + k.page % 2 ^ 40

/-- The page of a fault (R112): a VA page for classes 0 to 2, a guest page for 3 to 5. -/
def faultKey (part ctx cls addr : Nat) : PageKey := { part, ctx, page := addr / 4096, s2 := 3 ≤ cls }

/-- The tag of the page request that a page waits on (R114). -/
def awaitedTag (d : Dev) (key : PageKey) : Option Nat :=
  (d.fle.reqs.find? fun (r : PageReq) => r.page.key == key).map (·.tag)

/-- A page enters a die's cluster stage (R119): its count and ACC join an entry already there. -/
def stagePage (die : Nat) (key : PageKey) (cls : Nat) (acc : BitVec 5) (count : Nat) (pred : Bool) : Prog Unit :=
  letI := Prog.monad
  do
    let l ← look fun s => (dieAt s die).stage
    match l.find? (·.key == key) with
    | some e => do
      let e1 : StageEntry := { e with acc := e.acc ||| acc, count := min 255 (e.count + count) }
      modDie die fun d => { d with stage := d.stage.map fun x => if x.key == key then e1 else x }
      (if e.sent then due (.flePageArrival die key.code) else pure ())
    | none => do
      let e : StageEntry := { key, cls, acc, count := min 255 count, pred, sent := false }
      modDie die fun d => { d with stage := d.stage ++ [e] }
      due (.flePageArrival die key.code)

/-! ### Accesses of the Carding Processor -/

/-- The context of a queue, its ASID read from its descriptor (R39). The CDP sits on the hub: no TLB stands before its
walks. -/
def queueAgent (s : State) (q : Nat) : Agent :=
  let x := queueAt s.dev q
  { part := x.part, ctxidx := x.ctx, asid := (readCtx s x.part x.ctx).elim 0 (·.asid), core := none, die := none,
    who := .queue q }

/-- How a CDP access ends. -/
inductive Cdp (α : Type) where
  | ok (x : α)
  /-- The page to raise, and the VA that faulted (R63). -/
  | fault (key : PageKey) (cls : Nat) (va : Nat) (acc : Acc)
  /-- Translation traps, the word is poisoned, or the context is disabled: unresolvable (R88, R462). -/
  | bad
  | wait

/-- The home PA of an address in an agent's context. -/
def cdpPlace (a : Agent) (va : Nat) (acc : Acc) : Prog (Cdp Nat) :=
  letI := Prog.monad
  do
    if (← look fun s => readCtx s a.part a.ctxidx).isNone then pure .bad
    else match ← translate a va acc with
    | .ok _ pa =>
      if ← holdsRequest pa acc.writes a.who then pure .wait
      else do
        let d ← look fun s => s.dev
        pure (if poisoned d pa then .bad else .ok pa)
    | .fault cls addr => pure (.fault (faultKey a.part a.ctxidx cls addr) cls va acc)
    | .trap _ => pure .bad
    | .wait => pure .wait

/-- Reads n bytes in a context. The bytes lie in one page. -/
def cdpRead (a : Agent) (va n : Nat) : Prog (Cdp Nat) :=
  letI := Prog.monad
  do
    match ← cdpPlace a va .read with
    | .ok pa => do
      touchFrame pa false
      let x ← look fun s => homeNat s pa n
      pure (.ok x)
    | .fault k c x e => pure (.fault k c x e)
    | .bad => pure .bad
    | .wait => pure .wait

/-- An atomic at home on a word of n bytes: its new value from the old. -/
def cdpAtomic (a : Agent) (va n : Nat) (f : Nat → Nat) : Prog (Cdp Nat) :=
  letI := Prog.monad
  do
    match ← cdpPlace a va .atomic with
    | .ok pa => do
      let x ← look fun s => homeNat s pa n
      homeWrite pa (bytesOf n (f x))
      pure (.ok x)
    | .fault k c x e => pure (.fault k c x e)
    | .bad => pure .bad
    | .wait => pure .wait

/-! ### Packets -/

def packetAt (d : Dev) (q idx : Nat) : Option Packet := d.packets.find? fun p => p.queue == q && p.index == idx

def modPacket (q idx : Nat) (f : Packet → Packet) : Prog Unit :=
  modDev fun d => { d with packets := d.packets.map fun p => if p.queue == q && p.index == idx then f p else p }

/-- INFLIGHT follows the packets that have started (R63). -/
def countInflight (q : Nat) : Prog Unit :=
  letI := Prog.monad
  do
    let n ← look fun s => (s.dev.packets.filter fun p => p.queue == q && p.phase != 0).length
    modQueue q fun x => { x with inflight := n }

def dropPacket (q idx : Nat) : Prog Unit :=
  letI := Prog.monad
  do
    modDev fun d => { d with packets := d.packets.filter fun p => !(p.queue == q && p.index == idx) }
    countInflight q

/-- Bits of a 64-byte packet given as eight words (R70). -/
def packetBits (ws : List Word64) (lo n : Nat) : Nat :=
  ((upTo 0 8).foldl (fun a k => a + (nthD ws k 0).toNat * 2 ^ (64 * k)) 0) / 2 ^ lo % 2 ^ n

/-- ABCODE values (R92). -/
def abWait : Nat := 1
def abMalformed : Nat := 2
def abPacket : Nat := 3
def abCopy : Nat := 4
def abTeam : Nat := 5
def abNoMatch : Nat := 6
def abUnresolved : Nat := 7
def abOverrun : Nat := 8

/-- Arms the write-index watch of a queue (R65): ne against SEEN. A word that cannot be translated leaves the queue to
ask for a lane, where the access faults. -/
def armWidx (q : Nat) : Prog Unit :=
  letI := Prog.monad
  do
    let x ← look fun s => queueAt s.dev q
    freeWatch x.watch
    let a ← look fun s => queueAgent s q
    match ← translate a x.widx.toNat .read with
    | .ok _ pa => do
      let (id, polled) ← armWatch x.part pa true (BitVec.allOnes 64) .ne x.seen 2 q 0
      let live ← look fun s => s.dev.watches.any (·.id == id)
      modQueue q fun x => { x with watch := if live then id else 0 }
      let _ := polled
      pure ()
    | _ => askLane q

/-- Collectives of a launch that wait for members are looked at again: some may no longer arrive (R239). -/
def recheckColl (q idx : Nat) : Prog Unit := .get fun s =>
  each (s.dies.flatMap fun x => (x.2.coll.filter fun c => c.launch == (q, idx) && c.set == 0 && c.phase ≤ 1).map
    fun c => (x.1, c.id)) fun x => due (.collectiveMatch x.1 x.2)

/-- A queue aborts (R89): the failing packet is left to the completion path, the queue is ABORTED with its code and
index, its lane is free, its write-index watch armed, and a QUEUE_ABORT entry is posted. A packet that has failed before gets no
further signal. A queue already ABORTED keeps its first code (DESIGN CHOICE, log 20). -/
def abortQueue (q idx code : Nat) : Prog Unit :=
  letI := Prog.monad
  do
    let x ← look fun s => queueAt s.dev q
    match ← look fun s => packetAt s.dev q idx with
    | some p =>
      if p.phase == 5 || p.phase == 6 then pure ()
      else do
        each p.watches freeWatch
        modPacket q idx fun p => { p with phase := 5, watches := [], restarts := [] }
        recheckColl q idx
        due (.packetRetire q idx)
    | none => pure ()
    withdrawQueue q
    if x.stat == qAborted then pure ()
    else do
      dropLane q
      modDev fun d => { d with laneReqs := d.laneReqs.map fun l => l.filter (· != q) }
      let tag ← look fun s => ((packetAt s.dev q idx).map fun p => packetBits p.words 48 16).getD 0
      modQueue q fun x => { x with stat := qAborted, abcode := code, abidx := BitVec.ofNat 64 idx, asked := false,
                                   parked := none, blocked := none, faultva := 0 }
      countInflight q
      postCq (fnOfPart x.part) 0 (cqEntry idx tag code q 1 0)
      armWidx q
      let x1 ← look fun s => queueAt s.dev q
      due (.packetRetire q x1.ridx.toNat)

/-- Quads of a launch wait for a pixel group, whose team it will be (R280). -/
def quadsWait (s : State) (q idx : Nat) : Bool :=
  s.cores.any fun x => x.2.pixel.any fun y => y.raster.queue == q && y.raster.packet == idx

/-- A packet of a started launch has lost a team: when none runs and none is to be placed, its effect is complete (R73,
R147); a failed launch whose last team has gone leaves (R89). -/
def launchCheck (q idx : Nat) : Prog Unit :=
  letI := Prog.monad
  do
    match ← look fun s => packetAt s.dev q idx with
    | some p =>
      if p.phase == 6 then (if p.running == 0 then dropPacket q idx else pure ())
      else if p.phase == 1 && p.kernel.isSome && p.running == 0 && p.nextTeam ≥ p.endTeam && p.restarts.isEmpty &&
          !(← look fun s => quadsWait s q idx) then do
        modPacket q idx fun p => { p with phase := 2 }
        due (.packetRetire q idx)
      else pure ()
    | none => pure ()

/-- A WAITING queue asks for a lane again (R65). -/
def resumeQueue (q : Nat) : Prog Unit := .get fun s => if (queueAt s.dev q).stat == qWaiting then askLane q else skip

/-- Launches of a partition that still wait to place teams look for room again (R142, R145, R152). -/
def replace (part : Nat) : Prog Unit :=
  letI := Prog.monad
  do
    due (.teamPlace part)
    due (.clusterPlace part)

end Sys2Proof.Machine
end

