-- ==== Sys2Proof/Machine/Life.lean ====
section
/-! DEFINITION. The end of teams (R176, R217), fatal traps (R190), barriers (R184) and the extended-block pool (R163): what
one group's step does to the others of its team. -/

namespace Sys2Proof.Machine

/-! ### Leases -/

/-- Every lease of a group is dropped as lost and its images discarded (R217). -/
def dropLeases (k : Nat) : Prog Unit :=
  letI := Prog.monad
  do
    match ← look fun s => Tbl.find? s.groups k with
    | none => pure ()
    | some g => do
      let lost := (upTo 0 4).foldl (fun (a : BitVec 4) j => if (g.leases[j]?).any (·.held) then setBit a j else a) g.lost
      modGroup k fun g => { g with leases := g.leases.map (fun x => { x with held := false }), lost }
      each (g.leases.filter (·.held)) fun x => dropHold x.line
      withdrawAccesses k

/-! ### Waits given up -/

/-- What a wait of a group holds elsewhere is taken back (R386, R337, R338). -/
def cancelWait (k : Nat) (team : Nat) (e : Entry) : Prog Unit :=
  match e.wait with
  | .watch id .. => freeWatch id
  | .lease line _ => withdrawBegin line k
  | .bar _ _ _ => modTeam team fun t =>
      { t with arrivals := Tbl.mapVals t.arrivals fun _ l => l.filter (· != k),
               cluArrivals := Tbl.mapVals t.cluArrivals fun _ l => l.filter (· != k) }
  | .racq _ _ => modTeam team fun t => { t with racqFifo := t.racqFifo.filter (·.1 != k) }
  | _ => skip

/-! ### The extended-block pool -/

/-- Quarters whose pools a group draws on (R163). -/
def Group.quarters (g : Group) : List Nat := if g.width == 64 then [g.quarter, g.quarter + 1] else [g.quarter]

/-- Units of 0.5 KiB that k blocks cost in each quarter (R163). -/
def blockUnits (g : Group) (k : Nat) : Nat := if g.width == 16 then k else 2 * k

/-- Takes (or gives back) units of the pools. -/
def Team.take (t : Team) (g : Group) (n : Nat) : Team :=
  { t with extUsed := g.quarters.foldl (fun l q => modNth l q (· + n)) t.extUsed }

def Team.give (t : Team) (g : Group) (n : Nat) : Team :=
  { t with extUsed := g.quarters.foldl (fun l q => modNth l q (· - n)) t.extUsed }

/-- Whether the pools of a group's quarters hold k blocks. -/
def Team.hasRoom (t : Team) (g : Group) (k : Nat) : Bool :=
  g.quarters.all fun q => nthD t.extUsed q 0 + blockUnits g k ≤ 2 * t.kernel.extKib

/-- Registers of acquired blocks read zero (R108). -/
def Group.zeroBlocks (g : Group) (first n : Nat) : Group :=
  { g with v := g.v.filter fun x => x.1 < 8 * first || 8 * (first + n) ≤ x.1 }

/-- The entry that waits for blocks. -/
def waitsRacq (n : Nat) (e : Entry) : Bool :=
  match e.wait with
  | .racq m _ => m == n
  | _ => false

/-- A granted racq: the blocks are appended, the instruction commits (R163, R338). -/
def grantBlocks (k : Nat) (n : Nat) : Prog Unit :=
  modGroup k fun g =>
    let g0 := g.zeroBlocks g.blocks n
    let g1 : Group := { g0 with extBlk := g.extBlk + n }
    match g1.findWait (waitsRacq n) with
    | some (sus, j, e) =>
      match e.wait with
      | .racq _ next => (g1.setWait sus j (e.after next e.pc)).commit next sus
      | _ => g1
    | none => g1

/-- Grants waiting racq in order: a request whose pools an earlier one still waits on does not pass it (R163). -/
def grantRacq (team : Nat) (fifo : List (Nat × Nat)) (blocked : List Nat) : Prog Unit :=
  match fifo with
  | [] => skip
  | (k, n) :: rest => .get fun s =>
    match Tbl.find? s.teams team, Tbl.find? s.groups k with
    | some t, some g =>
      if g.quarters.any blocked.contains || !t.hasRoom g n then grantRacq team rest (blocked ++ g.quarters)
      else
        Prog.bind (modTeam team fun t => { t.take g (blockUnits g n) with racqFifo := t.racqFifo.erase (k, n) })
          fun _ => Prog.bind (grantBlocks k n) fun _ => grantRacq team rest blocked
    | _, _ => grantRacq team rest blocked

def serveRacq (team : Nat) : Prog Unit := .get fun s =>
  match Tbl.find? s.teams team with
  | some t => grantRacq team t.racqFifo []
  | none => skip

/-! ### Barriers -/

/-- The entry that waits at a barrier. -/
def waitsBar (n : Nat) (clu : Bool) (e : Entry) : Bool :=
  match e.wait with
  | .bar m c _ => m.val == n && c == clu
  | _ => false

/-- A group goes on from a completed barrier: acquire, commit (R184, R209, R337). -/
def passBar (n : Nat) (clu : Bool) (k : Nat) : Prog Unit :=
  letI := Prog.monad
  do
    acquireCore (keyCore k) (if clu then .clu else .team)
    modGroup k fun g =>
      match g.findWait (waitsBar n clu) with
      | some (sus, j, e) =>
        match e.wait with
        | .bar _ _ next => (g.setWait sus j (e.after next e.pc)).commit next sus
        | _ => g
      | none => g

/-- Teams of a cluster, or the team alone. -/
def clusterTeams (s : State) (team : Nat) : List Nat :=
  match Tbl.find? s.teams team with
  | none => []
  | some t => if t.clt == 0 then [team]
    else (Tbl.keys s.teams).filter fun x => (Tbl.find? s.teams x).elim false fun u => u.cluster == t.cluster && u.clt != 0

/-- A barrier completes when every group that has not ended has arrived (R184). -/
def checkBar (team n : Nat) (clu : Bool) : Prog Unit :=
  letI := Prog.monad
  do
    let s ← look id
    let ts := if clu then clusterTeams s team else [team]
    let here := fun (t : Team) => Tbl.getD (if clu then t.cluArrivals else t.arrivals) n []
    let all := ts.all fun x => (Tbl.find? s.teams x).elim true fun t => t.groups.all fun k => (here t).contains k
    let ks := ts.flatMap fun x => (Tbl.find? s.teams x).elim [] here
    if all && !ks.isEmpty then do
      each ts fun x => modTeam x fun t =>
        if clu then { t with cluArrivals := Tbl.del t.cluArrivals n } else { t with arrivals := Tbl.del t.arrivals n }
      each ks (passBar n clu)
    else pure ()

/-- Every barrier that a team's groups wait at is looked at again. -/
def checkBars (team : Nat) : Prog Unit :=
  letI := Prog.monad
  do
    let s ← look id
    match Tbl.find? s.teams team with
    | none => pure ()
    | some t => do
      each (Tbl.keys t.arrivals) fun n => checkBar team n false
      let ns := (clusterTeams s team).flatMap fun x => (Tbl.find? s.teams x).elim [] fun u => Tbl.keys u.cluArrivals
      each ns fun n => checkBar team n true

/-! ### The end of groups and teams -/

/-- Records of a group leave the fault filter. -/
def dropWaiters (k : Nat) : Prog Unit :=
  modCore (keyCore k) fun c => { c with filter := c.filter.map fun e =>
    { e with waiters := e.waiters.filter (·.1 != k) } }

/-- A quarter no longer runs a run of the group (R157, R187). -/
def Quarter.cut (q : Quarter) (k : Nat) : Quarter :=
  match q.run with
  | some (g, _) => if g == k then { q with run := none } else q
  | none => q

def cutRuns (k : Nat) : Prog Unit := modCore (keyCore k) fun c => { c with quarters := c.quarters.map (·.cut k) }

/-- A group leaves the core (R176, R217): leases lost, waits given up, pending writes and dirty private lines dropped,
unpopped results discarded. -/
def removeGroup (k : Nat) : Prog Unit :=
  letI := Prog.monad
  do
    match ← look fun s => Tbl.find? s.groups k with
    | none => pure ()
    | some g => do
      each (Tbl.vals g.entries ++ Tbl.vals g.suspended) (cancelWait k g.team)
      dropLeases k
      dropWaiters k
      emit (.noGroup k)
      modTeam g.team fun t =>
        let t1 := t.give g (blockUnits g g.extBlk)
        { t1 with groups := t.groups.filter (· != k), racqFifo := t.racqFifo.filter (·.1 != k),
                  arrivals := Tbl.mapVals t.arrivals fun _ l => l.filter (· != k),
                  cluArrivals := Tbl.mapVals t.cluArrivals fun _ l => l.filter (· != k),
                  priv := { t.priv with dirty := t.priv.dirty.filter fun x => !g.ownsPriv x.1 } }
      modCore (keyCore k) fun c =>
        { c with rsu := c.rsu.filter (·.group != k) }
      cutRuns k

/-- What a team holds on its core is freed (R150, R176): MXE contexts become IDLE (R414), the patch of a cluster whose
last team goes is freed (R146). -/
def freeTeam (team : Nat) : Prog Unit :=
  letI := Prog.monad
  do
    match ← look fun s => Tbl.find? s.teams team with
    | none => pure ()
    | some t => do
      modCore t.core fun c => { c with mxe := c.mxe.map fun x => if x.owner == team && x.state != 0 then MxeCtx.idle else x }
      let others ← look fun s => (clusterTeams s team).filter fun x =>
        x != team && (Tbl.find? s.teams x).elim false (·.placed)
      if t.clt != 0 && others.isEmpty then do
        let cs ← look fun s => Tbl.keys s.cores
        each cs fun c => modCore c fun x => if x.patch == t.cluster then { x with patch := 0 } else x
      else pure ()

/-- A team's private frames return to the share (R140, R200). -/
def freeFrames (t : Team) : Prog Unit :=
  modDev fun d => { d with frames := t.frames.foldl (fun f n => Tbl.del f n) d.frames }

/-- A team is gone for good: its packet counts it, and room is looked for again (R73, R142). -/
def dropTeam (team : Nat) : Prog Unit :=
  letI := Prog.monad
  do
    match ← look fun s => Tbl.find? s.teams team with
    | none => pure ()
    | some t => do
      freeTeam team
      freeFrames t
      modDev fun d => { d with held := d.held.filter (·.team != team) }
      emit (.noTeam team)
      modPacket t.queue t.packet fun p => { p with running := p.running - 1, restarts := p.restarts.filter (· != team) }
      recheckColl t.queue t.packet
      launchCheck t.queue t.packet
      replace t.part

/-- Every group of a team stops without a save (R190, R101). -/
def stopTeam (team : Nat) : Prog Unit :=
  letI := Prog.monad
  do
    let ks ← look fun s => (Tbl.find? s.teams team).elim [] (·.groups)
    each ks removeGroup

/-- A fatal trap ends the team, and its queue aborts with TEAM_FAULT in the same cycle (R89, R190). -/
def fatalTrap (team : Nat) : Prog Unit :=
  letI := Prog.monad
  do
    match ← look fun s => Tbl.find? s.teams team with
    | none => pure ()
    | some t => do
      let sibs ← look fun s => (clusterTeams s team).filter (· != team)
      stopTeam team
      abortQueue t.queue t.packet abTeam
      dropTeam team
      each sibs checkBars

/-- A team's last group has ended (R176). A pre-empted team joins its packet's restart list (R150); of a packet that has
failed it is not placed again (R89). -/
def teamEnded (team : Nat) : Prog Unit :=
  letI := Prog.monad
  do
    match ← look fun s => Tbl.find? s.teams team with
    | none => pure ()
    | some t => do
      let p ← look fun s => packetAt s.dev t.queue t.packet
      if t.preempting && t.saved && (p.elim false fun p => p.phase == 1) then do
        freeTeam team
        modTeam team fun t => { t with placed := false, preempting := false, restarting := true, saved := false, tile := [],
                                       gang := 0, extUsed := [0, 0, 0, 0] }
        modPacket t.queue t.packet fun p => { p with restarts := p.restarts ++ [team] }
        replace t.part
      else dropTeam team

end Sys2Proof.Machine
end

