-- ==== Sys2Proof/Machine/Ops.lean ====
section
/-! DEFINITION. What every meaning is built from: the checks at issue in their order (R321), raising a trap, retiring an
instruction, replay records (R113 to R118) and results in flight (R384, R385). Taking an exception is `takeTrap`, the
return from one `Group.returned`, which `xret` completes with what follows a joined split table (`returnTrap`). -/

namespace Sys2Proof.Machine

/-! ### Replay records -/

/-- Word 0 of a record (R114). -/
def rrWord0 (tag op : Nat) (acc : BitVec 5) (cls stat unit : Nat) : Word64 :=
  BitVec.ofNat 64 (tag % 65536 * 2 ^ 32 + op % 256 * 2 ^ 24 + acc.toNat * 2 ^ 16 + cls % 8 * 2 ^ 12 + stat % 8 * 2 ^ 8 +
    unit % 16)

def rrParked : Nat := 1
def rrReady : Nat := 2
def rrReplaying : Nat := 3
def rrUnresolved : Nat := 4

/-- The record with another STATE. -/
def RrSlotState.withStat (r : RrSlotState) (st : Nat) : RrSlotState :=
  { r with words := setNth r.words 0 (setBits (nthD r.words 0 0) 8 3 st) }

/-- The record with another PRTAG. -/
def RrSlotState.withTag (r : RrSlotState) (tag : Nat) : RrSlotState :=
  { r with words := setNth r.words 0 (setBits (nthD r.words 0 0) 32 16 tag) }

/-- A faulted access: lane, class, address (VA or guest PA). -/
structure LaneFault where
  lane : Nat
  cls : Nat
  addr : Nat
deriving DecidableEq, Repr

/-- Distinct pages of some faults, in order of the lowest lane on each (R118, R450). -/
def faultPages (l : List LaneFault) : List (Nat × Nat) :=
  l.foldl (fun a x => if a.any (fun y => y.1 == x.addr / 4096 && (3 ≤ y.2) == (3 ≤ x.cls)) then a
    else a ++ [(x.addr / 4096, x.cls)]) []

/-- The key of a page a record waits on. -/
def pageKey (t : Team) (p : Nat × Nat) : PageKey := { part := t.part, ctx := t.ctxidx, page := p.1, s2 := 3 ≤ p.2 }

/-- Attaches a record to a page of the core's fault filter (R118): a page already there takes one more waiter, a new one
goes to the cluster stage. A page whose request is outstanding gives the record its tag (R114). -/
def fileFault (core : Nat) (key : PageKey) (cls : Nat) (acc : BitVec 5) (w : Nat × Nat) : Prog Unit :=
  letI := Prog.monad
  do
    let l ← look fun s => (coreAt s core).filter
    (match ← look fun s => awaitedTag s.dev key with
     | some tag => modGroup w.1 fun g => { g with rr := Tbl.modify g.rr w.2 fun r => r.withTag tag }
     | none => pure ())
    match l.find? (·.key == key) with
    | some e => do
      let e1 : FilterEntry := { e with acc := e.acc ||| acc, waiters := e.waiters ++ [w] }
      modCore core fun c => { c with filter := c.filter.map fun x => if x.key == key then e1 else x }
      (if e.sent then stagePage (dieOf core) key cls acc 1 false else pure ())
    | none => do
      let e : FilterEntry := { key, cls, acc, waiters := [w], sent := false, pred := false, hint := false }
      modCore core fun c => { c with filter := c.filter ++ [e] }
      due (.clusterStagePage core key.code)

/-- Whether the filter has room for the new pages of a record. -/
def filterRoom (s : State) (core : Nat) (keys : List PageKey) : Bool :=
  let l := (coreAt s core).filter
  l.length + (keys.filter fun k => !l.any (·.key == k)).length ≤ 64

/-- Offset of the block of a slot above the kernel's private size (R116). -/
def unitSave (t : Team) (slot : Nat) : Nat := stkTop t.kernel.priv + 128 * slot

/-- The spilled progress of a record's lanes goes to their private memory (R116). -/
def spillBlocks (g : Group) (slot : Nat) (l : Tbl (List Byte)) : Prog Unit :=
  modTeam g.team fun t => { t with priv := l.foldl (fun m x => privWrite m g x.1 (unitSave t slot) x.2) t.priv }

/-- Writes a record into the lowest free slot of a group and attaches it to its pages (R113); while all 8 slots, or the
filter, are full it stays with the unit. -/
def writeRecord (k : Nat) (r : RrSlotState) : Prog Unit :=
  letI := Prog.monad
  do
    let s ← look id
    match Tbl.find? s.groups k with
    | none => pure ()
    | some g =>
      match Tbl.find? s.teams g.team with
      | none => pure ()
      | some t => do
        let keys := r.pages.map (pageKey t)
        match freeBelow 8 (Tbl.keys g.rr) with
        | some slot =>
          if filterRoom s (keyCore k) keys then do
            emit (.group k { g with rr := Tbl.put g.rr slot { r with spill := [] } })
            spillBlocks g slot r.spill
            let acc : BitVec 5 := (nthD r.words 0 0).extractLsb' 16 5
            each r.pages fun p => fileFault (keyCore k) (pageKey t p) p.2 acc (k, slot)
          else emit (.group k { g with overflow := g.overflow ++ [r] })
        | none => emit (.group k { g with overflow := g.overflow ++ [r] })

/-- The fault a unit has held longest is written, where a slot is free (R113). -/
def refillSlot (k : Nat) : Prog Unit :=
  letI := Prog.monad
  do
    match ← look fun s => Tbl.find? s.groups k with
    | none => pure ()
    | some g =>
      match g.overflow with
      | [] => pure ()
      | r :: rest =>
        if g.rr.length < 8 then do
          emit (.group k { g with overflow := rest })
          writeRecord k r
        else pure ()

/-- Faults the units hold are written as slots free (R113). -/
def refillSlots (k : Nat) : Prog Unit := each (upTo 0 8) fun _ => refillSlot k

/-- The slot that a record of a pend or of a split occupies. -/
def Group.slotOf (g : Group) (t : RrSlotState → Bool) : Option Nat := (g.rr.find? fun x => t x.2).map (·.1)

/-! ### Taking an exception (R187) -/

/-- The four words of a frame header (R188). -/
def frameHeader (live : Mask) (tentry count : Nat) (mode : BitVec 19) (cause : Cause) (info xpc : Word64) :
    List Word64 :=
  [ (4#3) ++ (0#13) ++ xpc.extractLsb' 2 46 ++ (0#2), info,
    BitVec.ofNat 64 (cause.toNat + mode.toNat * 2 ^ 8 + count * 2 ^ 28 + tentry * 2 ^ 32), live ]

/-- Pushes the frame of a trap: the header at the depth of the group, then one record per live entry in ascending entry
number. None when it does not fit (R169, R190). -/
def pushFrame (m : PrivMem) (g : Group) (top : Nat) (header : List Word64) : Option (PrivMem × Nat) :=
  let n := g.entries.length
  if !recFits top (g.depth + n) then none
  else
    let m1 := writeRecWords m g top g.depth header
    let m2 := (upTo 0 n).foldl (fun m k =>
      match nthD (g.entries.map some) k none with
      | some (j, e) => writeRec m g top (g.depth + 1 + k) (e.record j)
      | none => m) m1
    some (m2, g.depth + 1 + n)

/-- Entries as a trap leaves them: the run in progress is cut, and a sleep or a yield is not resumed (R187, R330). -/
def cutEntry (e : Entry) : Entry :=
  { e with run := none, wait := match e.wait with
      | .sleep _ => .run
      | .yield => .run
      | w => w }

/-- The entry that trapped: it goes on at XPC, but for an mshemit that is still in flight. -/
def Entry.atTrap (e : Entry) : Entry :=
  match e.wait with
  | .mshemit next => { cutEntry e with pc := next }
  | _ => { cutEntry e with wait := .run }

/-- Operations and records of the current region are discarded at a pre-emption, and popped entries return (R133, R408). -/
def Group.discardRegion (g : Group) : Group :=
  let gone := g.pend.filter (fun x => x.2.region)
  let n := (gone.filter (fun x => x.2.counted)).length
  { g with pend := g.pend.filter (fun x => !x.2.region), rr := g.rr.filter (fun x => !x.2.region),
           overflow := g.overflow.filter (fun r => !r.region), outstanding := g.outstanding - n,
           q := Tbl.mapVals g.q fun _ q => { q with entries := q.retained ++ q.entries, retained := [] }, mshemit := 0,
           emitSrc := [] }

/-- Entries of the region snapshot: joins wait on, every other wait is discarded (R187, R344). -/
def resumeEntry (e : Entry) : Entry :=
  let e1 : Entry := { e with run := none, via := .xret, wait := .run }
  match e.wait with
  | .join a b c => { e1 with wait := .join a b c }
  | .sleep _ => { e1 with pc := e.src }
  | .yield => { e1 with pc := e.src }
  | _ => e1

/-- A trap of cause c in group k, at an entry with a PC (R187): the frame is pushed, XPC, XCAUSE, XMODE and XINFO are
written, HND becomes 1, and the handler runs at TRAPBASE as one split of the live lanes. Fatal under R190. For PREEMPT the
split table, DEPTH and BSEQ are first replaced by the region snapshot and XPC is RGNENTRY. -/
def takeTrap (k : Nat) (tentry : Nat) (c : Cause) (info xpc : Word64) : Prog Unit :=
  letI := Prog.monad
  do
    match ← look fun s => Tbl.find? s.groups k with
    | none => pure ()
    | some g0 => do
      let t? ← look fun s => Tbl.find? s.teams g0.team
      dropLeases k
      let g0 ← look fun s => (Tbl.find? s.groups k).getD g0
      let pre := c == cPreempt
      (if pre then do
        each (Tbl.vals g0.entries ++ Tbl.vals g0.suspended) (cancelWait k g0.team)
        let gone := (g0.rr.filter fun x => x.2.region).map (·.1)
        modCore (keyCore k) fun x => { x with
          rsu := x.rsu.filter (·.group != k),
          filter := x.filter.map fun e => { e with waiters := e.waiters.filter fun w => !(w.1 == k && gone.contains w.2) } }
       else pure ())
      let g : Group := if pre then
          { g0.discardRegion with live := g0.snap.live, entries := Tbl.mapVals g0.snap.entries (fun _ e => resumeEntry e), depth := g0.snap.depth,
                                  bseq := g0.snap.bseq }
        else g0
      let xpc := BitVec.ofNat 64 ((if pre then g.rgnentry else xpc).toNat % 2 ^ 48)
      let tentry := if pre then ((g.entries.find? fun x => x.2.pc == g.rgnentry).map (·.1)).getD
          ((freeBelow 4 (Tbl.keys g.entries)).getD 0) else tentry
      let mode := ((Tbl.find? g.entries tentry).map (·.mode)).getD 0
      let priv := t?.elim 0 (·.kernel.priv)
      let m := t?.elim PrivMem.empty (·.priv)
      let header := frameHeader g.live tentry g.entries.length mode c info xpc
      let pushed := if g.trapbase == 0 || g.hnd then none else pushFrame m g (stkTop priv) header
      match pushed with
      | none => fatalTrap g.team
      | some (m1, d1) => do
        modTeam g.team fun t => { t with priv := m1 }
        let h : Entry := { pc := g.trapbase, via := .transfer, src := xpc, mask := g.live, mode := 0, join := 0, jseq := 0,
                           wait := .run, run := none }
        emit (.group k { g with
          suspended := Tbl.mapVals g.entries (fun n e => if n == tentry then e.atTrap else cutEntry e),
          sdepth := g.depth, depth := d1, entries := [(0, h)], hnd := true, xpc, xcause := c, xmode := mode, xinfo := info,
          latch := [] })
        (if pre then refillSlots k else pure ())
        cutRuns k

/-! ### The end of one group -/

/-- The entry that waits at an lpc. -/
def waitsLpc (idx : Nat) (e : Entry) : Bool :=
  match e.wait with
  | .lpc m _ _ _ => m.getLsbD idx
  | _ => false

/-- The entry that waits at an mma rendezvous. -/
def waitsMma (e : Entry) : Bool :=
  match e.wait with
  | .mma .. => true
  | _ => false

/-- Index of a gang member (R183). -/
def gangHas (gang : BitVec 35) (idx : Nat) : Bool :=
  (upTo 0 (bits gang 32 3)).any fun i => bits gang (5 * i) 5 == idx

/-- Groups of the team that wait for the one that has ended trap GANG_INVALID (R181, R245). -/
def endTraps (team idx : Nat) : Prog Unit :=
  letI := Prog.monad
  do
    match ← look fun s => Tbl.find? s.teams team with
    | none => pure ()
    | some t => each t.groups fun k => do
      match ← look fun s => Tbl.find? s.groups k with
      | none => pure ()
      | some g =>
        match g.entries.find? fun x => waitsLpc idx x.2 || (waitsMma x.2 && gangHas t.gang idx) with
        | some (n, e) => takeTrap k n cGang 0 e.pc
        | none => pure ()

/-- A group leaves its team: barriers and rendezvous no longer count it, and the team ends with its last group (R176). -/
def leaveTeam (k : Nat) : Prog Unit :=
  letI := Prog.monad
  do
    match ← look fun s => Tbl.find? s.groups k with
    | none => pure ()
    | some g => do
      removeGroup k
      let twin ← look fun s => (Tbl.find? s.teams g.team).elim false fun t =>
        t.groups.any fun x => (Tbl.find? s.groups x).elim false fun h => h.index == g.index
      match ← look fun s => Tbl.find? s.teams g.team with
      | none => pure ()
      | some t =>
        if t.groups.isEmpty then do
          let sibs ← look fun s => (clusterTeams s g.team).filter (· != g.team)
          teamEnded g.team
          each sibs checkBars
        else do
          (if twin then pure () else endTraps g.team g.index)
          checkBars g.team
          serveRacq g.team

/-- A group ends (R176): results that an engine holds for it are dropped with it. -/
def groupEnded (k : Nat) : Prog Unit :=
  letI := Prog.monad
  do
    match ← look fun s => Tbl.find? s.groups k with
    | none => pure ()
    | some g => do
      modDev fun d => { d with held := d.held.filter fun h => !(h.team == g.team && h.ident == g.ident) }
      leaveTeam k

/-- A group with no live lane and no record ends (R134, R176). -/
def settleGroup (k : Nat) : Prog Unit :=
  letI := Prog.monad
  do
    match ← look fun s => Tbl.find? s.groups k with
    | none => pure ()
    | some g => if g.live == 0 && g.rr.isEmpty && g.overflow.isEmpty then groupEnded k else pure ()

/-! ### Issue -/

/-- The split an instruction executes for: group key, focus, entry number, team, group, entry, effective MODE, active
lanes (R9). -/
structure Ctx where
  k : Nat
  f : Focus
  n : Nat
  t : Team
  g : Group
  e : Entry
  eff : Eff
  act : Mask
deriving DecidableEq, Repr

/-- The context of the focus for a MOD word. -/
def ctxOf (s : State) (m : Option Mod) : Option Ctx :=
  match s.focus with
  | none => none
  | some f =>
    match Tbl.find? s.groups f.group with
    | none => none
    | some g =>
      match Tbl.find? g.entries f.entry, Tbl.find? s.teams g.team with
      | some e, some t =>
        let eff := effMode e.mode m
        some { k := f.group, f, n := f.entry, t, g, e, eff, act := activeMask g eff e.mask }
      | _, _ => none

/-- Raises a trap precisely (R187, R321). While a lease end of the group waits for its answers the trap is taken
afterwards: the instruction issues again then (R217, R395). -/
def raise (c : Ctx) (cause : Cause) (info : Word64 := 0) : Prog Unit :=
  if c.g.ending then skip else takeTrap c.k c.n cause info c.f.pc

/-- A v-register number within the group's allocation (R162). -/
def Group.hasV (g : Group) (n : Nat) : Bool := n < 8 * g.blocks

/-- The v-registers an operand field names. The blocks of lpc are not operand fields (R181). -/
def operandRegs (i : Instr) : List Nat :=
  match i with
  | .lpc _ _ a _ => [a.val]
  | i => (regUse i).vr ++ (regUse i).vw

/-- Registers beyond the allocation (R162). -/
def rangeBad (g : Group) (i : Instr) : Bool := (operandRegs i).any fun n => !g.hasV n

/-- A latch read that is not valid (R312): bk needs k + 1 earlier results of the same run. -/
def latchBad (e : Entry) (u : RegUse) : Bool :=
  u.latch.any fun k => match e.run with
    | none => true
    | some r => r.results ≤ k

/-- The port a q-register is bound to. -/
def Group.port (g : Group) (n : Nat) : BitVec 4 := (Tbl.find? g.q n).elim 0 (·.port)

/-- A push of a command to the copy or the collective engine (R182, R405). -/
def pushesCommand (g : Group) (i : Instr) : Bool :=
  match i with
  | .qPush _ n (.s _) => g.port n.val == 1 || g.port n.val == 3
  | _ => false

/-- Whether an instruction, with the bindings of the group, is a whole-group one (R182). -/
def wholeFor (g : Group) (i : Instr) : Bool := wholeGroup i || pushesCommand g i

/-- The checks at issue in the order of R321: the dynamic ILLEGAL_WORD of the instruction, MODE_INVALID,
PARTIAL_COLLECTIVE, REG_RANGE, LATCH_STALE. The first that fails traps; otherwise the context. -/
def issueCheck (i : Instr) (c : Ctx) (ill : Bool) : Option Cause :=
  if ill then some cIllegal
  else if modIllegal (instrMod i) then some cMode
  else if wholeFor c.g i && c.g.entries.length > 1 then some cPartial
  else if rangeBad c.g i then some cRegRange
  else if latchBad c.e (regUse i) then some cStale
  else none

/-- An instruction with a body: the checks at issue, then the body. -/
def issue (i : Instr) (ill : Ctx → Bool) (body : Ctx → Prog Unit) : Meaning where
  prog s := (ctxOf s (instrMod i)).map fun c =>
    match issueCheck i c (ill c) with
    | some cause => raise c cause
    | none => body c

/-- No dynamic ILLEGAL_WORD. -/
def never : Ctx → Bool := fun _ => false

/-- The run of an entry after an instruction: one more vector result (R312). -/
def bumpRun (r : Option Run) (vres : Bool) : Option Run :=
  r.map fun x => if vres then { x with results := x.results + 1 } else x

/-- The group as it stands, with the split at the next instruction; `vres` when a vector result entered the chain. -/
def Group.retired (g : Group) (c : Ctx) (vres : Bool) : Group :=
  match Tbl.find? g.entries c.n with
  | some e => g.setEntry c.n { e.step c.f with run := bumpRun e.run vres }
  | none => g

/-- The instruction has executed with no vector result. -/
def retire (c : Ctx) (g : Group) : Prog Unit := emit (.group c.k (g.retired c false))

/-- The instruction has executed with a vector result. -/
def retireV (c : Ctx) (g : Group) : Prog Unit := emit (.group c.k (g.retired c true))

/-- The instruction has executed and commits: RGNENTRY is the next PC (R186). -/
def retireCommit (c : Ctx) (g : Group) : Prog Unit := emit (.group c.k ((g.retired c false).commit c.f.next))

/-- The split guard of R320: the body runs when it passes, else the instruction is a nop. -/
def guarded (c : Ctx) (body : Prog Unit) : Prog Unit :=
  if splitGuard c.g c.eff c.e.mask then body else retire c c.g

/-- The whole-group guard of R182: tested at the group's lowest live lane. -/
def groupGuarded (c : Ctx) (body : Prog Unit) : Prog Unit :=
  if splitGuard c.g c.eff c.g.live then body else retire c c.g

/-- The split waits: it stays at its instruction. -/
def await (c : Ctx) (g : Group) (w : Wait) : Prog Unit :=
  match Tbl.find? g.entries c.n with
  | some e => emit (.group c.k (g.setEntry c.n { e with wait := w }))
  | none => skip

/-! ### Slots that free -/

/-- Frees a slot (R131): the split that it blocks goes on; held faults move up. -/
def freeSlot (k slot : Nat) : Prog Unit :=
  letI := Prog.monad
  do
    modCore (keyCore k) fun c => { c with filter := c.filter.map fun e =>
      { e with waiters := e.waiters.filter (· != (k, slot)) } }
    modGroup k fun g =>
      let g1 : Group := { g with rr := Tbl.del g.rr slot }
      let wakeUp := fun (e : Entry) => match e.wait with
        | .record s => if s.val == slot then { e with wait := .run } else e
        | _ => e
      { g1 with entries := Tbl.mapVals g1.entries (fun _ e => wakeUp e),
                suspended := Tbl.mapVals g1.suspended (fun _ e => wakeUp e) }
    refillSlots k
    settleGroup k

/-! ### Results in flight -/

/-- One fewer outstanding operation (R158). -/
def Group.uncount (g : Group) : Group := { g with outstanding := g.outstanding - 1 }

/-- Writes the returned lanes of a pend (R384). -/
def Group.land (g : Group) (p : Pend) : Group :=
  let g1 := p.regs.foldl (fun g x => g.setV x.reg (x.lanes &&& p.lanes) x.row) g
  let g2 := match p.sdst with
    | some n => if p.lanes == 0 then g1 else g1.setS n.val p.sval
    | none => g1
  match p.pdst with
  | some n => g2.setP n.val p.lanes p.pval
  | none => g2

/-- A pend's returned lanes are written; the pend goes once no lane is parked. -/
def landPend (k id : Nat) : Prog Unit :=
  letI := Prog.monad
  do
    match ← look fun s => Tbl.find? s.groups k with
    | none => pure ()
    | some g =>
      match Tbl.find? g.pend id with
      | none => pure ()
      | some p => do
        let g1 := g.land p
        let latch := g1.latch.map fun x => if x.2 == id then (x.1, 0) else x
        if p.parked == 0 then do
          let g2 : Group := { g1 with pend := Tbl.del g1.pend id, latch }
          emit (.group k (if p.counted then g2.uncount else g2))
          match p.acquire with
          | some sc => acquireCore (keyCore k) sc
          | none => pure ()
        else do
          let p1 : Pend := { p with lanes := 0, regs := p.regs.map fun x => { x with lanes := x.lanes &&& p.parked },
                                    sdst := if p.lanes == 0 then p.sdst else none }
          emit (.group k { g1 with pend := Tbl.put g1.pend id p1, latch })

/-- A PREEMPT that was held is taken once nothing holds it: no handler, no mshemit that emits, no lease end that waits
(R340, R395, R428). -/
def servePreempt (k : Nat) : Prog Unit :=
  letI := Prog.monad
  do
    match ← look fun s => Tbl.find? s.groups k with
    | none => pure ()
    | some g =>
      if g.preempt && !g.hnd && g.mshemit != 2 && !g.ending then do
        emit (.group k { g with preempt := false })
        takeTrap k 0 cPreempt 0 0
      else pure ()

/-! ### The return from an exception (R191) -/

/-- Reads the entry records from the top of the stack downward: count records of KIND 101 with distinct entries, then a
header whose COUNT equals their number. Answers the depth of the header and the records. -/
def readFrame (m : PrivMem) (g : Group) (top depth : Nat) (seen : List Rec) : Option (Nat × List Rec) :=
  match depth with
  | 0 => none
  | d + 1 =>
    let r := readRec m g top d
    if r.kind == kEntry then
      if seen.any (·.entry == r.entry) then none else readFrame m g top d (seen ++ [r])
    else if r.kind == kFrame then
      let w2 := BitVec.ofNat 64 (ofBytes (privBytes m g 2 (top - 8 * (d + 1)) 8))
      if bits w2 28 4 == seen.length then some (d, seen) else none
    else none

/-- The wait an entry takes back (R191): by its record's ESTATE none, a join with a new deadline, or the wait at which its
operation in flight still stands. -/
def restoreWait (g : Group) (now : Nat) (r : Rec) : Wait :=
  if r.estate == 1 then .join (r.pc.setWidth 64) (if r.jexp == 0 then none else some (now + 2 ^ r.jexp.toNat)) r.jexp
  else match r.estate == 2, Tbl.find? g.suspended r.entry with
    | true, some e =>
      if e.pc != r.pc.setWidth 64 || e.wait.estate == 1 then .run else e.wait
    | _, _ => .run

/-- Whether the operation that blocked a recorded entry has completed while the handler ran, and left it at the next
instruction (R187; DEDUCED, log 69). -/
def Rec.wentOn (r : Rec) (o : Entry) : Bool :=
  r.estate == 2 && o.wait == .run && o.src == r.pc.setWidth 64 && o.pc != r.pc.setWidth 64

/-- The wait of the entry that trapped: an mshemit still in flight, else none. -/
def emitWait (g : Group) (n : Nat) : Wait :=
  match Tbl.find? g.suspended n with
  | some e => match e.wait with
    | .mshemit next => .mshemit next
    | _ => .run
  | none => .run

/-- The split table that an `xret` at src restores, with DEPTH below the frame (R191). -/
def Group.returned (g : Group) (m : PrivMem) (top now : Nat) (src : Word64) : Option Group :=
  match readFrame m g top g.depth [] with
  | none => none
  | some (d, recs) =>
    let w2 := BitVec.ofNat 64 (ofBytes (privBytes m g 2 (top - 8 * (d + 1)) 8))
    let tentry := bits w2 32 2
    let entryOf := fun (r : Rec) =>
      let e : Entry := { pc := r.pc.setWidth 64, via := .xret, src, mask := r.mask, mode := r.mode, join := r.join,
                         jseq := r.jseq, wait := restoreWait g now r, run := none }
      if r.entry == tentry then { e with pc := g.xpc, mode := g.xmode, wait := emitWait g r.entry } else
        match Tbl.find? g.suspended r.entry with
        | some o =>
          if r.wentOn o then { e with pc := o.pc, via := o.via, src := o.src }
          else if o.pc == e.pc then { e with via := o.via, src := o.src, run := o.run } else e
        | none => e
    let entries := recs.foldl (fun t r => Tbl.put t r.entry (entryOf r)) []
    some { g with entries, suspended := [], depth := d, hnd := false, latch := [] }

end Sys2Proof.Machine
end

