-- ==== Sys2Proof/Machine/Scalar.lean ====
section
/-! DEFINITION. Scalar instructions and the nop (R320, R349 to R353). -/

namespace Sys2Proof.Machine

/-- A scalar instruction (R349): it acts once, under the split guard, and writes a scalar destination. -/
def scalarResult (i : Instr) (ill : Ctx → Bool) (d : SDst) (f : Group → Word64) : Meaning :=
  issue i ill fun c => guarded c (retire c (c.g.resultS d (f c.g)))

/-- A binary scalar instruction (R350). -/
def scalar2 (i : Instr) (im : Option Imm) (d : SDst) (a : SSrc) (b : SB) (f : Word64 → Word64 → Word64) : Meaning :=
  scalarResult i never d fun g => f (g.ssrc a im) (g.sb b im)

/-- A scalar compare (R351): the predicate is written in every lane of the split's MASK. -/
def scalarCompare (i : Instr) (im : Option Imm) (d : Fin 128) (a : SSrc) (b : SB) (f : Word64 → Word64 → Bool) : Meaning :=
  issue i never fun c => guarded c
    (retire c (c.g.writeP d.val c.e.mask (if f (c.g.ssrc a im) (c.g.sb b im) then BitVec.allOnes 64 else 0)))

/-- Shifts take the whole amount, unsigned (R350). -/
def shlWord (a b : Word64) : Word64 := if b.toNat < 64 then a <<< b.toNat else 0

def shrWord (a b : Word64) : Word64 := if b.toNat < 64 then a >>> b.toNat else 0

def sarWord (a b : Word64) : Word64 := if b.toNat < 64 then a.sshiftRight b.toNat else a.sshiftRight 63

/-- The bit field of sbfx (R352): width 0 stands for 64. -/
def sbfxWord (a b : Word64) (w : BitVec 6) : Word64 :=
  let n := if w == 0 then 64 else w.toNat
  if b.toNat < 64 then BitVec.ofNat 64 (bits a b.toNat n) else 0

/-- Lane that vtos reads (R353): a number, or a scalar modulo the width. -/
def vtosLane (g : Group) (b : LaneSel) : Nat :=
  match b with
  | .num v => v.toNat
  | .sreg s => (g.ssrc s none).toNat % g.width

/-- vtos with a lane number at or above the width is illegal (R353). -/
def vtosIll (b : LaneSel) (c : Ctx) : Bool :=
  match b with
  | .num v => c.g.width ≤ v.toNat
  | .sreg _ => false

/-- NOP (R320): it advances the PC. -/
def execNop (m : Option Mod) (s : State) : Out := (issue (.nop m) never fun c => retire c c.g).outcome s

/-- SADD (R350): (a + b) mod 2^64. -/
def execSadd (m : Option Mod) (im : Option Imm) (d : SDst) (a : SSrc) (b : SB) (s : State) : Out :=
  (scalar2 (.sadd m im d a b) im d a b (fun x y => x + y)).outcome s

/-- SSUB (R350): (a − b) mod 2^64. -/
def execSsub (m : Option Mod) (im : Option Imm) (d : SDst) (a : SSrc) (b : SB) (s : State) : Out :=
  (scalar2 (.ssub m im d a b) im d a b (fun x y => x - y)).outcome s

/-- SMUL (R350): (a × b) mod 2^64. -/
def execSmul (m : Option Mod) (im : Option Imm) (d : SDst) (a : SSrc) (b : SB) (s : State) : Out :=
  (scalar2 (.smul m im d a b) im d a b (fun x y => x * y)).outcome s

/-- SAND (R350): a and b. -/
def execSand (m : Option Mod) (im : Option Imm) (d : SDst) (a : SSrc) (b : SB) (s : State) : Out :=
  (scalar2 (.sand m im d a b) im d a b (fun x y => x &&& y)).outcome s

/-- SOR (R350): a or b. -/
def execSor (m : Option Mod) (im : Option Imm) (d : SDst) (a : SSrc) (b : SB) (s : State) : Out :=
  (scalar2 (.sor m im d a b) im d a b (fun x y => x ||| y)).outcome s

/-- SXOR (R350): a xor b. -/
def execSxor (m : Option Mod) (im : Option Imm) (d : SDst) (a : SSrc) (b : SB) (s : State) : Out :=
  (scalar2 (.sxor m im d a b) im d a b (fun x y => x ^^^ y)).outcome s

/-- SSHL (R350): shift left, 0 from 64 on. -/
def execSshl (m : Option Mod) (im : Option Imm) (d : SDst) (a : SSrc) (b : SB) (s : State) : Out :=
  (scalar2 (.sshl m im d a b) im d a b shlWord).outcome s

/-- SSHR (R350): logical shift right, 0 from 64 on. -/
def execSshr (m : Option Mod) (im : Option Imm) (d : SDst) (a : SSrc) (b : SB) (s : State) : Out :=
  (scalar2 (.sshr m im d a b) im d a b shrWord).outcome s

/-- SSAR (R350): arithmetic shift right, the sign from 64 on. -/
def execSsar (m : Option Mod) (im : Option Imm) (d : SDst) (a : SSrc) (b : SB) (s : State) : Out :=
  (scalar2 (.ssar m im d a b) im d a b sarWord).outcome s

/-- SMIN (R350): signed minimum. -/
def execSmin (m : Option Mod) (im : Option Imm) (d : SDst) (a : SSrc) (b : SB) (s : State) : Out :=
  (scalar2 (.smin m im d a b) im d a b (fun x y => if x.slt y then x else y)).outcome s

/-- SMAX (R350): signed maximum. -/
def execSmax (m : Option Mod) (im : Option Imm) (d : SDst) (a : SSrc) (b : SB) (s : State) : Out :=
  (scalar2 (.smax m im d a b) im d a b (fun x y => if x.slt y then y else x)).outcome s

/-- SMOV (R350): b. -/
def execSmov (m : Option Mod) (im : Option Imm) (d : SDst) (b : SB) (s : State) : Out :=
  (scalarResult (.smov m im d b) never d fun g => g.sb b im).outcome s

/-- SCMP_EQ (R351): a = b. -/
def execScmpEq (m : Option Mod) (im : Option Imm) (d : Fin 128) (a : SSrc) (b : SB) (s : State) : Out :=
  (scalarCompare (.scmpEq m im d a b) im d a b (fun x y => x == y)).outcome s

/-- SCMP_NE (R351): a ≠ b. -/
def execScmpNe (m : Option Mod) (im : Option Imm) (d : Fin 128) (a : SSrc) (b : SB) (s : State) : Out :=
  (scalarCompare (.scmpNe m im d a b) im d a b (fun x y => x != y)).outcome s

/-- SCMP_LT (R351): a < b, signed. -/
def execScmpLt (m : Option Mod) (im : Option Imm) (d : Fin 128) (a : SSrc) (b : SB) (s : State) : Out :=
  (scalarCompare (.scmpLt m im d a b) im d a b (fun x y => x.slt y)).outcome s

/-- SCMP_LTU (R351): a < b, unsigned. -/
def execScmpLtu (m : Option Mod) (im : Option Imm) (d : Fin 128) (a : SSrc) (b : SB) (s : State) : Out :=
  (scalarCompare (.scmpLtu m im d a b) im d a b (fun x y => x.ult y)).outcome s

/-- SCMP_LE (R351): a ≤ b, signed. -/
def execScmpLe (m : Option Mod) (im : Option Imm) (d : Fin 128) (a : SSrc) (b : SB) (s : State) : Out :=
  (scalarCompare (.scmpLe m im d a b) im d a b (fun x y => x.sle y)).outcome s

/-- SCMP_LEU (R351): a ≤ b, unsigned. -/
def execScmpLeu (m : Option Mod) (im : Option Imm) (d : Fin 128) (a : SSrc) (b : SB) (s : State) : Out :=
  (scalarCompare (.scmpLeu m im d a b) im d a b (fun x y => x.ule y)).outcome s

/-- SBFX (R352): a bit field, zero-extended. -/
def execSbfx (m : Option Mod) (im : Option Imm) (d : SDst) (a : SSrc) (b : SB) (w : BitVec 6) (s : State) : Out :=
  (scalar2 (.sbfx m im d a b w) im d a b (fun x y => sbfxWord x y w)).outcome s

/-- VTOS (R353): one lane of a vector, zero-extended, whether or not the lane is active. -/
def execVtos (m : Option Mod) (d : SDst) (a : VSrc) (b : LaneSel) (s : State) : Out :=
  (scalarResult (.vtos m d a b) (vtosIll b) d fun g => (lane (g.vsrc a none) (vtosLane g b)).setWidth 64).outcome s

end Sys2Proof.Machine
end

