-- ==== Sys2Proof/Machine/Vector.lean ====
section
/-! DEFINITION. Vector integer instructions (R345 to R347, R354 to R361) and predicate logic (R379). -/

namespace Sys2Proof.Machine

/-! ### Forms -/

/-- A vector instruction with a 32-bit destination (R345): each active lane receives its value and raises its flags;
the result enters the latch chain. -/
def vectorResult (i : Instr) (ill : Ctx → Bool) (d : VDst) (f : Ctx → Nat → Word32) (fl : Ctx → Nat → Flags) : Meaning :=
  issue i ill fun c =>
    retireV c ((c.g.raise (orFlags ((lanesOf c.act).map (fl c)))).result d c.act (rowOf (f c)))

/-- No flags. -/
def noFlags : Ctx → Nat → Flags := fun _ _ => 0

/-- Two sources, no flags (R346, R354). -/
def vector2 (i : Instr) (im : Option Imm) (d : VDst) (a : VSrc) (b : VB) (f : Word32 → Word32 → Word32) : Meaning :=
  vectorResult i never d (fun c l => f (lane (c.g.vsrc a im) l) (lane (c.g.vb b im) l)) noFlags

/-- Two sources, with flags by the effective MODE. -/
def vector2F (i : Instr) (im : Option Imm) (d : VDst) (a : VSrc) (b : VB)
    (f : Eff → Word32 → Word32 → Word32 × Flags) : Meaning :=
  vectorResult i never d (fun c l => (f c.eff (lane (c.g.vsrc a im) l) (lane (c.g.vb b im) l)).1)
    (fun c l => (f c.eff (lane (c.g.vsrc a im) l) (lane (c.g.vb b im) l)).2)

/-- A vector compare (R360, R366): the predicate is written in active lanes; no latch. -/
def vectorCompare (i : Instr) (d : Fin 128) (f : Ctx → Nat → Bool) (fl : Ctx → Nat → Flags) : Meaning :=
  issue i never fun c =>
    retire c ((c.g.raise (orFlags ((lanesOf c.act).map (fl c)))).writeP d.val c.act (maskOf (f c)))

/-- An integer compare (R360). -/
def intCompare (i : Instr) (im : Option Imm) (d : Fin 128) (a : VSrc) (b : VB) (f : Word32 → Word32 → Bool) : Meaning :=
  vectorCompare i d (fun c l => f (lane (c.g.vsrc a im) l) (lane (c.g.vb b im) l)) noFlags

/-- A vector instruction with a d-pair destination (R345, R358, R369): the chain takes the low half. -/
def vectorResult64 (i : Instr) (d : VDst) (f : Ctx → Nat → Word64) (fl : Ctx → Nat → Flags) : Meaning :=
  issue i never fun c =>
    retireV c ((c.g.raise (orFlags ((lanesOf c.act).map (fl c)))).result64 d c.act
      (rowOf fun l => (f c l).extractLsb' 0 32) (rowOf fun l => (f c l).extractLsb' 32 32))

/-! ### Lane functions -/

/-- iadd and isub (R355): clamped with ISAT under SAT. -/
def clampWord (sat : Bool) (v : Int) : Word32 × Flags :=
  if sat && v < -(2 ^ 31 : Int) then (0x80000000, fISAT)
  else if sat && v > 2 ^ 31 - 1 then (0x7FFFFFFF, fISAT)
  else (BitVec.ofInt 32 v, 0)

def iaddLane (e : Eff) (a b : Word32) : Word32 × Flags := clampWord e.sat (a.toInt + b.toInt)

def isubLane (e : Eff) (a b : Word32) : Word32 × Flags := clampWord e.sat (a.toInt - b.toInt)

def mulhLane (a b : Word32) : Word32 := BitVec.ofInt 32 (a.toInt * b.toInt / 2 ^ 32)

def mulhuLane (a b : Word32) : Word32 := BitVec.ofNat 32 (a.toNat * b.toNat / 2 ^ 32)

/-- Shifts take the whole 32-bit amount, unsigned (R354). -/
def shlLane (a b : Word32) : Word32 := if b.toNat < 32 then a <<< b.toNat else 0

def shrLane (a b : Word32) : Word32 := if b.toNat < 32 then a >>> b.toNat else 0

def sarLane (a b : Word32) : Word32 := if b.toNat < 32 then a.sshiftRight b.toNat else a.sshiftRight 31

def rotLane (a b : Word32) : Word32 := a.rotateLeft (b.toNat % 32)

/-- bfx (R359). -/
def bfxLane (w : BitVec 6) (a b : Word32) : Word32 :=
  if b.toNat < 32 then BitVec.ofNat 32 (bits a b.toNat w.toNat) else 0

/-- bfi (R359): the low w bits of a over c from bit b on; bits beyond bit 31 are lost. -/
def bfiLane (w : BitVec 6) (a b c : Word32) : Word32 :=
  let m : Word32 := if b.toNat < 32 then BitVec.ofNat 32 ((2 ^ w.toNat - 1) <<< b.toNat) else 0
  (c &&& ~~~m) ||| (shlLane a b &&& m)

/-- lea (R358). -/
def leaLane (k : Option (BitVec 6)) (a : Word64) (b : Word32) : Word64 :=
  a + BitVec.ofNat 64 (b.toNat <<< (k.elim 0 BitVec.toNat))

/-- Leading zero bits of a pattern of w bits. -/
def leadZeros (x : Word32) : Nat := if x == 0 then 32 else 31 - Nat.log2 x.toNat

/-- Trailing zero bits. -/
def trailZeros (x : Word32) : Nat := ((upTo 0 32).find? x.getLsbD).getD 32

/-- iun (R361): abs and neg of the most negative number follow SAT. -/
def iunLane (op : IunOp) (sat : Bool) (a : Word32) : Word32 × Flags :=
  let least : Bool := a == 0x80000000
  match op with
  | .abs => if least then (if sat then (0x7FFFFFFF, fISAT) else (a, 0)) else (if a.msb then -a else a, 0)
  | .neg => if least then (if sat then (0x7FFFFFFF, fISAT) else (a, 0)) else (-a, 0)
  | .not => (~~~a, 0)
  | .clz => (BitVec.ofNat 32 (leadZeros a), 0)
  | .ctz => (BitVec.ofNat 32 (trailZeros a), 0)
  | .popc => (BitVec.ofNat 32 (popCount a), 0)
  | .brev => (a.reverse, 0)
  | .sext8 => ((a.extractLsb' 0 8).signExtend 32, 0)
  | .sext16 => ((a.extractLsb' 0 16).signExtend 32, 0)
  | .zext8 => ((a.extractLsb' 0 8).setWidth 32, 0)
  | .zext16 => ((a.extractLsb' 0 16).setWidth 32, 0)

/-- Predicate logic (R379). -/
def popMask (op : PopOp) (a b : Mask) : Mask :=
  match op with
  | .and => a &&& b
  | .or => a ||| b
  | .xor => a ^^^ b
  | .andn => a &&& ~~~b
  | .orn => a ||| ~~~b
  | .nand => ~~~(a &&& b)
  | .nor => ~~~(a ||| b)
  | .xnor => ~~~(a ^^^ b)
  | .mov => a
  | .not => ~~~a

/-! ### The instructions -/

/-- IADD (R354, R355): a + b, clamped under SAT. -/
def execIadd (m : Option Mod) (im : Option Imm) (d : VDst) (a : VSrc) (b : VB) (s : State) : Out :=
  (vector2F (.iadd m im d a b) im d a b iaddLane).outcome s

/-- ISUB (R354, R355): a − b, clamped under SAT. -/
def execIsub (m : Option Mod) (im : Option Imm) (d : VDst) (a : VSrc) (b : VB) (s : State) : Out :=
  (vector2F (.isub m im d a b) im d a b isubLane).outcome s

/-- IMUL (R354): low half of a × b. -/
def execImul (m : Option Mod) (im : Option Imm) (d : VDst) (a : VSrc) (b : VB) (s : State) : Out :=
  (vector2 (.imul m im d a b) im d a b (fun x y => x * y)).outcome s

/-- IMULH (R354): high half of the signed product. -/
def execImulh (m : Option Mod) (im : Option Imm) (d : VDst) (a : VSrc) (b : VB) (s : State) : Out :=
  (vector2 (.imulh m im d a b) im d a b mulhLane).outcome s

/-- IMULHU (R354): high half of the unsigned product. -/
def execImulhu (m : Option Mod) (im : Option Imm) (d : VDst) (a : VSrc) (b : VB) (s : State) : Out :=
  (vector2 (.imulhu m im d a b) im d a b mulhuLane).outcome s

/-- AND (R354): a and b. -/
def execVAnd (m : Option Mod) (im : Option Imm) (d : VDst) (a : VSrc) (b : VB) (s : State) : Out :=
  (vector2 (.vAnd m im d a b) im d a b (fun x y => x &&& y)).outcome s

/-- OR (R354): a or b. -/
def execVOr (m : Option Mod) (im : Option Imm) (d : VDst) (a : VSrc) (b : VB) (s : State) : Out :=
  (vector2 (.vOr m im d a b) im d a b (fun x y => x ||| y)).outcome s

/-- XOR (R354): a xor b. -/
def execVXor (m : Option Mod) (im : Option Imm) (d : VDst) (a : VSrc) (b : VB) (s : State) : Out :=
  (vector2 (.vXor m im d a b) im d a b (fun x y => x ^^^ y)).outcome s

/-- ANDN (R354): a and not b. -/
def execVAndn (m : Option Mod) (im : Option Imm) (d : VDst) (a : VSrc) (b : VB) (s : State) : Out :=
  (vector2 (.vAndn m im d a b) im d a b (fun x y => x &&& ~~~y)).outcome s

/-- SHL (R354): shift left, 0 from 32 on. -/
def execShl (m : Option Mod) (im : Option Imm) (d : VDst) (a : VSrc) (b : VB) (s : State) : Out :=
  (vector2 (.shl m im d a b) im d a b shlLane).outcome s

/-- SHR (R354): logical shift right, 0 from 32 on. -/
def execShr (m : Option Mod) (im : Option Imm) (d : VDst) (a : VSrc) (b : VB) (s : State) : Out :=
  (vector2 (.shr m im d a b) im d a b shrLane).outcome s

/-- SAR (R354): arithmetic shift right, the sign from 32 on. -/
def execSar (m : Option Mod) (im : Option Imm) (d : VDst) (a : VSrc) (b : VB) (s : State) : Out :=
  (vector2 (.sar m im d a b) im d a b sarLane).outcome s

/-- ROT (R354): rotation left by b mod 32. -/
def execRot (m : Option Mod) (im : Option Imm) (d : VDst) (a : VSrc) (b : VB) (s : State) : Out :=
  (vector2 (.rot m im d a b) im d a b rotLane).outcome s

/-- IMIN (R354): signed minimum. -/
def execImin (m : Option Mod) (im : Option Imm) (d : VDst) (a : VSrc) (b : VB) (s : State) : Out :=
  (vector2 (.imin m im d a b) im d a b (fun x y => if x.slt y then x else y)).outcome s

/-- IMAX (R354): signed maximum. -/
def execImax (m : Option Mod) (im : Option Imm) (d : VDst) (a : VSrc) (b : VB) (s : State) : Out :=
  (vector2 (.imax m im d a b) im d a b (fun x y => if x.slt y then y else x)).outcome s

/-- UMIN (R354): unsigned minimum. -/
def execUmin (m : Option Mod) (im : Option Imm) (d : VDst) (a : VSrc) (b : VB) (s : State) : Out :=
  (vector2 (.umin m im d a b) im d a b (fun x y => if x.ult y then x else y)).outcome s

/-- UMAX (R354): unsigned maximum. -/
def execUmax (m : Option Mod) (im : Option Imm) (d : VDst) (a : VSrc) (b : VB) (s : State) : Out :=
  (vector2 (.umax m im d a b) im d a b (fun x y => if x.ult y then y else x)).outcome s

/-- MOV (R354): b. -/
def execMov (m : Option Mod) (im : Option Imm) (d : VDst) (b : VB) (s : State) : Out :=
  (vectorResult (.mov m im d b) never d (fun c l => lane (c.g.vb b im) l) noFlags).outcome s

/-- IMAD (R356): a × b + c, always wrapping. -/
def execImad (m : Option Mod) (im : Option Imm) (d : VDst) (a : VSrc) (b : VB) (c : Option VSrc) (s : State) : Out :=
  (vectorResult (.imad m im d a b c) never d
    (fun x l => lane (x.g.vsrc a im) l * lane (x.g.vb b im) l + lane (x.g.third c d im) l) noFlags).outcome s

/-- SEL (R357): a where the predicate is set, else b. -/
def execSel (m : Option Mod) (im : Option Imm) (d : VDst) (a : VSrc) (b : VB) (p : Fin 128) (s : State) : Out :=
  (vectorResult (.sel m im d a b p) never d
    (fun c l => if hasLane (c.g.preg p.val) l then lane (c.g.vsrc a im) l else lane (c.g.vb b im) l) noFlags).outcome s

/-- LEA (R358): a pair plus a shifted 32-bit b. -/
def execLea (m : Option Mod) (im : Option Imm) (d : VDst) (a : VSrc) (b : VB) (k : Option (BitVec 6)) (s : State) : Out :=
  (vectorResult64 (.lea m im d a b k) d
    (fun c l => leaLane k (c.g.vsrc64 a im l) (lane (c.g.vb b im) l)) noFlags).outcome s

/-- ADD64 (R358): 64-bit sum. -/
def execAdd64 (m : Option Mod) (im : Option Imm) (d : VDst) (a : VSrc) (b : VB) (s : State) : Out :=
  (vectorResult64 (.add64 m im d a b) d (fun c l => c.g.vsrc64 a im l + c.g.vb64 b im l) noFlags).outcome s

/-- BFX (R359): a bit field, zero-extended. -/
def execBfx (m : Option Mod) (im : Option Imm) (d : VDst) (a : VSrc) (b : VB) (w : BitVec 6) (s : State) : Out :=
  (vector2 (.bfx m im d a b w) im d a b (bfxLane w)).outcome s

/-- BFI (R359): a bit field inserted in c. -/
def execBfi (m : Option Mod) (im : Option Imm) (d : VDst) (a : VSrc) (b : VB) (w : BitVec 6) (c : VSrc) (s : State) : Out :=
  (vectorResult (.bfi m im d a b w c) never d
    (fun x l => bfiLane w (lane (x.g.vsrc a im) l) (lane (x.g.vb b im) l) (lane (x.g.vsrc c im) l)) noFlags).outcome s

/-- ICMP_EQ (R360): a = b. -/
def execIcmpEq (m : Option Mod) (im : Option Imm) (d : Fin 128) (a : VSrc) (b : VB) (s : State) : Out :=
  (intCompare (.icmpEq m im d a b) im d a b (fun x y => x == y)).outcome s

/-- ICMP_NE (R360): a ≠ b. -/
def execIcmpNe (m : Option Mod) (im : Option Imm) (d : Fin 128) (a : VSrc) (b : VB) (s : State) : Out :=
  (intCompare (.icmpNe m im d a b) im d a b (fun x y => x != y)).outcome s

/-- ICMP_LT (R360): a < b, signed. -/
def execIcmpLt (m : Option Mod) (im : Option Imm) (d : Fin 128) (a : VSrc) (b : VB) (s : State) : Out :=
  (intCompare (.icmpLt m im d a b) im d a b (fun x y => x.slt y)).outcome s

/-- ICMP_LE (R360): a ≤ b, signed. -/
def execIcmpLe (m : Option Mod) (im : Option Imm) (d : Fin 128) (a : VSrc) (b : VB) (s : State) : Out :=
  (intCompare (.icmpLe m im d a b) im d a b (fun x y => x.sle y)).outcome s

/-- ICMP_LTU (R360): a < b, unsigned. -/
def execIcmpLtu (m : Option Mod) (im : Option Imm) (d : Fin 128) (a : VSrc) (b : VB) (s : State) : Out :=
  (intCompare (.icmpLtu m im d a b) im d a b (fun x y => x.ult y)).outcome s

/-- ICMP_LEU (R360): a ≤ b, unsigned. -/
def execIcmpLeu (m : Option Mod) (im : Option Imm) (d : Fin 128) (a : VSrc) (b : VB) (s : State) : Out :=
  (intCompare (.icmpLeu m im d a b) im d a b (fun x y => x.ule y)).outcome s

/-- ITEST (R360): a and b share a bit. -/
def execItest (m : Option Mod) (im : Option Imm) (d : Fin 128) (a : VSrc) (b : VB) (s : State) : Out :=
  (intCompare (.itest m im d a b) im d a b (fun x y => x &&& y != 0)).outcome s

/-- IUN (R361): one-source integer operations. -/
def execIun (m : Option Mod) (d : VDst) (a : VSrc) (op : IunOp) (s : State) : Out :=
  (vectorResult (.iun m d a op) never d (fun c l => (iunLane op c.eff.sat (lane (c.g.vsrc a none) l)).1)
    (fun c l => (iunLane op c.eff.sat (lane (c.g.vsrc a none) l)).2)).outcome s

/-- POP (R379): predicate logic in active lanes. -/
def execPop (m : Option Mod) (op : PopOp) (d a b : Fin 128) (s : State) : Out :=
  (issue (.pop m op d a b) never fun c =>
    retire c (c.g.writeP d.val c.act (popMask op (c.g.preg a.val) (c.g.preg b.val)))).outcome s

end Sys2Proof.Machine
end

