-- ==== Sys2Proof/Machine/Float.lean ====
section
/-! DEFINITION. Floating-point instructions (R362 to R369), conversions (R370, R371) and MX quantisation (R372, R373). -/

namespace Sys2Proof.Machine

/-- Rounding of an instruction: RM and FTZ of the effective MODE; SAT where the instruction reads it (R347). -/
def Eff.fmode (e : Eff) (sat : Bool) : FMode := ⟨e.rm, sat, e.ftz⟩

/-- The element format of ET (R286). -/
def Eff.fmt (e : Eff) : Fmt := if e.et == 1 then fp16 else if e.et == 2 then bf16 else fp32

/-- ET = FP32. -/
def Eff.single (e : Eff) : Bool := e.et == 0

/-- Element k of a lane: 16 bits, or the whole lane at FP32 (R362). -/
def element (e : Eff) (x : Word32) (k : Nat) : Nat := if e.single then x.toNat else bits x (16 * k) 16

/-- Both elements of a lane (R362): each is computed and rounded on its own, the flags combined. -/
def perElement (e : Eff) (f : Nat → FRes) : Word32 × Flags :=
  if e.single then (BitVec.ofNat 32 (f 0).code, (f 0).flags)
  else (BitVec.ofNat 32 ((f 1).code % 65536 * 65536 + (f 0).code % 65536), (f 0).flags ||| (f 1).flags)

/-- A two-source floating-point function of the elements. -/
def float2 (f : Fmt → FMode → Nat → Nat → FRes) (e : Eff) (a b : Word32) : Word32 × Flags :=
  perElement e fun k => f e.fmt (e.fmode false) (element e a k) (element e b k)

/-- A three-source one. -/
def float3 (f : Fmt → FMode → Nat → Nat → Nat → FRes) (e : Eff) (a b c : Word32) : Word32 × Flags :=
  perElement e fun k => f e.fmt (e.fmode false) (element e a k) (element e b k) (element e c k)

/-- fdot2 (R365): FTZ applies to c and to the result only. -/
def dot2Lane (e : Eff) (a b c : Word32) : Word32 × Flags :=
  let md := e.fmode false
  let p := fun (k : Nat) => (unpack e.fmt (element e a k), unpack e.fmt (element e b k))
  let r := sumOfProducts fp32 md [p 0, p 1] [readOperand fp32 md c.toNat]
  (BitVec.ofNat 32 r.code, r.flags)

/-- fdot2 needs a 16-bit ET, and the transcendental minors FP32 (R365, R368). -/
def et32Ill (c : Ctx) : Bool := c.eff.single

def funTranscends (op : FunOp) : Bool :=
  match op with
  | .rcp | .rsq | .sqrt | .exp2 | .log2 | .sinpi | .cospi => true
  | _ => false

def funIll (op : FunOp) (c : Ctx) : Bool := funTranscends op && !c.eff.single

/-- One element of fun (R368). -/
def funElement (op : FunOp) (f : Fmt) (md : FMode) (a : Nat) : FRes :=
  match op with
  | .abs => fSign f md false a
  | .neg => fSign f md true a
  | .floor => fIntegral f md 3 false a
  | .ceil => fIntegral f md 2 false a
  | .trunc => fIntegral f md 1 false a
  | .rint => fIntegral f md md.rm true a
  | op => fTranscend md op a

def funLane (op : FunOp) (e : Eff) (a : Word32) : Word32 × Flags :=
  perElement e fun k => funElement op e.fmt (e.fmode false) (element e a k)

/-- fclass (R367): a mask for each element; FTZ is ignored. -/
def classLane (e : Eff) (a : Word32) : Word32 :=
  if e.single then BitVec.ofNat 32 (fClass fp32 a.toNat)
  else BitVec.ofNat 32 (fClass e.fmt (element e a 1) * 65536 + fClass e.fmt (element e a 0))

/-- A floating-point compare (R366): element 0 alone. -/
def floatCompare (i : Instr) (im : Option Imm) (d : Fin 128) (a : VSrc) (b : VB) (k : FCmp) : Meaning :=
  let f := fun (c : Ctx) (l : Nat) => fCompare c.eff.fmt (c.eff.fmode false) k
    (element c.eff (lane (c.g.vsrc a im) l) 0) (element c.eff (lane (c.g.vb b im) l) 0)
  vectorCompare i d (fun c l => (f c l).1) (fun c l => (f c l).2)

/-- FP64 ignores ET and FTZ (R369). -/
def Eff.double (e : Eff) : FMode := ⟨e.rm, false, false⟩

def doubleCompare (i : Instr) (im : Option Imm) (d : Fin 128) (a : VSrc) (b : VB) (k : FCmp) : Meaning :=
  let f := fun (c : Ctx) (l : Nat) =>
    fCompare fp64 c.eff.double k (c.g.vsrc64 a im l).toNat (c.g.vb64 b im l).toNat
  vectorCompare i d (fun c l => (f c l).1) (fun c l => (f c l).2)

/-! ### Conversions -/

/-- A 32-bit pattern as a signed number. -/
def signed32 (n : Nat) : Int := (BitVec.ofNat 32 n).toInt

/-- An integer as a pattern of w bits. -/
def pattern (w : Nat) (v : Int) : Nat := (v % (2 ^ w : Nat)).toNat

/-- A float converted to an integer range. -/
def floatToInt (f : Fmt) (md : FMode) (rm : Nat) (lo hi : Int) (a : Nat) : FRes :=
  let r := toIntRange rm lo hi (readOperand f md a)
  ⟨pattern 32 r.1, r.2⟩

/-- cvt on the low bits of a source of up to 64 bits (R294, R370). -/
def cvtLane (op : CvtOp) (md : FMode) (a : Nat) : FRes :=
  let a32 := a % 2 ^ 32
  let narrowTo := fun (lo hi : Int) (w : Nat) (v : Int) => let r := narrow md.sat lo hi w v; (⟨r.1, r.2⟩ : FRes)
  match op with
  | .f32ToF16 => convert fp32 fp16 md a32
  | .f32ToBf16 => convert fp32 bf16 md a32
  | .f32ToE4m3 => convert fp32 e4m3 md a32
  | .f32ToE5m2 => convert fp32 e5m2 md a32
  | .f32ToE2m1 => convert fp32 e2m1 md a32
  | .f16ToF32 => convert fp16 fp32 md a32
  | .bf16ToF32 => convert bf16 fp32 md a32
  | .e4m3ToF32 => convert e4m3 fp32 md a32
  | .e5m2ToF32 => convert e5m2 fp32 md a32
  | .e2m1ToF32 => convert e2m1 fp32 md a32
  | .f32ToI32 => floatToInt fp32 md md.rm (-(2 ^ 31)) (2 ^ 31 - 1) a32
  | .f32ToU32 => floatToInt fp32 md md.rm 0 (2 ^ 32 - 1) a32
  | .i32ToF32 => ofIntVal fp32 md (signed32 a32)
  | .u32ToF32 => ofIntVal fp32 md a32
  | .f32ToF64 => convert fp32 fp64 md a32
  | .f64ToF32 => convert fp64 fp32 md a
  | .i32ToF64 => ofIntVal fp64 md (signed32 a32)
  | .f64ToI32 => floatToInt fp64 md md.rm (-(2 ^ 31)) (2 ^ 31 - 1) a
  | .f32ToI32Trunc => floatToInt fp32 md 1 (-(2 ^ 31)) (2 ^ 31 - 1) a32
  | .i32ToI16 => narrowTo (-(2 ^ 15)) (2 ^ 15 - 1) 16 (signed32 a32)
  | .i32ToI8 => narrowTo (-(2 ^ 7)) (2 ^ 7 - 1) 8 (signed32 a32)
  | .u32ToU16 => narrowTo 0 (2 ^ 16 - 1) 16 a32
  | .u32ToU8 => narrowTo 0 (2 ^ 8 - 1) 8 a32
  | .i64ToI32 => narrowTo (-(2 ^ 31)) (2 ^ 31 - 1) 32 (BitVec.ofNat 64 a).toInt

/-- Conversions to a d-pair. -/
def cvtWide (op : CvtOp) : Bool :=
  match op with
  | .f32ToF64 | .i32ToF64 => true
  | _ => false

def cvtAt (op : CvtOp) (a : VSrc) (c : Ctx) (l : Nat) : FRes :=
  cvtLane op (c.eff.fmode c.eff.sat) (if cvtSrcRegs op == 2 then (c.g.vsrc64 a none l).toNat
    else (lane (c.g.vsrc a none) l).toNat)

/-! ### MX quantisation -/

/-- The element format of a format code, and emax (R242, R372). -/
def mxFormat (n : Nat) : Option (Fmt × Nat) :=
  if n == 2 then some (e4m3, 8) else if n == 3 then some (e5m2, 15) else if n == 5 then some (e2m1, 2) else none

/-- The value of the format operand (R372). -/
def fmtValue (g : Group) (f : FmtSrc) (im : Option Imm) : Nat :=
  match f with
  | .imm => (immValue im).toNat
  | .sreg s => (g.ssrc s im).toNat

/-- The binary exponent of a finite value, floor(log2 |x|). -/
def expOf (x : FVal) : Int :=
  match x with
  | .fin _ m e => (Nat.log2 m : Int) + e
  | _ => 0

/-- Whether |x| is at most |y|, both finite. -/
def absLe (x y : FVal) : Bool :=
  match x, y with
  | .fin _ m e, .fin _ n k => !fLt (.fin false n k) (.fin false m e)
  | _, _ => false

/-- The element of largest magnitude. -/
def amaxOf (l : List FVal) : FVal := l.foldl (fun a x => if absLe x a then a else x) (.fin false 0 0)

/-- Scale of a block (R372). -/
def blockScale (emax : Nat) (l : List FVal) : Nat :=
  match amaxOf l with
  | .fin _ 0 _ => 0
  | x => (max 0 (min 254 (expOf x - emax + 127))).toNat

/-- One quantised element (R372): a magnitude above the largest finite value is clamped to it with NX alone. -/
def quantise (f : Fmt) (md : FMode) (scale : Nat) (x : FVal) : FRes :=
  match x with
  | .fin s m e =>
    let y := FVal.fin s m (e + 127 - scale)
    if absLe y (unpack f f.maxCode) then
      let r := roundTo f md s m (e + 127 - scale) false
      ⟨r.code, r.flags &&& fNX⟩
    else ⟨f.sign s + f.maxCode, fNX⟩
  | _ => ⟨0, fNV⟩

/-- The active lanes of the block of a lane. -/
def blockOf (act : Mask) (l : Nat) : List Nat := (upTo (l / 32 * 32) 32).filter (hasLane act)

/-- Lane l of mxq: its scale and element with its flags. -/
def mxqLane (f : Fmt) (emax : Nat) (md : FMode) (x : Row) (act : Mask) (l : Nat) : Nat × FRes :=
  let vals := (blockOf act l).map fun k => readOperand fp32 md (lane x k).toNat
  if vals.any (fun v => v.isNan || v.isInf) then (0xFF, ⟨0, fNV⟩)
  else
    let sc := blockScale emax vals
    (sc, quantise f md sc (readOperand fp32 md (lane x l).toNat))

/-- One lane of mxdq (R373). -/
def mxdqLane (f : Fmt) (md : FMode) (scale e : Nat) : FRes :=
  if scale == 0xFF then ⟨fp32.nanCode, 0⟩
  else match unpack f (e % 2 ^ f.width) with
    | .nan _ => ⟨fp32.nanCode, 0⟩
    | .inf s => ⟨fp32.sign s + fp32.infCode, 0⟩
    | .fin s m k => roundTo fp32 md s m (k + scale - 127) false

/-- The traps of mxq and mxdq (R372): WIDTH before the illegal format. -/
def mxTrap (width16 : Bool) (c : Ctx) (fmt : Nat) (body : Fmt × Nat → Prog Unit) : Prog Unit :=
  if width16 && c.g.width == 16 then raise c cWidth
  else match mxFormat fmt with
    | none => raise c cIllegal
    | some f => body f

/-! ### The instructions -/

/-- FADD (R363): rn(a + b). -/
def execFadd (m : Option Mod) (im : Option Imm) (d : VDst) (a : VSrc) (b : VB) (s : State) : Out :=
  (vector2F (.fadd m im d a b) im d a b (float2 fAdd)).outcome s

/-- FSUB (R363): rn(a − b). -/
def execFsub (m : Option Mod) (im : Option Imm) (d : VDst) (a : VSrc) (b : VB) (s : State) : Out :=
  (vector2F (.fsub m im d a b) im d a b (float2 fSub)).outcome s

/-- FMUL (R363): rn(a × b). -/
def execFmul (m : Option Mod) (im : Option Imm) (d : VDst) (a : VSrc) (b : VB) (s : State) : Out :=
  (vector2F (.fmul m im d a b) im d a b (float2 fMul)).outcome s

/-- FMIN (R364): minimumNumber. -/
def execFmin (m : Option Mod) (im : Option Imm) (d : VDst) (a : VSrc) (b : VB) (s : State) : Out :=
  (vector2F (.fmin m im d a b) im d a b (float2 (fun t md => fMinMax t md false))).outcome s

/-- FMAX (R364): maximumNumber. -/
def execFmax (m : Option Mod) (im : Option Imm) (d : VDst) (a : VSrc) (b : VB) (s : State) : Out :=
  (vector2F (.fmax m im d a b) im d a b (float2 (fun t md => fMinMax t md true))).outcome s

/-- FFMA (R363): rn(a × b + c), one rounding. -/
def execFfma (m : Option Mod) (im : Option Imm) (d : VDst) (a : VSrc) (b : VB) (c : Option VSrc) (s : State) : Out :=
  let f := fun (x : Ctx) (l : Nat) =>
    float3 fFma x.eff (lane (x.g.vsrc a im) l) (lane (x.g.vb b im) l) (lane (x.g.third c d im) l)
  (vectorResult (.ffma m im d a b c) never d (fun x l => (f x l).1) (fun x l => (f x l).2)).outcome s

/-- FDOT2 (R365): an exact dot product of two packed pairs and c, one rounding to FP32. -/
def execFdot2 (m : Option Mod) (im : Option Imm) (d : VDst) (a : VSrc) (b : VB) (c : Option VSrc) (s : State) : Out :=
  let f := fun (x : Ctx) (l : Nat) =>
    dot2Lane x.eff (lane (x.g.vsrc a im) l) (lane (x.g.vb b im) l) (lane (x.g.third c d im) l)
  (vectorResult (.fdot2 m im d a b c) et32Ill d (fun x l => (f x l).1) (fun x l => (f x l).2)).outcome s

/-- FCMP_EQ (R366): ordered and equal. -/
def execFcmpEq (m : Option Mod) (im : Option Imm) (d : Fin 128) (a : VSrc) (b : VB) (s : State) : Out :=
  (floatCompare (.fcmpEq m im d a b) im d a b .eq).outcome s

/-- FCMP_NE (R366): unordered or different. -/
def execFcmpNe (m : Option Mod) (im : Option Imm) (d : Fin 128) (a : VSrc) (b : VB) (s : State) : Out :=
  (floatCompare (.fcmpNe m im d a b) im d a b .ne).outcome s

/-- FCMP_LT (R366): ordered and less. -/
def execFcmpLt (m : Option Mod) (im : Option Imm) (d : Fin 128) (a : VSrc) (b : VB) (s : State) : Out :=
  (floatCompare (.fcmpLt m im d a b) im d a b .lt).outcome s

/-- FCMP_LE (R366): ordered and at most. -/
def execFcmpLe (m : Option Mod) (im : Option Imm) (d : Fin 128) (a : VSrc) (b : VB) (s : State) : Out :=
  (floatCompare (.fcmpLe m im d a b) im d a b .le).outcome s

/-- FCMP_UN (R366): unordered. -/
def execFcmpUn (m : Option Mod) (im : Option Imm) (d : Fin 128) (a : VSrc) (b : VB) (s : State) : Out :=
  (floatCompare (.fcmpUn m im d a b) im d a b .un).outcome s

/-- FCLASS (R367). -/
def execFclass (m : Option Mod) (d : VDst) (a : VSrc) (s : State) : Out :=
  (vectorResult (.fclass m d a) never d (fun c l => classLane c.eff (lane (c.g.vsrc a none) l)) noFlags).outcome s

/-- FUN (R368). -/
def execFunop (m : Option Mod) (d : VDst) (a : VSrc) (op : FunOp) (s : State) : Out :=
  (vectorResult (.funop m d a op) (funIll op) d (fun c l => (funLane op c.eff (lane (c.g.vsrc a none) l)).1)
    (fun c l => (funLane op c.eff (lane (c.g.vsrc a none) l)).2)).outcome s

/-- A two-source FP64 result (R369). -/
def double2 (i : Instr) (im : Option Imm) (d : VDst) (a : VSrc) (b : VB) (f : Fmt → FMode → Nat → Nat → FRes) : Meaning :=
  let r := fun (c : Ctx) (l : Nat) => f fp64 c.eff.double (c.g.vsrc64 a im l).toNat (c.g.vb64 b im l).toNat
  vectorResult64 i d (fun c l => BitVec.ofNat 64 (r c l).code) (fun c l => (r c l).flags)

/-- DADD (R369): rn(a + b, fp64). -/
def execDadd (m : Option Mod) (im : Option Imm) (d : VDst) (a : VSrc) (b : VB) (s : State) : Out :=
  (double2 (.dadd m im d a b) im d a b fAdd).outcome s

/-- DMUL (R369): rn(a × b, fp64). -/
def execDmul (m : Option Mod) (im : Option Imm) (d : VDst) (a : VSrc) (b : VB) (s : State) : Out :=
  (double2 (.dmul m im d a b) im d a b fMul).outcome s

/-- DFMA (R369): rn(a × b + c, fp64), one rounding. -/
def execDfma (m : Option Mod) (im : Option Imm) (d : VDst) (a : VSrc) (b : VB) (c : Option VSrc) (s : State) : Out :=
  let r := fun (x : Ctx) (l : Nat) =>
    fFma fp64 x.eff.double (x.g.vsrc64 a im l).toNat (x.g.vb64 b im l).toNat (x.g.third64 c d im l).toNat
  (vectorResult64 (.dfma m im d a b c) d (fun x l => BitVec.ofNat 64 (r x l).code) (fun x l => (r x l).flags)).outcome s

/-- DCMP_LT (R369): ordered and less. -/
def execDcmpLt (m : Option Mod) (im : Option Imm) (d : Fin 128) (a : VSrc) (b : VB) (s : State) : Out :=
  (doubleCompare (.dcmpLt m im d a b) im d a b .lt).outcome s

/-- DCMP_EQ (R369): ordered and equal. -/
def execDcmpEq (m : Option Mod) (im : Option Imm) (d : Fin 128) (a : VSrc) (b : VB) (s : State) : Out :=
  (doubleCompare (.dcmpEq m im d a b) im d a b .eq).outcome s

/-- CVT (R370): one conversion per lane; a pair is written for the FP64 results. -/
def execCvt (m : Option Mod) (d : VDst) (a : VSrc) (op : CvtOp) (s : State) : Out :=
  (if cvtWide op then
    vectorResult64 (.cvt m d a op) d (fun c l => BitVec.ofNat 64 (cvtAt op a c l).code) (fun c l => (cvtAt op a c l).flags)
   else vectorResult (.cvt m d a op) never d (fun c l => BitVec.ofNat 32 (cvtAt op a c l).code)
    (fun c l => (cvtAt op a c l).flags)).outcome s

/-- PACK (R371): two low halves in one lane. -/
def execPack (m : Option Mod) (im : Option Imm) (d : VDst) (a : VSrc) (b : VB) (s : State) : Out :=
  (vector2 (.pack m im d a b) im d a b (fun x y => y.extractLsb' 0 16 ++ x.extractLsb' 0 16)).outcome s

/-- UNPACK (R371): the half that bit 0 of b selects. -/
def execUnpack (m : Option Mod) (im : Option Imm) (d : VDst) (a : VSrc) (b : VB) (s : State) : Out :=
  (vector2 (.unpack m im d a b) im d a b (fun x y => BitVec.ofNat 32 (bits x (16 * bits y 0 1) 16))).outcome s

/-- MXQ (R372): quantises each block of 32 lanes; the scale goes to the register of EXT C, outside the chain. -/
def execMxq (m : Option Mod) (im : Option Imm) (d : VDst) (a : VSrc) (f : FmtSrc) (c : Option (Fin 240)) (s : State) :
    Out :=
  (issue (.mxq m im d a f c) never fun x =>
    mxTrap true x (fmtValue x.g f im) fun (t, emax) =>
      let r := mxqLane t emax (x.eff.fmode x.eff.sat) (x.g.vsrc a im) x.act
      let g := x.g.raise (orFlags ((lanesOf x.act).map fun l => (r l).2.flags))
      let g1 := g.result d x.act (rowOf fun l => BitVec.ofNat 32 (r l).2.code)
      retireV x (match c with
        | some n => g1.writeV n.val x.act (rowOf fun l => BitVec.ofNat 32 (r l).1)
        | none => g1)).outcome s

/-- MXDQ (R373): each lane stands alone. -/
def execMxdq (m : Option Mod) (im : Option Imm) (d : VDst) (a : VSrc) (f : FmtSrc) (c : Option (Fin 240)) (s : State) :
    Out :=
  (issue (.mxdq m im d a f c) never fun x =>
    mxTrap false x (fmtValue x.g f im) fun (t, _) =>
      let scale := fun (l : Nat) => match c with
        | some n => bits (lane (x.g.vreg n.val) l) 0 8
        | none => 0x7F
      let r := fun (l : Nat) => mxdqLane t (x.eff.fmode false) (scale l) (lane (x.g.vsrc a im) l).toNat
      let g := x.g.raise (orFlags ((lanesOf x.act).map fun l => (r l).flags))
      retireV x (g.result d x.act (rowOf fun l => BitVec.ofNat 32 (r l).code))).outcome s

end Sys2Proof.Machine
end

