-- ==== Sys2Proof/Machine/Cross.lean ====
section
/-! DEFINITION. Cross-lane instructions (R374 to R378): they act within the group's width, over logical lanes. -/

namespace Sys2Proof.Machine

/-- One step of a reduction (R377). -/
def foldStep (op : RedOp) (md : FMode) (r a : Word32) : Word32 × Flags :=
  match op with
  | .add => (r + a, 0)
  | .min => (if a.slt r then a else r, 0)
  | .max => (if r.slt a then a else r, 0)
  | .umin => (if a.ult r then a else r, 0)
  | .umax => (if r.ult a then a else r, 0)
  | .and => (r &&& a, 0)
  | .or => (r ||| a, 0)
  | .xor => (r ^^^ a, 0)
  | .fadd =>
    let x := fAdd fp32 md r.toNat a.toNat
    (BitVec.ofNat 32 x.code, x.flags)

/-- Inclusive prefixes over lanes in the order given, from a value and its flags: lane, value, flags so far. -/
def prefixes (op : RedOp) (md : FMode) (x : Row) (acc : Word32 × Flags) (ls : List Nat) : List (Nat × Word32 × Flags) :=
  match ls with
  | [] => []
  | l :: rest =>
    let r := foldStep op md acc.1 (lane x l)
    let acc1 := (r.1, acc.2 ||| r.2)
    (l, acc1) :: prefixes op md x acc1 rest

/-- Prefixes over the active lanes in ascending order, the first lane's value first (R377, R378). -/
def scanLanes (op : RedOp) (md : FMode) (x : Row) (act : Mask) : List (Nat × Word32 × Flags) :=
  match lanesOf act with
  | [] => []
  | l :: rest => (l, lane x l, 0) :: prefixes op md x (lane x l, 0) rest

/-- The last prefix: the whole reduction. -/
def foldLanes (op : RedOp) (md : FMode) (x : Row) (act : Mask) : Word32 × Flags :=
  match (scanLanes op md x act).getLast? with
  | some (_, v, f) => (v, f)
  | none => (0, 0)

/-- The prefix of one lane. -/
def scanAt (l : Nat) (ps : List (Nat × Word32 × Flags)) : Word32 :=
  match ps.find? fun p => p.1 == l with
  | some (_, v, _) => v
  | none => 0

/-- SHFL (R375): each active lane reads the lane that b names modulo the width. -/
def execShfl (m : Option Mod) (im : Option Imm) (d : VDst) (a : VSrc) (b : VSrc) (s : State) : Out :=
  (vectorResult (.shfl m im d a b) never d
    (fun c l => lane (c.g.vsrc a im) ((lane (c.g.vsrc b im) l).toNat % c.g.width)) noFlags).outcome s

/-- SHFL_XOR (R375): each active lane l reads lane l xor s_B mod width. -/
def execShflXor (m : Option Mod) (im : Option Imm) (d : VDst) (a : VSrc) (b : SSrc) (s : State) : Out :=
  (vectorResult (.shflXor m im d a b) never d
    (fun c l => lane (c.g.vsrc a im) (l ^^^ ((c.g.ssrc b im).toNat % c.g.width))) noFlags).outcome s

/-- A ballot at width 64 writes a pair, so D must be even (R376). -/
def voteIll (op : VoteOp) (c : Ctx) : Bool :=
  match op with
  | .ballot (.v n) => c.g.width == 64 && n.val % 2 == 1
  | _ => false

/-- Registers beyond the allocation: the pair of a ballot at width 64 (R162). -/
def voteRange (op : VoteOp) (c : Ctx) : Bool :=
  match op with
  | .ballot (.v n) => c.g.width == 64 && !c.g.hasV (n.val + 1)
  | _ => false

/-- VOTE (R376). -/
def execVote (m : Option Mod) (op : VoteOp) (a : Fin 128) (s : State) : Out :=
  (issue (.vote m op a) (voteIll op) fun c =>
    if voteRange op c then raise c cRegRange
    else
      let yes := c.act &&& c.g.preg a.val
      match op with
      | .any d => retire c (c.g.writeP d.val c.act (if yes != 0 then BitVec.allOnes 64 else 0))
      | .all d => retire c (c.g.writeP d.val c.act (if yes == c.act then BitVec.allOnes 64 else 0))
      | .ballot d =>
        if c.g.width == 64 then
          retireV c (c.g.result64 d c.act (rowOf fun _ => yes.extractLsb' 0 32) (rowOf fun _ => yes.extractLsb' 32 32))
        else retireV c (c.g.result d c.act (rowOf fun _ => yes.extractLsb' 0 32))
      | .count d => retireV c (c.g.result d c.act (rowOf fun _ => BitVec.ofNat 32 (popCount yes)))).outcome s

/-- RED (R377): the fold over the active lanes in ascending order, to every active lane. -/
def execRed (m : Option Mod) (d : VDst) (a : VSrc) (op : RedOp) (s : State) : Out :=
  (issue (.red m d a op) never fun c =>
    let r := foldLanes op (c.eff.fmode false) (c.g.vsrc a none) c.act
    retireV c ((c.g.raise r.2).result d c.act (rowOf fun _ => r.1))).outcome s

/-- SCAN (R378): inclusive prefixes in the same order. -/
def execScan (m : Option Mod) (d : VDst) (a : VSrc) (op : RedOp) (s : State) : Out :=
  (issue (.scan m d a op) never fun c =>
    let x := c.g.vsrc a none
    let md := c.eff.fmode false
    retireV c ((c.g.raise (foldLanes op md x c.act).2).result d c.act
      (rowOf fun l => scanAt l (scanLanes op md x c.act)))).outcome s

end Sys2Proof.Machine
end

