-- ==== Sys2Proof/Machine/Fetch.lean ====
section
/-! DEFINITION. Instruction fetch: code lines and their headers (R295 to R298), the L1 instruction cache (R299), and the
decoding of the instruction at a PC. -/

namespace Sys2Proof.Machine

/-! ### Lines (R295) -/

/-- The header of a line. -/
def lineHead (x : Line) : BitVec 128 := x.extractLsb' 0 128

/-- The 28 slots of a line. -/
def lineWords (x : Line) : List Word32 := (upTo 0 28).map fun k => x.extractLsb' (128 + 32 * k) 32

def hStart (h : BitVec 128) : BitVec 28 := h.extractLsb' 0 28
def hTarget (h : BitVec 128) : BitVec 28 := h.extractLsb' 28 28
def hRun (h : BitVec 128) : BitVec 28 := h.extractLsb' 56 28
def hUsed (h : BitVec 128) : Nat := bits h 112 5
def hKind (h : BitVec 128) : Nat := bits h 117 3

/-- XOR of header bytes 0 to 14. -/
def hCheck (h : BitVec 128) : BitVec 8 := (upTo 0 15).foldl (fun a k => a ^^^ h.extractLsb' (8 * k) 8) 0

/-- An instruction of a line: its first slot, its words, its major, and what it decodes to. -/
structure Slotted where
  slot : Nat
  len : Nat
  op : Nat
  dec : Except DecodeErr Instr

/-- The instructions of the used slots from slot k on; none when one extends past the end (R297). -/
def lineInstrs (ws : List Word32) (k fuel : Nat) : Option (List Slotted) :=
  match fuel with
  | 0 => some []
  | fuel + 1 =>
    match ws with
    | [] => some []
    | _ =>
      match scanWords Scan.start ws with
      | none => none
      | some (_, w, rest) =>
        let n := ws.length - rest.length
        match lineInstrs rest (k + n) fuel with
        | none => none
        | some l => some ({ slot := k, len := n, op := (wordOp w).toNat,
                            dec := (decode (ws.take n)).map (·.1) } :: l)

/-- Whether an instruction may only stand last in a run (R311). -/
def Slotted.mustEnd (x : Slotted) : Bool :=
  (1 ≤ x.op && x.op ≤ 0x15 && x.op != 0x08) ||
    (match x.dec with
     | .ok i => nonIdempotent i
     | .error _ => false)

/-- Whether the runs of a line keep R311: `n` instructions of the current run so far, `ended` that none may follow. -/
def runsOk (run : BitVec 28) (l : List Slotted) (n : Nat) (ended : Bool) : Bool :=
  match l with
  | [] => true
  | x :: rest =>
    if run.getLsbD x.slot then
      1 ≤ n && n < 8 && !ended && x.op != 0x08 && runsOk run rest (n + 1) x.mustEnd
    else runsOk run rest 1 x.mustEnd

/-- Whether the header agrees with the words (R297). -/
def headerAgrees (h : BitVec 128) (ws : List Word32) : Bool :=
  let used := hUsed h
  let st := hStart h
  let tg := hTarget h
  let rn := hRun h
  if bits h 84 28 != 0 || used == 0 || used > 28 then false
  else
    match lineInstrs (ws.take used) 0 28 with
    | none => false
    | some l =>
      let starts : BitVec 28 := l.foldl (fun a x => setBit a x.slot) 0
      (ws.drop used).all (· == 0) && st == starts && tg &&& ~~~st == 0 && rn &&& ~~~st == 0 && tg &&& rn == 0 &&
        !rn.getLsbD 0 && runsOk rn l 0 false

/-- Why a line may not be issued from (R298): reason 1 CHECK, 2 KIND, 3 inconsistent. -/
def lineBad (x : Line) : Option Nat :=
  let h := lineHead x
  if hCheck h != h.extractLsb' 120 8 then some 1
  else if hKind h != 0 then some 2
  else if !headerAgrees h (lineWords x) then some 3
  else none

/-- The slot a PC enters (R296). -/
def slotOfPc (pc : Nat) : Option Nat :=
  let o := pc % 128
  if o == 0 then some 0
  else if o % 4 == 0 && 16 ≤ o then some ((o - 16) / 4)
  else none

/-! ### Fetch -/

/-- How the fetch of an entry's next instruction ends. -/
inductive Fetched where
  /-- The instruction, and whether it continues a run and is followed by an instruction that continues it. -/
  | instr (f : Focus) (i : Instr) (cont follows : Bool)
  | trap (c : Cause) (info xpc : Word64)
  | park (cls addr : Nat)
  | wait

/-- XINFO of a LINE_HEADER trap (R298). -/
def headerInfo (reason : Nat) (src : Word64) : Word64 := BitVec.ofNat 64 (reason * 2 ^ 56 + src.toNat % 2 ^ 48)

/-- The line of an entry's PC, through the L1 instruction cache (R299). -/
inductive LineGot where
  | line (x : Line)
  | trap (c : Cause)
  | park (cls addr : Nat)
  | wait

/-- Lines of an L1 instruction cache: 96 KiB (R1). -/
def icacheLines : Nat := 768

/-- A line enters a core's instruction cache; one of the device's choice leaves a full one (log 3). -/
def cacheLine (core line : Nat) (x : Line) : Prog Unit :=
  Prog.bind fresh fun i => modCore core fun c =>
    let l := if c.icache.length < icacheLines then c.icache
      else Tbl.del c.icache ((Tbl.keys c.icache)[Config.freeChoice i % c.icache.length]?.getD 0)
    { c with icache := Tbl.put l line x }

def fetchLine (k : Nat) (t : Team) (pc : Nat) : Prog LineGot :=
  letI := Prog.monad
  do
    let a := teamAgent t
    match ← translate a (pc / 128 * 128) .exec with
    | .ok tl pa => do
      let hit ← look fun s => Tbl.find? (coreAt s t.core).icache (pa / 128)
      match hit with
      | some x => pure (.line x)
      | none => do
        let loc ← look fun s => tl.loc s.dev a (pc / 128 * 128)
        let got ← if loc.ac == 2 then readHome k t.core 128 loc else readCached k t.core t.part 128 loc false
        match got with
        | .bytes bs => do
          let x : Line := BitVec.ofNat 1024 (ofBytes bs)
          cacheLine t.core (pa / 128) x
          pure (.line x)
        | .wait => pure .wait
        | .poison => pure (.trap cMemory)
    | .fault cls addr => pure (.park cls (if cls < 3 then pc else addr))
    | .trap c => pure (.trap c)
    | .wait => pure .wait

/-- The instruction of a line at a slot. -/
def instrAt (x : Line) (e : Entry) (line slot : Nat) : Fetched :=
  let h := lineHead x
  let ws := ((lineWords x).take (hUsed h)).drop slot
  let pc := BitVec.ofNat 64 (line + 16 + 4 * slot)
  match scanWords Scan.start ws with
  | none => .trap cHeader (headerInfo 4 e.src) e.pc
  | some (_, _, rest) =>
    let n := ws.length - rest.length
    let last := slot + n == hUsed h
    let next := BitVec.ofNat 64 (if last then line + 144 else line + 16 + 4 * (slot + n))
    let f : Focus := { group := 0, entry := 0, pc, word := BitVec.ofNat 64 (line + 16 + 4 * (slot + n - 1)), next,
                       nextFall := last }
    match decode (ws.take n) with
    | .ok (i, _) => .instr f i ((hRun h).getLsbD slot) (!last && (hRun h).getLsbD (slot + n))
    | .error .prefixRepeat => .trap cRepeat 0 pc
    | .error .prefixMismatch => .trap cMismatch 0 pc
    | .error _ => .trap cIllegal 0 pc

/-- Fetches the next instruction of an entry: the entry checks of R296 to R298 when control has come from another line
or by a transfer, then the decoding of R306. -/
def fetchAt (k n : Nat) (t : Team) (e : Entry) : Prog Fetched :=
  letI := Prog.monad
  do
    let pc := e.pc.toNat
    match (if e.via == .noSlot then none else slotOfPc pc) with
    | none => pure (.trap cHeader (headerInfo 5 e.src) e.pc)
    | some slot => do
      match ← fetchLine k t pc with
      | .park cls addr => pure (.park cls addr)
      | .trap c => pure (.trap c 0 e.pc)
      | .wait => pure .wait
      | .line x =>
        let h := lineHead x
        let bad := if e.via == .seq then none else lineBad x
        match bad with
        | some r => pure (.trap cHeader (headerInfo r e.src) e.pc)
        | none =>
          let st := (hStart h).getLsbD slot
          let tg := (hTarget h).getLsbD slot
          if (e.via == .transfer && !(st && tg)) || (e.via == .xret && !st) then
            pure (.trap cHeader (headerInfo 4 e.src) e.pc)
          else
            match instrAt x e (pc / 128 * 128) slot with
            | .instr f i c w => pure (.instr { f with group := k, entry := n } i c w)
            | r => pure r

end Sys2Proof.Machine
end

