-- ==== Sys2Proof/Machine/Lanes.lean ====
section
/-! DEFINITION. Accesses of lanes: addresses and their checks (R380 to R383), translation of every lane before any access
(R383), parking (R385), delivery (R384), and replay (R117, R131, R132). -/

namespace Sys2Proof.Machine

/-! ### Addresses -/

/-- Bytes of an access size (R315). -/
def sizeBytes (sz : MSize) : Nat :=
  match sz with
  | .u8 | .s8 => 1
  | .u16 | .s16 => 2
  | .b32 => 4
  | .b64 => 8
  | .b128 => 16

/-- The offset of an access: the immediate, or 0 (R380). -/
def laneAddr (g : Group) (a : MAddr) (im : Option Imm) (n l : Nat) : Word64 :=
  match a with
  | .pair r => g.vsrc64 (.v r) none l + immValue im
  | .sreg r => g.sreg r.val + immValue im + BitVec.ofNat 64 (l * n)
  | .zero => immValue im + BitVec.ofNat 64 (l * n)

/-- The address of each lane of a mask, ascending. -/
def laneAddrs (g : Group) (a : MAddr) (im : Option Imm) (n : Nat) (m : Mask) : List (Nat × Word64) :=
  (lanesOf m).map fun l => (l, laneAddr g a im n l)

/-- What performs an access: the group, its team, the lanes, and whether a fault needs a free slot at once (R117: a
fault in a run, or of an instruction that waits); for a replay the stamp of its record. -/
structure Job where
  k : Nat
  g : Group
  t : Team
  lanes : Mask
  needSlot : Bool
  stamp : Option Nat := none
deriving DecidableEq, Repr

/-- The job of an instruction at issue. -/
def Ctx.job (c : Ctx) (m : Mask) (needSlot : Bool := false) : Job :=
  { k := c.k, g := c.g, t := c.t, lanes := m, needSlot := needSlot || c.e.run.isSome }

/-- Window offsets of one rank (R202). -/
def rankSpan : Nat := 0x60000

/-- Bytes of tile memory of a team (R201). -/
def Team.tileSize (t : Team) : Nat := t.kernel.tileKib * 1024

/-- Whether n bytes at an address lie outside a space (R37, R200 to R202, R380). -/
def outside (t : Team) (sp : Space) (a n : Nat) : Bool :=
  match sp with
  | .glob | .const => 2 ^ 48 ≤ a
  | .tile => t.tileSize < a + n
  | .win => t.clt == 0 || t.clt ≤ a / rankSpan || t.tileSize < a % rankSpan + n
  | .priv => stkTop t.kernel.priv + 1024 ≤ a

/-- The team that holds a rank of a cluster. -/
def rankTeam (s : State) (t : Team) (rank : Nat) : Nat :=
  ((s.teams.find? fun x => x.2.cluster == t.cluster && x.2.clt != 0 && x.2.rank == rank).map (·.1)).getD 0

/-- ALIGN, then PERMISSION of the offsets (R383): the lowest lane that fails gives XINFO. -/
def checkAddrs (t : Team) (sp : Space) (n align : Nat) (l : List (Nat × Word64)) : Option (Cause × Word64) :=
  match l.find? fun x => x.2.toNat % align != 0 with
  | some x => some (cAlign, x.2)
  | none =>
    match l.find? fun x => outside t sp x.2.toNat n with
    | some x => some (cPermission, x.2)
    | none => none

/-! ### Translation of all lanes -/

/-- Where one lane's access goes. -/
inductive Found where
  | here (p : Place3)
  | park (cls addr : Nat)
  | trap (c : Cause)
  | wait
deriving DecidableEq, Repr

def locate (j : Job) (sp : Space) (acc : Acc) (l : Nat) (a : Word64) : Prog Found :=
  letI := Prog.monad
  match sp with
  | .tile => pure (.here (.tile j.g.team a.toNat))
  | .win => do
    let o ← look fun s => rankTeam s j.t (a.toNat / rankSpan)
    pure (.here (.tile o (a.toNat % rankSpan)))
  | .priv => pure (.here (.priv l a.toNat))
  | sp => do
    match ← translate (teamAgent j.t) a.toNat acc with
    | .ok tl _ => pure (.here (.glob (← look fun s => tl.loc s.dev (teamAgent j.t) a.toNat) (sp == .const)))
    | .fault cls x => pure (.park cls x)
    | .trap c => pure (.trap c)
    | .wait => pure .wait

/-- The lanes of an instruction, located. -/
inductive Sited where
  | trap (c : Cause) (info : Word64)
  | wait
  | lanes (ok : List (Nat × Place3)) (faults : List LaneFault)
deriving DecidableEq, Repr

/-- Sorts located lanes: the lowest lane that traps decides. -/
def sortFound (l : List (Nat × Word64 × Found)) : Sited :=
  match l.findSome? (fun x => match x.2.2 with
    | .trap c => some (c, x.2.1)
    | _ => none) with
  | some (c, a) => .trap c a
  | none =>
    if l.any (fun x => x.2.2 == .wait) then .wait
    else .lanes
      (l.filterMap fun x => match x.2.2 with
        | .here p => some (x.1, p)
        | _ => none)
      (l.filterMap fun x => match x.2.2 with
        | .park cls a => some { lane := x.1, cls, addr := a }
        | _ => none)

/-- Whether some earlier access of the group on path C is still parked: one before a record's own, or any. -/
def Group.parkedBefore (g : Group) (stamp : Option Nat) : Bool :=
  let early := fun (r : RrSlotState) => r.unit == 0 && r.stat != rrUnresolved && stamp.all fun n => r.stamp < n
  (g.rr.any fun x => early x.2) || g.overflow.any early

/-- Whether lanes on HX pages must wait: an earlier access of the group is not performed yet (R46, R210). The class of a parked
page is not known, so every parked access of path C holds them (DESIGN CHOICE, log 47). -/
def hxHeld (s : State) (j : Job) (ok : List (Nat × Place3)) : Bool :=
  (ok.any fun x => match x.2 with
    | .glob y _ => y.ac == 2
    | _ => false) &&
  (Tbl.find? s.groups j.k).any fun g => g.parkedBefore j.stamp

/-- Whether a record for these faults gets a slot at once. -/
def slotFree (s : State) (j : Job) (faults : List LaneFault) : Bool :=
  match Tbl.find? s.groups j.k with
  | some g => (freeBelow 8 (Tbl.keys g.rr)).isSome && g.overflow.isEmpty &&
      filterRoom s (keyCore j.k) ((faultPages faults).map (pageKey j.t))
  | none => false

/-- The checks of R383 and the translation of every lane. -/
def site (j : Job) (sp : Space) (acc : Acc) (n align : Nat) (l : List (Nat × Word64)) : Prog Sited :=
  letI := Prog.monad
  match checkAddrs j.t sp n align l with
  | some (c, a) => pure (.trap c a)
  | none => do
    let fs ← collect l fun x => do
      let f ← locate j sp acc x.1 x.2
      pure (x.1, x.2, f)
    match sortFound fs with
    | .lanes ok faults =>
      if ← look fun s => hxHeld s j ok then pure .wait
      else if j.needSlot && !faults.isEmpty then do
        let room ← look fun s => slotFree s j faults
        pure (if room then .lanes ok faults else .wait)
      else pure (.lanes ok faults)
    | r => pure r

/-! ### What an access did -/

/-- Rows read (one per destination register), scalar and predicate results, the lanes performed, the lanes parked and
their faults. -/
structure Access where
  rows : List Row
  sval : Word64
  pval : Mask
  done : Mask
  parked : Mask
  faults : List LaneFault
deriving DecidableEq, Repr

inductive Performed where
  | trap (c : Cause) (info : Word64)
  | wait
  | did (a : Access)
deriving DecidableEq, Repr

/-- The mask of some lanes. -/
def maskOfLanes (l : List Nat) : Mask := l.foldl (fun m k => m ||| laneBit k) 0

/-- Faulted lanes as a mask. -/
def faultMask (l : List LaneFault) : Mask := maskOfLanes (l.map (·.lane))

/-- The address of a lane in a list of them. -/
def addrOf (l : List (Nat × Word64)) (k : Nat) : Word64 := ((l.find? (·.1 == k)).map (·.2)).getD 0

/-- The word of a lane in a list of lanes with their words. -/
def pick (l : List (Nat × List Word32)) (r k : Nat) : Word32 :=
  match l.find? (·.1 == k) with
  | some (_, ws) => nthD ws r 0
  | none => 0

/-- One row for each of n registers. -/
def rowsFrom (n : Nat) (l : List (Nat × List Word32)) : List Row := (upTo 0 n).map fun r => rowOf (pick l r)

/-- The registers' words of loaded bytes (R382). -/
def loadWords (sz : MSize) (bs : List Byte) : List Word32 :=
  let v := ofBytes bs
  match sz with
  | .u8 => [BitVec.ofNat 32 v]
  | .u16 => [BitVec.ofNat 32 v]
  | .s8 => [sextNat v 8 32]
  | .s16 => [sextNat v 16 32]
  | .b32 => [BitVec.ofNat 32 v]
  | .b64 => (upTo 0 2).map fun k => BitVec.ofNat 32 (v / 2 ^ (32 * k))
  | .b128 => (upTo 0 4).map fun k => BitVec.ofNat 32 (v / 2 ^ (32 * k))

/-- The scalar result of loaded bytes (R382). -/
def loadScalar (sz : MSize) (bs : List Byte) : Word64 :=
  match sz with
  | .s8 => sextNat (ofBytes bs) 8 64
  | .s16 => sextNat (ofBytes bs) 16 64
  | _ => BitVec.ofNat 64 (ofBytes bs)

/-- Reads every located lane. -/
def readLanes (j : Job) (n : Nat) (home : Bool) (ok : List (Nat × Place3)) : Prog (List (Nat × Got)) :=
  letI := Prog.monad
  collect ok fun x => do
    let r ← readPlace j.k j.g n x.2 home
    pure (x.1, r)

/-- The lowest lane that read poison. -/
def poisonLane (l : List (Nat × Got)) : Option Nat := (l.find? fun x => x.2 == .poison).map (·.1)

def gotBytes (r : Got) : List Byte :=
  match r with
  | .bytes bs => bs
  | _ => []

/-- Loads of lanes (R387, R388). A probing load takes faults and poison as lanes that read 0 with predicate 0. -/
def loadLanes (j : Job) (sp : Space) (sz : MSize) (home nf : Bool) (addrs : List (Nat × Word64)) : Prog Performed :=
  letI := Prog.monad
  do
    let n := sizeBytes sz
    match ← site { j with needSlot := j.needSlot && !nf } sp .read n n addrs with
    | .trap c a => pure (.trap c a)
    | .wait => pure .wait
    | .lanes ok faults => do
      let gots ← readLanes j n home ok
      if gots.any (fun x => x.2 == .wait) then pure .wait
      else match (if nf then none else poisonLane gots) with
        | some l => pure (.trap cMemory (addrOf addrs l))
        | none =>
          let good := gots.filter fun x => x.2 != .poison
          let vals := good.map fun x => (x.1, loadWords sz (gotBytes x.2))
          let ls := maskOfLanes (good.map (·.1))
          pure (.did { rows := rowsFrom (sizeRegs sz) vals, pval := ls,
                       sval := (gots.head?.map fun x => loadScalar sz (gotBytes x.2)).getD 0,
                       done := if nf then j.lanes else ls, parked := if nf then 0 else faultMask faults,
                       faults := if nf then [] else faults })

/-- Writes of lanes in ascending order (R389); `release` is the scope of an ordered store. -/
def storeLanes (j : Job) (sp : Space) (n : Nat) (release : Option Scope) (addrs : List (Nat × Word64))
    (data : Nat → Nat) : Prog Performed :=
  letI := Prog.monad
  do
    match ← site j sp .write n n addrs with
    | .trap c a => pure (.trap c a)
    | .wait => pure .wait
    | .lanes ok faults => do
      let held ← anyOf ok fun x => writeHeld j.k x.2 release.isSome
      if held then pure .wait
      else if ← (match release with
          | some sc => releaseCore j.k j.g sc
          | none => pure false) then pure .wait
      else do
        each ok fun x => writePlace j.k j.g x.2 (bytesOf n (data x.1)) release.isSome
        pure (.did { rows := [], sval := 0, pval := 0, done := maskOfLanes (ok.map (·.1)), parked := faultMask faults,
                     faults })

/-- Atomics of lanes, ascending (R391 to R393): `f` gives the new value from the old. -/
def atomLanes (j : Job) (sp : Space) (n : Nat) (order : Option Scope) (addrs : List (Nat × Word64))
    (f : Nat → Nat → Option Nat) : Prog Performed :=
  letI := Prog.monad
  do
    match ← site j sp .atomic n n addrs with
    | .trap c a => pure (.trap c a)
    | .wait => pure .wait
    | .lanes ok faults => do
      let s ← look id
      match ok.find? fun x => placePoisoned s j.k x.2 with
      | some x => pure (.trap cMemory (addrOf addrs x.1))
      | none => do
        let held ← anyOf ok fun x => writeHeld j.k x.2 true
        if held then pure .wait
        else if ← (match order with
            | some sc => releaseCore j.k j.g sc
            | none => pure false) then pure .wait
        else do
          let olds ← collect ok fun x => do
            let old ← atomicPlace j.k j.g x.2 n fun bs => (f x.1 (ofBytes bs)).map (bytesOf n)
            pure (x.1, (upTo 0 (n / 4)).map fun k => BitVec.ofNat 32 (ofBytes old / 2 ^ (32 * k)))
          pure (.did { rows := rowsFrom (n / 4) olds, sval := 0, pval := 0, done := maskOfLanes (ok.map (·.1)),
                       parked := faultMask faults, faults })

/-! ### Delivery at issue -/

/-- How an instruction's access is delivered: access type, registers written, whether a vector result enters the chain,
whether it counts (R158) and commits at issue (R386), and the scope of an acquire after it. -/
structure Shape where
  acc : Acc
  regs : List Nat
  sdst : Option (Fin 64)
  pdst : Option (Fin 128)
  latch : Bool
  counted : Bool
  commit : Bool
  acquire : Option Scope
deriving DecidableEq, Repr

/-- A scalar result still on its way loses its register to a newer one (R384). -/
def Group.overtakeS (g : Group) (d : Option (Fin 64)) : Group :=
  match d with
  | none => g
  | some n => { g with pend := Tbl.mapVals g.pend fun _ p => if p.sdst == some n then { p with sdst := none } else p }

/-- Destinations of an access, with their rows. -/
def pendRegs (regs : List Nat) (m : Mask) (rows : List Row) : List PendReg :=
  match regs with
  | [] => []
  | r :: rest => { reg := r, lanes := m, row := nthD rows 0 zeroRow } :: pendRegs rest m (rows.drop 1)

/-- The lowest faulted lane's fault. -/
def firstFault (l : List LaneFault) : LaneFault := nthD l 0 { lane := 0, cls := 0, addr := 0 }

/-- The record of an access of UNIT 0x0 (R114, R115). -/
def accessRecord (i : Instr) (id entry : Nat) (pc run : Word64) (acc : Acc) (a : Access) (region : Bool) :
    RrSlotState :=
  let f := firstFault a.faults
  let op := (i.raw.map fun r => r.op.toNat).getD 0
  let d := (i.raw.map fun r => r.d.toNat).getD 0
  { words := [rrWord0 0xFFFF op acc.bits f.cls rrParked 0, a.parked, BitVec.ofNat 64 (f.addr % 2 ^ 52), pc, run, pc,
              BitVec.ofNat 64 d, 0],
    pend := id, entry, pages := faultPages a.faults, region, stamp := id, cmd := 0, why := 0 }

/-- The entry of a split that has parked inside a run (R132): it will resume at RUNPC. -/
def Entry.parkRun (e : Entry) (slot : Nat) (f : Focus) : Entry :=
  match e.run, finOf 8 slot with
  | some r, some fs => { e with pc := r.first, via := .seq, src := f.pc, wait := .record fs,
                                run := some { r with results := 0, last := f.pc, again := true } }
  | _, _ => e

/-- An access performed at issue is delivered (R384, R385): traps, waits, or results in flight and a record. -/
def deliver (i : Instr) (c : Ctx) (sh : Shape) (p : Performed) : Prog Unit :=
  letI := Prog.monad
  match p with
  | .trap cause info => raise c cause info
  | .wait => pure ()
  | .did a => do
    let g ← look fun s => (Tbl.find? s.groups c.k).getD c.g
    (match sh.acquire with
     | some sc => if a.parked == 0 then acquireCore (keyCore c.k) sc else pure ()
     | none => pure ())
    let id ← newId
    let u := regUse i
    let m := (a.done ||| a.parked) &&& c.act
    let keep := sh.counted || a.parked != 0
    let pd : Pend :=
      { pc := c.f.pc, entry := c.n, lanes := a.done, parked := a.parked, regs := pendRegs sh.regs m a.rows,
        sdst := sh.sdst, sval := a.sval, pdst := sh.pdst, pval := a.pval, counted := sh.counted,
        acquire := if a.parked == 0 then none else sh.acquire, srcV := u.vr, srcS := u.sr, render := false,
        region := !sh.commit, noResult := !sh.counted }
    let g1 := (sh.regs.foldl (fun g r => g.overtake r m) g).overtakeS sh.sdst
    let g2 : Group := if keep then
        { g1 with pend := Tbl.put g1.pend id pd, outstanding := g1.outstanding + sh.counted.toNat } else g1
    let g3 := if sh.latch then g2.shiftLatch a.done (nthD a.rows 0 zeroRow) (if keep then id else 0) else g2
    let g4 := g3.retired c sh.latch
    let g5 := if sh.commit then g4.commit c.f.next else g4
    let inRun := a.parked != 0 && c.e.run.isSome
    let slot := (freeBelow 8 (Tbl.keys g5.rr)).getD 8
    emit (.group c.k (if inRun then g5.setEntry c.n (c.e.parkRun slot c.f) else g5))
    (if sh.counted then due (.loadComplete c.k id) else pure ())
    (if a.parked == 0 then pure ()
     else do
      let run := (c.e.run.map (·.first)).getD c.f.pc
      writeRecord c.k (accessRecord i id c.n c.f.pc run sh.acc a (!sh.commit))
      if inRun then modCore (keyCore c.k) fun x => { x with quarters := x.quarters.map fun q => q.cut c.k } else pure ())

/-! ### Passing an instruction again (R132) -/

/-- Whether the split is coming again over an instruction whose lanes were completed before its park. -/
def Ctx.passing (c : Ctx) : Bool :=
  match c.e.run with
  | some r => r.again && c.f.pc.toNat ≤ r.last.toNat
  | none => false

/-- A destination of the instruction still has results on their way. -/
def destPending (g : Group) (l : List Nat) : Bool :=
  g.pend.any fun x => x.2.regs.any fun r => r.lanes != 0 && l.contains r.reg

/-- The instruction shifts the chain with what its destination holds, and does nothing else. -/
def passAgain (i : Instr) (c : Ctx) : Prog Unit :=
  match (regUse i).vw with
  | [] => retire c c.g
  | d :: rest => if destPending c.g (d :: rest) then skip else retireV c (c.g.shiftLatch c.act (c.g.vreg d) 0)

/-- An instruction that a run passes again after a park. -/
def issueOnce (i : Instr) (ill : Ctx → Bool) (body : Ctx → Prog Unit) : Meaning :=
  issue i ill fun c => if c.passing then passAgain i c else body c

/-! ### Replay (R117, R131) -/

/-- The context of a record's instruction: none when the group has gone. -/
def replayJob (s : State) (k : Nat) (r : RrSlotState) : Option Job :=
  match Tbl.find? s.groups k with
  | none => none
  | some g => (Tbl.find? s.teams g.team).map fun t => { k, g, t, lanes := r.mask, needSlot := false, stamp := some r.stamp }

/-- A pend with the lanes of a replay added. -/
def Pend.took (p : Pend) (a : Access) : Pend :=
  { p with lanes := p.lanes ||| a.done, parked := a.parked, sval := if p.sdst.isSome then a.sval else p.sval,
           regs := p.regs.mapIdx fun n x => { x with row := blend a.done (nthD a.rows n zeroRow) x.row } }

/-- A record returns to PARKED with its progress advanced (R131), its pages raised again; it keeps the place of its first park
among the oldest (DESIGN CHOICE, log 70). Where the filter has no room for them the unit holds the fault and replays again
(R118). -/
def repark (k slot : Nat) (r : RrSlotState) (a : Access) : Prog Unit :=
  letI := Prog.monad
  do
    let f := firstFault a.faults
    let w0 := setBits (setBits (nthD r.words 0 0) 12 3 f.cls) 8 3 rrParked
    let r1 : RrSlotState := { r with
      words := setNth (setNth (setNth r.words 0 w0) 1 a.parked) 2 (BitVec.ofNat 64 (f.addr % 2 ^ 52)),
      pages := faultPages a.faults }
    match ← look fun s => (Tbl.find? s.groups k).bind fun g => Tbl.find? s.teams g.team with
    | some t => do
      let room ← look fun s => filterRoom s (keyCore k) (r1.pages.map (pageKey t))
      if room then do
        modGroup k fun g => { g with rr := Tbl.put g.rr slot r1 }
        each r1.pages fun p => fileFault (keyCore k) (pageKey t p) p.2 ((nthD r.words 0 0).extractLsb' 16 5) (k, slot)
      else do
        modGroup k fun g => { g with rr := Tbl.put g.rr slot (r1.withStat rrReady) }
        due (.recordReplay (keyCore k))
    | none => pure ()

/-- A replayed access is delivered. -/
def redeliver (k slot : Nat) (r : RrSlotState) (sh : Shape) (p : Performed) : Prog Unit :=
  letI := Prog.monad
  match p with
  | .trap cause _ => modGroup k fun g => { g with rr := Tbl.put g.rr slot { r.withStat rrUnresolved with why := cause } }
  | .wait => do
    modGroup k fun g => { g with rr := Tbl.put g.rr slot (r.withStat rrReady) }
    due (.recordReplay (keyCore k))
  | .did a => do
    match ← look fun s => (Tbl.find? s.groups k).bind fun g => Tbl.find? g.pend r.pend with
    | some pd => do
      modGroup k fun g =>
        if pd.noResult && a.parked == 0 then { g with pend := Tbl.del g.pend r.pend }
        else { g with pend := Tbl.put g.pend r.pend (pd.took a) }
      (if pd.noResult then pure () else due (.loadComplete k r.pend))
    | none =>
      modGroup k fun g =>
        let rec land (g : Group) (regs : List Nat) (rows : List Row) : Group :=
          match regs with
          | [] => g
          | n :: rest => land (g.setV n a.done (nthD rows 0 zeroRow)) rest (rows.drop 1)
        let g1 := land g sh.regs a.rows
        match sh.sdst with
        | some n => g1.setS n.val a.sval
        | none => g1
    (if a.parked == 0 then freeSlot k slot else repark k slot r a)

end Sys2Proof.Machine
end

