-- ==== Sys2Proof/Machine/Memory.lean ====
section
/-! DEFINITION. Loads, stores, atomics, MX blocks and cache operations (R380 to R393, R397, R398, R401, R402). Each
instruction's access is one function of a `Job`, so that its issue and its replay perform the same thing. -/

namespace Sys2Proof.Machine

/-! ### Loads and stores -/

/-- The scope of an ordered access: device without EXT (R387). -/
def scopeOr (sc : Option Scope) : Scope := sc.getD .dev

/-- The scope of an acquire or a release, of an ordered form only. -/
def orderScope (ord : Bool) (sc : Option Scope) : Option Scope := if ord then some (scopeOr sc) else none

/-- A number whose 32-bit words, low first, are those of some registers at a lane. -/
def regsNat (g : Group) (lo n l : Nat) : Nat :=
  (upTo 0 n).foldl (fun a k => a + (lane (g.vreg (lo + k)) l).toNat * 2 ^ (32 * k)) 0

/-- Store data of a lane (R382). -/
def storeData (g : Group) (d : VSrc) (sz : MSize) (l : Nat) : Nat :=
  match d with
  | .v n => regsNat g n.val (sizeRegs sz) l
  | .b k => (lane (g.latchRow k.val) l).toNat
  | .zero => 0
  | .laneId => l
  | .ones => 2 ^ (8 * sizeBytes sz) - 1
  | .imm => 0

/-- The access of ld (R387). -/
def ldJob (im : Option Imm) (a : MAddr) (sz : MSize) (ord : Bool) (sp : Space) (j : Job) : Prog Performed :=
  loadLanes j sp sz ord false (laneAddrs j.g a im (sizeBytes sz) j.lanes)

def ldShape (d : VDst) (sz : MSize) (ord : Bool) (sc : Option Scope) : Shape :=
  { acc := .read, regs := (defV d (sizeRegs sz)).vw, sdst := none, pdst := none, latch := true, counted := true,
    commit := false, acquire := orderScope ord sc }

/-- The access of ld.nf (R388). -/
def ldNfJob (im : Option Imm) (a : MAddr) (sz : MSize) (sp : Space) (j : Job) : Prog Performed :=
  loadLanes j sp sz false true (laneAddrs j.g a im (sizeBytes sz) j.lanes)

def ldNfShape (d : VDst) (sz : MSize) (p : Fin 128) : Shape :=
  { acc := .read, regs := (defV d (sizeRegs sz)).vw, sdst := none, pdst := some p, latch := true, counted := true,
    commit := false, acquire := none }

/-- The access of st (R389). -/
def stJob (im : Option Imm) (d : VSrc) (a : MAddr) (sz : MSize) (ord : Bool) (sp : Space) (sc : Option Scope) (j : Job) :
    Prog Performed :=
  storeLanes j sp (sizeBytes sz) (orderScope ord sc) (laneAddrs j.g a im (sizeBytes sz) j.lanes) (storeData j.g d sz)

def stShape (ord : Bool) : Shape :=
  { acc := .write, regs := [], sdst := none, pdst := none, latch := false, counted := false, commit := ord,
    acquire := none }

/-- The single address of a scalar access (R390). -/
def scalarAddr (g : Group) (a : SSrc) (im : Option Imm) : Word64 := g.ssrc a none + immValue im

/-- The access of sld (R390). -/
def sldJob (im : Option Imm) (a : SSrc) (sz : MSize) (ord : Bool) (sp : Space) (j : Job) : Prog Performed :=
  loadLanes j sp sz ord false ((lanesOf j.lanes).map fun l => (l, scalarAddr j.g a im))

def sldShape (d : SDst) (ord : Bool) (sc : Option Scope) : Shape :=
  { acc := .read, regs := [], pdst := none, latch := false, counted := true, commit := false,
    sdst := match d with
      | .s n => some n
      | .discard => none
    acquire := orderScope ord sc }

/-- The access of sst (R390). -/
def sstJob (im : Option Imm) (d : SSrc) (a : SSrc) (sz : MSize) (ord : Bool) (sp : Space) (sc : Option Scope)
    (j : Job) : Prog Performed :=
  storeLanes j sp (sizeBytes sz) (orderScope ord sc) ((lanesOf j.lanes).map fun l => (l, scalarAddr j.g a im))
    fun _ => (j.g.ssrc d none).toNat

/-- The lane of a scalar access: the split's lowest active lane. -/
def scalarLane (c : Ctx) : Mask := ((lowLane c.act).map laneBit).getD 0

/-! ### Atomics -/

/-- New value of an atomic (R391): old m, value v, size n bytes. -/
def atomNew (op : AtomOp) (n m v : Nat) : Nat :=
  let w := 8 * n
  let x := v % 2 ^ w
  let s := fun (y : Nat) => (BitVec.ofNat w y).toInt
  match op with
  | .add => (m + x) % 2 ^ w
  | .and => m &&& x
  | .or => m ||| x
  | .xor => m ^^^ x
  | .min => if s x < s m then x else m
  | .max => if s m < s x then x else m
  | .umin => if x < m then x else m
  | .umax => if m < x then x else m
  | .exch => x
  | .fadd => add32 m x

/-- Bytes of an atomic (R391). -/
def atomBytes (w8 : Bool) : Nat := if w8 then 8 else 4

/-- A 32- or 64-bit vector operand of an atomic at a lane. -/
def atomOperand (g : Group) (c : VSrc) (w8 : Bool) (l : Nat) : Nat :=
  if w8 then (g.vsrc64 c none l).toNat else (lane (g.vsrc c none) l).toNat

/-- The destination's old value as an operand. -/
def oldOperand (g : Group) (d : VDst) (w8 : Bool) (l : Nat) : Nat :=
  match d with
  | .v n => atomOperand g (.v n) w8 l
  | .discard => 0

/-- The order of an atomic (R393). -/
def atomOrder (x : Option AtomExt) : Option Scope := x.bind fun e => if e.ordered then some e.scope else none

/-- The access of atom (R391): the value is EXT C, or the old vD. -/
def atomJob (im : Option Imm) (d : VDst) (a : MAddr) (op : AtomOp) (w8 : Bool) (sp : Space) (x : Option AtomExt)
    (j : Job) : Prog Performed :=
  let n := atomBytes w8
  let v := fun (l : Nat) => match x with
    | some e => atomOperand j.g e.c w8 l
    | none => oldOperand j.g d w8 l
  atomLanes j sp n (atomOrder x) (laneAddrs j.g a im n j.lanes) fun l m => some (atomNew op n m (v l))

/-- The access of atom.cas (R392): patterns are compared at the access size. -/
def casJob (im : Option Imm) (d : VDst) (a : MAddr) (w8 : Bool) (sp : Space) (x : AtomExt) (j : Job) :
    Prog Performed :=
  let n := atomBytes w8
  atomLanes j sp n (atomOrder (some x)) (laneAddrs j.g a im n j.lanes) fun l m =>
    if m == atomOperand j.g x.c w8 l then some (oldOperand j.g d w8 l) else none

def atomShape (d : VDst) (w8 : Bool) (x : Option AtomExt) : Shape :=
  { acc := .atomic, regs := (defV d (atomRegs w8)).vw, sdst := none, pdst := none, latch := true,
    counted := d != .discard, commit := true, acquire := atomOrder x }

/-! ### MX blocks (R401, R402) -/

/-- Bytes of the elements of a block. -/
def mxBytes (ew : Bool) : Nat := if ew then 16 else 32

/-- Blocks with at least one lane. -/
def mxBlocks (m : Mask) : List Nat := (upTo 0 2).filter fun k => m &&& (allLanes 32 <<< (32 * k)) != 0

/-- Lanes of a block. -/
def blockLanes (k : Nat) : Mask := allLanes 32 <<< (32 * k)

/-- Pieces of the blocks in order: (32k, address, bytes). -/
def mxPieces (base : Word64) (sc : Option Word64) (ew : Bool) (ks : List Nat) : List (Nat × Word64 × Nat) :=
  ks.flatMap fun k =>
    (32 * k, base + BitVec.ofNat 64 (k * mxBytes ew), mxBytes ew) ::
      (match sc with
       | some x => [(32 * k, BitVec.ofNat 64 (bits x 0 48 + k), 1)]
       | none => [])

/-- Checks and translation of every piece (R383, R401): ALIGN, PERMISSION, translation. -/
def mxSite (j : Job) (sp : Space) (acc : Acc) (ps : List (Nat × Word64 × Nat)) : Prog Sited :=
  letI := Prog.monad
  match ps.find? fun x => x.2.1.toNat % x.2.2 != 0 with
  | some x => pure (.trap cAlign x.2.1)
  | none =>
    match ps.find? fun x => outside j.t sp x.2.1.toNat x.2.2 with
    | some x => pure (.trap cPermission x.2.1)
    | none => do
      let fs ← collect ps fun x => do
        let f ← locate j sp acc x.1 x.2.1
        pure (x.1, x.2.1, f)
      match sortFound fs with
      | .lanes ok faults =>
        if ← look fun s => hxHeld s j ok then pure .wait
        else if j.needSlot && !faults.isEmpty then do
          let room ← look fun s => slotFree s j faults
          pure (if room then .lanes ok faults else .wait)
        else pure (.lanes ok faults)
      | r => pure r

/-- The blocks all of whose pieces are located, with their places. -/
def mxWhole (ks : List Nat) (ok : List (Nat × Place3)) (faults : List LaneFault) : List (Nat × List Place3) :=
  (ks.filter fun k => !faults.any fun f => f.lane == 32 * k).map fun k =>
    (k, (ok.filter (·.1 == 32 * k)).map (·.2))

/-- Lanes of the blocks that park. -/
def mxParked (ks : List Nat) (faults : List LaneFault) : Mask :=
  (ks.filter fun k => faults.any fun f => f.lane == 32 * k).foldl (fun m k => m ||| blockLanes k) 0

/-- Element i of a block's bytes. -/
def mxElement (ew : Bool) (bs : List Byte) (i : Nat) : Nat :=
  if ew then (nthD bs (i / 2) 0).toNat / 2 ^ (4 * (i % 2)) % 16 else (nthD bs i 0).toNat

/-- The access of mxld: each block as one unit, at home; the core's copy of a line that it reads there goes (R402). -/
def mxldJob (im : Option Imm) (a : SSrc) (sp : Space) (x : Option MxExt) (j : Job) : Prog Performed :=
  letI := Prog.monad
  do
    let sc := x.map fun e => j.g.ssrc e.c none
    let ew := (sc.map fun w => w.getLsbD 48).getD false
    let ks := mxBlocks j.lanes
    match ← mxSite j sp .read (mxPieces (scalarAddr j.g a im) sc ew ks) with
    | .trap c a => pure (.trap c a)
    | .wait => pure .wait
    | .lanes ok faults => do
      let whole := mxWhole ks ok faults
      let got ← collect whole fun b => do
        let e ← readPlace j.k j.g (mxBytes ew) (nthD b.2 0 (.priv 0 0)) true
        let s ← match b.2 with
          | [_, q] => readPlace j.k j.g 1 q true
          | _ => pure (.bytes [])
        pure (b.1, e, s)
      if got.any (fun x => x.2.1 == .wait || x.2.2 == .wait) then pure .wait
      else match got.find? fun x => x.2.1 == .poison || x.2.2 == .poison with
        | some x => pure (.trap cMemory (scalarAddr j.g a im + BitVec.ofNat 64 (x.1 * mxBytes ew)))
        | none =>
          let at_ := fun (l : Nat) => got.find? fun x => x.1 == l / 32
          let el := fun (l : Nat) => match at_ l with
            | some x => BitVec.ofNat 32 (mxElement ew (gotBytes x.2.1) (l % 32))
            | none => 0
          let sl := fun (l : Nat) => match at_ l with
            | some x => BitVec.ofNat 32 (ofBytes (gotBytes x.2.2))
            | none => 0
          pure (.did { rows := [rowOf el, rowOf sl], sval := 0, pval := 0,
                       done := (whole.foldl (fun m b => m ||| blockLanes b.1) 0) &&& j.lanes,
                       parked := mxParked ks faults, faults })

def mxldShape (d : Fin 240) (ord : Bool) (x : Option MxExt) : Shape :=
  { acc := .read, regs := if x.isSome then [d.val, d.val + 1] else [d.val], sdst := none, pdst := none, latch := true,
    counted := true, commit := false, acquire := orderScope ord (x.map (·.scope)) }

/-- Bytes of a block's elements from the low bits of a register's lanes. -/
def mxPack (ew : Bool) (r : Row) (k : Nat) : List Byte :=
  if ew then (upTo 0 16).map fun i =>
      BitVec.ofNat 8 (bits (lane r (32 * k + 2 * i)) 0 4 + 16 * bits (lane r (32 * k + 2 * i + 1)) 0 4)
  else (upTo 0 32).map fun i => BitVec.ofNat 8 (bits (lane r (32 * k + i)) 0 8)

/-- The access of mxst: a block with some but not all lanes active traps before any is written (DEDUCED, log 19). -/
def mxstJob (im : Option Imm) (d : Fin 240) (a : SSrc) (ord : Bool) (sp : Space) (x : Option MxExt) (j : Job) :
    Prog Performed :=
  letI := Prog.monad
  do
    let sc := x.map fun e => j.g.ssrc e.c none
    let ew := (sc.map fun w => w.getLsbD 48).getD false
    let ks := mxBlocks j.lanes
    match ← mxSite j sp .write (mxPieces (scalarAddr j.g a im) sc ew ks) with
    | .trap c a => pure (.trap c a)
    | .wait => pure .wait
    | .lanes ok faults =>
      if ks.any (fun k => j.lanes &&& blockLanes k != blockLanes k) then pure (.trap cPartial 0)
      else do
        let whole := mxWhole ks ok faults
        let held ← anyOf whole fun b => anyOf b.2 fun p => writeHeld j.k p true
        if held then pure .wait
        else if ← (match orderScope ord (x.map (·.scope)) with
            | some s => releaseCore j.k j.g s
            | none => pure false) then pure .wait
        else do
          each whole fun b => do
            writePlace j.k j.g (nthD b.2 0 (.priv 0 0)) (mxPack ew (j.g.vreg d.val) b.1) true
            match b.2 with
            | [_, q] => writePlace j.k j.g q [BitVec.ofNat 8 (bits (lane (j.g.vreg (d.val + 1)) (32 * b.1)) 0 8)] true
            | _ => pure ()
          pure (.did { rows := [], sval := 0, pval := 0,
                       done := whole.foldl (fun m b => m ||| blockLanes b.1) 0, parked := mxParked ks faults, faults })

/-- The descriptor's reserved bits trap ALIGN, then width 16 traps WIDTH (R401). -/
def mxGuarded (c : Ctx) (x : Option MxExt) (body : Prog Unit) : Prog Unit :=
  let sc := (x.map fun e => c.g.ssrc e.c none).getD 0
  if bits sc 49 15 != 0 then raise c cAlign sc
  else if c.g.width == 16 then raise c cWidth
  else body

/-! ### Cache operations (R397, R398) -/

/-- The distinct lines of some located lanes that are held in caches: not HX. -/
def cachedLines (l : List (Nat × Place3)) : List Loc :=
  l.foldl (fun a x => match x.2 with
    | .glob y _ => if y.ac == 2 || a.any (fun z => z.pa / 128 == y.pa / 128) then a else a ++ [y]
    | _ => a) []

/-- The private line of a lane's offset. -/
def privLine (g : Group) (l off : Nat) : Nat := privOffset g l off / 128

/-- Private lines of some lanes are written back, or lose their dirty bytes. -/
def privLines (m : PrivMem) (ls : List Nat) (keep : Bool) : PrivMem :=
  let hit := m.dirty.filter fun x => ls.contains (x.1 / 128)
  { back := if keep then hit.foldl (fun b x => Tbl.put b x.1 x.2) m.back else m.back,
    dirty := m.dirty.filter fun x => !ls.contains (x.1 / 128) }

/-- The lanes' private lines. -/
def privTargets (g : Group) (l : List (Nat × Place3)) : List Nat :=
  l.foldl (fun a x => match x.2 with
    | .priv n off => insertNat a (privLine g n off)
    | _ => a) []

/-- The access of cache.wb and cache.drop. -/
def cacheJob (im : Option Imm) (a : MAddr) (sp : Space) (drop : Bool) (j : Job) : Prog Performed :=
  letI := Prog.monad
  do
    match ← site j sp .read 1 1 (laneAddrs j.g a im 128 j.lanes) with
    | .trap c a => pure (.trap c a)
    | .wait => pure .wait
    | .lanes ok faults => do
      let core := keyCore j.k
      let lines := cachedLines ok
      let held ← anyOf lines fun x => do
        let s ← look id
        if lineDirty s core (x.pa / 128) && !hasImage s x.pa j.k then holdsRequest x.pa true (.group j.k) else pure false
      if held then pure .wait
      else do
        each lines fun x => do
          flushLine core (x.pa / 128)
          if drop then do
            dropL1 core (x.pa / 128)
            modDie (dieOf core) fun d => { d with rdc := d.rdc.filter fun y => rdcLine y.1 != x.pa / 128 }
          else pure ()
        (if sp == .priv then modTeam j.g.team fun t =>
            { t with priv := privLines t.priv (privTargets j.g ok) (!drop) }
         else pure ())
        pure (.did { rows := [], sval := 0, pval := 0, done := maskOfLanes (ok.map (·.1)), parked := faultMask faults,
                     faults })

def cacheShape : Shape :=
  { acc := .read, regs := [], sdst := none, pdst := none, latch := false, counted := false, commit := false,
    acquire := none }

/-- Prefetch of one lane's line: skipped where it would fault, trap or wait. -/
def prefetchLane (j : Job) (sp : Space) (l2 : Bool) (a : Word64) : Prog Unit :=
  letI := Prog.monad
  do
    match ← translate (teamAgent j.t) a.toNat .read with
    | .ok tl _ => do
      let x ← look fun s => tl.loc s.dev (teamAgent j.t) a.toNat
      let s ← look id
      if heldNow s x.pa false || poisoned s.dev x.pa || hasImage s x.pa j.k then pure ()
      else if l2 || x.ac == 2 then noteRequest (dieOf j.t.core) x false
      else Prog.bind (fillL1 j.t.core j.t.part x (sp == .const)) fun _ => pure ()
    | _ => pure ()

/-- A page enters the fault filter with no waiter (R398). Answers false while the filter has no room. -/
def fileHint (core : Nat) (key : PageKey) (cls : Nat) (acc : BitVec 5) (hint : Bool) : Prog Bool :=
  letI := Prog.monad
  do
    let l ← look fun s => (coreAt s core).filter
    match l.find? (·.key == key) with
    | some e => do
      let e1 : FilterEntry := { e with acc := e.acc ||| acc, hint := e.hint || hint }
      modCore core fun c => { c with filter := c.filter.map fun x => if x.key == key then e1 else x }
      (if e.sent then stagePage (dieOf core) key cls acc 0 false else pure ())
      pure true
    | none =>
      if l.length ≥ 64 then pure false
      else do
        let e : FilterEntry := { key, cls, acc, waiters := [], sent := false, pred := false, hint }
        modCore core fun c => { c with filter := c.filter ++ [e] }
        due (.clusterStagePage core key.code)
        pure true

/-- One page of cache.pagereq. -/
def pagereqLane (j : Job) (wr mig : Bool) (a : Word64) : Prog Bool :=
  letI := Prog.monad
  do
    let acc : Acc := if wr then .write else .read
    match ← translate (teamAgent j.t) a.toNat acc with
    | .ok tl _ => do
      let x ← look fun s => tl.loc s.dev (teamAgent j.t) a.toNat
      let d ← look fun s => s.dev
      (if mig && isPool x.pa && x.mig && (blockFrame d (poolBlock x.pa)).isNone then sendHint x.key (dieOf j.t.core)
       else pure ())
      pure true
    | .fault cls x => fileHint j.t.core (faultKey j.t.part j.t.ctxidx cls x) cls acc.bits mig
    | .trap _ => pure true
    | .wait => pure false

/-- Addresses of the active lanes, one for each distinct unit of n bytes. -/
def distinctAddrs (n : Nat) (l : List (Nat × Word64)) : List Word64 :=
  l.foldl (fun a x => if a.any (fun y => y.toNat / n == x.2.toNat / n) then a else a ++ [x.2]) []

/-- Residency of each lane (R397). -/
def resqLanes (j : Job) (l : List (Nat × Word64)) : Prog Mask :=
  letI := Prog.monad
  do
    let rs ← collect l fun x => do
      match ← translate (teamAgent j.t) x.2.toNat .read with
      | .ok _ _ => pure (laneBit x.1)
      | _ => pure 0
    pure (rs.foldl (· ||| ·) 0)

/-! ### The instructions -/

/-- LD (R387). -/
def execLd (m : Option Mod) (im : Option Imm) (d : VDst) (a : MAddr) (sz : MSize) (ord : Bool) (sp : Space)
    (sc : Option Scope) (s : State) : Out :=
  let i : Instr := .ld m im d a sz ord sp sc
  (issue i never fun c =>
    if c.passing && d != .discard then passAgain i c
    else Prog.bind (ldJob im a sz ord sp (c.job c.act)) (deliver i c (ldShape d sz ord sc))).outcome s

/-- LD_NF (R388). -/
def execLdNf (m : Option Mod) (im : Option Imm) (d : VDst) (a : MAddr) (sz : MSize) (sp : Space) (p : Fin 128)
    (s : State) : Out :=
  let i : Instr := .ldNf m im d a sz sp p
  (issue i never fun c =>
    if c.passing && d != .discard then passAgain i c
    else Prog.bind (ldNfJob im a sz sp (c.job c.act)) (deliver i c (ldNfShape d sz p))).outcome s

/-- ST (R389). -/
def execSt (m : Option Mod) (im : Option Imm) (d : VSrc) (a : MAddr) (sz : MSize) (ord : Bool) (sp : Space)
    (sc : Option Scope) (s : State) : Out :=
  let i : Instr := .st m im d a sz ord sp sc
  (issueOnce i never fun c =>
    Prog.bind (stJob im d a sz ord sp sc (c.job c.act)) (deliver i c (stShape ord))).outcome s

/-- SLD (R390). -/
def execSld (m : Option Mod) (im : Option Imm) (d : SDst) (a : SSrc) (sz : MSize) (ord : Bool) (sp : Space)
    (sc : Option Scope) (s : State) : Out :=
  let i : Instr := .sld m im d a sz ord sp sc
  (issueOnce i never fun c => guarded c
    (Prog.bind (sldJob im a sz ord sp (c.job (scalarLane c))) (deliver i c (sldShape d ord sc)))).outcome s

/-- SST (R390). -/
def execSst (m : Option Mod) (im : Option Imm) (d : SSrc) (a : SSrc) (sz : MSize) (ord : Bool) (sp : Space)
    (sc : Option Scope) (s : State) : Out :=
  let i : Instr := .sst m im d a sz ord sp sc
  (issueOnce i never fun c => guarded c
    (Prog.bind (sstJob im d a sz ord sp sc (c.job (scalarLane c))) (deliver i c (stShape ord)))).outcome s

/-- ATOM (R391). -/
def execAtom (m : Option Mod) (im : Option Imm) (d : VDst) (a : MAddr) (op : AtomOp) (w8 : Bool) (sp : Space)
    (x : Option AtomExt) (s : State) : Out :=
  let i : Instr := .atom m im d a op w8 sp x
  (issueOnce i never fun c =>
    Prog.bind (atomJob im d a op w8 sp x (c.job c.act)) (deliver i c (atomShape d w8 x))).outcome s

/-- ATOM_CAS (R392). -/
def execAtomCas (m : Option Mod) (im : Option Imm) (d : VDst) (a : MAddr) (w8 : Bool) (sp : Space) (x : AtomExt)
    (s : State) : Out :=
  let i : Instr := .atomCas m im d a w8 sp x
  (issueOnce i never fun c =>
    Prog.bind (casJob im d a w8 sp x (c.job c.act)) (deliver i c (atomShape d w8 (some x)))).outcome s

/-- MXLD (R401, R402). -/
def execMxld (m : Option Mod) (im : Option Imm) (d : Fin 240) (a : SSrc) (ord : Bool) (sp : Space) (x : Option MxExt)
    (s : State) : Out :=
  let i : Instr := .mxld m im d a ord sp x
  (issueOnce i never fun c => mxGuarded c x
    (Prog.bind (mxldJob im a sp x (c.job c.act)) (deliver i c (mxldShape d ord x)))).outcome s

/-- MXST (R401, R402). -/
def execMxst (m : Option Mod) (im : Option Imm) (d : Fin 240) (a : SSrc) (ord : Bool) (sp : Space) (x : Option MxExt)
    (s : State) : Out :=
  let i : Instr := .mxst m im d a ord sp x
  (issueOnce i never fun c => mxGuarded c x
    (Prog.bind (mxstJob im d a ord sp x (c.job c.act)) (deliver i c (stShape ord)))).outcome s

/-- CACHE_PREFETCH (R397): a hint, with no trap and no record. -/
def execCachePrefetch (m : Option Mod) (im : Option Imm) (x : Bool) (a : MAddr) (l2 : Bool) (sp : Space) (s : State) :
    Out :=
  (issueOnce (.cachePrefetch m im x a l2 sp) never fun c =>
    Prog.bind (each (distinctAddrs 128 (laneAddrs c.g a im 128 c.act)) (prefetchLane (c.job c.act) sp l2)) fun _ =>
    .get fun s => retire c ((Tbl.find? s.groups c.k).getD c.g)).outcome s

/-- CACHE_PAGEREQ (R398): it completes at issue. -/
def execCachePagereq (m : Option Mod) (im : Option Imm) (x : Bool) (a : MAddr) (wr mig : Bool) (s : State) : Out :=
  (issueOnce (.cachePagereq m im x a wr mig) never fun c =>
    Prog.bind (anyOf (distinctAddrs 4096 (laneAddrs c.g a im 128 c.act)) fun y =>
      Prog.bind (pagereqLane (c.job c.act) wr mig y) fun ok => .pure !ok) fun again =>
    if again then skip else .get fun s => retire c ((Tbl.find? s.groups c.k).getD c.g)).outcome s

/-- CACHE_WB (R397). -/
def execCacheWb (m : Option Mod) (im : Option Imm) (x : Bool) (a : MAddr) (sp : Space) (s : State) : Out :=
  let i : Instr := .cacheWb m im x a sp
  (issueOnce i never fun c =>
    Prog.bind (cacheJob im a sp false (c.job c.act)) (deliver i c cacheShape)).outcome s

/-- CACHE_DROP (R397). -/
def execCacheDrop (m : Option Mod) (im : Option Imm) (x : Bool) (a : MAddr) (sp : Space) (s : State) : Out :=
  let i : Instr := .cacheDrop m im x a sp
  (issueOnce i never fun c =>
    Prog.bind (cacheJob im a sp true (c.job c.act)) (deliver i c cacheShape)).outcome s

/-- CACHE_RESQ (R397): residency of each lane's page, no fault raised. -/
def execCacheResq (m : Option Mod) (im : Option Imm) (x : Bool) (a : MAddr) (d : Fin 128) (s : State) : Out :=
  let i : Instr := .cacheResq m im x a d
  (issueOnce i never fun c =>
    Prog.bind (resqLanes (c.job c.act) (laneAddrs c.g a im 128 c.act)) fun v =>
    deliver i c { cacheShape with pdst := some d, counted := true }
      (.did { rows := [], sval := 0, pval := v, done := c.act, parked := 0, faults := [] })).outcome s

/-- LOAD_COMPLETE (R384): the value returns and is written. -/
def execLoadComplete (g id : Nat) (s : State) : Out := (landPend g id).outcome s

/-! ### Replay of a core-memory record -/

/-- Performs the masked lanes of a memory instruction again (R117, R385). An instruction that waits (lease, wwait) is
issued afresh once its record goes. -/
def replayMemory (k slot : Nat) (r : RrSlotState) (j : Job) (i : Instr) : Prog Unit :=
  match i with
  | .ld _ im d a sz ord sp sc => Prog.bind (ldJob im a sz ord sp j) (redeliver k slot r (ldShape d sz ord sc))
  | .st _ im d a sz ord sp sc => Prog.bind (stJob im d a sz ord sp sc j) (redeliver k slot r (stShape ord))
  | .sld _ im d a sz ord sp sc => Prog.bind (sldJob im a sz ord sp j) (redeliver k slot r (sldShape d ord sc))
  | .sst _ im d a sz ord sp sc => Prog.bind (sstJob im d a sz ord sp sc j) (redeliver k slot r (stShape ord))
  | .atom _ im d a op w8 sp x => Prog.bind (atomJob im d a op w8 sp x j) (redeliver k slot r (atomShape d w8 x))
  | .atomCas _ im d a w8 sp x => Prog.bind (casJob im d a w8 sp x j) (redeliver k slot r (atomShape d w8 (some x)))
  | .mxld _ im d a ord sp x => Prog.bind (mxldJob im a sp x j) (redeliver k slot r (mxldShape d ord x))
  | .mxst _ im d a ord sp x => Prog.bind (mxstJob im d a ord sp x j) (redeliver k slot r (stShape ord))
  | .cacheWb _ im _ a sp => Prog.bind (cacheJob im a sp false j) (redeliver k slot r cacheShape)
  | .cacheDrop _ im _ a sp => Prog.bind (cacheJob im a sp true j) (redeliver k slot r cacheShape)
  | _ => freeSlot k slot

end Sys2Proof.Machine
end

