-- ==== Sys2Proof/Machine/Splits.lean ====
section
/-! DEFINITION. Divergence and joins (R171 to R176, R435): bindings, the divergence stack, merges, loads of ARM records, and
the state that follows them, as pure operations on a group and its team's private memory. -/

namespace Sys2Proof.Machine

/-- A group with the private memory that holds its divergence stack, and STKTOP. -/
structure Stack where
  m : PrivMem
  g : Group
  top : Nat
deriving DecidableEq, Repr

/-- A binding (JOIN, JSEQ). -/
abbrev Binding := BitVec 48 × BitVec 6

def Rec.binding (r : Rec) : Binding := (r.join, r.jseq)

/-- The binding outside a NEST record. -/
def Rec.outer (r : Rec) : Binding := (r.pc, r.oseq)

/-- Records of the stack that are not free, oldest first, with their depths. While a handler runs, those above its frame
(DEDUCED, log 23). -/
def Stack.recs (x : Stack) : List (Nat × Rec) :=
  let from_ := if x.g.hnd then x.g.sdepth else 0
  ((upTo from_ (x.g.depth - from_)).map fun k => (k, readRec x.m x.g x.top k)).filter fun r =>
    r.2.kind == kArm || r.2.kind == kHeld || r.2.kind == kNest

/-- The NEST record that opens a binding. -/
def nestOf (rs : List (Nat × Rec)) (b : Binding) : Option (Nat × Rec) :=
  rs.find? fun r => r.2.kind == kNest && r.2.binding == b

/-- A binding and those outside it, n levels outward (R173, R435). -/
def chain (rs : List (Nat × Rec)) (b : Binding) (n : Nat) : List Binding :=
  match n with
  | 0 => [b]
  | n + 1 =>
    match nestOf rs b with
    | some r => if r.2.pc == 0 then [b] else b :: chain rs r.2.outer n
    | none => [b]

/-- Whether a binding is β or lies inside it (R435). -/
def boundTo (rs : List (Nat × Rec)) (own b : Binding) : Bool := own.1 != 0 && (chain rs own rs.length).contains b

/-- Pushes a record (R169); none when it does not fit. -/
def Stack.push (x : Stack) (r : Rec) : Option Stack :=
  if recFits x.top x.g.depth then
    some { x with m := writeRec x.m x.g x.top x.g.depth r, g := { x.g with depth := x.g.depth + 1 } }
  else none

/-- Pushes some records, all or none. -/
def Stack.pushAll (x : Stack) (rs : List Rec) : Option Stack :=
  match rs with
  | [] => some x
  | r :: rest =>
    match x.push r with
    | some y => y.pushAll rest
    | none => none

/-- Frees records, and lets DEPTH fall (R169). -/
def Stack.release (x : Stack) (ks : List Nat) : Stack :=
  let m := ks.foldl (fun m k => writeRec m x.g x.top k Rec.free) x.m
  { x with m, g := { x.g with depth := settleDepth m x.g x.top x.g.depth, arms := x.g.arms.filter fun a => !ks.contains a.1 } }

/-- A merge or a load that frees a record below the snapshot's DEPTH is a commit point (R186). -/
def Stack.commitIf (x : Stack) (ks : List Nat) (pc : Word64) : Stack :=
  if ks.any (· < x.g.snap.depth) then { x with g := x.g.commit pc } else x

/-- The entry an ARM record becomes (R172). -/
def armEntry (g : Group) (k : Nat) (r : Rec) : Entry :=
  let a := Tbl.getD g.arms k (0, false)
  { pc := r.pc.setWidth 64, via := if a.2 then .noSlot else .transfer, src := a.1, mask := r.mask, mode := r.mode,
    join := r.join, jseq := r.jseq, wait := .run, run := none }

/-- Loads the topmost ARM record into the lowest free entry (R172). -/
def Stack.load (x : Stack) : Option Stack :=
  match x.g.firstFree, ((x.recs.filter fun r => r.2.kind == kArm).reverse).head? with
  | some f, some (k, r) =>
    let e := armEntry x.g k r
    some (({ x with g := x.g.setEntry f e }.release [k]).commitIf [k] e.pc)
  | _, _ => none

/-- Entries that wait at the join of a binding. -/
def waitingAt (g : Group) (b : Binding) : List (Nat × Entry) :=
  g.entries.filter fun x => x.2.binding == b && x.2.wait.estate == 1

/-- Whether a binding may merge (R174). -/
def mayMerge (g : Group) (rs : List (Nat × Rec)) (b : Binding) : Bool :=
  b.1 != 0 &&
  !(rs.any fun r => r.2.kind == kArm && boundTo rs r.2.binding b) &&
  !(rs.any fun r => r.2.kind == kHeld && r.2.binding != b && boundTo rs r.2.binding b) &&
  (g.entries.all fun x => !boundTo rs x.2.binding b || (x.2.binding == b && x.2.wait.estate == 1)) &&
  (!(waitingAt g b).isEmpty || rs.any fun r => r.2.kind == kHeld && r.2.binding == b)

/-- The union of some masks. -/
def unionMask (l : List Mask) : Mask := l.foldl (· ||| ·) 0

/-- The merge of a binding (R174); none while it must wait for an entry. -/
def Stack.mergeAt (x : Stack) (rs : List (Nat × Rec)) (b : Binding) : Option Stack :=
  let held := rs.filter fun r => r.2.kind == kHeld && r.2.binding == b
  let wait := waitingAt x.g b
  let nest := nestOf rs b
  let outer : Binding := (nest.map fun r => r.2.outer).getD (0, 0)
  let mask := unionMask (wait.map (·.2.mask) ++ held.map (·.2.mask))
  let ks := held.map (·.1) ++ (nest.map fun r => [r.1]).getD []
  let took : Option (Nat × Entry) :=
    match wait, held with
    | (n, e) :: _, _ => some (n, { e with wait := .run })
    | [], (_, r) :: _ =>
      x.g.firstFree.map fun n =>
        let l : Word64 := r.pc.setWidth 64
        let next := Tbl.getD x.g.joinNext r.pc.toNat (l + 4)
        let e : Entry := { pc := l, via := .seq, src := l, mask := 0, mode := r.mode, join := 0, jseq := 0, wait := .run,
                           run := none }
        (n, e.after next l)
    | [], [] => none
  match took with
  | none => none
  | some (n, e) =>
    let gone := wait.foldl (fun g y => g.freeEntry y.1) x.g
    let e1 : Entry := { e with mask, join := outer.1, jseq := outer.2 }
    some (({ x with g := gone.setEntry n e1 }.release ks).commitIf ks e1.pc)

/-- The first binding that merges. -/
def Stack.merge (x : Stack) : Option Stack :=
  let rs := x.recs
  let bs := x.g.entries.flatMap (fun y => chain rs y.2.binding rs.length) ++ rs.map (·.2.binding)
  bs.findSome? fun b => if mayMerge x.g rs b then x.mergeAt rs b else none

/-- NEST records whose binding nothing is bound to any more are freed (R174). -/
def Stack.freeNests (x : Stack) : Stack :=
  let rs := x.recs
  let idle := rs.filter fun r => r.2.kind == kNest &&
    !(rs.any fun y => y.2.kind != kNest && boundTo rs y.2.binding r.2.binding) &&
    !(x.g.entries.any fun y => boundTo rs y.2.binding r.2.binding)
  x.release (idle.map (·.1))

/-- Merges, then loads, until neither is left (R172, R174). -/
def Stack.settle (x : Stack) (fuel : Nat) : Stack :=
  match fuel with
  | 0 => x.freeNests
  | fuel + 1 =>
    match x.merge with
    | some y => y.settle fuel
    | none =>
      match x.load with
      | some y => y.settle fuel
      | none => x.freeNests

def Stack.settled (x : Stack) : Stack := x.settle (2 * x.g.depth + 8)

/-- The stack of a group. -/
def stackOf (t : Team) (g : Group) : Stack := { m := t.priv, g, top := stkTop t.kernel.priv }

/-- A group and its stack are written back. -/
def putStack (k : Nat) (x : Stack) : Prog Unit :=
  Prog.bind (modTeam x.g.team fun t => { t with priv := x.m }) fun _ => emit (.group k x.g)

/-- Merges and loads of a group as it stands. -/
def settleSplits (k : Nat) : Prog Unit := .get fun s =>
  match Tbl.find? s.groups k with
  | none => skip
  | some g =>
    match Tbl.find? s.teams g.team with
    | none => skip
    | some t => putStack k (stackOf t g).settled

/-! ### br.d (R171, R324) -/

/-- Whether a binding is still live: an entry or a record of it remains (R324). -/
def bindingLive (x : Stack) (b : Binding) : Bool :=
  (x.g.entries.any fun y => y.2.binding == b) ||
  ((upTo 0 x.g.depth).any fun k =>
    let r := readRec x.m x.g x.top k
    r.kind != kFree && r.kind != kFrame && (r.binding == b || (r.kind == kNest && r.outer == b)))

/-- The first free number from q on, of n. -/
def freshSeq (x : Stack) (j : BitVec 48) (q : BitVec 6) (n : Nat) : Option (BitVec 6) :=
  match n with
  | 0 => none
  | n + 1 => if bindingLive x (j, q) then freshSeq x j (q + 1) n else some q

/-- A record of the divergence stack, other fields 0. -/
def mkRec (kind : BitVec 3) (pc : BitVec 48) (mask : Mask) (mode : BitVec 19) (b : Binding) (oseq : BitVec 6 := 0) : Rec :=
  { join := b.1, jseq := b.2, oseq, entry := 0, estate := 0, mode, jexp := 0, mask, kind, pc }

/-- Divergence of entry n at the branch of the focus: taken lanes, target (and whether it enters no slot), join. None when
a record does not fit or no number is free. -/
def Stack.diverge (x : Stack) (n : Nat) (e : Entry) (f : Focus) (taken : Mask) (target : Word64) (noSlot : Bool)
    (j : BitVec 48) : Option Stack :=
  match freshSeq x j x.g.bseq 64 with
  | none => none
  | some q =>
    let nb : Binding := (j, q)
    let free := x.g.firstFree
    let nest := if e.join != 0 then [mkRec kNest e.join 0 0 nb e.jseq] else []
    let arm := if free.isSome then [] else [mkRec kArm (target.setWidth 48) taken e.mode nb]
    match x.pushAll (nest ++ arm) with
    | none => none
    | some y =>
      let g1 : Group := { y.g with bseq := q + 1 }
      let e1 : Entry := { e.step f with mask := e.mask &&& ~~~taken, join := j, jseq := q, run := none }
      let g2 := g1.setEntry n e1
      let g3 := match free with
        | some i => g2.setEntry i { pc := target, via := if noSlot then .noSlot else .transfer, src := f.pc, mask := taken,
                                    mode := e.mode, join := j, jseq := q, wait := .run, run := none }
        | none => { g2 with arms := Tbl.put g2.arms (y.g.depth - 1) (f.pc, noSlot) }
      some { y with g := g3 }

/-! ### join (R173) -/

/-- The binding a join at a location arrives at: the split's own, or one of the 8 outside it. -/
def arrivesAt (x : Stack) (e : Entry) (l : BitVec 48) : Option Binding :=
  if e.join == 0 then none else (chain x.recs e.binding 8).find? fun b => b.1 == l

/-- The arrival of entry n at a binding (R173): HELD while an ARM record of it remains, else waiting. None when the record
does not fit. -/
def Stack.arrive (x : Stack) (n : Nat) (e : Entry) (f : Focus) (b : Binding) (exp : BitVec 5) (now : Nat) : Option Stack :=
  let g1 : Group := { x.g with joinNext := Tbl.put x.g.joinNext f.pc.toNat f.next }
  if x.recs.any fun r => r.2.kind == kArm && r.2.binding == b then
    let x1 : Stack := { x with g := g1 }
    match x1.push (mkRec kHeld (f.pc.setWidth 48) e.mask e.mode b) with
    | some y => some { y with g := y.g.freeEntry n }
    | none => none
  else
    let till := if exp == 0 then none else some (now + 2 ^ exp.toNat)
    let e1 : Entry := { e.step f with join := b.1, jseq := b.2, run := none, wait := .join f.next till exp }
    some { x with g := g1.setEntry n e1 }

/-- A waiting entry whose deadline has passed leaves for the outer binding (R175). -/
def Stack.expire (x : Stack) (n : Nat) (e : Entry) : Stack :=
  let outer : Binding := ((nestOf x.recs e.binding).map fun r => r.2.outer).getD (0, 0)
  let g := x.g.setEntry n { e with join := outer.1, jseq := outer.2, wait := .run }
  { x with g := { g with jto := true } }

/-! ### xret (R191) -/

/-- The group as `xret` leaves it, with the records of the frame freed: lanes that have exited stay out (R331), and an entry
with none left is free. Where the trap was a PREEMPT the restored table becomes the region snapshot (R194, DEDUCED, log 22). -/
def Stack.unwind (x : Stack) (now : Nat) (src : Word64) : Option Stack :=
  match x.g.returned x.m x.top now src with
  | none => none
  | some g =>
    let masked := Tbl.mapVals g.entries fun _ e => { e with mask := e.mask &&& g.live }
    let g1 : Group := { g with entries := masked.filter fun y => y.2.mask != 0 }
    let ks := upTo g.depth (x.g.depth - g.depth)
    let m1 := ks.foldl (fun m k => writeRec m g x.top k Rec.free) x.m
    let g2 : Group := { g1 with depth := settleDepth m1 g x.top g.depth, sdepth := 0 }
    let g3 := if g.xcause == cPreempt then g2.commit g.xpc else g2
    some { x with m := m1, g := g3 }

end Sys2Proof.Machine
end

