-- ==== Sys2Proof/Machine/Control.lean ====
section
/-! DEFINITION. Control transfers, joins, waits, exits and the return from a trap (R320 to R332, R337 to R340). -/

namespace Sys2Proof.Machine

/-! ### Targets (R304) -/

/-- The line that holds the instruction word. -/
def lineStart (f : Focus) : Word64 := BitVec.ofNat 64 (f.word.toNat / 128 * 128)

/-- The PC of a line offset and a slot. -/
def slotAddr (f : Focus) (loff : Word64) (slot : Nat) : Word64 :=
  lineStart f + loff * 128 + 16 + BitVec.ofNat 64 (4 * slot)

/-- The target of a branch word, and whether it enters no slot. -/
def branchTarget (f : Focus) (t : BTarget) : Word64 × Bool :=
  match t with
  | .near loff slot => (slotAddr f (loff.signExtend 64) slot.toNat, 28 ≤ slot.toNat)
  | .far lit => (slotAddr f ((lit.extractLsb' 5 27).signExtend 64) (bits lit 0 5), 28 ≤ bits lit 0 5)

/-- The location an IMM22 payload names. -/
def payloadTarget (f : Focus) (j : BitVec 22) : Word64 × Bool :=
  (slotAddr f ((j.extractLsb' 5 17).signExtend 64) (bits j 0 5), 28 ≤ bits j 0 5)

/-- The entry after a transfer from the instruction of the focus. -/
def Entry.jump (e : Entry) (f : Focus) (t : Word64 × Bool) : Entry :=
  { e with pc := t.1, via := if t.2 then .noSlot else .transfer, src := f.pc, wait := .run, run := none }

/-- A test that counts only when the split guard passes. -/
def ifGuard (p : Ctx → Bool) : Ctx → Bool := fun c => splitGuard c.g c.eff c.e.mask && p c

/-- Lanes in which a tested predicate holds. -/
def testMask (g : Group) (p : Fin 128) (neg : Bool) : Mask := if neg then ~~~(g.preg p.val) else g.preg p.val

/-- Whether the lowest lane of a mask passes a test (R323). -/
def lowTest (m t : Mask) : Bool :=
  match lowLane m with
  | none => false
  | some l => hasLane t l

/-- The split goes to a target when taken, else to the next instruction. -/
def branchTo (c : Ctx) (taken : Bool) (t : Word64 × Bool) : Prog Unit :=
  if taken then emit (.group c.k (c.g.setEntry c.n (c.e.jump c.f t))) else retire c c.g

/-- The link of a call (R325, R326). -/
def Group.link (g : Group) (f : Focus) : Group := g.writeS 62 f.next

/-! ### Branches -/

/-- BR_U (R323): taken when the lowest active lane passes the test. -/
def execBrU (m : Option Mod) (p : Fin 128) (neg : Bool) (t : BTarget) (s : State) : Out :=
  (issue (.brU m p neg t) never fun c =>
    branchTo c (lowTest c.act (testMask c.g p neg)) (branchTarget c.f t)).outcome s

/-- BR_U_ANY (R323): taken when any active lane passes the test. -/
def execBrUAny (m : Option Mod) (p : Fin 128) (neg : Bool) (t : BTarget) (s : State) : Out :=
  (issue (.brUAny m p neg t) never fun c =>
    branchTo c (c.act &&& testMask c.g p neg != 0) (branchTarget c.f t)).outcome s

/-- BR_D (R171, R324). -/
def execBrD (m : Option Mod) (p : Fin 128) (neg : Bool) (loff : BitVec 11) (slot : BitVec 5) (j : BitVec 22)
    (s : State) : Out :=
  (issue (.brD m p neg loff slot j) never fun c =>
    let taken := c.act &&& testMask c.g p neg
    let t := branchTarget c.f (.near loff slot)
    if taken == 0 then retire c c.g
    else if c.act == taken then branchTo c true t
    else match (stackOf c.t c.g).diverge c.n c.e c.f taken t.1 t.2 ((payloadTarget c.f j).1.setWidth 48) with
      | none => raise c cStack
      | some x => putStack c.k x).outcome s

/-- CALL (R325): s62 takes the next PC, then the branch. -/
def execCall (m : Option Mod) (p : Fin 128) (neg : Bool) (t : BTarget) (s : State) : Out :=
  (issue (.call m p neg t) never fun c => guarded c <|
    if lowTest c.act (testMask c.g p neg) then
      branchTo { c with g := c.g.link c.f } true (branchTarget c.f t)
    else retire c c.g).outcome s

/-- BRX (R326). -/
def execBrx (m : Option Mod) (a : SSrc) (s : State) : Out :=
  (issue (.brx m a) never fun c => guarded c (branchTo c true (c.g.ssrc a none, false))).outcome s

/-- BRX_CALL (R326): A is read before the link is written. -/
def execBrxCall (m : Option Mod) (a : SSrc) (s : State) : Out :=
  (issue (.brxCall m a) never fun c => guarded c
    (branchTo { c with g := c.g.link c.f } true (c.g.ssrc a none, false))).outcome s

/-! ### Joins -/

/-- JOIN (R173, R327). -/
def execJoin (m : Option Mod) (n : Fin 21) (s : State) : Out :=
  (issue (.join m n) never fun c => guarded c <|
    letI := Prog.monad
    do
      let x := stackOf c.t c.g
      match arrivesAt x c.e (c.f.pc.setWidth 48) with
      | none => retire c c.g
      | some b => do
        let now ← look fun s => clockAt s (dieOf (keyCore c.k))
        match x.arrive c.n c.e c.f b (BitVec.ofNat 5 n.val) now with
        | none => raise c cStack
        | some y => putStack c.k y.settled).outcome s

/-- JOIN_TIMEOUT (R175): a deadline that has passed before the merge. -/
def execJoinTimeout (k n : Nat) (s : State) : Out :=
  (letI := Prog.monad
   do
    let s ← look id
    match Tbl.find? s.groups k with
    | none => pure ()
    | some g =>
      match Tbl.find? g.entries n, Tbl.find? s.teams g.team with
      | some e, some t =>
        match e.wait with
        | .join _ (some d) _ =>
          if d < clockAt s (dieOf (keyCore k)) then putStack k ((stackOf t g).expire n e).settled else pure ()
        | _ => pure ()
      | _, _ => pure ()).outcome s

/-! ### Yield and sleep -/

/-- YIELD (R328). -/
def execYield (m : Option Mod) (s : State) : Out :=
  (issue (.yield m) never fun c => guarded c
    (emit (.group c.k (c.g.setEntry c.n { c.e.step c.f with wait := .yield, run := none })))).outcome s

/-- A queue that yield.c refuses: bound to port 0 or to a push port (R226, R329). -/
def pushPort (p : BitVec 4) : Bool := p == 1 || p == 3

/-- YIELD_C (R329): commits at the continuation, then waits for an entry. -/
def execYieldC (m : Option Mod) (q : Fin 8) (j : BitVec 22) (s : State) : Out :=
  (issue (.yieldC m q j) never fun c => guarded c <|
    let r := c.g.qreg q.val
    if r.port == 0 || pushPort r.port then raise c cBinding
    else
      let t := payloadTarget c.f j
      let e := c.e.jump c.f t
      let e1 : Entry := if r.entries.isEmpty then { e with wait := .entry q } else e
      emit (.group c.k ((c.g.setEntry c.n e1).commit t.1))).outcome s

/-- SLEEP (R330). -/
def execSleep (m : Option Mod) (n : BitVec 16) (s : State) : Out :=
  (issue (.sleep m n) never fun c => guarded c <|
    if n == 0 then retire c c.g
    else
      letI := Prog.monad
      do
        let now ← look fun s => clockAt s (dieOf (keyCore c.k))
        emit (.group c.k (c.g.setEntry c.n { c.e.step c.f with wait := .sleep (now + n.toNat), run := none }))).outcome s

/-- SLEEP_EXPIRE (R330): the cycles have passed. -/
def execSleepExpire (k n : Nat) (s : State) : Out :=
  (letI := Prog.monad
   do
    let now ← look fun s => clockAt s (dieOf (keyCore k))
    modGroup k fun g =>
      match Tbl.find? g.entries n with
      | some e =>
        (match e.wait with
         | .sleep t => if t ≤ now then g.setEntry n { e with wait := .run } else g
         | _ => g)
      | none => g).outcome s

/-! ### Exit -/

/-- EXIT (R176, R331): the active lanes leave the group for good; the instruction commits. -/
def execExit (m : Option Mod) (s : State) : Out :=
  (issue (.exit m) never fun c =>
    letI := Prog.monad
    do
      let e : Entry := { c.e.step c.f with mask := c.e.mask &&& ~~~c.act, run := none }
      let g0 : Group := { c.g with live := c.g.live &&& ~~~c.act }
      let g1 := if e.mask == 0 then g0.freeEntry c.n else g0.setEntry c.n e
      putStack c.k (stackOf c.t (g1.commit c.f.next)).settled
      settleGroup c.k).outcome s

/-- What the dispatcher keeps of a group (R193). -/
def Group.restart (g : Group) : Restart :=
  { index := g.index, width := g.width, halves := g.halves, home := g.home, arms := g.arms, depth := g.depth, bseq := g.bseq,
    joins := g.joinNext }

/-- EXIT_SAVE (R331, R192, R193): the end of a group in its PREEMPT handler. Results an engine holds for it wait for its
restart (R230). -/
def execExitSave (m : Option Mod) (s : State) : Out :=
  (issue (.exitSave m) (fun c => !(c.g.hnd && c.g.xcause == cPreempt)) fun c =>
    letI := Prog.monad
    do
      modTeam c.g.team fun t =>
        { t with saved := true, priv := t.priv.writeBack c.g.ownsPriv, restart := Tbl.put t.restart c.g.ident c.g.restart }
      leaveTeam c.k).outcome s

/-! ### Regions and MODE -/

/-- RGN (R185, R332): the snapshot is taken at the instruction itself. -/
def execRgn (m : Option Mod) (v : BitVec 30) (sm : BitVec 8) (pm : BitVec 16) (s : State) : Out :=
  (issue (.rgn m v sm pm) never fun c =>
    if 2 ^ c.g.blocks ≤ v.toNat then raise c cRegRange
    else groupGuarded c <|
      let g := (c.g.setEntry c.n { c.e with pc := c.f.pc, wait := .run }).commit c.f.pc
      retire c { g with rgnmask := { all := false, pmask := pm, smask := sm, vmask := v } }).outcome s

/-- Writes the split's MODE copy (R333, R310). -/
def writeMode (c : Ctx) (v : Word64) : Prog Unit :=
  if modeWritable v then retire c (c.g.setEntry c.n { c.e with mode := v.setWidth 19 }) else raise c cMode

/-- MODE_IMM (R333). -/
def execModeImm (m : Option Mod) (v : BitVec 24) (s : State) : Out :=
  (issue (.modeImm m v) never fun c => guarded c (writeMode c (v.setWidth 64))).outcome s

/-- MODE_SCALAR (R333). -/
def execModeScalar (m : Option Mod) (a : SSrc) (s : State) : Out :=
  (issue (.modeScalar m a) never fun c => guarded c (writeMode c (c.g.ssrc a none))).outcome s

/-! ### Barriers and register blocks -/

/-- Arrival of a group at a barrier (R184, R209, R337): after its release. -/
def arriveBar (c : Ctx) (n : Fin 16) (clu : Bool) : Prog Unit :=
  letI := Prog.monad
  do
    if ← releaseCore c.k c.g (if clu then .clu else .team) then pure ()
    else do
      let g ← look fun s => (Tbl.find? s.groups c.k).getD c.g
      emit (.group c.k (g.setEntry c.n { c.e with pc := c.f.pc, wait := .bar n clu c.f.next, run := none }))
      modTeam c.g.team fun t =>
        if clu then { t with cluArrivals := Tbl.put t.cluArrivals n.val (Tbl.getD t.cluArrivals n.val [] ++ [c.k]) }
        else { t with arrivals := Tbl.put t.arrivals n.val (Tbl.getD t.arrivals n.val [] ++ [c.k]) }
      checkBar c.g.team n.val clu

/-- BAR (R184, R337). -/
def execBar (m : Option Mod) (n : Fin 16) (s : State) : Out :=
  (issue (.bar m n) never fun c => groupGuarded c (arriveBar c n false)).outcome s

/-- BAR_CLU (R184, R337): illegal in a team outside a cluster. -/
def execBarClu (m : Option Mod) (n : Fin 16) (s : State) : Out :=
  (issue (.barClu m n) (fun c => c.t.clt == 0) fun c => groupGuarded c (arriveBar c n true)).outcome s

/-- RACQ (R163, R338): waits in the FIFO of its pools, and commits at its grant. -/
def execRacq (m : Option Mod) (k : Fin 30) (s : State) : Out :=
  (issue (.racq m k) never fun c => guarded c <|
    if 30 < c.g.blocks + k.val || 2 * c.t.kernel.extKib < blockUnits c.g k.val then raise c cRacq
    else
      letI := Prog.monad
      do
        emit (.group c.k (c.g.setEntry c.n { c.e with pc := c.f.pc, wait := .racq k.val c.f.next, run := none }))
        modTeam c.g.team fun t => { t with racqFifo := t.racqFifo ++ [(c.k, k.val)] }
        serveRacq c.g.team).outcome s

/-- The group without its k highest blocks: results on their way to them are dropped. -/
def Group.giveBlocks (g : Group) (k : Nat) : Group :=
  let n := g.blocks - k
  { g with extBlk := g.extBlk - k,
           pend := Tbl.mapVals g.pend fun _ p => { p with regs := p.regs.filter fun r => r.reg < 8 * n } }

/-- RREL (R163, R338): the k highest blocks return; commits at issue. -/
def execRrel (m : Option Mod) (k : Fin 30) (s : State) : Out :=
  (issue (.rrel m k) never fun c => guarded c <|
    if c.g.extBlk < k.val then raise c cRegRange
    else
      letI := Prog.monad
      do
        modTeam c.g.team fun t => t.give c.g (blockUnits c.g k.val)
        retireCommit c (c.g.giveBlocks k.val)
        serveRacq c.g.team).outcome s

/-! ### Traps and return -/

/-- XINFO of a software trap (R339): NEXTPC and CODE. -/
def trapInfo (f : Focus) (code : BitVec 8) : Word64 := BitVec.ofNat 64 (f.next.toNat % 2 ^ 48 * 2 ^ 16 + code.toNat)

/-- TRAP (R339). -/
def execTrap (m : Option Mod) (code : BitVec 8) (s : State) : Out :=
  (issue (.trap m code) never fun c => guarded c (raise c cSoftware (trapInfo c.f code))).outcome s

/-- BRK (R339). -/
def execBrk (m : Option Mod) (code : BitVec 8) (s : State) : Out :=
  (issue (.brk m code) never fun c => guarded c (raise c cBreak (trapInfo c.f code))).outcome s

/-- The return from a trap (R191, R340): leases taken in the handler are lost, the frame is popped, the split table is
restored; then held results may enter, and a held PREEMPT is taken. -/
def returnTrap (c : Ctx) : Prog Unit :=
  letI := Prog.monad
  do
    let now ← look fun s => clockAt s (dieOf (keyCore c.k))
    match (stackOf c.t c.g).unwind now c.f.pc with
    | none => raise c cIllegal
    | some x => do
      putStack c.k x
      dropLeases c.k
      settleSplits c.k
      servePreempt c.k
      let held ← look fun s => s.dev.held.filter fun (h : HeldResult) => h.team == c.g.team && h.ident == c.g.ident
      each held fun (h : HeldResult) => due (.engineResultDelivery c.k h.port.toNat)
      settleGroup c.k

/-- XRET (R191, R340). -/
def execXret (m : Option Mod) (s : State) : Out :=
  (issue (.xret m) (ifGuard fun c => !c.g.hnd) fun c => guarded c (returnTrap c)).outcome s

end Sys2Proof.Machine
end

