-- ==== Sys2Proof/Machine/QueueRegs.lean ====
section
/-! DEFINITION. Queue registers (R225 to R230, R405 to R410): binding, pushing, popping, and the delivery of what the
engines have produced. -/

namespace Sys2Proof.Machine

/-! ### Ports (R225) -/

def portCopy : BitVec 4 := 1
def portCopyDone : BitVec 4 := 2
def portColl : BitVec 4 := 3
def portCollDone : BitVec 4 := 4
def portMx0 : BitVec 4 := 5
def portMx1 : BitVec 4 := 6

/-- Pop ports of the scalar and of the vector class. -/
def scalarPop (p : BitVec 4) : Bool := p == portCopyDone || p == portCollDone

def vectorPop (p : BitVec 4) : Bool := p == portMx0 || p == portMx1

/-- The default bindings (R225). -/
def defaultQueues : Tbl QReg :=
  [(0, 1), (1, 2), (2, 3), (3, 4), (4, 0), (5, 0), (6, 0), (7, 5)].map fun x =>
    (x.1, { port := BitVec.ofNat 4 x.2, entries := [], retained := [] })

/-- The group of a team with an identity (R230). -/
def findGroup (s : State) (team ident : Nat) : Option (Nat × Group) :=
  match Tbl.find? s.teams team with
  | none => none
  | some t => t.groups.findSome? fun k =>
    match Tbl.find? s.groups k with
    | some g => if g.ident == ident then some (k, g) else none
    | none => none

/-! ### Entries -/

/-- Splits that wait for an entry of a q-register go on: a pop issues again, yield.c has its entry (R228, R329). -/
def wakeQueue (q : Nat) (e : Entry) : Entry :=
  match e.wait with
  | .pop n => if n.val == q then { e with wait := .run } else e
  | .entry n => if n.val == q then { e with wait := .run } else e
  | _ => e

/-- Splits that wait to push go on. -/
def wakePush (q : Nat) (e : Entry) : Entry :=
  match e.wait with
  | .push n => if n.val == q then { e with wait := .run } else e
  | _ => e

def Group.mapEntries (g : Group) (f : Entry → Entry) : Group :=
  { g with entries := Tbl.mapVals g.entries fun _ e => f e, suspended := Tbl.mapVals g.suspended fun _ e => f e }

/-- Sets a q-register. -/
def Group.setQ (g : Group) (n : Nat) (q : QReg) : Group := { g with q := Tbl.put g.q n q }

/-- A place for one more entry: the oldest retained entry gives its own when no other is free (R408). -/
def QReg.append (q : QReg) (e : QEntry) : Option QReg :=
  if 8 ≤ q.entries.length then none
  else if 8 ≤ q.entries.length + q.retained.length then
    some { q with entries := q.entries ++ [e], retained := q.retained.drop 1 }
  else some { q with entries := q.entries ++ [e] }

/-- The q-register bound to a port. -/
def Group.boundTo (g : Group) (port : BitVec 4) : Option (Nat × QReg) := g.q.find? fun x => x.2.port == port

/-- Whether results may enter the group's queues: not from its PREEMPT until its xret (R230). -/
def Group.takesResults (g : Group) : Bool := !(g.hnd && g.xcause == cPreempt)

/-- Delivers the first result that an engine holds for a port of the group (R228). Answers whether it did. -/
def deliverOne (k : Nat) (port : BitVec 4) : Prog Bool :=
  letI := Prog.monad
  do
    let s ← look id
    match Tbl.find? s.groups k with
    | none => pure false
    | some g =>
      let mine := fun (h : HeldResult) => h.team == g.team && h.ident == g.ident && h.port == port
      match s.dev.held.find? mine, g.boundTo port with
      | some h, some (n, q) =>
        (match (if g.takesResults then q.append h.entry else none) with
         | none => pure false
         | some q1 => do
           modDev fun d => { d with held := d.held.erase h }
           emit (.group k ((g.setQ n q1).mapEntries (wakeQueue n)))
           pure true)
      | _, _ => pure false

/-- An engine has a result for a group (R228, R230): it is held, and delivered as soon as there is room. -/
def offerResult (team ident : Nat) (port : BitVec 4) (e : QEntry) : Prog Unit :=
  letI := Prog.monad
  do
    modDev fun d => { d with held := d.held ++ [{ team, ident, port, entry := e }] }
    match ← look fun s => findGroup s team ident with
    | some (k, _) => due (.engineResultDelivery k port.toNat)
    | none => pure ()

/-- Whether an engine already holds a result for a queue that is full: it takes no further ones for it (R228). -/
def resultHeld (s : State) (team ident : Nat) (port : BitVec 4) : Bool :=
  (s.dev.held.any fun h => h.team == team && h.ident == ident && h.port == port) &&
    match findGroup s team ident with
    | some (_, g) => g.takesResults && (g.boundTo port).isSome
    | none => false

/-- ENGINE_RESULT_DELIVERY (R228). -/
def execEngineResultDelivery (k port : Nat) (s : State) : Out :=
  (letI := Prog.monad
   do
    if ← deliverOne k (BitVec.ofNat 4 port) then due (.engineResultDelivery k port) else pure ()).outcome s

/-- Held results are looked at again. -/
def retryHeld (k : Nat) (port : BitVec 4) : Prog Unit := due (.engineResultDelivery k port.toNat)

/-! ### Commands -/

/-- Commands of a group that the engine has not taken (R227). -/
def untaken (l : List EngCmd) (team ident : Nat) : Nat :=
  (l.filter fun c => c.phase == 0 && c.packet.isNone && c.team == team && c.ident == ident).length

/-- The die's intake of a command port. -/
def intake (s : State) (die : Nat) (port : BitVec 4) : List EngCmd :=
  if port == portCopy then (dieAt s die).copy else (dieAt s die).coll

/-- COUNT of a q-register (R227, R229, R409). -/
def queueCount (s : State) (k : Nat) (g : Group) (q : QReg) : Nat :=
  if q.port == portCopy || q.port == portColl then untaken (intake s (dieOf (keyCore k)) q.port) g.team g.ident
  else q.entries.length

/-- A fresh command. -/
def newCmd (id : Nat) (t : Team) (team ident : Nat) (port : BitVec 4) (words : List Word64) : EngCmd :=
  { id, packet := none, team, ident, part := t.part, ctxidx := t.ctxidx, asid := t.asid, port, words, phase := 0, done := 0,
    status := 0, cls := 0, elemMask := 0, record := none, set := 0, fault := none,
    launch := (t.queue, t.packet), pg := t.pg, clt := t.clt, cluster := t.cluster }

/-- Adds a command to a die's engine. -/
def addCmd (die : Nat) (port : BitVec 4) (x : EngCmd) : Prog Unit :=
  letI := Prog.monad
  do
    modDie die fun d => if port == portCopy then { d with copy := d.copy ++ [x] } else { d with coll := d.coll ++ [x] }
    due (if port == portCopy then .copyCommandStart die x.id else .collectiveMatch die x.id)

/-- A push to COPYCMD or COLLCMD (R227, R406): it commits at issue, or waits while 8 commands are not taken. -/
def pushCommand (c : Ctx) (n : Fin 8) (port : BitVec 4) (first : Nat) : Prog Unit :=
  letI := Prog.monad
  do
    let die := dieOf (keyCore c.k)
    let count ← look fun s => untaken (intake s die port) c.g.team c.g.ident
    if 8 ≤ count then await c c.g (.push n)
    else do
      let id ← newId
      let words := (upTo first 4).map fun r => c.g.sreg r
      retireCommit c { c.g with outstanding := c.g.outstanding + 1 }
      addCmd die port (newCmd id c.t c.g.team c.g.ident port words)

/-- First register of a command, where D may name one (R406). -/
def commandReg (a : QSrc) : Option Nat :=
  match a with
  | .s (.s r) => if r.val % 4 == 0 then some r.val else none
  | _ => none

/-- A push to a pop port in a handler (R230, R406). -/
def pushBack (c : Ctx) (n : Fin 8) (q : QReg) (e : QEntry) : Prog Unit :=
  match q.append e with
  | none => await c c.g (.push n)
  | some q1 => retire c ((c.g.setQ n.val q1).mapEntries (wakeQueue n.val))

/-- Q_PUSH (R406). -/
def execQPush (m : Option Mod) (n : Fin 8) (a : QSrc) (s : State) : Out :=
  let i : Instr := .qPush m n a
  (issueOnce i (fun c => pushesCommand c.g i && (commandReg a).isNone) fun c =>
    let q := c.g.qreg n.val
    if pushesCommand c.g i then pushCommand c n q.port ((commandReg a).getD 0)
    else guarded c <|
      match a with
      | .s x =>
        if scalarPop q.port && c.g.hnd then pushBack c n q { word := c.g.ssrc x none, row := zeroRow, counted := false }
        else raise c cBinding
      | .v r =>
        if vectorPop q.port && c.g.hnd then
          pushBack c n q { word := 0, row := maskRow c.g.lanes (c.g.vreg r.val), counted := false }
        else raise c cBinding).outcome s

/-! ### Pops -/

/-- The context of an MXRES port. -/
def portCtx (p : BitVec 4) : Nat := if p == portMx1 then 1 else 0

/-- A context of the core. -/
def mxeAt (s : State) (core x : Nat) : MxeCtx := nthD (coreAt s core).mxe x MxeCtx.idle

def modMxe (core x : Nat) (f : MxeCtx → MxeCtx) : Prog Unit :=
  modCore core fun c => { c with mxe := modNth c.mxe x f }

def mxFailed : BitVec 3 := 5

/-- Whether a FAILED context concerns a group: it belongs to the group's team, and the group is a member (R407). -/
def failedFor (x : MxeCtx) (g : Group) : Bool := x.state == mxFailed && x.owner == g.team && x.members.contains g.ident

/-- The slot that holds the record of a context (R115): XINFO of its traps. -/
def mxeSlot (s : State) (x : MxeCtx) (n : Nat) : Nat :=
  match findGroup s x.owner (nthD x.members 0 0) with
  | some (_, g) => (g.slotOf fun r => r.unit == 3 && r.cmd == n).getD 0
  | none => 0

/-- The trap of a FAILED context (R135, R407, R412): its cause once, then ENGINE_DESCRIPTOR. -/
def raiseFailed (c : Ctx) (n : Nat) (x : MxeCtx) : Prog Unit :=
  if c.g.ending then skip
  else if c.g.failTaken.getLsbD n then raise c cDescriptor
  else
    letI := Prog.monad
    do
      modGroup c.k fun g => { g with failTaken := setBit g.failTaken n }
      let slot ← look fun s => mxeSlot s x n
      raise c x.cause (BitVec.ofNat 64 slot)

/-- One more pop of a DRAIN context has been taken; it is IDLE after the last (R248). -/
def popTaken (core n : Nat) (total : Nat) : Prog Unit :=
  modMxe core n fun x =>
    if x.state != 3 then x else if total ≤ x.taken + 1 then MxeCtx.idle else { x with taken := x.taken + 1 }

/-- Columns of the accumulator, rows, from a descriptor (R242, R248). -/
def descBits (d : List Word64) (lo n : Nat) : Nat := packetBits d lo n

def descRows (d : List Word64) : Nat := 8 * (descBits d 132 3 + 1)
def descCols (d : List Word64) : Nat := 8 * (descBits d 129 3 + 1) * (if descBits d 120 1 == 1 then 2 else 1)

/-- Pops of a result for members of a width (R248). -/
def popTotal (d : List Word64) (width : Nat) : Nat :=
  descRows d * (if width == 64 then 1 else (descCols d + 31) / 32)

/-- Whether the class of an operand matches a pop port (R405). -/
def popMatches (p : BitVec 4) (d : QDst) : Bool :=
  match d with
  | .s _ => scalarPop p
  | .v _ => vectorPop p

/-- Writes a popped entry (R407): a vector in every lane of the width. -/
def Group.popResult (g : Group) (d : QDst) (e : QEntry) : Group :=
  match d with
  | .s x => g.resultS x e.word
  | .v r => g.result (.v r) g.lanes e.row

/-- The instruction of a pop or a peek has executed. -/
def retirePop (c : Ctx) (g : Group) (d : QDst) : Prog Unit :=
  match d with
  | .s _ => retire c g
  | .v _ => retireV c g

/-- What the first pop of an entry does (R227, R248, R407). -/
def firstPop (c : Ctx) (port : BitVec 4) (e : QEntry) : Prog Unit :=
  if !e.counted then skip
  else if vectorPop port then .get fun s =>
    let n := portCtx port
    popTaken (keyCore c.k) n (popTotal (mxeAt s (keyCore c.k) n).desc c.g.width)
  else skip

/-- Q_POP (R407, R408). -/
def execQPop (m : Option Mod) (d : QDst) (n : Fin 8) (s : State) : Out :=
  (issueOnce (.qPop m d n) never fun c => guarded c <|
    letI := Prog.monad
    do
      let q := c.g.qreg n.val
      let x ← look fun s => mxeAt s (keyCore c.k) (portCtx q.port)
      if !popMatches q.port d then raise c cBinding
      else if vectorPop q.port && failedFor x c.g then raiseFailed c (portCtx q.port) x
      else match q.entries with
        | [] => await c c.g (.pop n)
        | e :: rest => do
          let keep := if c.g.hnd then q.retained else q.retained ++ [{ e with counted := false }]
          let g1 := (c.g.setQ n.val { q with entries := rest, retained := keep }).popResult d e
          let g2 := g1.mapEntries (wakePush n.val)
          firstPop c q.port e
          retirePop c (if e.counted && scalarPop q.port then g2.uncount else g2) d
          retryHeld c.k q.port).outcome s

/-- Q_PEEK (R407). -/
def execQPeek (m : Option Mod) (d : QDst) (n : Fin 8) (s : State) : Out :=
  (issueOnce (.qPeek m d n) never fun c => guarded c <|
    let q := c.g.qreg n.val
    if !popMatches q.port d then raise c cBinding
    else match q.entries with
      | [] => await c c.g (.pop n)
      | e :: _ => retirePop c (c.g.popResult d e) d).outcome s

/-- The state value of a q-register (R229). -/
def queueStat (port : BitVec 4) (count : Nat) : Word64 := BitVec.ofNat 64 (port.toNat * 256 + count)

/-- Q_STAT (R409). -/
def execQStat (m : Option Mod) (d : SDst) (n : Fin 8) (s : State) : Out :=
  (issueOnce (.qStat m d n) never fun c => guarded c <|
    letI := Prog.monad
    do
      let q := c.g.qreg n.val
      let count ← look fun s => queueCount s c.k c.g q
      retire c (c.g.resultS d (queueStat q.port count))).outcome s

/-- Whether q.bind is refused (R226, R410). -/
def bindRefused (s : State) (c : Ctx) (n : Fin 8) (port : Fin 16) : Bool :=
  6 < port.val || queueCount s c.k c.g (c.g.qreg n.val) != 0 ||
    (port.val != 0 && c.g.q.any fun x => x.1 != n.val && x.2.port.toNat == port.val)

/-- Q_BIND (R410). -/
def execQBind (m : Option Mod) (n : Fin 8) (port : Fin 16) (s : State) : Out :=
  (issueOnce (.qBind m n port) never fun c => guarded c <| .get fun s =>
    if bindRefused s c n port then raise c cBinding
    else
      let q := c.g.qreg n.val
      Prog.bind (retire c (c.g.setQ n.val { q with port := BitVec.ofNat 4 port.val, retained := [] })) fun _ =>
        retryHeld c.k (BitVec.ofNat 4 port.val)).outcome s

end Sys2Proof.Machine
end

