-- ==== Sys2Proof/Machine/Engines.lean ====
section
/-! DEFINITION. Accesses of the engines: reads and writes at homes on paths Y, K, M and X (R220, R233, R247), in pieces that
each lie in one line. -/

namespace Sys2Proof.Machine

/-- n bytes from an address as pieces (address, bytes), each in one line. -/
def linePieces (va n fuel : Nat) : List (Nat × Nat) :=
  match fuel with
  | 0 => []
  | fuel + 1 =>
    if n == 0 then []
    else
      let k := min n (128 - va % 128)
      (va, k) :: linePieces (va + k) (n - k) fuel

/-- All pieces of a range. -/
def piecesOf (va n : Nat) : List (Nat × Nat) := linePieces va n (n / 128 + 2)

/-- How an engine's access ends. -/
inductive Eng (α : Type) where
  | ok (x : α)
  | fault (cls addr : Nat)
  | trap (c : Cause)
  | poison
  | wait
deriving DecidableEq, Repr

/-- Something else with the answer of an access. -/
def Eng.map {α β : Type} (x : Eng α) (f : α → β) : Eng β :=
  match x with
  | .ok y => .ok (f y)
  | .fault c a => .fault c a
  | .trap c => .trap c
  | .poison => .poison
  | .wait => .wait

/-- Accesses one after the other; the first that does not complete decides. -/
def engAll {α β : Type} (l : List α) (f : α → Prog (Eng β)) : Prog (Eng (List β)) :=
  match l with
  | [] => .pure (.ok [])
  | x :: rest => Prog.bind (f x) fun r =>
    match r with
    | .ok y => Prog.bind (engAll rest f) fun t => .pure (t.map fun ys => y :: ys)
    | .fault c a => .pure (.fault c a)
    | .trap c => .pure (.trap c)
    | .poison => .pure .poison
    | .wait => .pure .wait

/-- Where one piece lies. -/
def engSite (a : Agent) (acc : Acc) (p : Nat × Nat) : Prog (Eng Loc) :=
  letI := Prog.monad
  do
    match ← translate a p.1 acc with
    | .ok tl _ => pure (.ok (← look fun s => tl.loc s.dev a p.1))
    | .fault cls x => pure (.fault cls x)
    | .trap c => pure (.trap c)
    | .wait => pure .wait

/-- Reads one piece at its home. -/
def engPiece (a : Agent) (acc : Acc) (p : Nat × Nat) : Prog (Eng (List Byte)) :=
  letI := Prog.monad
  do
    match ← engSite a acc p with
    | .ok x =>
      if ← holdsRequest x.pa false a.who then pure .wait
      else do
        noteRequest (a.die.getD 0) x false
        let s ← look id
        pure (if poisoned s.dev x.pa then .poison else .ok (homeBytes s x.pa p.2))
    | .fault c x => pure (.fault c x)
    | .trap c => pure (.trap c)
    | .poison => pure .poison
    | .wait => pure .wait

/-- Reads one piece on behalf of some groups: from the image of one that holds the line, else at its home (R214, R219). -/
def ownPiece (a : Agent) (ks : List Nat) (acc : Acc) (p : Nat × Nat) : Prog (Eng (List Byte)) :=
  letI := Prog.monad
  do
    match ← engSite a acc p with
    | .ok x => do
      let s ← look id
      if ks.any (hasImage s x.pa) then pure (.ok (imageRead s x.pa p.2)) else engPiece a acc p
    | .fault c y => pure (.fault c y)
    | .trap c => pure (.trap c)
    | .poison => pure .poison
    | .wait => pure .wait

/-- Reads n bytes on behalf of some groups. -/
def ownRead (a : Agent) (ks : List Nat) (acc : Acc) (va n : Nat) : Prog (Eng (List Byte)) :=
  Prog.bind (engAll (piecesOf va n) (ownPiece a ks acc)) fun r => .pure (r.map List.flatten)

/-- Reads n bytes at homes. -/
def engRead (a : Agent) (acc : Acc) (va n : Nat) : Prog (Eng (List Byte)) :=
  Prog.bind (engAll (piecesOf va n) (engPiece a acc)) fun r => .pure (r.map List.flatten)

/-- Where every piece of a write lies, none of them held. -/
def engTargets (a : Agent) (va n : Nat) : Prog (Eng (List (Loc × Nat))) :=
  engAll (piecesOf va n) fun p => Prog.bind (engSite a .write p) fun r =>
    match r with
    | .ok x => Prog.bind (holdsRequest x.pa true a.who) fun held => .pure (if held then .wait else .ok (x, p.2))
    | .fault c y => .pure (.fault c y)
    | .trap c => .pure (.trap c)
    | .poison => .pure .poison
    | .wait => .pure .wait

/-- Writes bytes at located pieces, each piece as one event at its home. -/
def engStore (die : Nat) (l : List (Loc × Nat)) (bs : List Byte) : Prog Unit :=
  match l with
  | [] => skip
  | (x, n) :: rest =>
    Prog.bind (noteRequest die x true) fun _ =>
    Prog.bind (homeWrite x.pa (bs.take n)) fun _ => engStore die rest (bs.drop n)

/-- Reads one piece at home on path C for group k: from its image, or once the core's dirty bytes have been written home
(R210, R416). -/
def homePiece (k : Nat) (a : Agent) (p : Nat × Nat) : Prog (Eng (List Byte)) :=
  letI := Prog.monad
  do
    match ← engSite a .read p with
    | .ok x =>
      match ← readHome k (keyCore k) p.2 x with
      | .bytes bs => pure (.ok bs)
      | .wait => pure .wait
      | .poison => pure .poison
    | .fault c y => pure (.fault c y)
    | .trap c => pure (.trap c)
    | .poison => pure .poison
    | .wait => pure .wait

/-- Writes bytes of group k at located pieces: to its image of a line that it holds (R214), else at the home, the core's own copy
written back and dropped first (R210). -/
def ownStore (k : Nat) (l : List (Loc × Nat)) (bs : List Byte) : Prog Unit :=
  match l with
  | [] => skip
  | (x, n) :: rest => .get fun s =>
    Prog.bind (if hasImage s x.pa k then imageWrite x.pa (bs.take n) else writeHome (keyCore k) x (bs.take n)) fun _ =>
    ownStore k rest (bs.drop n)

/-- Writes bytes at homes. -/
def engWrite (a : Agent) (va : Nat) (bs : List Byte) : Prog (Eng Unit) :=
  Prog.bind (engTargets a va bs.length) fun r =>
    match r with
    | .ok l => Prog.bind (engStore (a.die.getD 0) l bs) fun _ => .pure (.ok ())
    | .fault c y => .pure (.fault c y)
    | .trap c => .pure (.trap c)
    | .poison => .pure .poison
    | .wait => .pure .wait

/-- Eight-byte words as bytes, and back. -/
def wordsBytes (ws : List Word64) : List Byte := ws.flatMap fun w => bytesOf 8 w.toNat

def bytesWords (bs : List Byte) (n : Nat) : List Word64 :=
  (upTo 0 n).map fun k => BitVec.ofNat 64 (ofBytes ((bs.drop (8 * k)).take 8))

end Sys2Proof.Machine
end

