-- ==== Sys2Proof/Machine/Sync.lean ====
section
/-! DEFINITION. Leases (R213 to R218, R394, R395, R453), fences (R208, R222, R396) and waiting on memory (R399, R400). -/

namespace Sys2Proof.Machine

/-! ### Leases -/

/-- Major opcode of lease (R394). -/
def leaseOp : Nat := 0x75

/-- Leases held and begins not yet granted (R213): queued at their homes, or parked on a fault. -/
def Group.leaseCount (g : Group) : Nat :=
  let queued := fun (e : Entry) => match e.wait with
    | .lease _ _ => true
    | _ => false
  let begins := fun (r : RrSlotState) => r.unit == 0 && bits (nthD r.words 0 0) 24 8 == leaseOp
  (g.leases.filter (·.held)).length + (g.entries.filter fun x => queued x.2).length +
    (g.suspended.filter fun x => queued x.2).length + (g.rr.filter fun x => begins x.2).length +
    (g.overflow.filter begins).length

/-- Whether a line lies above every line held, by the PAs that translation gave (R213). -/
def Group.above (g : Group) (pa : Nat) : Bool := g.leases.all fun x => !x.held || lineOf x.pa < lineOf pa

/-- A split that cannot go on before a fault is resolved parks at its instruction (R385, R394, R400). -/
def parkWait (i : Instr) (c : Ctx) (acc : Acc) (faults : List LaneFault) : Prog Unit :=
  letI := Prog.monad
  do
    let id ← newId
    let g ← look fun s => (Tbl.find? s.groups c.k).getD c.g
    let slot := (freeBelow 8 (Tbl.keys g.rr)).getD 8
    let a : Access := { rows := [], sval := 0, pval := 0, done := 0, parked := faultMask faults, faults }
    let run := (c.e.run.map (·.first)).getD c.f.pc
    let e1 : Entry := match finOf 8 slot with
      | some fs => { c.e with wait := .record fs, run := none }
      | none => c.e
    let e2 := if c.e.run.isSome then c.e.parkRun slot c.f else e1
    emit (.group c.k (g.setEntry c.n e2))
    writeRecord c.k { accessRecord i id c.n c.f.pc run acc a true with pend := 0 }
    modCore (keyCore c.k) fun x => { x with quarters := x.quarters.map fun q => q.cut c.k }

/-- The line is asked for at its home (R213): granted at once, or queued in arrival order. `pa` is the PA as translated. -/
def beginLease (k line pa : Nat) : Prog Unit :=
  letI := Prog.monad
  do
    let s ← look id
    if leaseBlocks s line (.group k) then joinQueue line (.lease k pa) else grantLease line k pa

/-- LEASE (R394): begins a lease on one line; the split waits until the grant. -/
def execLease (m : Option Mod) (im : Option Imm) (x : Bool) (a : SSrc) (s : State) : Out :=
  let i : Instr := .lease m im x a
  (issue i never fun c => guarded c <|
    letI := Prog.monad
    do
      let va := scalarAddr c.g a im
      let j := c.job (scalarLane c) true
      match ← site j .glob .write 1 1 ((lanesOf j.lanes).map fun l => (l, va)) with
      | .trap cause info => raise c cause info
      | .wait => pure ()
      | .lanes ok faults =>
        if c.g.leaseCount ≥ 4 then raise c cLeaseOrder
        else if !faults.isEmpty then parkWait i c .write faults
        else match ok with
          | (_, .glob x _) :: _ => do
            let line ← look fun s => leaseKey s x.pa
            if !c.g.above x.raw then raise c cLeaseOrder
            else do
              let dirty ← look fun s => lineDirty s (keyCore c.k) (x.pa / 128)
              if ← siteHolds x.pa true then pure ()
              else if ← (if dirty then holdsRequest x.pa true (.group c.k) else pure false) then pure ()
              else do
                flushLine (keyCore c.k) (x.pa / 128)
                noteRequest (dieOf (keyCore c.k)) x true
                let g ← look fun s => (Tbl.find? s.groups c.k).getD c.g
                await c g (.lease line c.f.next)
                beginLease c.k line x.raw
          | _ => pure ()).outcome s

/-- LEASE_END (R395): it commits at issue and waits for the homes' answers. -/
def execLeaseEnd (m : Option Mod) (p : Fin 128) (s : State) : Out :=
  (issueOnce (.leaseEnd m p) never fun c => guarded c <|
    letI := Prog.monad
    do
      let g0 := c.g.retired c false
      let g1 := g0.commit c.f.next
      let e : Entry := { c.e with wait := .leaseEnd p c.act c.f.next, run := none }
      let g2 : Group := { g1 with ending := true, entries := Tbl.put g1.entries c.n e }
      emit (.group c.k g2)
      due (.leaseEndComplete c.k)).outcome s

/-- The image of one line is applied at its home, in one piece (R216). -/
def applyImage (line : Nat) : Prog Unit := .get fun s =>
  match Tbl.find? s.dev.leases line with
  | some h => homeWriteMasked line h.image h.written true
  | none => skip

/-- The entry that waits for the end of the set. -/
def waitsEnd (e : Entry) : Bool :=
  match e.wait with
  | .leaseEnd .. => true
  | _ => false

/-- A split whose queued begin is withdrawn continues past it (R216). -/
def passBegins (k : Nat) (g : Group) : Prog Unit :=
  letI := Prog.monad
  do
    let lines := (Tbl.vals g.entries ++ Tbl.vals g.suspended).filterMap fun e => match e.wait with
      | .lease l _ => some l
      | _ => none
    each lines fun l => withdrawBegin l k
    let go := fun (e : Entry) => match e.wait with
      | .lease _ next => e.after next e.pc
      | _ => e
    modGroup k fun g => { g with entries := Tbl.mapVals g.entries (fun _ e => go e),
                                 suspended := Tbl.mapVals g.suspended (fun _ e => go e) }

/-- A hold that has expired is dropped, its line lost for its holder, and the predictor says so (R215). -/
def expireHold (line : Nat) : Prog Unit := .get fun s =>
  match Tbl.find? s.dev.leases line with
  | none => skip
  | some h =>
    match h.holder with
    | none => serveQueue line
    | some k =>
      if !leaseExpired (clockAt s (homeOf s.dev line).1 % 2 ^ 32) h.deadline then skip
      else
        let lose := fun (g : Group) =>
          let at_ := fun (j : Nat) => (g.leases[j]?).any fun x => x.line == line && x.held
          { g with leases := g.leases.map (fun (x : HeldLease) => if x.line == line then { x with held := false } else x),
                   lost := (upTo 0 4).foldl (fun a j => if at_ j then setBit a j else a) g.lost }
        Prog.bind (modGroup k lose) fun _ =>
        Prog.bind (setPredictor line ((predictor s.dev line).1, true)) fun _ => dropHold line

/-- LEASE_END_COMPLETE (R216): a home that the end reaches after its deadline answers lost. With all held, every image is
applied before any queue is served; else every image is discarded. The predicate is written and ENDOK with it. -/
def execLeaseEndComplete (k : Nat) (s : State) : Out :=
  (letI := Prog.monad
   do
    let asked ← look fun s => (Tbl.find? s.groups k).elim [] fun g => if g.ending then g.leases else []
    each asked fun (x : HeldLease) => if x.held then expireHold x.line else skip
    match ← look fun s => Tbl.find? s.groups k with
    | none => pure ()
    | some g =>
      if !g.ending then pure ()
      else do
        let queued := (Tbl.vals g.entries ++ Tbl.vals g.suspended).any fun e => match e.wait with
          | .lease _ _ => true
          | _ => false
        let ok := !g.leases.isEmpty && (g.leases.all fun (x : HeldLease) => x.held) && !queued
        passBegins k g
        let held := g.leases.filter fun (x : HeldLease) => x.held
        (if ok then each held fun (x : HeldLease) => applyImage x.line else pure ())
        modGroup k fun g => { g with leases := [], lost := 0, endok := ok, ending := false, statCopy := 0 }
        each held fun (x : HeldLease) => dropHold x.line
        modGroup k fun g =>
          match g.findWait waitsEnd with
          | some (sus, n, e) =>
            match e.wait with
            | .leaseEnd p lanes next =>
              (g.writeP p.val lanes (if ok then BitVec.allOnes 64 else 0)).setWait sus n (e.after next e.pc)
            | _ => g
          | none => g
        servePreempt k).outcome s

/-- LEASE_EXPIRE (R215): the home drops an expired hold; a line that no group holds serves its queue. -/
def execLeaseExpire (line : Nat) (s : State) : Out := (expireHold line).outcome s

/-! ### Fences -/

/-- Scopes of cluster or wider. -/
def Scope.wide (sc : Scope) : Bool :=
  match sc with
  | .grp | .team => false
  | _ => true

/-- FENCE (R208, kind fence): earlier path-C accesses of the group are performed; nothing is published. -/
def execFence (m : Option Mod) (sc : Scope) (s : State) : Out :=
  (issueOnce (.fence m sc) never fun c => guarded c
    (if c.g.pathCParked then skip else retire c c.g)).outcome s

/-- FENCE_PHASE (R208): release and acquire at the scope. -/
def execFencePhase (m : Option Mod) (sc : Scope) (s : State) : Out :=
  (issueOnce (.fencePhase m sc) never fun c => guarded c <|
    letI := Prog.monad
    do
      if ← releaseCore c.k c.g sc then pure ()
      else do
        acquireCore (keyCore c.k) sc
        let g ← look fun s => (Tbl.find? s.groups c.k).getD c.g
        retire c g).outcome s

/-- Path bits of an xfence mask (R222): C, Y, M, K, X. -/
def pathC (m : BitVec 5) : Bool := m.getLsbD 0
def pathM (m : BitVec 5) : Bool := m.getLsbD 2
def pathX (m : BitVec 5) : Bool := m.getLsbD 4

/-- Whether some access of the group on a writer path is still to be performed (R222). Results of Y and K count only once
popped, and are performed by then (R220). -/
def pathsBusy (s : State) (c : Ctx) (w : BitVec 5) : Bool :=
  (pathC w && c.g.pathCParked) ||
  (pathX w && ((c.g.pend.any fun x => x.2.render) || (c.g.rr.any fun x => 5 ≤ x.2.unit && x.2.unit ≤ 8))) ||
  (pathM w && ((coreAt s (keyCore c.k)).mxe.any fun x =>
    x.owner == c.g.team && x.members.contains c.g.ident && (x.state == 1 || x.state == 2)))

/-- Chunks staged before the point are fetched again, but for the one under way (R222). -/
def MxeCtx.unstage (x : MxeCtx) : MxeCtx :=
  { x with staged := x.staged.filter fun c => c.depth == x.depth && !(x.row == 0 && x.col == 0) }

/-- The reader side of an xfence for paths C, X and M. -/
def readerSide (core : Nat) (sc : Scope) (w r : BitVec 5) : Prog Unit :=
  letI := Prog.monad
  do
    (if pathC r && (Scope.wide sc || w != 1) then
      acquireLines core .clu (sc == .dev || sc == .sys)
     else pure ())
    if pathX r then do
      modCore core fun c => { c with xcache := [] }
      modDie (dieOf core) fun d => { d with rdc := Tbl.mapVals d.rdc fun _ l => { l with xstale := setBit l.xstale (core % 72) } }
    else pure ()
    modCore core fun c => if pathM r then { c with mxe := c.mxe.map MxeCtx.unstage } else c

/-- XFENCE (R222, R396). -/
def execXfence (m : Option Mod) (sc : Scope) (w r : BitVec 5) (s : State) : Out :=
  (issueOnce (.xfence m sc w r) never fun c => guarded c <|
    letI := Prog.monad
    do
      let busy ← look fun s => pathsBusy s c w
      if w == 0 || r == 0 then retire c c.g
      else if busy then pure ()
      else if ← (if pathC w && (Scope.wide sc || r != 1) then publish (keyCore c.k) (some c.k) else pure false)
        then pure ()
      else do
        readerSide (keyCore c.k) sc w r
        let g ← look fun s => (Tbl.find? s.groups c.k).getD c.g
        retire c g).outcome s

/-! ### Waiting on memory -/

/-- WWAIT (R399, R400). -/
def execWwait (m : Option Mod) (im : Option Imm) (d : SSrc) (a : SSrc) (tmo : BitVec 4) (w8 : Bool) (cmp : Cmp)
    (x : Option WaitExt) (s : State) : Out :=
  let i : Instr := .wwait m im d a tmo w8 cmp x
  (issue i never fun c => guarded c <|
    letI := Prog.monad
    do
      let n := watchSize w8
      let j := c.job (scalarLane c) true
      let comp := c.g.ssrc d none
      let mask := match x with
        | some e => c.g.ssrc e.c none
        | none => BitVec.allOnes 64
      let sc := match x with
        | some e => e.scope
        | none => .dev
      match ← site j .glob .read n n ((lanesOf j.lanes).map fun l => (l, scalarAddr c.g a im)) with
      | .trap cause info => raise c cause info
      | .wait => pure ()
      | .lanes ok faults =>
        if !faults.isEmpty then parkWait i c .read faults
        else match ok with
          | (_, .glob y _) :: _ => do
            match ← readHome c.k (keyCore c.k) n y with
            | .wait => pure ()
            | .poison => raise c cMemory (scalarAddr c.g a im)
            | .bytes bs => do
              let now ← look fun s => clockAt s (dieOf (keyCore c.k))
              let g ← look fun s => (Tbl.find? s.groups c.k).getD c.g
              let dl := if tmo == 0 then none else some (now + 2 ^ (tmo.toNat + 5))
              if watchHolds w8 mask cmp comp (ofBytes bs) then do
                await c g (.watch 0 y.pa w8 mask cmp comp (x.map (·.p)) c.act sc none false 0 c.f.next)
                finishWwait c.k (waitsOn 0) true
              else do
                let (id, polled) ← armWatch c.t.part y.pa w8 mask cmp comp 0 c.k c.n
                await c g (.watch id y.pa w8 mask cmp comp (x.map (·.p)) c.act sc dl polled (now + 1024) c.f.next)
          | _ => pure ()).outcome s

/-- The wait of an entry on a watch: identifier, word, and condition. -/
def watchOf (g : Group) (n : Nat) : Option (Nat × Entry) :=
  let look1 := fun (t : Tbl Entry) => (Tbl.find? t n).bind fun e => match e.wait with
    | .watch id .. => some (id, e)
    | _ => none
  (look1 g.entries).orElse fun _ => look1 g.suspended

/-- The next poll of a wait that has no entry on its slice (R400). -/
def rearmPoll (g : Group) (id at_ : Nat) : Group :=
  match g.findWait (waitsOn id) with
  | some (sus, n, e) =>
    match e.wait with
    | .watch i pa w8 mask c comp p lanes sc dl poll _ next =>
      g.setWait sus n { e with wait := .watch i pa w8 mask c comp p lanes sc dl poll at_ next }
    | _ => g
  | none => g

/-- WWAIT_POLL (R400): the word is read again at home, every 1,024 cycles. -/
def execWwaitPoll (k n : Nat) (s : State) : Out :=
  (letI := Prog.monad
   do
    match (← look fun s => Tbl.find? s.groups k).bind (watchOf · n) with
    | none => pure ()
    | some (id, e) =>
      match e.wait with
      | .watch _ pa w8 mask c comp _ _ _ _ poll at_ _ => do
        let now ← look fun s => clockAt s (dieOf (keyCore k))
        if !poll || now < at_ then pure ()
        else if ← holdsRequest pa false (.group k) then modGroup k fun g => rearmPoll g id (now + 1024)
        else do
          let word ← look fun s => homeNat s pa (watchSize w8)
          if watchHolds w8 mask c comp word then do
            freeWatch id
            finishWwait k (waitsOn id) true
          else modGroup k fun g => rearmPoll g id (now + 1024)
      | _ => pure ()).outcome s

/-- WWAIT_TIMEOUT (R400): at the deadline the watch entry is freed and the outcome is 0. -/
def execWwaitTimeout (k n : Nat) (s : State) : Out :=
  (letI := Prog.monad
   do
    match (← look fun s => Tbl.find? s.groups k).bind (watchOf · n) with
    | none => pure ()
    | some (id, e) =>
      match e.wait with
      | .watch _ _ _ _ _ _ _ _ _ (some dl) _ _ _ => do
        let now ← look fun s => clockAt s (dieOf (keyCore k))
        if now < dl then pure ()
        else do
          freeWatch id
          finishWwait k (waitsOn id) false
      | _ => pure ()).outcome s

end Sys2Proof.Machine
end

