-- ==== Sys2Proof/Machine/Copy.lean ====
section
/-! DEFINITION. The copy engines (R231 to R237) and what they share with the collective engines: intake, completions, records
of commands (R113, R115, R135), and peer devices (R27, R237). -/

namespace Sys2Proof.Machine

/-! ### Commands -/

/-- Bits of a 32-byte descriptor given as four words. -/
def cmdBits (ws : List Word64) (lo n : Nat) : Nat :=
  ((upTo 0 4).foldl (fun a k => a + (nthD ws k 0).toNat * 2 ^ (64 * k)) 0) / 2 ^ lo % 2 ^ n

def cmdDst (c : EngCmd) : Nat := cmdBits c.words 208 48
def cmdSrc (c : EngCmd) : Nat := cmdBits c.words 160 48
def cmdTag (c : EngCmd) : Nat := cmdBits c.words 48 16

/-- A command of the copy engine; otherwise of the collective engine. -/
def isCopy (c : EngCmd) : Bool := c.port == portCopy

/-- The context on whose behalf an engine translates. -/
def cmdAgent (die : Nat) (c : EngCmd) : Agent :=
  { part := c.part, ctxidx := c.ctxidx, asid := c.asid, core := none, die := some die, who := .cmd c.id }

def engineList (d : Die) (copy : Bool) : List EngCmd := if copy then d.copy else d.coll

def findCmd (s : State) (die : Nat) (copy : Bool) (id : Nat) : Option EngCmd :=
  (engineList (dieAt s die) copy).find? fun c => c.id == id

/-- Changes a command. -/
def modCmd (die : Nat) (copy : Bool) (id : Nat) (f : EngCmd → EngCmd) : Prog Unit :=
  let upd := fun (l : List EngCmd) => l.map fun c => if c.id == id then f c else c
  modDie die fun d => if copy then { d with copy := upd d.copy } else { d with coll := upd d.coll }

def dropCmd (die : Nat) (copy : Bool) (id : Nat) : Prog Unit :=
  let del := fun (l : List EngCmd) => l.filter fun c => c.id != id
  modDie die fun d => if copy then { d with copy := del d.copy } else { d with coll := del d.coll }

/-! ### Status (R235) -/

def stOk : Nat := 0
def stFault : Nat := 1
def stMalformed : Nat := 2
def stPeer : Nat := 3
def stPoison : Nat := 4
def stNopg : Nat := 5
def stPermission : Nat := 6
def stMismatch : Nat := 7
def stAbandoned : Nat := 8

/-- A completion (R235). -/
def completion (c : EngCmd) : Word64 :=
  BitVec.ofNat 64 (cmdTag c * 2 ^ 48 + c.status % 16 * 2 ^ 44 + c.cls % 8 * 2 ^ 40 + c.done % 2 ^ 40)

/-- A command has ended: its completion is to be posted. -/
def endCmd (die : Nat) (copy : Bool) (id status cls done : Nat) : Prog Unit :=
  letI := Prog.monad
  do
    modCmd die copy id fun c => { c with phase := 3, status, cls, done, fault := none }
    due (if copy then .copyComplete die id else .collectiveComplete die id)

/-- The status of a trap on an engine's path: a poisoned table is poison (R21), else PERMISSION (R463). -/
def trapStatus (c : Cause) : Nat := if c == cMemory then stPoison else stPermission

/-- Splits of the owner that wait to push go on (R227). -/
def wakePushers (c : EngCmd) : Prog Unit := .get fun s =>
  match findGroup s c.team c.ident with
  | some (k, g) =>
    match g.boundTo c.port with
    | some (q, _) => emit (.group k (g.mapEntries (wakePush q)))
    | none => skip
  | none => skip

/-- Posts a completion (R228, R230): to the owner's queue, or to the packet. -/
def postCompletion (c : EngCmd) : Prog Unit :=
  letI := Prog.monad
  do
    match c.packet with
    | some (q, i) => do
      let bad := c.status != stOk
      match ← look fun s => packetAt s.dev q i with
      | some p =>
        if p.phase == 1 then
          if bad then abortQueue q i abCopy
          else do
            modPacket q i fun p => { p with phase := 2, cmds := p.cmds.filter (· != c.id) }
            due (.packetRetire q i)
        else pure ()
      | none => pure ()
    | none => do
      let live ← look fun s => (Tbl.find? s.teams c.team).isSome
      let port := if isCopy c then portCopyDone else portCollDone
      if live && !c.remote then offerResult c.team c.ident port { word := completion c, row := zeroRow, counted := true }
      else pure ()

/-! ### Records (R113, R115) -/

/-- Words of the record of a parked command. -/
def cmdRecord (c : EngCmd) (stamp : Nat) (cls addr : Nat) (acc : BitVec 5) : RrSlotState :=
  { words := [rrWord0 0xFFFF (cmdBits c.words 0 3) acc cls rrParked (if isCopy c then 2 else 4), c.elemMask,
              BitVec.ofNat 64 (addr % 2 ^ 52), nthD c.words 0 0, nthD c.words 1 0, nthD c.words 2 0, nthD c.words 3 0,
              BitVec.ofNat 64 (c.done % 2 ^ 40)],
    pend := 0, entry := 0, pages := [(addr / 4096, cls)], region := false, stamp, cmd := c.id, why := 0 }

/-- Whether a record belongs to a command. -/
def ofCmd (id : Nat) (r : RrSlotState) : Bool := (r.unit == 2 || r.unit == 4) && r.cmd == id

/-- Where a command's record lies: in a group's slots, or in the engine's. -/
inductive RecordAt where
  | group (k slot : Nat)
  | engine (slot : Nat)

def findRecord (s : State) (die id : Nat) : Option RecordAt :=
  match s.groups.findSome? fun x => (x.2.slotOf (ofCmd id)).map fun n => (x.1, n) with
  | some (k, n) => some (.group k n)
  | none => ((dieAt s die).copyRr.find? fun x => ofCmd id x.2).map fun x => .engine x.1

/-- A command's record is freed, in a slot or still held by the unit. -/
def freeCmdRecord (die id : Nat) : Prog Unit := .get fun s =>
  match findRecord s die id with
  | some (.group k slot) => freeSlot k slot
  | some (.engine slot) => modDie die fun d => { d with copyRr := Tbl.del d.copyRr slot }
  | none => .get fun s =>
    match s.groups.find? fun x => x.2.overflow.any (ofCmd id) with
    | some (k, _) => modGroup k fun g => { g with overflow := g.overflow.filter fun r => !ofCmd id r }
    | none => skip

/-- Raises the pages of a record that no group holds: they go to the die's cluster stage (R113, R119). -/
def fileEngine (die : Nat) (c : EngCmd) (r : RrSlotState) : Prog Unit :=
  each r.pages fun p => stagePage die (faultKey c.part c.ctxidx p.2 (p.1 * 4096)) p.2 ((nthD r.words 0 0).extractLsb' 16 5) 1
    false

/-- A command that has met a fault parks (R237, R241): in the record it already has, in the pushing group's slots, or,
for a COPY packet and where the group is not on a core, in the engine's own slots. The unit keeps the fault while all of
those are in use (R113), and while the group's fault filter has no room for the page (R118). -/
def parkCmd (die : Nat) (copy : Bool) (id : Nat) : Prog Unit :=
  letI := Prog.monad
  do
    let s ← look fun x => x
    match findCmd s die copy id with
    | none => pure ()
    | some c =>
      match c.fault with
      | none => pure ()
      | some (cls, addr, acc) => do
        let stamp ← newId
        let r := cmdRecord c stamp cls addr (BitVec.ofNat 5 acc)
        let keys := r.pages.map fun p => faultKey c.part c.ctxidx p.2 (p.1 * 4096)
        let again := due (if copy then .copyFaultPark die id else .collectiveFaultPark die id)
        let parked := modCmd die copy id fun c => { c with phase := 2, fault := none }
        match findRecord s die id with
        | some (.group k slot) =>
          if !filterRoom s (keyCore k) keys then again
          else do
          parked
          modGroup k fun g => { g with rr := Tbl.put g.rr slot { r with
            stamp := ((Tbl.find? g.rr slot).map (·.stamp)).getD stamp } }
          each r.pages fun p => fileFault (keyCore k) (faultKey c.part c.ctxidx p.2 (p.1 * 4096)) p.2 (BitVec.ofNat 5 acc)
            (k, slot)
        | some (.engine slot) => do
          parked
          modDie die fun d => { d with copyRr := Tbl.put d.copyRr slot r }
          fileEngine die c r
        | none =>
          match (if c.packet.isSome then none else findGroup s c.team c.ident) with
          | some (k, _) => do
            parked
            writeRecord k r
          | none =>
            match freeBelow 64 (Tbl.keys (dieAt s die).copyRr) with
            | some slot => do
              parked
              modDie die fun d => { d with copyRr := Tbl.put d.copyRr slot r }
              fileEngine die c r
            | none => again

/-- A command meets a fault: nothing more of it is done until it has parked and been replayed. -/
def faultCmd (die : Nat) (copy : Bool) (id cls addr : Nat) (acc : Acc) : Prog Unit :=
  letI := Prog.monad
  do
    modCmd die copy id fun c => { c with fault := some (cls, addr, acc.bits.toNat) }
    due (if copy then .copyFaultPark die id else .collectiveFaultPark die id)

/-- What stops an access of a command: a fault parks it, a trap or poison ends it with DONE bytes. -/
def stopCmd (die : Nat) (copy : Bool) (id done : Nat) (acc : Acc) {α : Type} (r : Eng α) : Prog Unit :=
  match r with
  | .fault cls addr => faultCmd die copy id cls addr acc
  | .trap c => endCmd die copy id (trapStatus c) 0 done
  | .poison => endCmd die copy id stPoison 0 done
  | _ => skip

/-! ### Peer devices -/

/-- Some peer port runs (R27, R31). -/
def peerUp (d : Dev) : Bool := !d.boot.stopped && d.ports.any fun p => bits p.ctl 2 2 == 3 && p.state == 2

/-- Some peer port runs, or may still come back from a recovery (R33): commands that need it wait meanwhile. -/
def peerAlive (d : Dev) : Bool :=
  d.ports.any fun p => bits p.ctl 2 2 == 3 && (p.state == 2 || p.state == 3 || (p.state == 1 && p.ran))

/-- The rank of this device in a process group. -/
def PgTable.rank (t : PgTable) : Nat := nthD (t.entries.map (·.rank)) t.own 0

/-- The peer's answer to a write is from outside (DESIGN CHOICE, log 28): performed, or a class it cannot resolve (R237). -/
def peerAnswer : Prog (Option Nat) :=
  Prog.bind fresh fun i => .pure (nthD [some 1, some 2, some 4, some 5] (Config.freeChoice i) none)

/-- A message leaves on a peer port. -/
def peerSend (m : PeerMsg) : Prog Unit := modDev fun d => { d with peerOut := d.peerOut ++ [m] }

/-! ### Descriptors (R231, R236) -/

def copyOp (c : EngCmd) : Nat := cmdBits c.words 0 3
def copyPeer (c : EngCmd) : Bool := cmdBits c.words 4 1 == 1
def copyPrank (c : EngCmd) : Nat := cmdBits c.words 32 16
def rowBytes (c : EngCmd) : Nat := cmdBits c.words 64 24
def rowCount (c : EngCmd) : Nat := cmdBits c.words 88 24
def srcPitch (c : EngCmd) : Nat := cmdBits c.words 112 24
def dstPitch (c : EngCmd) : Nat := cmdBits c.words 136 24
def indexVa (c : EngCmd) : Nat := cmdBits c.words 64 48
def elemCount (c : EngCmd) : Nat := cmdBits c.words 112 24
def indexSize (c : EngCmd) : Nat := if cmdBits c.words 136 1 == 1 then 8 else 4
def elemSize (c : EngCmd) : Nat := 2 ^ cmdBits c.words 137 3

/-- Bytes of a linear, strided or fill command; elements of a gather or a scatter. -/
def copyTotal (c : EngCmd) : Nat :=
  match copyOp c with
  | 0 => cmdBits c.words 64 40
  | 1 => rowCount c * rowBytes c
  | 4 => cmdBits c.words 160 40
  | _ => elemCount c

/-- Two ranges (start, bytes) overlap. -/
def overlap (a n b m : Nat) : Bool := a < b + m && b < a + n

/-- MALFORMED of R236 and the limits of R231. -/
def copyBad (c : EngCmd) : Bool :=
  let ws := c.words
  cmdBits ws 5 27 != 0 || cmdBits ws 3 1 != 0 || (!copyPeer c && copyPrank c != 0) ||
  (match copyOp c with
   | 0 => cmdBits ws 104 56 != 0 || copyTotal c == 0 || overlap (cmdSrc c) (copyTotal c) (cmdDst c) (copyTotal c)
   | 1 => rowBytes c == 0 || rowCount c == 0 || 2 ^ 40 ≤ copyTotal c || (1 < rowCount c && dstPitch c < rowBytes c) ||
       overlap (cmdSrc c) ((rowCount c - 1) * srcPitch c + rowBytes c) (cmdDst c) ((rowCount c - 1) * dstPitch c + rowBytes c)
   | 2 => cmdBits ws 140 20 != 0 || copyPeer c || elemCount c == 0 || elemSize c == 128 ||
       cmdSrc c % elemSize c != 0 || cmdDst c % elemSize c != 0
   | 3 => cmdBits ws 140 20 != 0 || elemCount c == 0 || elemSize c == 128 ||
       cmdSrc c % elemSize c != 0 || cmdDst c % elemSize c != 0
   | 4 => cmdBits ws 128 32 != 0 || cmdBits ws 200 8 != 0 || copyTotal c == 0
   | _ => true)

/-- Why a peer destination cannot be reached (R235). -/
def peerBad (d : Dev) (c : EngCmd) : Option Nat :=
  if !copyPeer c then none
  else match c.pg with
    | none => some stNopg
    | some t => if !peerAlive d || t.entries.length ≤ copyPrank c then some stPeer else none

/-- A peer destination that is this device itself is an ordinary one. -/
def copyRemote (c : EngCmd) : Bool := copyPeer c && (c.pg.elim false fun t => t.rank != copyPrank c)

/-! ### Taking a command (R227, R234) -/

/-- Commands of a list in progress. -/
def inProgress (l : List EngCmd) : Nat := (l.filter fun c => c.phase == 1 || c.phase == 2).length

/-- Whether an earlier command of the same pusher has not been taken. -/
def behindOwn (l : List EngCmd) (c : EngCmd) : Bool :=
  l.any fun x => x.phase == 0 && x.id < c.id && x.team == c.team && x.ident == c.ident && x.packet.isNone && c.packet.isNone

/-- Commands still in the intake are looked at again. -/
def retakeCopies (die : Nat) : Prog Unit :=
  letI := Prog.monad
  do
    let l ← look fun s => (dieAt s die).copy.filter fun c => c.phase == 0
    each l fun c => due (.copyCommandStart die c.id)

/-- COPY_COMMAND_START (R234, R236). -/
def execCopyCommandStart (die id : Nat) (s : State) : Out :=
  (letI := Prog.monad
   do
    let s ← look fun x => x
    match findCmd s die true id with
    | none => pure ()
    | some c =>
      let l := (dieAt s die).copy
      if c.phase != 0 || 64 ≤ inProgress l || behindOwn l c then pure ()
      else do
        modCmd die true id fun c => { c with phase := 1 }
        (if c.packet.isNone then wakePushers c else pure ())
        retakeCopies die
        if copyBad c then endCmd die true id stMalformed 0 0
        else match peerBad s.dev c with
          | some st => endCmd die true id st 0 0
          | none => pure ()).outcome s

/-! ### Transfers (R232, R233) -/

/-- The piece at a transfer offset that lies in one destination line (and one row): source, destination, bytes. -/
def copyPiece (c : EngCmd) (o : Nat) : Option Nat × Nat × Nat :=
  let cut := fun (d n : Nat) => min n (128 - d % 128)
  match copyOp c with
  | 1 =>
    let d := cmdDst c + o / rowBytes c * dstPitch c + o % rowBytes c
    (some (cmdSrc c + o / rowBytes c * srcPitch c + o % rowBytes c), d, cut d (rowBytes c - o % rowBytes c))
  | 4 => (none, cmdDst c + o, cut (cmdDst c + o) (copyTotal c - o))
  | _ => (some (cmdSrc c + o), cmdDst c + o, cut (cmdDst c + o) (copyTotal c - o))

/-- Bytes of a fill at an address (R232). -/
def fillBytes (pattern : Nat) (d n : Nat) : List Byte :=
  (upTo d n).map fun a => BitVec.ofNat 8 (pattern / 2 ^ (8 * (a % 8)))

/-- Writes pieces to the peer (address, bytes): all of them, or none. -/
def remoteWrite (c : EngCmd) (l : List (Nat × List Byte)) : Prog (Eng Unit) :=
  letI := Prog.monad
  do
    if l.any fun x => 2 ^ 48 ≤ x.1 + x.2.length - 1 then pure (.trap cPermission)
    else match ← peerAnswer with
      | some cls => pure (.fault cls 0)
      | none => do
        each l fun x => peerSend (.write (copyPrank c) (BitVec.ofNat 64 x.1) x.2)
        pure (.ok ())

/-- What stops a write: of a peer, a fault there that cannot be resolved ends the command (R237). -/
def stopWrite (die : Nat) (c : EngCmd) (done : Nat) (r : Eng Unit) : Prog Unit :=
  match r with
  | .fault cls addr => if copyRemote c then endCmd die true c.id stFault cls done else faultCmd die true c.id cls addr .write
  | r => stopCmd die true c.id done .write r

/-- One destination line segment of a linear, strided or fill command: one event at its home, once all its source bytes have
been read (R233). -/
def copyStream (die : Nat) (c : EngCmd) : Prog Unit :=
  letI := Prog.monad
  do
    let (src, d, n) := copyPiece c c.done
    match ← (match src with
      | some v => engRead (cmdAgent die c) .read v n
      | none => .pure (.ok (fillBytes (cmdBits c.words 64 64) d n))) with
    | .ok bs =>
      match ← (if copyRemote c then remoteWrite c [(d, bs)] else engWrite (cmdAgent die c) d bs) with
      | .ok _ => modCmd die true c.id fun x => { x with done := x.done + bs.length }
      | r => stopWrite die c c.done r
    | r => stopCmd die true c.id c.done .read r

/-- The elements of the block at ELEMBASE that are still to be done. -/
def blockElements (c : EngCmd) : List Nat :=
  ((upTo 0 64).filter fun i => (c.elemMask == 0 || hasLane c.elemMask i) && c.done + i < elemCount c).map (c.done + ·)

/-- What one element reads: its data and where it goes. -/
def readElement (die : Nat) (c : EngCmd) (e : Nat) : Prog (Eng (Nat × List Byte)) :=
  letI := Prog.monad
  do
    let a := cmdAgent die c
    let n := elemSize c
    match ← engRead a .read (indexVa c + e * indexSize c) (indexSize c) with
    | .ok ix => do
      let k := ofBytes ix * n
      let (sv, dv) := if copyOp c == 2 then (cmdSrc c + k, cmdDst c + e * n) else (cmdSrc c + e * n, cmdDst c + k)
      let r ← engRead a .read sv n
      pure (r.map fun bs => (dv, bs))
    | .fault cls x => pure (.fault cls x)
    | .trap x => pure (.trap x)
    | .poison => pure .poison
    | .wait => pure .wait

/-- DONE of a command that ends inside a block: nothing at or after it has been written (R235). -/
def blockDone (c : EngCmd) : Nat := c.done + (lowLane c.elemMask).getD 0

/-- Writes the elements of a block in ascending order, once every destination is translated and none is held. -/
def writeBlock (die : Nat) (c : EngCmd) (l : List (Nat × List Byte)) : Prog (Eng Unit) :=
  letI := Prog.monad
  do
    if copyRemote c then remoteWrite c l
    else match ← engAll l fun x => engTargets (cmdAgent die c) x.1 x.2.length with
      | .ok ts => do
        each (ts.zip l) fun x => engStore die x.1 x.2.2
        pure (.ok ())
      | .fault cls x => pure (.fault cls x)
      | .trap x => pure (.trap x)
      | .poison => pure .poison
      | .wait => pure .wait

/-- One block of a gather or a scatter (R232): every index and source element is read, and every destination translated,
before anything is written. A block that meets a fault writes nothing and is parked whole: its replay then again reads every
index and source element before it writes, and on an error nothing at or after DONE has been written (R235; DEDUCED, log 29). -/
def copyBlock (die : Nat) (c : EngCmd) : Prog Unit :=
  letI := Prog.monad
  do
    let es := blockElements c
    let whole := modCmd die true c.id fun x => { x with elemMask := maskOfLanes (es.map (· - c.done)) }
    match ← engAll es (readElement die c) with
    | .ok got =>
      match ← writeBlock die c got with
      | .ok _ => modCmd die true c.id fun x => { x with done := min (elemCount c) (c.done + 64), elemMask := 0 }
      | r => do
        whole
        stopWrite die c (blockDone c) r
    | r => do
      whole
      stopCmd die true c.id (blockDone c) .read r

/-- The queue from which a command was launched (R106). -/
def cmdQueue (c : EngCmd) : Nat := c.packet.elim c.launch.1 (·.1)

/-- The next piece of a command in progress, paced with its partition's issue (R105). One to a peer waits while no peer port
runs (R33). -/
def copyStep (die id : Nat) : Prog Unit :=
  letI := Prog.monad
  do
    let s ← look fun x => x
    match findCmd s die true id with
    | none => pure ()
    | some c =>
      if c.phase != 1 || c.fault.isSome || withholds s c.part die (288 + die) then pure ()
      else if copyTotal c ≤ c.done then endCmd die true id stOk 0 (copyTotal c)
      else match peerBad s.dev c with
        | some st => endCmd die true id st 0 (if copyOp c == 3 then blockDone c else c.done)
        | none =>
          if copyRemote c && !peerUp s.dev then pure ()
          else do
            noteActivity (cmdQueue c) Config.copyActivity
            if copyOp c == 2 || copyOp c == 3 then copyBlock die c else copyStream die c

/-- COPY_FAULT_PARK (R237). -/
def execCopyFaultPark (die id : Nat) (s : State) : Out := (parkCmd die true id).outcome s

/-- Whether the completion of a command must wait: its group's queue is full, and one result is held for it (R228). -/
def completionHeld (s : State) (c : EngCmd) : Bool :=
  c.packet.isNone && !c.remote && resultHeld s c.team c.ident (if isCopy c then portCopyDone else portCollDone)

/-- COPY_COMPLETE (R234, R235): the command leaves, its record is freed, its completion posted. -/
def execCopyComplete (die id : Nat) (s : State) : Out :=
  (letI := Prog.monad
   do
    match ← look fun s => findCmd s die true id with
    | none => pure ()
    | some c =>
      if c.phase != 3 then pure ()
      else if ← look fun s => completionHeld s c then due (.copyComplete die id)
      else do
        freeCmdRecord die id
        dropCmd die true id
        postCompletion c
        retakeCopies die).outcome s

/-! ### Replay, and sequential prediction -/

/-- A record of a command goes on (R117): from BYTEOFF, or with the MASK elements. -/
def resumeCmd (die : Nat) (copy : Bool) (id : Nat) (r : RrSlotState) : Prog Unit :=
  modCmd die copy id fun c => { c with phase := 1, fault := none, done := bits (nthD r.words 7 0) 0 40, elemMask := r.mask }

/-- A command whose page is unresolved ends with FAULT and the class, or with PERMISSION (R135, R463). -/
def failCmd (die : Nat) (copy : Bool) (id : Nat) (r : RrSlotState) : Prog Unit :=
  letI := Prog.monad
  do
    match ← look fun s => findCmd s die copy id with
    | none => pure ()
    | some c =>
      let perm := r.why == cPermission || r.why == cS2Permission
      let done := if copy && (copyOp c == 2 || copyOp c == 3) then blockDone c else c.done
      endCmd die copy id (if perm then stPermission else stFault) (if perm then 0 else r.cls) done

/-- The pages, ascending, that the rest of a linear or strided transfer touches on one side above a page (R124). -/
def pagesAhead (c : EngCmd) (write : Bool) (page o : Nat) (found : List Nat) (want fuel : Nat) : List Nat :=
  match fuel with
  | 0 => found
  | fuel + 1 =>
    if copyTotal c ≤ o || want ≤ found.length then found
    else
      let (src, d, n) := copyPiece c o
      let a := if write then d else src.getD d
      let ps := [a / 4096, (a + n - 1) / 4096]
      let f1 := ps.foldl (fun l p => if page < p then insertNat l p else l) found
      pagesAhead c write page (o + n) f1 want fuel

/-- The next pages a parked copy will touch: of OP 0 and 1 only. The search looks 2^20 pieces ahead. -/
def sequelPages (c : EngCmd) (r : RrSlotState) (want : Nat) : List Nat :=
  if 1 < copyOp c then []
  else
    let w0 := nthD r.words 0 0
    (pagesAhead c (w0.getLsbD 17) (bits (nthD r.words 2 0) 12 36) c.done [] want (2 ^ 20)).take want

end Sys2Proof.Machine
end

