-- ==== Sys2Proof/Machine/Collective.lean ====
section
/-! DEFINITION. The collective engines (R238 to R241). -/

namespace Sys2Proof.Machine

/-! ### Descriptors (R238) -/

def collLen (c : EngCmd) : Nat := cmdBits c.words 128 32
def collKeyField (c : EngCmd) : Nat := cmdBits c.words 112 16
def collCount (c : EngCmd) : Nat := cmdBits c.words 96 16
def collIdx (c : EngCmd) : Nat := cmdBits c.words 80 16
def collRoot (c : EngCmd) : Nat := cmdBits c.words 64 16
def collFn (c : EngCmd) : Nat := cmdBits c.words 12 4
def collType (c : EngCmd) : Nat := cmdBits c.words 8 2
def collScope (c : EngCmd) : Nat := cmdBits c.words 4 2
def collOp (c : EngCmd) : Nat := cmdBits c.words 0 3

/-- Bytes of an element. -/
def collElem (c : EngCmd) : Nat := if collType c == 1 then 2 else 4

/-- A reserved field or value, or a broken limit. -/
def collBad (c : EngCmd) : Bool :=
  let ws := c.words
  cmdBits ws 16 32 != 0 || cmdBits ws 10 2 != 0 || cmdBits ws 6 2 != 0 || cmdBits ws 3 1 != 0 || 4 < collOp c ||
    8 < collFn c || 1 < collType c || (collType c == 1 && collFn c != 8) || collScope c == 3 ||
    collLen c % collElem c != 0 || collLen c < 4 || 2 ^ 32 - 4 < collLen c || collCount c ≤ collIdx c ||
    (if collOp c == 1 || collOp c == 2 then collCount c ≤ collRoot c else collRoot c != 0) ||
    (collScope c == 0 && c.clt < collCount c)

/-- What its members share. -/
def collKey (c : EngCmd) : CollKey :=
  { scope := collScope c, key := collKeyField c, launch := c.launch, cluster := if collScope c == 0 then c.cluster else 0 }

/-- Why a member of process-group scope cannot take part (R235). -/
def collPeerBad (d : Dev) (c : EngCmd) : Option Nat :=
  if collScope c != 2 || c.remote then none
  else match c.pg with
    | none => some stNopg
    | some _ => if peerAlive d then none else some stPeer

/-- A scope-10 rule is broken (R239). -/
def scopeRuleBroken (c : EngCmd) : Bool :=
  collScope c == 2 && !c.remote && (c.pg.elim true fun t => collCount c != t.entries.length || collIdx c != t.rank)

/-- Bytes of the command in the order in which they are written. -/
def collTotal (c : EngCmd) : Nat := if collOp c == 3 then collCount c * collLen c else collLen c

/-! ### Matching (R239) -/

/-- Every command of the collective engines, with its die. -/
def allColl (s : State) : List (Nat × EngCmd) := (upTo 0 4).flatMap fun d => (dieAt s d).coll.map fun c => (d, c)

/-- Members that have arrived and are not matched. -/
def unmatched (s : State) (k : CollKey) : List (Nat × EngCmd) :=
  (allColl s).filter fun x => x.2.phase == 1 && x.2.set == 0 && collKey x.2 == k

/-- Members of a matched set, in ascending MYIDX. -/
def setMembers (s : State) (id : Nat) : List (Nat × EngCmd) :=
  let l := (allColl s).filter fun x => x.2.set == id && id != 0
  ((upTo 0 (l.length)).filterMap fun k => l.find? fun x => collIdx x.2 == k)

/-- Unmatched KEY values that a die keeps. -/
def keptKeys (s : State) (die : Nat) : List CollKey :=
  (dieAt s die).coll.foldl (fun l c =>
    if c.phase == 1 && c.set == 0 && !l.contains (collKey c) then l ++ [collKey c] else l) []

/-- Ends some members with one status. -/
def endMembers (l : List (Nat × EngCmd)) (status done : Nat) : Prog Unit :=
  each l fun x => endCmd x.1 false x.2.id status 0 done

/-- The members that have arrived do not agree. -/
def disagree (l : List (Nat × EngCmd)) : Bool :=
  match l with
  | [] => false
  | (_, a) :: _ =>
    l.any (fun x => collOp x.2 != collOp a || collFn x.2 != collFn a || collType x.2 != collType a ||
      collLen x.2 != collLen a || collCount x.2 != collCount a || collRoot x.2 != collRoot a || scopeRuleBroken x.2) ||
    (upTo 0 l.length).any fun i => (upTo 0 i).any fun j =>
      (l[i]?.map fun x => collIdx x.2) == (l[j]?.map fun x => collIdx x.2)

/-- Whether some member can no longer arrive: the launch has no team left on this device, or its PGROUP has aborted. -/
def canArrive (s : State) (k : CollKey) : Bool :=
  match packetAt s.dev k.launch.1 k.launch.2 with
  | none => false
  | some p =>
    if k.scope == 2 then p.phase < 5 && !p.gone
    else 0 < p.running || (p.phase == 1 && (p.nextTeam < p.endTeam || !p.restarts.isEmpty))

/-- Looks at the members of a key that have arrived. -/
def matchKey (k : CollKey) : Prog Unit :=
  letI := Prog.monad
  do
    let s ← look fun x => x
    let l := unmatched s k
    match l with
    | [] => pure ()
    | (_, a) :: _ =>
      if s.dev.mismatched.contains k then endMembers l stMismatch 0
      else if disagree l then do
        modDev fun d => { d with mismatched := d.mismatched ++ [k] }
        endMembers l stMismatch 0
      else if l.length == collCount a then do
        let id ← newId
        each l fun x => modCmd x.1 false x.2.id fun c => { c with set := id }
      else if canArrive s k then pure ()
      else endMembers l stAbandoned 0

/-- Commands of a die still in the intake are looked at again. -/
def retakeColl (die : Nat) : Prog Unit :=
  letI := Prog.monad
  do
    let l ← look fun s => (dieAt s die).coll.filter fun c => c.phase == 0
    each l fun c => due (.collectiveMatch die c.id)

/-- COLLECTIVE_MATCH (R239): a command is taken from its intake and checked; COUNT members run, or mismatch, or one can no
longer arrive. -/
def execCollectiveMatch (die id : Nat) (s : State) : Out :=
  (letI := Prog.monad
   do
    let s ← look fun x => x
    match findCmd s die false id with
    | none => pure ()
    | some c =>
      let kept := keptKeys s die
      let held := c.phase == 0 && (behindOwn (dieAt s die).coll c ||
        (256 ≤ kept.length && !kept.contains (collKey c) && !collBad c))
      if 1 < c.phase || c.set != 0 || held then pure ()
      else do
        (if c.phase == 0 then do
          modCmd die false id fun c => { c with phase := 1 }
          (if c.remote then pure () else wakePushers c)
         else pure ())
        (if collBad c then endCmd die false id stMalformed 0 0
         else match collPeerBad s.dev c with
           | some st => endCmd die false id st 0 0
           | none => matchKey (collKey c))
        retakeColl die).outcome s

/-! ### The transfer (R240, R241) -/

/-- Elements of some bytes, as 32-bit numbers: BF16 is widened exactly. -/
def collElems (c : EngCmd) (bs : List Byte) : List Nat :=
  let w := collElem c
  (upTo 0 (bs.length / w)).map fun k =>
    let x := ofBytes ((bs.drop (w * k)).take w)
    if w == 2 then x * 65536 else x

/-- f of two elements. -/
def collOp2 (fn x y : Nat) : Nat :=
  let s := fun (v : Nat) => (BitVec.ofNat 32 v).toInt
  match fn with
  | 0 => (x + y) % 2 ^ 32
  | 1 => if s y < s x then y else x
  | 2 => if s x < s y then y else x
  | 3 => min x y
  | 4 => max x y
  | 5 => x &&& y
  | 6 => x ||| y
  | 7 => x ^^^ y
  | _ => add32 x y

/-- f over members in ascending index, as bytes. -/
def collReduce (c : EngCmd) (l : List (List Byte)) : List Byte :=
  let es := l.map (collElems c)
  let sum := match es with
    | [] => []
    | x :: rest => rest.foldl (fun a y => List.zipWith (collOp2 (collFn c)) a y) x
  sum.flatMap fun v =>
    if collElem c == 2 then bytesOf 2 (convert fp32 bf16 nearestEven v).code else bytesOf 4 v

/-- One member's SRC bytes from an offset. -/
def readMember (die : Nat) (c : EngCmd) (o n : Nat) : Prog (Eng (List Byte)) :=
  if c.remote then .pure (.ok ((c.data.drop o).take n)) else engRead (cmdAgent die c) .read (cmdSrc c + o) n

/-- What every member of a list answers, or the first that does not complete. -/
inductive Gathered (α : Type) where
  | all (l : List α)
  | stopped (die : Nat) (c : EngCmd) (acc : Acc) (r : Eng Unit)

def gather {α : Type} (acc : Acc) (l : List (Nat × EngCmd)) (f : Nat → EngCmd → Prog (Eng α)) : Prog (Gathered α) :=
  match l with
  | [] => .pure (.all [])
  | (d, c) :: rest => Prog.bind (f d c) fun r =>
    match r with
    | .ok x => Prog.bind (gather acc rest f) fun t =>
      match t with
      | .all ys => .pure (.all (x :: ys))
      | .stopped a b e q => .pure (.stopped a b e q)
    | r => .pure (.stopped d c acc (r.map fun _ => ()))

/-- Bytes of one step: within one member's slice, at most 64. -/
def collChunk (c : EngCmd) (o : Nat) : Nat := min 64 (collLen c - o % collLen c)

/-- The members whose SRC a step reads, and at which offset. -/
def stepReads (l : List (Nat × EngCmd)) (a : EngCmd) (o : Nat) : List (List (Nat × EngCmd) × Nat) :=
  match collOp a with
  | 2 => [(l.filter fun x => collIdx x.2 == collRoot a, o)]
  | 3 => [(l.filter fun x => collIdx x.2 == o / collLen a, o % collLen a)]
  | 4 => l.map fun x => (l, collIdx x.2 * collLen a + o)
  | _ => [(l, o)]

/-- Members on this device that a step writes. -/
def stepWrites (l : List (Nat × EngCmd)) (a : EngCmd) : List (Nat × EngCmd) :=
  l.filter fun x => !x.2.remote && (collOp a != 1 || collIdx x.2 == collRoot a)

/-- A member's part cannot go on: a fault parks it, anything else ends it and the other members with it (DEDUCED, log 30). -/
def stopMember (l : List (Nat × EngCmd)) (die : Nat) (c : EngCmd) (o : Nat) (acc : Acc) (r : Eng Unit) : Prog Unit :=
  letI := Prog.monad
  let out := fun (status : Nat) => do
    endMembers (l.filter fun x => x.2.id != c.id) stAbandoned o
    endCmd die false c.id status 0 o
  match r with
  | .fault cls addr => faultCmd die false c.id cls addr acc
  | .trap x => out (trapStatus x)
  | .poison => out stPoison
  | _ => pure ()

/-- What each step of a set writes: for each read list its bytes. -/
def readSteps (rs : List (List (Nat × EngCmd) × Nat)) (n : Nat) : Prog (Gathered (List (List Byte))) :=
  match rs with
  | [] => .pure (.all [])
  | (l, o) :: rest => Prog.bind (gather .read l fun d c => readMember d c o n) fun r =>
    match r with
    | .all x => Prog.bind (readSteps rest n) fun t =>
      match t with
      | .all ys => .pure (.all (x :: ys))
      | .stopped a b e q => .pure (.stopped a b e q)
    | .stopped a b e q => .pure (.stopped a b e q)

/-- The bytes member m receives. -/
def memberBytes (a : EngCmd) (m : Nat) (got : List (List (List Byte))) : List Byte :=
  match collOp a with
  | 2 => (nthD got 0 []).flatten
  | 3 => (nthD got 0 []).flatten
  | 4 => collReduce a (nthD got m [])
  | _ => collReduce a (nthD got 0 [])

/-- Sends this device's part of a step to the other devices (R27). -/
def sendPart (c : EngCmd) (o : Nat) (bs : List Byte) : Prog Unit :=
  if collScope c == 2 && !c.remote then peerSend (.member c.words o bs) else skip

/-- One step of a matched set: reads of every member, the results, and the writes (R240). -/
def runSet (l : List (Nat × EngCmd)) (a : EngCmd) (o : Nat) : Prog Unit :=
  letI := Prog.monad
  do
    let n := collChunk a o
    match ← readSteps (stepReads l a o) n with
    | .stopped d c acc r => stopMember l d c o acc r
    | .all got => do
      let ws := stepWrites l a
      match ← gather .write ws fun d c => engTargets (cmdAgent d c) (cmdDst c + o) n with
      | .stopped d c acc r => stopMember l d c o acc r
      | .all ts => do
        each (ws.zip ts) fun x => engStore x.1.1 x.2 (memberBytes a (collIdx x.1.2) got)
        each ((stepReads l a o).zip got) fun x => each (x.1.1.zip x.2) fun y => sendPart y.1.2 x.1.2 y.2
        each l fun x => modCmd x.1 false x.2.id fun c => { c with done := o + n }

/-- The next step of the set a command belongs to: none while a member's part is parked. -/
def collStep (die id : Nat) : Prog Unit :=
  letI := Prog.monad
  do
    let s ← look fun x => x
    match findCmd s die false id with
    | none => pure ()
    | some c =>
      let l := setMembers s c.set
      if c.set == 0 || c.phase != 1 || l.any (fun x => x.2.phase != 1 || x.2.fault.isSome) then pure ()
      else if l.any fun x => collTotal c ≤ x.2.done then endMembers l stOk (collTotal c)
      else match l.findSome? fun x => collPeerBad s.dev x.2 with
        | some st => endMembers l st c.done
        | none => if l.any (fun x => collScope x.2 == 2) && !peerUp s.dev then pure () else runSet l c c.done

/-- COLLECTIVE_COMPLETE (R241). -/
def execCollectiveComplete (die id : Nat) (s : State) : Out :=
  (letI := Prog.monad
   do
    match ← look fun s => findCmd s die false id with
    | none => pure ()
    | some c =>
      if c.phase != 3 then pure ()
      else if ← look fun s => completionHeld s c then due (.collectiveComplete die id)
      else do
        freeCmdRecord die id
        dropCmd die false id
        postCompletion c
        retakeColl die).outcome s

/-- COLLECTIVE_FAULT_PARK (R241). -/
def execCollectiveFaultPark (die id : Nat) (s : State) : Out := (parkCmd die false id).outcome s

/-- A member whose page is unresolved ends, and the other members of its set with it (R135, DEDUCED, log 30). -/
def failMember (die id : Nat) (r : RrSlotState) : Prog Unit :=
  letI := Prog.monad
  do
    let s ← look fun x => x
    match findCmd s die false id with
    | none => pure ()
    | some c => do
      endMembers ((setMembers s c.set).filter fun x => x.2.id != id) stAbandoned c.done
      failCmd die false id r

end Sys2Proof.Machine
end

