-- ==== Sys2Proof/Machine/Mxe.lean ====
section
/-! DEFINITION. The matrix engine (R242 to R251, R284, R285, R292, R293) and its instructions (R411 to R417). -/

namespace Sys2Proof.Machine

/-! ### The descriptor (R242 to R244) -/

def dField (d : List Word64) (lo n : Nat) : Nat := packetBits d lo n
def dAscale (d : List Word64) : Nat := dField d 464 48
def dBscale (d : List Word64) : Nat := dField d 416 48
def dCaddr (d : List Word64) : Nat := dField d 368 48
def dCstride (d : List Word64) : Nat := dField d 344 24
def dAsstride (d : List Word64) : Nat := dField d 320 24
def dAaddr (d : List Word64) : Nat := dField d 272 48
def dAstride (d : List Word64) : Nat := dField d 248 24
def dBaddr (d : List Word64) : Nat := dField d 200 48
def dBstride (d : List Word64) : Nat := dField d 176 24
def dBsstride (d : List Word64) : Nat := dField d 152 24
def dKchm1 (d : List Word64) : Nat := dField d 135 17
def dMbm1 (d : List Word64) : Nat := dField d 132 3
def dNbm1 (d : List Word64) : Nat := dField d 129 3
def dAfmt (d : List Word64) : Nat := dField d 125 4
def dBfmt (d : List Word64) : Nat := dField d 121 4
def dCplx (d : List Word64) : Bool := dField d 120 1 == 1
def dBt (d : List Word64) : Bool := dField d 119 1 == 1
def dTern (d : List Word64) : Bool := dField d 118 1 == 1
def dAtile (d : List Word64) : Bool := dField d 117 1 == 1
def dBtile (d : List Word64) : Bool := dField d 116 1 == 1
def dInitc (d : List Word64) : Bool := dField d 115 1 == 1
def dOfmt (d : List Word64) : Nat := dField d 113 2
def dCtx (d : List Word64) : Nat := dField d 112 1
def dHold (d : List Word64) : Bool := dField d 111 1 == 1

/-- Bits of an element of a format code. -/
def fmtBits (f : Nat) : Nat :=
  match f with
  | 4 | 5 => 4
  | 6 | 7 => 16
  | 9 => 2
  | _ => 8

/-- Whether a format code is an MX format. -/
def fmtMx (f : Nat) : Bool := f == 2 || f == 3 || f == 5

/-- Elements of A in one chunk (R243). -/
def chunkElems (d : List Word64) : Nat := 1024 / fmtBits (dAfmt d)

/-- N, in the elements the descriptor counts. -/
def dN (d : List Word64) : Nat := 8 * (dNbm1 d + 1)

/-- Accumulator columns. -/
def accCols (d : List Word64) : Nat := if dCplx d then 2 * dN d else dN d

/-- Rows. -/
def dM (d : List Word64) : Nat := 8 * (dMbm1 d + 1)

/-- Pieces of B that chunk k reads: offset from BADDR, bytes (R243). -/
def bPieces (d : List Word64) (k : Nat) : List (Nat × Nat) :=
  let bits := fmtBits (dBfmt d)
  let e := chunkElems d
  if dBt d then
    let n := e * bits / 8
    (upTo 0 (dN d)).map fun r => (r * dBstride d + k * n, n)
  else
    let rows := if dCplx d then e / 2 else e
    (upTo 0 rows).map fun r => ((k * rows + r) * dBstride d, accCols d * bits / 8)

/-- The allowed pairs (R243). -/
def pairOk (d : List Word64) : Bool :=
  let a := dAfmt d
  let b := dBfmt d
  if a == 8 then b == 9 && dTern d && dOfmt d == 2
  else a < 8 && !dTern d && dOfmt d < 2 &&
    ((a < 2 && b < 2) || ((a == 2 || a == 3) && (b == 2 || b == 3)) || (4 ≤ a && b == a))

/-- Tile ranges lie within TILEKB (R244). -/
def tilesOk (d : List Word64) (size : Nat) : Bool :=
  (!dAtile d || dAaddr d + (dM d - 1) * dAstride d + 128 * (dKchm1 d + 1) ≤ size) &&
  (!dBtile d || (bPieces d (dKchm1 d)).all fun p => dBaddr d + p.1 + p.2 ≤ size)

/-- The checks of R244 but that of the context; `readC` when C is to be read. -/
def descOk (d : List Word64) (size : Nat) (readC : Bool) : Bool :=
  let ua := if dAtile d then 16 else 128
  let ub := if dBtile d then 16 else 128
  dField d 0 111 == 0 && dAfmt d < 10 && dBfmt d < 10 && dOfmt d < 3 && pairOk d &&
    (!dCplx d || (dAfmt d == 6 && dNbm1 d ≤ 3)) &&
    dAaddr d % ua == 0 && dAstride d % ua == 0 && dBaddr d % ub == 0 && dBstride d % ub == 0 && tilesOk d size &&
    (!readC || (dCaddr d % 4 == 0 && dCstride d % 4 == 0))

/-- A context HELD by the team with the same M and N (R244). -/
def heldOk (x : MxeCtx) (team : Nat) (d : List Word64) : Bool :=
  x.state == 4 && x.owner == team && dMbm1 x.desc == dMbm1 d && dNbm1 x.desc == dNbm1 d

/-! ### Elements -/

/-- Code j of packed elements of some bits (R281, R284). -/
def elemCode (bs : List Byte) (bits j : Nat) : Nat :=
  if bits == 16 then (nthD bs (2 * j) 0).toNat + 256 * (nthD bs (2 * j + 1) 0).toNat
  else (nthD bs (j * bits / 8) 0).toNat / 2 ^ (j * bits % 8) % 2 ^ bits

/-- The value of a floating-point element. -/
def elemVal (f code : Nat) : FVal :=
  match f with
  | 0 | 2 => unpack e4m3 code
  | 1 | 3 => unpack e5m2 code
  | 4 | 5 => unpack e2m1 code
  | 6 => unpack bf16 code
  | _ => unpack fp16 code

/-- An element under its scale (R285). -/
def scaledVal (x : FVal) (sc : Nat) : FVal :=
  if sc == 0xFF then .nan false
  else match x with
    | .fin s m e => .fin s m (e + sc - 127)
    | y => y

/-- T2 (R284): the reserved code counts as 0. -/
def t2Val (code : Nat) : Int := if code == 1 then 1 else if code == 3 then -1 else 0

def int8Val (code : Nat) : Int := if code < 128 then code else (code : Int) - 256

/-- Element k of row r of A. -/
def aElem (d : List Word64) (x : Chunk) (r k : Nat) : FVal :=
  let v := elemVal (dAfmt d) (elemCode (nthD x.a r []) (fmtBits (dAfmt d)) k)
  if fmtMx (dAfmt d) then scaledVal v (nthD (nthD x.sa r []) (k / 32) 0).toNat else v

/-- Code at row k of the chunk, column j of B as stored. -/
def bCode (d : List Word64) (x : Chunk) (k j : Nat) : Nat :=
  let bits := fmtBits (dBfmt d)
  if dBt d then elemCode (nthD x.b j []) bits k else elemCode (nthD x.b k []) bits j

/-- Element k of column j of B. -/
def bElem (d : List Word64) (x : Chunk) (k j : Nat) : FVal :=
  let v := elemVal (dBfmt d) (bCode d x k j)
  if fmtMx (dBfmt d) then scaledVal v (nthD (nthD x.sb j []) (k / 32) 0).toNat else v

/-- Part (0 real, 1 imaginary) of complex element c of column j of B. -/
def bPart (d : List Word64) (x : Chunk) (c j part : Nat) : FVal :=
  let code := if dBt d then elemCode (nthD x.b j []) 16 (2 * c + part) else elemCode (nthD x.b c []) 16 (2 * j + part)
  unpack bf16 code

/-- The products whose exact sum is added to accumulator element (i, j) (R246, R293). -/
def products (d : List Word64) (x : Chunk) (i j : Nat) : List (FVal × FVal) :=
  let e := chunkElems d
  if dCplx d then
    (upTo 0 (e / 2)).flatMap fun c =>
      let ar := aElem d x i (2 * c)
      let ai := aElem d x i (2 * c + 1)
      let br := bPart d x c (j / 2) 0
      let bi := bPart d x c (j / 2) 1
      if j % 2 == 0 then [(ar, br), (ai, bi.flip)] else [(ar, bi), (ai, br)]
  else (upTo 0 e).map fun k => (aElem d x i k, bElem d x k j)

/-- The ternary sum of a chunk. -/
def ternSum (d : List Word64) (x : Chunk) (i j : Nat) : Int :=
  (upTo 0 (chunkElems d)).foldl (fun a k =>
    a + int8Val (elemCode (nthD x.a i []) 8 k) * t2Val (bCode d x k j)) 0

/-- One accumulator element after a chunk, and whether it saturated (R246, R292). -/
def accStep (d : List Word64) (x : Chunk) (old : BitVec 32) (i j : Nat) : BitVec 32 × Bool :=
  if dTern d then
    let v := old.toInt + ternSum d x i j
    let c := if v < -(2 ^ 31) then -(2 ^ 31) else if 2 ^ 31 ≤ v then 2 ^ 31 - 1 else v
    (BitVec.ofInt 32 c, c != v)
  else
    let s := (sumOfProducts fp32 nearestEven (products d x i j) []).code
    (BitVec.ofNat 32 (add32 old.toNat s), false)

/-- Whether a chunk holds a reserved T2 code (R284). -/
def hasReservedT2 (d : List Word64) (x : Chunk) : Bool :=
  dBfmt d == 9 && x.b.any fun p => (upTo 0 (4 * p.length)).any fun j => elemCode p 2 j == 2

/-- The accumulator elements of a block (R246). -/
def blockElems (d : List Word64) (row col : Nat) : List (Nat × Nat) :=
  let w := if dCplx d then 16 else 8
  (upTo (8 * row) 8).flatMap fun i => (upTo (w * col) w).map fun j => (i, j)

def MxeCtx.accAt (x : MxeCtx) (i j : Nat) : BitVec 32 := Tbl.getD x.acc (64 * i + j) 0

def MxeCtx.setAcc (x : MxeCtx) (i j : Nat) (v : BitVec 32) : MxeCtx := { x with acc := Tbl.setD x.acc (64 * i + j) 0 v }

/-- One block of a chunk. -/
def MxeCtx.block (x : MxeCtx) (ch : Chunk) : MxeCtx :=
  let f0 := if hasReservedT2 x.desc ch then x.flags ||| fTINV else x.flags
  (blockElems x.desc x.row x.col).foldl (fun y p =>
    let r := accStep x.desc ch (y.accAt p.1 p.2) p.1 p.2
    let y1 := y.setAcc p.1 p.2 r.1
    if r.2 then { y1 with flags := y1.flags ||| fISAT } else y1) { x with flags := f0 }

/-- The counters after a block: columns, then rows, then the next chunk. -/
def MxeCtx.advance (x : MxeCtx) : MxeCtx :=
  if x.col < dNbm1 x.desc then { x with col := x.col + 1 }
  else if x.row < dMbm1 x.desc then { x with col := 0, row := x.row + 1 }
  else { x with col := 0, row := 0, depth := x.depth + 1, staged := x.staged.filter (·.depth != x.depth) }

/-! ### Fetching -/

/-- The agent of the tile fetch of a context. -/
def mxeAgent (t : Team) (core n : Nat) : Agent := { teamAgent t with who := .mxe core n }

/-- Keys of the members of a context that stand on the core. -/
def memberKeys (s : State) (x : MxeCtx) : List Nat := x.members.filterMap fun m => (findGroup s x.owner m).map (·.1)

/-- Reads one range of an operand, from homes on path M or from tile memory (R247); a line that a member holds, from its image
(R219). -/
def mxeRead (t : Team) (n : Nat) (tile : Bool) (va len : Nat) : Prog (Eng (List Byte)) :=
  letI := Prog.monad
  if tile then .pure (if t.zeroing then .wait else .ok (tileBytes t va len))
  else do
    let ks ← look fun s => memberKeys s (mxeAt s t.core n)
    ownRead (mxeAgent t t.core n) ks .read va len

/-- How the fetch of an operand of a chunk ends. -/
inductive Fetch where
  | got (x : List (List Byte))
  | bad (f : ChunkFault)
  | wait

/-- The ranges of one operand. -/
def fetchOperand (t : Team) (n depth operand : Nat) (tile : Bool) (rs : List (Nat × Nat)) : Prog Fetch :=
  letI := Prog.monad
  do
    match ← engAll rs fun r => mxeRead t n tile r.1 r.2 with
    | .ok x => pure (.got x)
    | .fault cls addr => pure (.bad { depth, operand, cls, addr, trap := 0 })
    | .trap c => pure (.bad { depth, operand, cls := 0, addr := 0, trap := c })
    | .poison => pure (.bad { depth, operand, cls := 0, addr := 0, trap := cMemory })
    | .wait => pure .wait

/-- Ranges of A, of B, and of their scales, for a chunk (R243, R285). -/
def aRanges (d : List Word64) (k : Nat) : List (Nat × Nat) :=
  (upTo 0 (dM d)).map fun r => (dAaddr d + r * dAstride d + 128 * k, 128)

def bRanges (d : List Word64) (k : Nat) : List (Nat × Nat) := (bPieces d k).map fun p => (dBaddr d + p.1, p.2)

def asRanges (d : List Word64) (k : Nat) : List (Nat × Nat) :=
  let n := chunkElems d / 32
  if fmtMx (dAfmt d) then (upTo 0 (dM d)).map fun r => (dAscale d + r * dAsstride d + n * k, n) else []

def bsRanges (d : List Word64) (k : Nat) : List (Nat × Nat) :=
  let n := chunkElems d / 32
  if fmtMx (dBfmt d) then (upTo 0 (dN d)).map fun j => (dBscale d + j * dBsstride d + n * k, n) else []

/-- Fetches a chunk: staged, or its fault recorded (R247, R250). -/
def fetchChunk (core n k : Nat) : Prog Unit :=
  letI := Prog.monad
  do
    let x ← look fun s => mxeAt s core n
    match ← look fun s => Tbl.find? s.teams x.owner with
    | none => pure ()
    | some t => do
      let d := x.desc
      let fail := fun (r : Fetch) => match r with
        | .bad f => modMxe core n fun y => { y with fault := some f }
        | _ => skip
      match ← fetchOperand t n k 0 (dAtile d) (aRanges d k) with
      | .got a => do
        match ← fetchOperand t n k 1 (dBtile d) (bRanges d k) with
        | .got b => do
          match ← fetchOperand t n k 2 false (asRanges d k) with
          | .got sa => do
            match ← fetchOperand t n k 3 false (bsRanges d k) with
            | .got sb => modMxe core n fun y => { y with staged := y.staged ++ [{ depth := k, a, b, sa, sb }] }
            | r => fail r
          | r => fail r
        | r => fail r
      | r => fail r

/-- The chunk that the tile fetch unit reads next: the loop's own, then the one after it (R247). -/
def MxeCtx.nextFetch (x : MxeCtx) : Option Nat :=
  if x.state != 1 || x.fault.isSome then none
  else if dKchm1 x.desc < x.depth then none
  else if !(x.staged.any fun c => c.depth == x.depth) then some x.depth
  else if x.depth < dKchm1 x.desc && !(x.staged.any fun c => c.depth == x.depth + 1) then some (x.depth + 1)
  else none

/-- MXE_FETCH_FAULT (R250): a fetch is made; a fault is recorded with it, and nothing parks yet. -/
def execMxeFetchFault (core n : Nat) (s : State) : Out :=
  (letI := Prog.monad
   do
    match (← look fun s => mxeAt s core n).nextFetch with
    | some k => fetchChunk core n k
    | none => pure ()).outcome s

/-! ### Parking and failing -/

/-- P0 of a record of UNIT 0x3 (R115). -/
def mxeP0 (n : Nat) (x : MxeCtx) : Word64 :=
  BitVec.ofNat 64 (n + x.row * 2 ^ 8 + x.col * 2 ^ 16 + x.depth * 2 ^ 32)

/-- The record of a parked context, in member 0's slots (R115, R250). Its MASK is 0 (DESIGN CHOICE, log 37). -/
def parkContext (core n : Nat) (f : ChunkFault) : Prog Unit :=
  letI := Prog.monad
  do
    modMxe core n fun x => { x with state := 2, fop := BitVec.ofNat 3 f.operand, fault := none, staged := [] }
    let x ← look fun s => mxeAt s core n
    match ← look fun s => findGroup s x.owner (nthD x.members 0 0) with
    | none => pure ()
    | some (k, _) => do
      let stamp ← newId
      writeRecord k
        { words := [rrWord0 0xFFFF 0 Acc.read.bits f.cls rrParked 3, 0, BitVec.ofNat 64 (f.addr % 2 ^ 52), mxeP0 n x, x.descVa,
                    BitVec.ofNat 64 f.operand, 0, 0],
          pend := 0, entry := 0, pages := [(f.addr / 4096, f.cls)], region := false, stamp, cmd := n, why := 0 }

/-- A pop that waits on a port issues again (R407). -/
def wakePops (team ident : Nat) (port : BitVec 4) : Prog Unit := .get fun s =>
  match findGroup s team ident with
  | some (k, g) =>
    match g.boundTo port with
    | some (q, _) =>
      let wake := fun (e : Entry) => match e.wait with
        | .pop n => if n.val == q then { e with wait := .run } else e
        | _ => e
      emit (.group k (g.mapEntries wake))
    | none => skip
  | none => skip

/-- The MXRES port of a context. -/
def ctxPort (n : Nat) : BitVec 4 := if n == 1 then portMx1 else portMx0

/-- A context fails with a cause (R135, R250, R463). -/
def failContext (core n : Nat) (cause : Cause) : Prog Unit :=
  letI := Prog.monad
  do
    let x ← look fun s => mxeAt s core n
    if x.state == mxFailed then pure ()
    else do
      modMxe core n fun x => { x with state := mxFailed, cause, fault := none, staged := [] }
      each x.members fun m => do
        match ← look fun s => findGroup s x.owner m with
        | some (k, _) => modGroup k fun g => { g with failTaken := clearBit g.failTaken n }
        | none => pure ()
        wakePops x.owner m (ctxPort n)

/-- The loop has reached block (0, 0) of a chunk whose fetch has failed: it parks, or fails where the fetch trapped (R250). -/
def parkOrFail (core n : Nat) : Prog Unit :=
  letI := Prog.monad
  do
    let x ← look fun s => mxeAt s core n
    match x.fault with
    | some f =>
      if x.state == 1 && x.row == 0 && x.col == 0 && f.depth == x.depth then
        (if f.trap != 0 then failContext core n f.trap else parkContext core n f)
      else pure ()
    | none => pure ()

/-- MXE_PARK (R250). -/
def execMxePark (core n : Nat) (s : State) : Out := (parkOrFail core n).outcome s

/-! ### The end of the computation, and delivery (R248) -/

/-- The last chunk has been accumulated: flags go to every member; then HELD or DRAIN. -/
def computeDone (core n : Nat) : Prog Unit :=
  letI := Prog.monad
  do
    let x ← look fun s => mxeAt s core n
    if x.state == 1 && dKchm1 x.desc < x.depth then do
      each x.members fun m => do
        match ← look fun s => findGroup s x.owner m with
        | some (k, _) => modGroup k fun g => g.raise x.flags
        | none => pure ()
      modMxe core n fun y => if dHold y.desc then { y with state := 4, flags := 0, staged := [] }
        else { y with state := 3, pops := 0, taken := 0, delivering := true, flags := 0, staged := [] }
    else pure ()

/-- MXE_COMPUTE_DONE (R248). -/
def execMxeComputeDone (core n : Nat) (s : State) : Out := (computeDone core n).outcome s

/-- A result word: BF16 where OFMT says so (R246). -/
def outWord (d : List Word64) (v : BitVec 32) : Word32 :=
  if dOfmt d == 1 then BitVec.ofNat 32 (convert fp32 bf16 nearestEven v.toNat).code else v

/-- The row of pop number p (R248). -/
def popRow (x : MxeCtx) (width p : Nat) : Row :=
  let cols := accCols x.desc
  if width == 64 then rowOf fun l => if l < cols then outWord x.desc (x.accAt p l) else 0
  else
    let h := (cols + 31) / 32
    rowOf fun l => if l < 32 && 32 * (p % h) + l < cols then outWord x.desc (x.accAt (p / h) (32 * (p % h) + l)) else 0

/-- The width of the members of a context: that of one which has not ended. -/
def ctxWidth (s : State) (x : MxeCtx) : Nat := ((x.members.findSome? (findGroup s x.owner)).map fun y => y.2.width).getD 32

/-- The next pop goes to its member; one whose queue is full and for which a result is held takes no further one yet (R228,
R248, DEDUCED, log 24). A pop of a member that has ended goes nowhere. -/
def deliverPop (core n : Nat) : Prog Unit :=
  letI := Prog.monad
  do
    let s ← look id
    let x := mxeAt s core n
    let w := ctxWidth s x
    let m := nthD x.members (x.pops % x.members.length) 0
    if x.state == 3 && x.delivering && x.pops < popTotal x.desc w && !resultHeld s x.owner m (ctxPort n) then
      if (findGroup s x.owner m).isNone then do
        modMxe core n fun y => { y with pops := y.pops + 1 }
        popTaken core n (popTotal x.desc w)
      else do
        modMxe core n fun y => { y with pops := y.pops + 1 }
        offerResult x.owner m (ctxPort n) { word := 0, row := popRow x w x.pops, counted := true }
    else pure ()

/-! ### Resuming -/

/-- Reads C into the accumulator (R246): answers whether it must wait. -/
def loadC (core n : Nat) : Prog Bool :=
  letI := Prog.monad
  do
    let x ← look fun s => mxeAt s core n
    match ← look fun s => Tbl.find? s.teams x.owner with
    | none => pure false
    | some t => do
      let d := x.desc
      let rs := (upTo 0 (dM d)).map fun i => (dCaddr d + i * dCstride d, 4 * accCols d)
      match ← fetchOperand t n 0 4 false rs with
      | .wait => pure true
      | .bad f => do
        modMxe core n fun y => { y with fault := some f }
        parkOrFail core n
        pure false
      | .got rows => do
        let ij := (upTo 0 (dM d)).flatMap fun i => (upTo 0 (accCols d)).map fun j => (i, j)
        modMxe core n fun y => ij.foldl (fun (z : MxeCtx) (p : Nat × Nat) =>
          z.setAcc p.1 p.2 (BitVec.ofNat 32 (ofBytes (((nthD rows p.1 []).drop (4 * p.2)).take 4)))) y
        pure false

/-- eresume (R250, R417): a PARKED context runs again, a stopped DRAIN delivers again. Answers whether it must wait. -/
def resumeContext (core n : Nat) : Prog Bool :=
  letI := Prog.monad
  do
    let x ← look fun s => mxeAt s core n
    if x.state == 2 then do
      modMxe core n fun y => { y with state := 1, fop := 7, fault := none, staged := [] }
      if x.fop == 4 then do
        let w ← loadC core n
        (if w then modMxe core n fun y => { y with state := 2, fop := 4 } else pure ())
        pure w
      else pure false
    else if x.state == 3 then do
      let w ← look fun s => ctxWidth s x
      modMxe core n fun y => if popTotal y.desc w ≤ y.taken then MxeCtx.idle else { y with delivering := true }
      pure false
    else pure false

/-- At pre-emption a RUNNING context stops after its block and parks, a DRAIN context stops delivering (R251). -/
def stopContexts (core team : Nat) : Prog Unit :=
  modCore core fun c => { c with mxe := c.mxe.map fun x =>
    if x.owner == team then
      (if x.state == 1 then { x with state := 2, fop := 7, staged := [], fault := none }
       else if x.state == 3 then { x with delivering := false } else x)
    else x }

/-! ### mma (R411, R412, R245) -/

/-- A member at the rendezvous. -/
structure Member where
  k : Nat
  g : Group
  n : Nat
  e : Entry
deriving DecidableEq, Repr

/-- The mma a group waits at: F, VA, descriptor. -/
def mmaOf (e : Entry) : Option (Bool × Word64 × List Word64) :=
  match e.wait with
  | .mma f va d _ => some (f, va, d)
  | _ => none

/-- A group of the team that waits at mma. -/
def memberAt (s : State) (k : Nat) : Option Member :=
  match Tbl.find? s.groups k with
  | some g => (g.entries.find? fun x => (mmaOf x.2).isSome).map fun x => { k, g, n := x.1, e := x.2 }
  | none => none

/-- The group of a team with an index. -/
def groupIndexed (s : State) (t : Team) (idx : Nat) : Option Nat :=
  t.groups.find? fun k => (Tbl.find? s.groups k).elim false fun g => g.index == idx

/-- GANG members in order (R183); none without a gang. -/
def gangList (t : Team) : List Nat := (upTo 0 (bits t.gang 32 3)).map fun i => bits t.gang (5 * i) 5

/-- Traps every waiting member. -/
def trapMembers (ms : List Member) (cause : Cause) (info : Word64) : Prog Unit :=
  each ms fun m => takeTrap m.k m.n cause info m.e.pc

/-- The trap of R412 step 6 in one member. -/
def trapFailed (m : Member) (n : Nat) (x : MxeCtx) (slot : Nat) : Prog Unit :=
  if m.g.failTaken.getLsbD n then takeTrap m.k m.n cDescriptor 0 m.e.pc
  else
    Prog.bind (modGroup m.k fun g => { g with failTaken := setBit g.failTaken n }) fun _ =>
      takeTrap m.k m.n x.cause (BitVec.ofNat 64 slot) m.e.pc

/-- The grant (R412): every member commits and goes on. -/
def passMma (m : Member) : Prog Unit :=
  match m.e.wait with
  | .mma _ _ _ next => modGroup m.k fun g => (g.setEntry m.n (m.e.after next m.e.pc)).commit next
  | _ => skip

/-- The context starts (R246): C is read where INITC says so. Answers whether that must wait. -/
def startContext (core n : Nat) (t : Team) (team : Nat) (ms : List Member) (f : Bool) (va : Word64) (d : List Word64) :
    Prog Bool :=
  letI := Prog.monad
  do
    let old ← look fun s => mxeAt s core n
    let x : MxeCtx := { MxeCtx.idle with
      state := 1, desc := d, descVa := va, gang := t.gang.setWidth 64, acc := if f then old.acc else [], owner := team,
      members := ms.map fun m => m.g.ident }
    modMxe core n fun _ => x
    if !f && dInitc d then do
      let w ← loadC core n
      (if w then modMxe core n fun _ => old else pure ())
      pure w
    else pure false

/-- Steps 6 and 7 of R412: the FAILED context, the wait for the context, the grant. -/
def grantMma (team : Nat) (t : Team) (ms : List Member) (f : Bool) (va : Word64) (d : List Word64) : Prog Unit :=
  letI := Prog.monad
  do
    let n := dCtx d
    let s ← look id
    let x := mxeAt s t.core n
    if x.state == mxFailed && x.owner == team then
      each ms fun m => trapFailed m n x (mxeSlot s x n)
    else if x.state == 0 || (x.state == 4 && x.owner == team) then do
      if ← startContext t.core n t team ms f va d then pure ()
      else each ms passMma
    else pure ()

/-- The members' waits with the descriptor that was read. -/
def keepDesc (m : Member) (d : List Word64) : Member :=
  match m.e.wait with
  | .mma f va _ next =>
    let e : Entry := { m.e with wait := .mma f va d next }
    { m with e, g := m.g.setEntry m.n e }
  | _ => m

/-- The record of a faulted descriptor read (R412): UNIT 0x0 with OP 0x7C in member 0's slots. -/
def parkDesc (m : Member) (va : Word64) (cls addr : Nat) : Prog Unit :=
  letI := Prog.monad
  do
    let stamp ← newId
    let _ := va
    writeRecord m.k
      { words := [rrWord0 0xFFFF 0x7C Acc.read.bits cls rrParked 0, ((lowLane m.e.mask).map laneBit).getD 0,
                  BitVec.ofNat 64 (addr % 2 ^ 52), m.e.pc, m.e.pc, m.e.pc, 0, 0],
        pend := 0, entry := m.n, pages := [(addr / 4096, cls)], region := true, stamp, cmd := 0, why := 0 }

/-- Steps 3 to 5 of R412 for a complete gang, then 6 and 7. -/
def meetMma (team : Nat) (t : Team) (ms : List Member) (f : Bool) (va : Word64) : Prog Unit :=
  letI := Prog.monad
  do
    match ms with
    | [] => pure ()
    | m0 :: _ =>
      if va.toNat % 64 != 0 then trapMembers ms cAlign va
      else do
        match ← translate (teamAgent t) va.toNat .read with
        | .trap c => trapMembers ms c va
        | .wait => pure ()
        | .fault cls addr => parkDesc m0 va cls addr
        | .ok tl _ => do
          match ← readPlace m0.k m0.g 64 (.glob (← look fun s => tl.loc s.dev (teamAgent t) va.toNat) false) false with
          | .wait => pure ()
          | .poison => trapMembers ms cMemory va
          | .bytes bs => do
            let d := bytesWords bs 8
            let x ← look fun s => mxeAt s t.core (dCtx d)
            if !descOk d t.tileSize (!f && dInitc d) || (f && !heldOk x team d) then trapMembers ms cDescriptor 0
            else do
              let ms1 := ms.map fun m => keepDesc m d
              each ms1 fun m => modGroup m.k fun g => g.setEntry m.n m.e
              grantMma team t ms1 f va d

/-- Whether a parked descriptor read holds a member back. -/
def descParked (g : Group) : Bool :=
  (g.rr.any fun r => r.2.unit == 0 && bits (nthD r.2.words 0 0) 24 8 == 0x7C) ||
  (g.overflow.any fun r => r.unit == 0 && bits (nthD r.words 0 0) 24 8 == 0x7C)

/-- The rendezvous of a group that waits at mma (R245): alone, or once every member of the gang waits. -/
def tryMma (k : Nat) : Prog Unit :=
  letI := Prog.monad
  do
    let s ← look id
    match memberAt s k with
    | none => pure ()
    | some m =>
      match Tbl.find? s.teams m.g.team, mmaOf m.e with
      | some t, some (f, va, _) =>
        let gang := gangList t
        let keys := if gang.isEmpty then [some k] else gang.map (groupIndexed s t)
        let ms := keys.filterMap fun x => x.bind (memberAt s)
        if keys.any (·.isNone) || !(gang.isEmpty || gang.contains m.g.index) then
          trapMembers (if gang.contains m.g.index then ms else ms ++ [m]) cGang 0
        else if ms.length < keys.length then pure ()
        else if ms.any fun x => x.g.width != m.g.width || (mmaOf x.e).elim true fun y => y.1 != f || y.2.1 != va then
          trapMembers ms cGang 0
        else if ms.any fun x => descParked x.g then pure ()
        else match (ms.head?.bind fun x => mmaOf x.e) with
          | some (_, _, []) => meetMma m.g.team t ms f va
          | some (_, _, d) => grantMma m.g.team t ms f va d
          | none => pure ()
      | _, _ => pure ()

/-- The body of mma and mma.acc. -/
def mmaBody (c : Ctx) (f : Bool) (a : Fin 64) : Prog Unit :=
  if c.g.width == 16 then raise c cWidth
  else
    Prog.bind (emit (.group c.k (c.g.setEntry c.n
      { c.e with pc := c.f.pc, wait := .mma f (c.g.sreg a.val) [] c.f.next, run := none }))) fun _ => tryMma c.k

/-- MMA (R412). -/
def execMma (m : Option Mod) (a : Fin 64) (s : State) : Out :=
  (issue (.mma m a) never fun c => mmaBody c false a).outcome s

/-- MMA_ACC (R412): F = 1. -/
def execMmaAcc (m : Option Mod) (a : Fin 64) (s : State) : Out :=
  (issue (.mmaAcc m a) never fun c => mmaBody c true a).outcome s

/-! ### One move of a context -/

/-- Groups of a core that wait at mma. -/
def mmaWaiting (s : State) (core : Nat) : List Nat :=
  (Tbl.keys s.groups).filter fun k => keyCore k == core && (memberAt s k).isSome

/-- The next piece of work of a context: a waiting gang, a fetch, a block, the end, or a delivery. -/
def mxeStep (core n : Nat) : Prog Unit :=
  letI := Prog.monad
  do
    let x ← look fun s => mxeAt s core n
    if x.state == 1 then
      if dKchm1 x.desc < x.depth then computeDone core n
      else do
        let i ← fresh
        let early := Config.freeChoice i % 2 == 1
        match x.staged.find? fun c => c.depth == x.depth with
        | none => if x.fault.isSome then parkOrFail core n else fetchChunk core n x.depth
        | some ch =>
          match (if early then x.nextFetch else none) with
          | some k => fetchChunk core n k
          | none => modMxe core n fun y => (y.block ch).advance
    else if x.state == 3 then deliverPop core n
    else do
      let ks ← look fun s => mmaWaiting s core
      each ks tryMma

/-! ### eng (R413 to R417) -/

/-- Control word 0 (R249). -/
def MxeCtx.ctl0 (x : MxeCtx) : Word64 :=
  BitVec.ofNat 64 (x.pops % 1024 * 2 ^ 48 + x.depth % 2 ^ 17 * 2 ^ 31 + x.row % 8 * 2 ^ 28 + x.col % 8 * 2 ^ 25 +
    x.fop.toNat * 2 ^ 22 + x.state.toNat)

/-- The image of a context (R249). -/
def MxeCtx.image (x : MxeCtx) : List Byte :=
  wordsBytes ((upTo 0 8).map fun k => nthD x.desc k 0) ++ wordsBytes [x.ctl0, x.gang, 0, 0, 0, 0, 0, 0] ++
    (upTo 0 4096).flatMap fun k => bytesOf 4 (Tbl.getD x.acc k 0).toNat

def imageBytes : Nat := 16512

/-- A context of another team is refused (R414); of a FAILED one the members trap (R412, R417). -/
def engGuarded (c : Ctx) (n : Nat) (all : Bool) (body : MxeCtx → Prog Unit) : Prog Unit := .get fun s =>
  let x := mxeAt s (keyCore c.k) n
  if x.state != 0 && x.owner != c.g.team then raise c cDescriptor
  else if x.state == mxFailed && (all || failedFor x c.g) then raiseFailed c n x
  else body x

/-- The agent of an access that an instruction of a group makes piece by piece. -/
def groupAgent (k : Nat) (t : Team) : Agent := { teamAgent t with who := .group k }

/-- The whole image is written at its home, as an HX store is (R415). -/
def writeImage (k : Nat) (t : Team) (va : Nat) (image : List Byte) : Prog (Eng Unit) :=
  letI := Prog.monad
  do
    match ← engTargets (groupAgent k t) va image.length with
    | .ok l => do
      ownStore k l image
      pure (.ok ())
    | .fault c y => pure (.fault c y)
    | .trap c => pure (.trap c)
    | .poison => pure .poison
    | .wait => pure .wait

/-- An engine access as what a core access did: lane `m`. -/
def engPerformed (r : Eng Unit) (m : Mask) (va : Word64) : Performed :=
  match r with
  | .ok _ => .did { rows := [], sval := 0, pval := 0, done := m, parked := 0, faults := [] }
  | .fault cls addr =>
    .did { rows := [], sval := 0, pval := 0, done := 0, parked := m,
           faults := [{ lane := (lowLane m).getD 0, cls, addr }] }
  | .trap c => .trap c va
  | .poison => .trap cMemory va
  | .wait => .wait

/-- Writes the image of a context, read at issue. -/
def erdJob (va : Word64) (image : List Byte) (j : Job) : Prog Performed :=
  Prog.bind (writeImage j.k j.t va.toNat image) fun r => .pure (engPerformed r j.lanes va)

def erdShape : Shape :=
  { acc := .write, regs := [], sdst := none, pdst := none, latch := false, counted := false, commit := false,
    acquire := none }

/-- The record of an image write keeps the image (R415). -/
def keepImage (k : Nat) (stamp0 : Nat) (image : List Byte) : Prog Unit :=
  let put := fun (r : RrSlotState) => if stamp0 ≤ r.stamp && r.unit == 0 then { r with image } else r
  modGroup k fun g => { g with rr := Tbl.mapVals g.rr (fun _ r => put r), overflow := g.overflow.map put }

/-- ENG_ERD (R415). -/
def execEngErd (m : Option Mod) (n : Fin 2) (a : Fin 64) (s : State) : Out :=
  let i : Instr := .engErd m n a
  (issueOnce i never fun c => guarded c <| engGuarded c n.val false fun x =>
    let va := c.g.sreg a.val
    if va.toNat % 128 != 0 then raise c cAlign va
    else if x.state == 1 then await c c.g (.context n)
    else
      letI := Prog.monad
      do
        let image := x.image
        let stamp ← look fun s => s.dev.nextId
        let p ← erdJob va image (c.job (scalarLane c))
        deliver i c erdShape p
        keepImage c.k stamp image).outcome s

/-- The context an image holds (R249, R416). -/
def imageCtx (w : List Word64) (acc : List Byte) : MxeCtx :=
  let c0 := nthD w 8 0
  { MxeCtx.idle with
    state := c0.extractLsb' 0 3, desc := w.take 8, pops := bits c0 48 10, depth := bits c0 31 17, row := bits c0 28 3,
    col := bits c0 25 3, fop := c0.extractLsb' 22 3, gang := nthD w 9 0,
    acc := ((upTo 0 4096).map fun k => (k, BitVec.ofNat 32 (ofBytes ((acc.drop (4 * k)).take 4)))).filter fun x => x.2 != 0 }

/-- Whether a GANG word fails R183, but for the in-flight test. -/
def gangWordBad (t : Team) (v : Word64) : Bool :=
  let n := bits v 32 3
  let at_ := fun (i : Nat) => bits v (5 * i) 5
  bits v 35 29 != 0 || bits v 30 2 != 0 || n == 1 || n == 7 ||
    (upTo 0 n).any (fun i => (upTo 0 i).any fun j => at_ i == at_ j) || (upTo 0 n).any fun i => t.kernel.groups ≤ at_ i

/-- Whether reserved bits of the control words of an image are not 0, or FOP holds a reserved code (R8, R249). -/
def controlBad (w : List Word64) : Bool :=
  let c0 := nthD w 8 0
  bits c0 58 6 != 0 || bits c0 3 19 != 0 || bits c0 22 3 == 5 || bits c0 22 3 == 6 || (w.drop 10).any (· != 0)

/-- Whether eng.ewr refuses an image (R416). -/
def imageBad (t : Team) (width : Nat) (old x : MxeCtx) : Bool :=
  old.state == 1 || old.state == 3 || 5 < x.state.toNat || x.state == 1 || x.state == mxFailed ||
    !descOk x.desc t.tileSize (x.fop == 4) || dMbm1 x.desc < x.row || dNbm1 x.desc < x.col || dKchm1 x.desc + 1 < x.depth ||
    popTotal x.desc width < x.pops || gangWordBad t x.gang

/-- Results of a context that an engine still holds for a team. -/
def heldFor (s : State) (team : Nat) (port : BitVec 4) : Nat :=
  (s.dev.held.filter fun h => h.team == team && h.port == port && h.entry.counted).length

/-- The context as eng.ewr leaves it (R416). -/
def writtenCtx (s : State) (c : Ctx) (n : Nat) (x : MxeCtx) : MxeCtx :=
  if x.state == 0 then MxeCtx.idle
  else
    let m := bits x.gang 32 3
    { x with owner := c.g.team, members := if m == 0 then [c.g.ident] else (upTo 0 m).map fun i => 64 * bits x.gang (5 * i) 5,
             taken := x.pops - heldFor s c.g.team (ctxPort n) }

/-- ENG_EWR (R416). -/
def execEngEwr (m : Option Mod) (n : Fin 2) (a : Fin 64) (s : State) : Out :=
  let i : Instr := .engEwr m n a
  (issueOnce i never fun c => guarded c <| engGuarded c n.val false fun old =>
    let va := c.g.sreg a.val
    if va.toNat % 128 != 0 then raise c cAlign va
    else
      letI := Prog.monad
      do
        let r ← engAll (piecesOf va.toNat imageBytes) (homePiece c.k (teamAgent c.t))
        match r.map List.flatten with
        | .wait => pure ()
        | .trap cause => raise c cause va
        | .poison => raise c cMemory va
        | .fault cls addr => parkWait i c .read [{ lane := (lowLane c.act).getD 0, cls, addr }]
        | .ok bs => do
          let x := imageCtx (bytesWords bs 16) (bs.drop 128)
          if controlBad (bytesWords bs 16) || imageBad c.t c.g.width old x then raise c cDescriptor
          else do
            let y ← look fun s => writtenCtx s c n.val x
            modMxe (keyCore c.k) n.val fun _ => y
            let ks ← look fun s => (Tbl.find? s.teams c.g.team).elim [] (·.groups)
            each ks fun k => modGroup k fun g => { g with failTaken := clearBit g.failTaken n.val }
            let g ← look fun s => (Tbl.find? s.groups c.k).getD c.g
            retire c g).outcome s

/-- ENG_ERESUME (R417). -/
def execEngEresume (m : Option Mod) (n : Fin 2) (s : State) : Out :=
  (issueOnce (.engEresume m n) never fun c => guarded c <| engGuarded c n.val true fun _ =>
    letI := Prog.monad
    do
      if ← resumeContext (keyCore c.k) n.val then pure ()
      else do
        let g ← look fun s => (Tbl.find? s.groups c.k).getD c.g
        retire c g).outcome s

end Sys2Proof.Machine
end

