-- ==== Sys2Proof/Machine/Select.lean ====
section
/-! DEFINITION. Issue selection (R153 to R157, R436): readiness, the fairness wheel, priorities and round-robin, fusion,
runs, and the traps of unresolved records (R135). -/

namespace Sys2Proof.Machine

/-! ### Readiness -/

/-- Whether a source of the instruction has a pending write, a parked operation still needs a register it would write, or
a predicate it writes is pending (R153, R253, R384, R385). -/
def hazard (g : Group) (mode : BitVec 19) (i : Instr) : Bool :=
  let u := regUse i
  let eff := effMode mode (instrMod i)
  let pr := if eff.ge then eff.gp :: u.pr else u.pr
  (g.pend.any fun x =>
    let p := x.2
    (p.regs.any fun r => r.lanes != 0 && u.vr.contains r.reg) ||
    (match p.sdst with
     | some n => u.sr.contains n.val
     | none => false) ||
    (match p.pdst with
     | some n => pr.contains n.val || u.pw.contains n.val
     | none => false) ||
    ((p.parked != 0 || p.render) && (p.srcV.any u.vw.contains || p.srcS.any u.sw.contains))) ||
  g.emitSrc.any u.sw.contains ||
  (u.latch.any fun k => (nthD g.latch k (zeroRow, 0)).2 != 0)

/-- Instructions counted by R158 at issue, by their words alone. -/
def counted (i : Instr) : Bool :=
  match i with
  | .ld .. | .ldNf .. | .sld .. | .mxld .. | .cacheResq .. | .atomCas .. => true
  | .atom _ _ d _ _ _ _ _ => d != .discard
  | .rndTex .. | .rndTexq .. | .rndTrace .. | .rndTracec .. | .rndVmarch .. | .rndDraw .. | .rndDrawTab .. => true
  | _ => false

/-- An mshemit: a group has at most one in flight (R427). -/
def emitsQuads (i : Instr) : Bool :=
  match i with
  | .rndMshemit .. => true
  | _ => false

/-- Whether the instruction may issue for the group. -/
def Group.ready (g : Group) (e : Entry) (i : Instr) : Bool :=
  !hazard g e.mode i && !(g.mshemit != 0 && emitsQuads i) && !((counted i || pushesCommand g i) && g.outstanding ≥ 63)

/-- Quads of an RSU wait for a core at which 256 wait for room: a further mshemit is not ready there (R280). -/
def emitBlocked (s : State) (core : Nat) (i : Instr) : Bool :=
  emitsQuads i && (coreAt s core).rsu.any fun j => (j.quads.take 1).any fun q => 256 ≤ (coreAt s q.core).pixel.length

/-- Whether a racq of the group waits: the group is not ready (R163). -/
def Group.waitsBlocks (g : Group) : Bool :=
  g.entries.any fun x => match x.2.wait with
    | .racq .. => true
    | _ => false

/-- Whether the record in a slot is unresolved. -/
def Group.lostRecord (g : Group) (slot : Nat) : Bool := (Tbl.find? g.rr slot).any fun r => r.stat == rrUnresolved

/-- Cause of an unresolved record (R135). -/
def unresolvedCause (r : RrSlotState) : Cause :=
  if r.why != 0 then r.why
  else match r.cls with
    | 2 => cPermission
    | 3 => cS2Unresolved
    | 4 => cS2Unresolved
    | 5 => cS2Permission
    | _ => cUnresolved

/-- The lowest slot whose unresolved record traps in the group (R135); not while a handler runs. -/
def Group.unresolved (g : Group) : Option (Nat × RrSlotState) :=
  if g.hnd then none
  else g.rr.find? fun x => x.2.stat == rrUnresolved && !(2 ≤ x.2.unit && x.2.unit ≤ 4)

/-! ### Candidates -/

/-- What a candidate gives the selector. -/
inductive Tried where
  | no
  | issue (f : Focus) (i : Instr) (cont follows : Bool)
  | trap (c : Cause) (info xpc : Word64)

/-- A fetch fault parks a record of UNIT 0x1 and the split waits (R322). Its MASK is 1 (DESIGN CHOICE, log 37). -/
def parkFetch (k n : Nat) (cls addr : Nat) (pc : Word64) : Prog Unit :=
  letI := Prog.monad
  do
    let stamp ← newId
    match ← look fun s => Tbl.find? s.groups k with
    | none => pure ()
    | some g =>
      match freeBelow 8 (Tbl.keys g.rr) with
      | none => pure ()
      | some slot => do
        let r : RrSlotState :=
          { words := [rrWord0 0xFFFF 0 Acc.exec.bits cls rrParked 1, 1, BitVec.ofNat 64 (addr % 2 ^ 52), pc, 0, 0, 0, 0],
            pend := 0, entry := n, pages := [(addr / 4096, cls)], region := true, stamp, cmd := 0, why := 0 }
        modGroup k fun g => match Tbl.find? g.entries n, finOf 8 slot with
          | some e, some fs => g.setEntry n { e with wait := .record fs }
          | _, _ => g
        writeRecord k r

/-- Tries a split: waiting, unresolved records, fetch, hazards. `yields` admits splits that have yielded (R328). -/
def tryEntry (k n : Nat) (yields : Bool) : Prog Tried :=
  letI := Prog.monad
  do
    let s ← look id
    match Tbl.find? s.groups k with
    | none => pure .no
    | some g =>
      match Tbl.find? g.entries n, Tbl.find? s.teams g.team with
      | some e, some t =>
        let ur := g.unresolved
        let open_ := match e.wait with
          | .run => true
          | .drain => true
          | .context x => (nthD (coreAt s (keyCore k)).mxe x.val MxeCtx.idle).state != 1
          | .yield => yields
          | .record slot => ur.isSome && g.lostRecord slot.val
          | .mma .. => ur.isSome && g.rr.any fun x => x.2.stat == rrUnresolved && x.2.unit == 0 && x.2.entry == n
          | .mshemit _ => ur.isSome && g.rr.any fun x => x.2.stat == rrUnresolved && x.2.unit == 8
          | _ => false
        let at_ := match e.wait with
          | .mshemit next => next
          | _ => e.pc
        if !open_ || g.waitsBlocks then pure .no
        else match ur with
          | some (slot, r) =>
          pure (if g.ending then .no else .trap (unresolvedCause r) (BitVec.ofNat 64 slot) at_)
          | none => do
            match ← fetchAt k n t e with
            | .wait => pure .no
            | .trap c info xpc => pure (if g.ending then .no else .trap c info xpc)
            | .park cls addr => do
              parkFetch k n cls addr e.pc
              pure .no
            | .instr f i cont follows =>
              let g1 ← look fun s => (Tbl.find? s.groups k).getD g
              let blocked ← look fun s => emitBlocked s (keyCore k) i
              pure (if g1.ready e i && !blocked then .issue f i cont follows else .no)
      | _, _ => pure .no

/-- The first candidate that issues or traps. -/
def firstReady (l : List (Nat × Nat)) (yields : Bool) : Prog (Option (Nat × Nat × Tried)) :=
  letI := Prog.monad
  match l with
  | [] => pure none
  | (k, n) :: rest => do
    match ← tryEntry k n yields with
    | .no => firstReady rest yields
    | r => pure (some (k, n, r))

/-- A list rotated to start at position k. -/
def rotate {α : Type} (l : List α) (k : Nat) : List α := l.drop (k % (l.length + 1)) ++ l.take (k % (l.length + 1))

/-- Group keys of a slot, lo before hi. A 64-wide group stands in the lower quarter of its pair. -/
def slotKeys (core quarter slot : Nat) : List Nat := [groupKey core quarter slot false, groupKey core quarter slot true]

/-- The wheel's offer (R154): entry e of the slot's groups, the one not served last first. -/
def wheelOffer (q : Quarter) (core quarter : Nat) : List (Nat × Nat) :=
  let pos := q.wheel % 64
  let ks := slotKeys core quarter (pos / 4)
  (if q.turns.getLsbD pos then ks else ks.reverse).map fun k => (k, pos % 4)

/-- Candidates of step 3 at one priority: slots round-robin after the last, entries of a slot round-robin after the last of
that slot, lo before hi (R153). -/
def prioOffer (s : State) (q : Quarter) (core quarter prio : Nat) : List (Nat × Nat) :=
  (rotate (upTo 0 16) (q.lastSlot + 1)).flatMap fun slot =>
    let es := (slotKeys core quarter slot).flatMap fun k => (upTo 0 4).map fun n => (k, n)
    let es1 := rotate es (nthD q.lastEntries slot 7 + 1)
    es1.filter fun x =>
      match Tbl.find? s.groups x.1 with
      | some g => (Tbl.find? g.entries x.2).isSome && (Tbl.find? s.teams g.team).elim false fun t => t.prio == prio
      | none => false

/-- Every candidate of a quarter in the order of R153 steps 2 and 3. -/
def offers (s : State) (q : Quarter) (core quarter : Nat) : List (Nat × Nat) :=
  wheelOffer q core quarter ++ [3, 2, 1, 0].flatMap (prioOffer s q core quarter)

/-! ### Withheld cycles and stopped dies -/

/-- The partition whose CORESET holds a core (R99). -/
def corePart (d : Dev) (core : Nat) : Nat :=
  ((upTo 0 9).find? fun p => (partAt d p).pctl.getLsbD 0 && (partAt d p).coreset.getLsbD core).getD 0

/-- Whether the quarters of a core may issue in this cycle (R17, R104, R105). -/
def mayIssue (s : State) (core : Nat) : Bool :=
  let d := dieAt s (dieOf core)
  !s.dev.stopped && !s.dev.boot.stopped && d.pstate != 6 && d.changing.isNone && !d.thermal &&
    !withholds s (corePart s.dev core) (dieOf core) core

/-! ### One selection -/

def modQuarter (core quarter : Nat) (f : Quarter → Quarter) : Prog Unit :=
  modCore core fun c => { c with quarters := modNth c.quarters quarter f }

/-- Whether a pair of quarters holds a 64-wide group. -/
def pairWide (s : State) (core quarter : Nat) : Bool :=
  s.groups.any fun x => keyCore x.1 == core && x.2.width == 64 && x.2.quarter == quarter / 2 * 2

/-- The wheel of a quarter moves on (R154). -/
def advanceWheel (core quarter : Nat) : Prog Unit :=
  modQuarter core quarter fun q => { q with wheel := (q.wheel + 1) % 64 }

/-- The other splits of a quarter that have yielded may issue again (R328). -/
def endYields (core quarter k n : Nat) : Prog Unit :=
  letI := Prog.monad
  do
    let ks ← look fun s => (s.groups.filter fun x => keyCore x.1 == core && x.2.quarter == quarter).map (·.1)
    each ks fun j => modGroup j fun g =>
      let wake := fun (m : Nat) (e : Entry) => if e.wait == .yield && !(j == k && m == n) then { e with wait := .run } else e
      { g with entries := Tbl.mapVals g.entries wake }

/-- The run of an entry as its instruction issues: it starts, continues, or there is none (R157, R312). -/
def runAt (old : Option Run) (f : Focus) (cont follows : Bool) : Option Run :=
  let begin := fun (u : Unit) =>
    let _ := u
    match old with
    | some r => if r.again && r.first == f.pc then some { r with results := 0 }
                else some { first := f.pc, results := 0, last := f.pc, again := false }
    | none => some { first := f.pc, results := 0, last := f.pc, again := false }
  if cont then
    match old with
    | some r => some r
    | none => if follows then begin () else none
  else if follows then begin () else none

/-- Notes an issue in the selector's state (R153, R154): round-robin, the run in progress, the half served where the wheel
offered the position. Activity counts for the team's queue (R106). -/
def noteIssue (core quarter k n : Nat) (f : Focus) (cont follows wheel : Bool) : Prog Unit :=
  letI := Prog.monad
  do
    let hi := k % 2
    let slot := k / 2 % 16
    modQuarter core quarter fun q =>
      { q with lastSlot := slot, lastEntries := setNth q.lastEntries slot (4 * hi + n),
               run := if follows then some (k, n) else none,
               turns := if !wheel then q.turns else if hi == 1 then setBit q.turns (4 * slot + n)
                 else clearBit q.turns (4 * slot + n) }
    (match ← look fun s => (Tbl.find? s.groups k).bind fun g => Tbl.find? s.teams g.team with
     | some t => noteActivity t.queue 1
     | none => pure ())
    modGroup k fun g => match Tbl.find? g.entries n with
      | some e => g.setEntry n { e with run := runAt e.run f cont follows, wait := .run }
      | none => g
    endYields core quarter k n

/-- Physical lanes of a group's mask within its quarter (R160). -/
def physical (k : Nat) (g : Group) (m : Mask) : Mask := if k % 2 == 1 && g.width == 16 then m <<< 16 else m

/-- A partner for fusion (R156): another group of the quarter, same PC, equal MODE, disjoint active lanes, ready, no
run, not a whole-group instruction. -/
def fits (s : State) (k n : Nat) (f : Focus) (i : Instr) (j m : Nat) : Bool :=
  match Tbl.find? s.groups k, Tbl.find? s.groups j with
  | some g, some h =>
    match Tbl.find? g.entries n, Tbl.find? h.entries m with
    | some e, some d =>
      let a := physical k g (activeMask g (effMode e.mode (instrMod i)) e.mask)
      let b := physical j h (activeMask h (effMode d.mode (instrMod i)) d.mask)
      j != k && (d.pc == f.pc || d.pc == e.pc) && d.mode == e.mode && a &&& b == 0 && !wholeFor g i && !wholeFor h i
    | _, _ => false
  | _, _ => false

/-- The first partner in the order of R436 that is ready. -/
def findPartner (l : List (Nat × Nat)) (k n : Nat) (f : Focus) (i : Instr) : Prog (Option (Nat × Nat × Focus × Instr)) :=
  letI := Prog.monad
  match l with
  | [] => pure none
  | (j, m) :: rest => do
    let ok ← look fun s => fits s k n f i j m
    if ok then do
      match ← tryEntry j m false with
      | .issue f2 i2 false false => if f2.pc == f.pc then pure (some (j, m, f2, i2)) else findPartner rest k n f i
      | _ => findPartner rest k n f i
    else findPartner rest k n f i

/-- Entries after the chosen one in its slot, then the following slots in ascending order, wrapping (R436). -/
def partnerOrder (core quarter k n : Nat) : List (Nat × Nat) :=
  let slot := k / 2 % 16
  let own := (slotKeys core quarter slot).flatMap fun j => (upTo 0 4).map fun m => (j, m)
  let after := own.filter fun x => 4 * (k % 2) + n < 4 * (x.1 % 2) + x.2
  after ++ ((upTo 1 15).flatMap fun d =>
    (slotKeys core quarter ((slot + d) % 16)).flatMap fun j => (upTo 0 4).map fun m => (j, m))

/-- Whether the run in progress of a quarter still stands at its next instruction. -/
def Quarter.running (q : Quarter) (s : State) : Bool :=
  match q.run with
  | some (k, n) => ((Tbl.find? s.groups k).bind fun g => Tbl.find? g.entries n).elim false fun e => e.wait == .run
  | none => false

/-- A run in progress of one split is over. -/
def Quarter.endRun (q : Quarter) (k n : Nat) : Quarter := if q.run == some (k, n) then { q with run := none } else q

/-- Whether a group is 64 wide. -/
def isWide (s : State) (k : Nat) : Bool := (Tbl.find? s.groups k).any fun g => g.width == 64

/-- Step 1 of R153: the run in progress takes the cycle. Answers what issues, or none where no run goes on; a run whose next
instruction is not ready still takes it. -/
def continueRun (core quarter : Nat) : Prog (Option (List (Focus × Instr))) :=
  letI := Prog.monad
  do
    let s ← look id
    let q := nthD (coreAt s core).quarters quarter Quarter.reset
    let r ← match q.run with
      | some (k, n) => do
        match ← tryEntry k n false with
        | .issue f i c w => do
          noteIssue core quarter k n f c w false
          pure (some [(f, i)])
        | .trap c x p => do
          takeTrap k n c x p
          modQuarter core quarter fun q => { q with run := none }
          pure (some [])
        | .no => pure none
      | none => pure none
    match r with
    | some l => pure (some l)
    | none =>
      if q.running s then pure (some [])
      else do
        modQuarter core quarter fun q => { q with run := none }
        pure none

/-- Steps 2 and 3 of R153: what issues, none, one, or two fused (R156). Traps of the fetch and of unresolved records are taken
here. `wide` admits 64-wide groups. -/
def choose (core quarter : Nat) (wide : Bool) : Prog (List (Focus × Instr)) :=
  letI := Prog.monad
  do
    let s ← look id
    let q := nthD (coreAt s core).quarters quarter Quarter.reset
    let fit := fun (x : Nat × Nat) => wide || !isWide s x.1
    let l := (offers s q core quarter).filter fit
    let r ← match ← firstReady l false with
      | some x => pure (some x)
      | none => firstReady l true
    match r with
    | none => pure []
    | some (k, n, .trap c x p) => do
      takeTrap k n c x p
      pure []
    | some (k, n, .issue f i c w) => do
      let partner ← if c || w then pure none
        else findPartner ((partnerOrder core quarter k n).filter fit) k n f i
      let wheel := (wheelOffer q core quarter).contains (k, n)
      noteIssue core quarter k n f c w wheel
      match partner with
      | some (j, m, f2, i2) => do
        noteIssue core quarter j m f2 false false (wheel && m == n && j / 2 == k / 2)
        modGroup k fun g => { g with fusestat := g.fusestat + 1 }
        modGroup j fun g => { g with fusestat := g.fusestat + 1 }
        pure [(f, i), (f2, i2)]
      | none => pure [(f, i)]
    | some (_, _, .no) => pure []

/-- One cycle of the two quarters of a pair that holds a 64-wide group (R154): the lower quarter chooses first, a 64-wide split
takes both, and the wheels move only in a cycle that advances each. -/
def selectPair (core lo : Nat) : Prog (List (Focus × Instr)) :=
  letI := Prog.monad
  do
    let s ← look id
    let ended := fun (l : List (Focus × Instr)) => l.any fun x => isWide s x.1.group
    let held := ((nthD (coreAt s core).quarters lo Quarter.reset).run).any fun x => isWide s x.1
    let a ← continueRun core lo
    let b ← if a.isSome && held then pure (some []) else continueRun core (lo + 1)
    let la ← match a with
      | some l => pure l
      | none => choose core lo b.isNone
    let lb ← match b with
      | some l => pure l
      | none => if ended la then pure [] else choose core (lo + 1) false
    (if a.isNone && b.isNone then do
      advanceWheel core lo
      advanceWheel core (lo + 1)
     else pure ())
    pure (la ++ lb)

/-- One selection of a quarter (R153), or of the pair where one holds a 64-wide group: the instructions to execute. -/
def select (core quarter : Nat) : Prog (List (Focus × Instr)) :=
  letI := Prog.monad
  do
    let s ← look id
    if !mayIssue s core then pure []
    else if pairWide s core quarter then (if quarter % 2 == 0 then selectPair core quarter else pure [])
    else
      match ← continueRun core quarter with
      | some l => pure l
      | none => do
        let l ← choose core quarter true
        advanceWheel core quarter
        pure l

/-- Whether the split of a focus stands at that instruction, or at the next, and may go on. -/
def stillOn (s : State) (f : Focus) : Bool :=
  match (Tbl.find? s.groups f.group).bind fun g => Tbl.find? g.entries f.entry with
  | some e => e.wait == .run && (e.pc == f.next || e.pc == f.pc)
  | none => false

def Core.endRun (c : Core) (k n : Nat) : Core := { c with quarters := c.quarters.map fun q => q.endRun k n }

/-- After an instruction: a run that the instruction has left is over (R157), and the focus is gone. -/
def afterIssue (f : Focus) : Prog Unit := .get fun s =>
  Prog.bind (if stillOn s f then skip else modCore (keyCore f.group) fun c => c.endRun f.group f.entry) fun _ =>
  emit (.focus none)

end Sys2Proof.Machine
end

