-- ==== Sys2Proof/Machine/Pages.lean ====
section
/-! DEFINITION. The end of a pending page: resolved (R131) or unresolved (R135, R462, R463), for every record, command,
context and queue that waits on it. -/

namespace Sys2Proof.Machine

/-- Whether a page of a record is the page of a key. -/
def isPage (key : PageKey) (p : Nat × Nat) : Bool := p.1 == key.page && (3 ≤ p.2) == key.s2

/-- FADDR of a record lies on the page of a key. -/
def onFaddr (key : PageKey) (r : RrSlotState) : Bool :=
  bits (nthD r.words 2 0) 12 40 == key.page && (3 ≤ r.cls) == key.s2

/-- The record no longer waits on the page: PRTAG is reset where FADDR lies on it (R450), and with no page left a PARKED
record is READY (R118). The frame that serves the page is skipped by the eviction hand until it has replayed (R131). -/
def RrSlotState.freed (r : RrSlotState) (key : PageKey) (frame : Option Nat) : RrSlotState :=
  let r1 : RrSlotState := if onFaddr key r then r.withTag 0xFFFF else r
  let r2 : RrSlotState := { r1 with pages := r.pages.filter fun p => !isPage key p, guards := r.guards ++ frame.toList }
  if r2.pages.isEmpty && r2.stat == rrParked then r2.withStat rrReady else r2

/-- Takes a page out of a core's fault filter; answers its waiters. -/
def unfilter (core : Nat) (key : PageKey) : Prog (List (Nat × Nat)) :=
  letI := Prog.monad
  do
    let l ← look fun s => (coreAt s core).filter
    match l.find? (·.key == key) with
    | none => pure []
    | some e => do
      modCore core fun c => { c with filter := c.filter.filter (·.key != key) }
      pure e.waiters

/-- Faults that waited for room in the filter of a core are written (R113, R118). -/
def refillCore (core : Nat) : Prog Unit :=
  letI := Prog.monad
  do
    let ks ← look fun s => (s.groups.filter fun x => keyCore x.1 == core && !x.2.overflow.isEmpty).map (·.1)
    each ks refillSlots

/-- Takes a page out of a die's cluster stage; what waited for its room goes on (R119). -/
def unstage (die : Nat) (key : PageKey) : Prog Unit :=
  letI := Prog.monad
  do
    let l ← look fun s => (dieAt s die).stage
    if l.any (·.key == key) then do
      modDie die fun d => { d with stage := d.stage.filter (·.key != key) }
      let ws ← look fun s => s.cores.flatMap fun x =>
        if dieOf x.1 == die then (x.2.filter.filter fun e => !e.sent).map fun e => (x.1, e.key) else []
      each ws fun w => due (.clusterStagePage w.1 w.2.code)
    else pure ()

/-- Whether an engine-held record belongs to the partition and context of a key. -/
def engineWaits (d : Die) (key : PageKey) (r : RrSlotState) : Bool :=
  r.pages.any (isPage key) &&
  ((d.copy ++ d.coll).any fun c => c.id == r.cmd && c.part == key.part && c.ctxidx == key.ctx)

/-- Queues parked on a page. -/
def parkedOn (d : Dev) (key : PageKey) : List Nat := (d.queues.filter fun x => x.2.parked == some key).map (·.1)

/-- Takes out the requests of peers that wait on a page (R237). -/
def takePeers (key : PageKey) : Prog (List PeerReq) :=
  letI := Prog.monad
  do
    let l ← look fun s => (s.dev.peerWaits.filter fun x => x.2 == key).map (·.1)
    modDev fun d => { d with peerWaits := d.peerWaits.filter fun x => x.2 != key }
    pure l

/-- The page is resolved: every filter, stage and queue that holds it is told, and READY records go to their replay
engines (R131, R136). `frame` is the frame that serves it now. -/
def resolvePage (key : PageKey) (frame : Option Nat) : Prog Unit :=
  letI := Prog.monad
  do
    let cs ← look fun s => Tbl.keys s.cores
    each cs fun core => do
      let ws ← unfilter core key
      each ws fun w => modGroup w.1 fun g => { g with rr := Tbl.modify g.rr w.2 fun r => r.freed key frame }
      (if ws.isEmpty then pure () else due (.recordReplay core))
      refillCore core
    each (upTo 0 4) fun die => do
      unstage die key
      let d ← look fun s => dieAt s die
      let rs := d.copyRr.filter fun x => engineWaits d key x.2
      each rs fun x => do
        let r := x.2.freed key frame
        let go := r.stat == rrReady
        modDie die fun d => { d with copyRr := Tbl.put d.copyRr x.1 (if go then r.withStat rrReplaying else r) }
        if go then resumeCmd die (r.unit == 2) r.cmd r else pure ()
    let qs ← look fun s => parkedOn s.dev key
    each qs fun q => do
      modQueue q fun x => { x with parked := none, blocked := none }
      askLane q
    let rs ← takePeers key
    each rs fun r => due (.peerRequest r)

/-- The die that runs a command. -/
def cmdDie (s : State) (copy : Bool) (id : Nat) : Nat :=
  ((upTo 0 4).find? fun die => (findCmd s die copy id).isSome).getD 0

/-- What follows from an unresolved record, by its unit (R135): groups trap when they would next issue. -/
def failRecord (k : Nat) (r : RrSlotState) : Prog Unit :=
  letI := Prog.monad
  do
    let die ← look fun s => cmdDie s (r.unit == 2) r.cmd
    if r.unit == 2 then failCmd die true r.cmd r
    else if r.unit == 4 then failMember die r.cmd r
    else if r.unit == 3 then failContext (keyCore k) r.cmd (unresolvedCause r)
    else pure ()

/-- The page is unresolved: every record that waits on it is (R135). `why` gives the cause for a record's class, 0 the
cause R135 names. -/
def failPage (key : PageKey) (why : Nat → Cause) : Prog Unit :=
  letI := Prog.monad
  do
    let mark := fun (r : RrSlotState) =>
      let r1 : RrSlotState := if onFaddr key r then r.withTag 0xFFFF else r
      ({ r1.withStat rrUnresolved with why := why r.cls, pages := [] } : RrSlotState)
    let cs ← look fun s => Tbl.keys s.cores
    each cs fun core => do
      let ws ← unfilter core key
      each ws fun w => do
        modCore core fun c => { c with filter := c.filter.map fun e => { e with waiters := e.waiters.filter (· != w) } }
        match ← look fun s => (Tbl.find? s.groups w.1).bind fun g => Tbl.find? g.rr w.2 with
        | some r => do
          modGroup w.1 fun g => { g with rr := Tbl.put g.rr w.2 (mark r) }
          failRecord w.1 (mark r)
        | none => pure ()
      refillCore core
    each (upTo 0 4) fun die => do
      unstage die key
      let d ← look fun s => dieAt s die
      let rs := d.copyRr.filter fun x => engineWaits d key x.2
      each rs fun x => do
        modDie die fun d => { d with copyRr := Tbl.put d.copyRr x.1 (mark x.2) }
        if x.2.unit == 2 then failCmd die true x.2.cmd (mark x.2) else failMember die x.2.cmd (mark x.2)
    let qs ← look fun s => parkedOn s.dev key
    each qs fun q => do
      let x ← look fun s => queueAt s.dev q
      let i := x.blocked.getD x.ridx.toNat
      modQueue q fun x => { x with parked := none, blocked := none }
      abortQueue q i abUnresolved
      match ← look fun s => packetAt s.dev q i with
      | some p => do
        modPacket q i fun p => { p with nosig := p.nosig || p.stuck, stuck := false,
                                        lost := if p.stuck then p.lost else p.lost ++ [x.faultva.toNat] }
        if p.phase == 5 then due (.packetRetire q i) else pure ()
      | none => pure ()
    let _ ← takePeers key
    pure ()

/-- PRTAG of the records whose FADDR lies on a page (R450). -/
def tagRecords (key : PageKey) (tag : Nat) : Prog Unit :=
  letI := Prog.monad
  do
    let ws ← look fun s => s.cores.flatMap fun x => x.2.filter.flatMap fun e => if e.key == key then e.waiters else []
    each ws fun w => modGroup w.1 fun g =>
      { g with rr := Tbl.modify g.rr w.2 fun r => if onFaddr key r then r.withTag tag else r }
    each (upTo 0 4) fun die => modDie die fun d =>
      let tagged := fun (r : RrSlotState) => if engineWaits d key r && onFaddr key r then r.withTag tag else r
      { d with copyRr := Tbl.mapVals d.copyRr fun _ r => tagged r }

end Sys2Proof.Machine
end

