-- ==== Sys2Proof/Machine/Frames.lean ====
section
/-! DEFINITION. The page cache (R48 to R58, R464): frames and their shares, the second-chance hand, table frames, splinters,
handoffs, sector fills and evictions. Choices that the spec leaves open are in notes/assumptions/31.md. -/

namespace Sys2Proof.Machine

/-! ### Frames -/

/-- Die of a frame. -/
def frameDie (n : Nat) : Nat := n / 1048576

/-- A partition's share on a die, in frames (R48, R99). -/
def frameShare (d : Dev) (part die : Nat) : Nat := bits (partAt d part).pframes (8 * die) 8 * 16384

/-- Frames of a partition on a die. -/
def partFrames (d : Dev) (part die : Nat) : List (Nat × Frame) :=
  d.frames.filter fun x => x.2.part == part && frameDie x.1 == die

/-- Whether n bytes from an address lie in a frame, as far as they do. -/
def inFrame (frame lo n : Nat) : Bool := n != 0 && lo < 65536 * (frame + 1) && 65536 * frame < lo + n

/-- Entries of the ring: a power of two from 16 to 32,768, else 0. -/
def ringSize (p : Part) : Nat :=
  if [16, 32, 64, 128, 256, 512, 1024, 2048, 4096, 8192, 16384, 32768].contains p.tfrsize then p.tfrsize else 0

/-- A frame that holds tables whose place the host driver has given the device: the queue descriptors (R62), context tables
(R39), and rings of table frames (R58). -/
def tableFrame (d : Dev) (n : Nat) : Bool :=
  inFrame n d.qdtbase.toNat 0x100000 ||
  d.parts.any fun x => inFrame n x.2.ctxtbase.toNat (32 * x.2.ctxtcount) || inFrame n x.2.tfrbase.toNat (8 * ringSize x.2)

/-- A frame's directory entry: one that the host driver's tables take is private to partition 0 (R39, R48). -/
def frameAt (d : Dev) (n : Nat) : Option Frame :=
  match Tbl.find? d.frames n with
  | some f => some f
  | none => if tableFrame d n then
      some { blk := 0, part := 0, state := 1, refb := false, valid := 0, dirty := 0, leaf := [], up := [] } else none

/-- Whether a frame can be taken: it is free, and not being zeroed (R108). -/
def frameFree (d : Dev) (n : Nat) : Bool := (frameAt d n).isNone && !d.zeroingFrames.contains n

/-- Frames of a die that can be taken, from one of the device's choice on: as many as it takes to find one. -/
def freeFrom (d : Dev) (die start total : Nat) : Option Nat :=
  let tries := d.frames.length + d.zeroingFrames.length + 17 + 6 * d.parts.length
  if total == 0 then none
  else ((upTo start (min tries total)).map fun k => die * 1048576 + k % total).find? (frameFree d)

/-- A free frame of the partition's share on a die, of the device's choice; none when the share is in use. -/
def freeFrame (part die : Nat) : Prog (Option Nat) :=
  letI := Prog.monad
  do
    let d ← look fun s => s.dev
    let total := directoryStart d die / 65536
    if frameShare d part die ≤ (partFrames d part die).length || total == 0 then pure none
    else do
      let i ← fresh
      pure (freeFrom d die (Config.freeChoice i % total) total)

/-- A frame newly taken (R49). -/
def Frame.new (blk part state : Nat) : Frame :=
  { blk, part, state, refb := false, valid := 0, dirty := 0, leaf := [], up := [] }

/-- A frame is zeroed before its new owner can reach it (R108). -/
def zeroFrame (n : Nat) : Prog Unit :=
  Prog.bind (modDev fun d => { d with zeroingFrames := d.zeroingFrames.filter (· != n) ++ [n] }) fun _ =>
  due (.zeroingComplete (.frame n))

/-- Every byte of a frame becomes 0. -/
def wipeFrame (n : Nat) : Prog Unit := .get fun s =>
  each ((Tbl.keys s.mem).filter fun a => a / 65536 == n) fun a => emit (.byte a 0)

/-- A frame is taken for a partition: one that was another's is zeroed first (R108). -/
def takeFrame (n blk part state : Nat) : Prog Unit := .get fun s =>
  let old := Tbl.find? s.dev.frameOwner n
  Prog.bind (modDev fun d => { d with frames := Tbl.put d.frames n (Frame.new blk part state),
                                      frameOwner := Tbl.put d.frameOwner n part }) fun _ =>
  if old.any (· != part) then zeroFrame n else skip

/-- Storage that the host driver writes, or gives the device for tables, is a private allocation of partition 0, if its frame
was free (R48, DESIGN CHOICE, log 31). -/
def keepFrame (pa : Nat) : Prog Unit := .get fun s =>
  let n := pa / 65536
  if isLocal pa && paReachable s.dev pa && frameFree s.dev n then
    Prog.bind (modDev fun d => { d with frames := Tbl.put d.frames n (Frame.new 0 0 1),
                                        frameOwner := Tbl.put d.frameOwner n 0 }) fun _ =>
    if (Tbl.find? s.dev.frameOwner n).any (· != 0) then wipeFrame n else skip
  else skip

def modFrame (n : Nat) (f : Frame → Frame) : Prog Unit := modDev fun d => { d with frames := Tbl.modify d.frames n f }

/-- Frames that a waiting record keeps from the eviction hand (R131). -/
def guardedFrames (s : State) : List Nat :=
  (s.groups.flatMap fun g => g.2.rr.flatMap fun r => r.2.guards) ++
  (s.dies.flatMap fun d => d.2.copyRr.flatMap fun r => r.2.guards)

/-- The victim of the second-chance hand (R54), with the frames whose REFB it clears. -/
def handVictim (s : State) (part die : Nat) : Option (Nat × List Nat) :=
  let l := partFrames s.dev part die
  let pos := Tbl.getD (partAt s.dev part).hand die 0
  let ring := (l.filter fun x => pos ≤ x.1) ++ (l.filter fun x => x.1 < pos)
  let held := guardedFrames s
  let may := ring.filter fun x => x.2.state == 3 && !held.contains x.1
  let first := may.takeWhile (·.2.refb)
  match may.drop first.length with
  | x :: _ => some (x.1, first.map (·.1))
  | [] =>
    match may with
    | x :: _ => some (x.1, may.map (·.1))
    | [] => none

/-! ### Table frames (R58) -/

/-- Entries left in the ring. TFRHEAD and TFRTAIL count modulo SIZE, and the ring is empty where they are equal (DESIGN CHOICE,
log 31). -/
def ringLeft (p : Part) : Nat :=
  if ringSize p == 0 then 0 else (p.tfrtail.toNat + 2 ^ 32 - p.tfrhead.toNat) % ringSize p

/-- The table-reserve event, where fewer than 8 entries remain. -/
def noteReserve (part : Nat) : Prog Unit := .get fun s =>
  let left := ringLeft (partAt s.dev part)
  if left < 8 && ringSize (partAt s.dev part) != 0 then postCq (fnOfPart part) 0 (cqEntry left 0 part 0xFFFF 1 6) else skip

/-- The table frame that would be taken next: of the spare list, then of the ring. -/
def nextTable (s : State) (part : Nat) : Option Nat :=
  let p := partAt s.dev part
  match p.spare with
  | x :: _ => some x
  | [] => if ringLeft p == 0 then none else some (homeNat s (p.tfrbase.toNat + 8 * (p.tfrhead.toNat % ringSize p)) 8)

/-- Takes that table frame. -/
def takeTable (part : Nat) : Prog Unit :=
  letI := Prog.monad
  do
    let p ← look fun s => partAt s.dev part
    match p.spare with
    | _ :: rest => modPart part fun p => { p with spare := rest }
    | [] => do
      modPart part fun p => { p with tfrhead := BitVec.ofNat 32 ((p.tfrhead.toNat + 1) % ringSize p) }
      noteReserve part

/-- A replaced L0 table goes to the spare list, or back to the driver. -/
def releaseTable (part pa : Nat) : Prog Unit :=
  letI := Prog.monad
  do
    let p ← look fun s => partAt s.dev part
    if p.spare.length < 64 then modPart part fun p => { p with spare := p.spare ++ [pa] }
    else postCq (fnOfPart part) 0 (cqEntry pa 0 part 0xFFFF 2 6)

/-! ### The FLE's own walks (R122) -/

/-- An entry met by a walk: its value, its PA, the shift of its level, the PA of the entry above. -/
structure Site where
  e : Nat
  epa : Nat
  sh : Nat
  parent : Nat
deriving DecidableEq, Repr

/-- How a decision walk ends: at a leaf or a deferred leaf, for an address of that leaf's stage, with the stage-1 leaf above a
stage-2 one and whether its output is a PA of the device; with a fault and its address; or in a trap. -/
inductive Probe where
  | leaf (x : Site) (addr : Nat) (above : Option Nat)
  | deferred (x : Site) (addr : Nat) (host : Bool)
  | fault (cls addr : Nat)
  | trap (c : Cause)
  | disabled
  | wait
deriving DecidableEq, Repr

/-- A walk of one stage from a table: the kind of walk gives its fault class and its trap. `below` gives the PA of a table,
or the end of the walk. -/
def probeFrom (s2 host : Bool) (below : Nat → Prog (Except Probe Nat)) (addr table parent : Nat) (levels : List Nat) :
    Prog Probe :=
  letI := Prog.monad
  match levels with
  | [] => pure (.trap (if s2 then cS2Permission else cPermission))
  | sh :: rest => do
    match ← below table with
    | .error r => pure r
    | .ok t => do
      let epa := t + 8 * (addr / 2 ^ sh % 512)
      match ← readEntry epa with
      | none => pure .wait
      | some e => do
        let d ← look fun s => s.dev
        let x : Site := { e, epa, sh, parent }
        if poisoned d epa then pure (.trap cMemory)
        else match entryKind d e sh addr host with
          | .absent => pure (.fault (if s2 then 4 else 1) addr)
          | .deferred => pure (.deferred x addr host)
          | .bad => pure (.trap (if s2 then cS2Permission else cPermission))
          | .leaf => pure (.leaf x addr none)
          | .table => do
            if ← orHeld epa 0x80 then pure .wait
            else do
            orEntry epa 0x80
            probeFrom s2 host below addr (eOa e) epa rest

/-- The stage-2 walk of a guest PA. -/
def probeGuest (c : CtxDesc) (gpa : Nat) : Prog Probe :=
  letI := Prog.monad
  do
    let d ← look fun s => s.dev
    if 2 ^ 48 ≤ gpa || !paReachable d c.s2root then pure (.trap cS2Permission)
    else
      match ← probeFrom true true (fun t => .pure (.ok t)) gpa c.s2root 0 [39, 30, 21, 12] with
      | .leaf x a u =>
        pure (if paReachable d (leafPa x.e x.sh a) then .leaf x a u else .trap cS2Permission)
      | r => pure r

/-- PA of a stage-1 table: with two stages the table's own guest page may be the one that is missing. -/
def tablePa (c : CtxDesc) (t : Nat) : Prog (Except Probe Nat) :=
  letI := Prog.monad
  do
    if !c.s2en then pure (.ok t)
    else match ← probeGuest c t with
      | .leaf x a _ => do
        if ← orHeld x.epa 0x80 then pure (.error .wait)
        else do
          orEntry x.epa 0x80
          pure (.ok (leafPa x.e x.sh a))
      | r => pure (.error r)

/-- The decision walk of a page, through every stage of its context (R122). -/
def probePage (key : PageKey) : Prog Probe :=
  letI := Prog.monad
  do
    let s ← look id
    match readCtx s key.part key.ctx with
    | none => pure .disabled
    | some c =>
      let addr := key.page * 4096
      if key.s2 then (if c.s2en then probeGuest c addr else pure .disabled)
      else if 2 ^ 48 ≤ addr || (!c.s2en && !paReachable s.dev c.s1root) then pure (.trap cPermission)
      else match ← probeFrom false (!c.s2en) (tablePa c) addr c.s1root 0 [39, 30, 21, 12] with
        | .leaf x a u =>
          if !c.s2en then pure (if paReachable s.dev (leafPa x.e x.sh a) then .leaf x a u else .trap cPermission)
          else match ← probeGuest c (leafPa x.e x.sh a) with
            | .leaf y b _ => pure (.leaf y b (some x.e))
            | r => pure r
        | r => pure r

/-! ### Rewriting entries -/

/-- An entry with another output address. -/
def withOa (e oa : Nat) : Nat := e - eOa e + oa

/-- An entry made valid: V set, the deferred bit clear (R42). -/
def madeValid (e : Nat) : Nat := (if eV e then e else e + 1) - (if nbits e 63 1 == 1 then 2 ^ 63 else 0)

/-- An entry with its C bit set or clear. -/
def withC (e : Nat) (c : Bool) : Nat := if eC e == c then e else if c then e + 0x200 else e - 0x200

/-- Writes an entry by compare-and-swap against the value the walk gave; nothing else changes it within one event. -/
def writeEntry (epa e : Nat) : Prog Unit := homeWrite epa (bytesOf 8 e)

/-- Whether some of the lines must wait at their homes for a write (R59, R214). -/
def linesHeld (l : List Nat) : Prog Bool := anyOf l fun pa => holdsRequest pa true .once

/-- How a change of tables ends: done, waiting for a table frame, or for a line. -/
inductive Changed (α : Type) where
  | got (x : α)
  | hold
  | again

/-- What a change of tables answers its caller where it is not done. -/
def Changed.redo {α β : Type} (x : Changed α) : Changed β :=
  match x with
  | .hold => .hold
  | _ => .again

/-- Takes a table frame for a change that also writes some other entries. -/
def newTable (part : Nat) (entries : List Nat) : Prog (Changed Nat) :=
  letI := Prog.monad
  do
    match ← look fun s => nextTable s part with
    | none => pure .hold
    | some t =>
      if ← linesHeld (entries ++ (upTo 0 32).map fun k => t + 128 * k) then pure .again
      else do
        takeTable part
        keepFrame t
        pure (.got t)

/-- The leaves of a replaced table are those of the new one (R49, R54): LEAFPTRs and moves follow. -/
def rehomeLeaves (old new : Nat) : Prog Unit :=
  let go := fun (a : Nat) => if a / 4096 * 4096 == old then new + a % 4096 else a
  modDev fun d => { d with
    frames := Tbl.mapVals d.frames (fun _ f => { f with leaf := Tbl.mapVals f.leaf fun _ a => go a }),
    moves := d.moves.map fun m => { m with leaves := m.leaves.map go } }

/-- A table swap (R56): a copy of an L0 table with the group of a leaf rewritten takes the table's place. Answers the leaf's
site in it. -/
def swapTable (part : Nat) (x : Site) (f : Nat → Nat) : Prog (Changed Site) :=
  letI := Prog.monad
  do
    match ← newTable part [x.parent] with
    | .got t => do
      let old := x.epa / 4096 * 4096
      let first := x.epa / 128 * 128
      let es ← look fun s => (upTo 0 512).map fun k =>
        let e := homeNat s (old + 8 * k) 8
        if first ≤ old + 8 * k && old + 8 * k < first + 128 then f e else e
      homeWrite t (es.flatMap (bytesOf 8))
      let pe ← look fun s => homeNat s x.parent 8
      writeEntry x.parent (withOa pe t)
      releaseTable part old
      rehomeLeaves old t
      pure (.got { e := f x.e, epa := t + x.epa % 4096, sh := 12, parent := x.parent })
    | r => pure r.redo

/-- The entries of the table that replaces a leaf (R56). -/
def splitEntries (x : Site) : List Nat :=
  let step := if x.sh == 30 then 0x200000 else 4096
  (upTo 0 512).map fun k => withC (withOa x.e (eOa x.e + k * step)) (x.sh == 21)

/-- Splinters a leaf once (R56): the new table, the parent, the invalidation. -/
def splinterOnce (part : Nat) (x : Site) (addr : Nat) : Prog (Changed Site) :=
  letI := Prog.monad
  do
    if x.sh == 12 then
      match ← swapTable part x fun e => withC e false with
      | .got y => do
        let lo := eOa x.e / 65536 * 65536
        invalOutput part lo (lo + 65536) [x.epa / 4096 * 4096] []
        pure (.got y)
      | r => pure r
    else
      match ← newTable part [x.epa] with
      | .got t => do
        let sh := if x.sh == 30 then 21 else 12
        let es := splitEntries x
        homeWrite t (es.flatMap (bytesOf 8))
        writeEntry x.epa (1 + nbits x.e 7 1 * 0x80 + t)
        invalOutput part (eOa x.e) (eOa x.e + 2 ^ x.sh) [] [x.epa]
        let k := addr / 2 ^ sh % 512
        pure (.got { e := nthD es k 0, epa := t + 8 * k, sh, parent := x.epa })
      | r => pure r.redo

/-- Splinters down to one 4 KiB entry outside any C group. -/
def splinter (part : Nat) (x : Site) (addr fuel : Nat) : Prog (Changed Site) :=
  letI := Prog.monad
  match fuel with
  | 0 => pure (.got x)
  | fuel + 1 => do
    if x.sh == 12 && !eC x.e then pure (.got x)
    else match ← splinterOnce part x addr with
      | .got y => splinter part y addr fuel
      | r => pure r

/-! ### Sorus bookkeeping -/

/-- A slot frees when every page in it is resolved, requested or unresolved (R122); pages, hints and stages that waited for
a slot enter (R120). -/
def freeSori : Prog Unit :=
  letI := Prog.monad
  do
    let l ← look fun s => s.dev.fle.sori
    let keep := l.filter fun x => x.2.state == 1 || x.2.pages.any fun p => p.doneSt == 0
    if keep.length == l.length then pure ()
    else do
      modDev fun d => { d with fle := { d.fle with sori := keep } }
      each (upTo 0 4) fun die => do
        let es ← look fun s => (dieAt s die).stage.filter fun e => !e.sent
        each es fun e => due (.flePageArrival die e.key.code)
      let hs ← look fun s => s.dev.fle.hints
      each hs fun h => due (.fleHintArrival h.1)
      due .sorusProcess

/-- Changes the entries of a page that are still to be decided. -/
def modPages (key : PageKey) (f : FlePage → FlePage) : Prog Unit :=
  let upd := fun (p : FlePage) => if p.key == key && p.doneSt == 0 then f p else p
  modDev fun d =>
    let sori := Tbl.mapVals d.fle.sori fun _ x => { x with pages := x.pages.map upd }
    { d with fle := { d.fle with sori } }

/-- DONE of a page: 01 resolved or dropped, 10 requested, 11 unresolved. -/
def settlePage (key : PageKey) (st : Nat) : Prog Unit :=
  Prog.bind (modPages key fun p => { p with doneSt := st, held := false }) fun _ => freeSori

/-- Pages that were held are decided again. -/
def releaseHeld : Prog Unit :=
  letI := Prog.monad
  do
    modDev fun d =>
      let open_ := fun (p : FlePage) => { p with held := false }
      let sori := Tbl.mapVals d.fle.sori fun _ x => { x with pages := x.pages.map open_ }
      { d with fle := { d.fle with sori } }
    due .sorusProcess

/-! ### Moves -/

def modMove (id : Nat) (f : Move → Move) : Prog Unit :=
  modDev fun d => { d with moves := d.moves.map fun m => if m.id == id then f m else m }

/-- A move leaves once it has been handed off and its invalidation has completed. -/
def endMove (id : Nat) : Prog Unit :=
  modDev fun d => { d with moves := d.moves.filter fun m => !(m.id == id && (m.kind == 2 || 3 ≤ m.step) && m.inval) }

/-- Sectors of a frame that leaves map and that are not yet filled. -/
def unfilled (d : Dev) (n : Nat) : List Nat :=
  (Tbl.find? d.frames n).elim [] fun f => (Tbl.keys f.leaf).filter fun k => !f.valid.getLsbD k

/-- Starts the move of sectors into a frame (R52 step 2): the invalidation, and the handoff if the block has not been
handed over. -/
def startMove (key : PageKey) (n sector : Nat) (ranges : List (Nat × Nat)) (tables leaves : List Nat) : Prog Unit :=
  letI := Prog.monad
  do
    let d ← look fun s => s.dev
    let id ← newId
    let started := d.frames.any (fun y => y.1 == n && y.2.state == 3) ||
      d.moves.any fun m => m.kind == 0 && m.frame == n && 3 ≤ m.step
    let handing := d.moves.any fun m => m.kind == 0 && m.frame == n && m.handing
    let m : Move := { id, part := key.part, kind := 0, frame := n, sector, step := if started then 3 else 2, handing, ranges,
                      tables, leaves, inval := false, key := some key }
    modDev fun d => { d with moves := d.moves ++ [m] }
    (if started then
       each (unfilled d n) fun k => due (.sectorFillComplete n k)
     else due (.pageHandoff id))
    due (.deviceTlbInvalDone id)

/-- Maps a page to its sector of a frame (R52 step 2): leaf, LEAFPTR, and the move. -/
def mapLocal (key : PageKey) (x : Site) (n : Nat) : Prog (Changed Unit) :=
  letI := Prog.monad
  do
    if ← linesHeld [x.epa] then pure .again
    else do
      let k := sectorOf (eOa x.e)
      let blk ← look fun s => (Tbl.find? s.dev.frames n).elim 0 (·.blk)
      writeEntry x.epa (withOa (madeValid x.e) (n * 65536 + k * 4096))
      modFrame n fun f => { f with leaf := Tbl.put f.leaf k x.epa, up := Tbl.put f.up k x.parent }
      startMove key n k [(blockPa blk k, blockPa blk k + 4096)] [] [x.epa]
      pure (.got ())

/-- Maps a whole C group to a frame, by a table swap (R52 step 2, R56). -/
def mapGroup (key : PageKey) (x : Site) (n : Nat) : Prog (Changed Unit) :=
  letI := Prog.monad
  do
    let lo := eOa x.e / 65536 * 65536
    match ← swapTable key.part x fun e => withOa (madeValid e) (n * 65536 + sectorOf (eOa e) * 4096) with
    | .got y => do
      let first := y.epa / 128 * 128
      modFrame n fun f => { f with leaf := (upTo 0 16).map fun k => (k, first + 8 * k),
                                   up := (upTo 0 16).map fun k => (k, x.parent) }
      startMove key n (sectorOf (eOa x.e)) [(lo, lo + 65536)] [x.epa / 4096 * 4096] ((upTo 0 16).map fun k => first + 8 * k)
      pure (.got ())
    | r => pure r.redo

/-- A deferred leaf is made valid with its pool OA by compare-and-swap; a C group whole, by a table swap (R56, R122). -/
def mapRemote (key : PageKey) (x : Site) : Prog (Changed Unit) :=
  letI := Prog.monad
  do
    if x.sh == 12 && eC x.e then
      match ← swapTable key.part x madeValid with
      | .got _ => do
        let id ← newId
        let lo := eOa x.e / 65536 * 65536
        let m : Move := { id, part := key.part, kind := 2, frame := 0, sector := 0, step := 3, handing := false,
                          ranges := [(lo, lo + 65536)], tables := [x.epa / 4096 * 4096], leaves := [], inval := false,
                          key := some key }
        modDev fun d => { d with moves := d.moves ++ [m] }
        due (.deviceTlbInvalDone id)
        pure (.got ())
      | r => pure r.redo
    else if ← linesHeld [x.epa] then pure .again
    else do
      writeEntry x.epa (madeValid x.e)
      resolvePage key none
      settlePage key 1
      pure (.got ())

/-- Leaves of a frame that still map its sectors: sector, PA of the entry, its value. -/
def liveLeaves (s : State) (n : Nat) (f : Frame) : List (Nat × Nat × Nat) :=
  f.leaf.filterMap fun l =>
    let e := homeNat s l.2 8
    if eV e && eOa e == n * 65536 + l.1 * 4096 then some (l.1, l.2, e) else none

/-- The leaves of a frame return to their pool OA (R54 step 2): a whole C group by a table swap, each other one by
compare-and-swap. Answers the tables replaced and the leaves rewritten. -/
def unmapFrame (n : Nat) (f : Frame) : Prog (Changed (List Nat × List Nat)) :=
  letI := Prog.monad
  do
    let s ← look id
    let back := fun (e : Nat) => withOa e (blockPa f.blk (sectorOf (eOa e)))
    let live := liveLeaves s n f
    match live.find? fun x => eC x.2.2 with
    | some (k, epa, e) =>
      match ← swapTable f.part { e, epa, sh := 12, parent := Tbl.getD f.up k 0 } back with
      | .got y => pure (.got ([epa / 4096 * 4096], (upTo 0 16).map fun j => y.epa / 128 * 128 + 8 * j))
      | r => pure r.redo
    | none =>
      if ← linesHeld (live.map fun x => x.2.1) then pure .again
      else do
        each live fun x => writeEntry x.2.1 (back x.2.2)
        pure (.got ([], live.map fun x => x.2.1))

/-- Starts the eviction of a frame (R54 steps 1 and 2). -/
def startEvict (n : Nat) : Prog (Changed Unit) :=
  letI := Prog.monad
  do
    match ← look fun s => Tbl.find? s.dev.frames n with
    | none => pure (.got ())
    | some f =>
      match ← unmapFrame n f with
      | .got (tables, leaves) => do
        modFrame n fun f => { f with state := 4 }
        let id ← newId
        let m : Move := { id, part := f.part, kind := 1, frame := n, sector := 0, step := 2, handing := false,
                          ranges := [(n * 65536, n * 65536 + 65536)], tables, leaves, inval := false, key := none }
        modDev fun d => { d with moves := d.moves ++ [m] }
        due (.pageHandoff id)
        due (.deviceTlbInvalDone id)
        pure (.got ())
      | r => pure r.redo

/-- A frame for a block (R52 step 1, R55): a free one of the share; or later, once a victim has been evicted; or none. -/
def obtainFrame (part die blk : Nat) : Prog (Changed (Option Nat)) :=
  letI := Prog.monad
  do
    match ← freeFrame part die with
    | some n => do
      takeFrame n blk part 2
      pure (.got (some n))
    | none => do
      let s ← look fun s => s
      match handVictim s part die with
      | none => pure (.got none)
      | some (n, cleared) =>
        match ← startEvict n with
        | .got _ => do
          each cleared fun k => modFrame k fun f => { f with refb := false }
          modPart part fun p => { p with hand := Tbl.put p.hand die (n + 1) }
          pure .hold
        | r => pure r.redo

/-! ### Lines and watches that follow a page -/

/-- Whether a line lies in n bytes from an address. -/
def lineIn (lo n line : Nat) : Bool := lo ≤ 128 * line && 128 * line < lo + n

/-- The page flush of a handoff (R223): every L1 and RDC writes its dirty bytes of the range to the old home and drops every copy
of its lines. Bytes in L1 are newer than those that the core sent to the RDC before. -/
def flushRange (lo n : Nat) : Prog Unit :=
  letI := Prog.monad
  do
    each (upTo 0 4) fun die => do
      let l ← look fun s => (dieAt s die).rdc.filter fun x => lineIn lo n (rdcLine x.1)
      each l fun x => homeWriteMasked (128 * rdcLine x.1) x.2.data x.2.dirty
      modDie die fun d => { d with rdc := d.rdc.filter fun x => !lineIn lo n (rdcLine x.1) }
    let cs ← look fun s => Tbl.keys s.cores
    each cs fun core => do
      let l ← look fun s => (coreAt s core).l1.filter fun x => lineIn lo n (x.1 / 2)
      each l fun x => homeWriteMasked (x.1 / 2 * 128) x.2.data x.2.dirty
      modCore core fun c => { c with l1 := c.l1.filter fun x => !lineIn lo n (x.1 / 2) }

/-- Stores that the cores have taken for a page between its handoff and the fill or the write-back follow it to its new PA. -/
def rekeyLines (src dst : Nat) : Prog Unit :=
  letI := Prog.monad
  do
    let place := fun (line : Nat) => line + dst / 128 - src / 128
    let cs ← look fun s => Tbl.keys s.cores
    each cs fun core => modCore core fun c =>
      let (mine, rest) := c.l1.partition fun x => lineIn src 4096 (x.1 / 2)
      { c with l1 := mine.foldl (fun l x => Tbl.put l (2 * place (x.1 / 2) + x.1 % 2) x.2) rest }
    each (upTo 0 4) fun die => modDie die fun d =>
      let (mine, rest) := d.rdc.partition fun x => lineIn src 4096 (rdcLine x.1)
      { d with rdc := mine.foldl (fun l x => Tbl.put l (rdcKey (place (rdcLine x.1)) (x.1 % 16)) x.2) rest }

/-- Predictors and sharer records of some storage are lost with the lines of its old home (R215). -/
def dropLineState (lo n : Nat) : Prog Unit :=
  let inside := fun (a : Nat) => lo ≤ a && a < lo + n
  modDev fun d => { d with predict := d.predict.filter (fun x => !inside x.1), sharers := d.sharers.filter fun x => !inside (x.1 * 128) }

/-- The wait of a group's split on a watch: its word's PA, and whether it polls from now on (R86, R400). -/
def Group.rehomeWait (g : Group) (id pa : Nat) (polled : Bool) (at_ : Nat) : Group :=
  let go := fun (e : Entry) => match e.wait with
    | .watch i _ w8 mask c comp p lanes sc dl poll t next =>
      if i == id then
        { e with wait := .watch i pa w8 mask c comp p lanes sc dl (poll || polled) (if polled && !poll then at_ else t) next }
      else e
    | _ => e
  { g with entries := Tbl.mapVals g.entries fun _ e => go e, suspended := Tbl.mapVals g.suspended fun _ e => go e }

/-- One watch at its word's new home: an entry of the slice, or polling (R86). One that polls goes on polling. -/
def rehomeWatch (w : Watch) (pa : Nat) : Prog Unit :=
  letI := Prog.monad
  do
    let d ← look fun s => s.dev
    let sl := sliceOf d pa
    let others : Dev := { d with watches := d.watches.filter (·.id != w.id) }
    let free := freeBelow 128 (sliceUse others sl)
    let polled := w.polled || free.isNone || (partAt d w.part).pwatch.toNat % 256 ≤ partUse others sl w.part
    let w1 : Watch := { w with pa, slice := sl, entry := free.getD 0, polled }
    modDev fun d => { d with watches := d.watches.map fun x => if x.id == w.id then w1 else x }
    let now ← look hubClock
    (if w.kind == 0 then modGroup w.token fun g => g.rehomeWait w.id pa polled (now + 1024) else pure ())
    if polled && !w.polled && w.kind != 0 then due (.watchPoll w.id) else pure ()

/-- Watches on a pool block, or on the frame that holds it, go to its new home (R86). They name their words by pool PA. -/
def rehomeWatches (blk frame : Nat) : Prog Unit :=
  letI := Prog.monad
  do
    let ws ← look fun s => s.dev.watches.filter fun w =>
      (isPool w.pa && poolBlock w.pa == blk) || (isLocal w.pa && w.pa / 65536 == frame)
    each ws fun w => rehomeWatch w (blockPa blk (sectorOf w.pa) + w.pa % 4096)

/-- A lease is held on some line of a range of storage. -/
def leasedIn (d : Dev) (lo n : Nat) : Bool :=
  d.leases.any fun x => x.2.holder.isSome && lo ≤ x.1 && x.1 < lo + n

/-! ### The events -/

/-- PAGE_HANDOFF (R52 step 3, R54 step 3, R223, R444): requests from now on wait for the new home; once no lease on a line is
held and the lines can be reached, the copies are flushed and the old home has given everything over. -/
def execPageHandoff (id : Nat) (s : State) : Out :=
  (letI := Prog.monad
   do
    let d ← look fun s => s.dev
    match d.moves.find? (fun (m : Move) => m.id == id) with
    | none => pure ()
    | some m =>
      match Tbl.find? d.frames m.frame with
      | none => pure ()
      | some f =>
        let lo := if m.kind == 0 then blockPa f.blk 0 else m.frame * 65536
        let same := fun (x : Move) => x.frame == m.frame && x.kind == m.kind
        if m.kind == 2 || 3 ≤ m.step then pure ()
        else do
          modDev fun d => { d with moves := d.moves.map fun x => if same x then { x with handing := true } else x }
          if leasedIn d lo 65536 || awaitsPort d lo then due (.pageHandoff id)
          else do
            flushRange lo 65536
            modDev fun d => { d with moves := d.moves.map fun x => if same x then { x with step := 3 } else x }
            dropLineState lo 65536
            rehomeWatches f.blk m.frame
            if m.kind == 0 then do
              modDev fun d => { d with counters := d.counters.filter fun x =>
                !(isPool (x.1 * 4096) && poolBlock (x.1 * 4096) == f.blk) }
              let ks ← look fun s => unfilled s.dev m.frame
              each ks fun k => due (.sectorFillComplete m.frame k)
              let ms : List Move ← look fun s => s.dev.moves.filter same
              each ms fun x => endMove x.id
            else due (.evictionWritebackDone m.frame)).outcome s

/-- A sector takes the poison of what it is filled with (R21, R26). -/
def movePoison (l : Tbl (BitVec 4096)) (sector : Nat) (bad : Option (BitVec 4096)) : Tbl (BitVec 4096) :=
  match bad with
  | some b => Tbl.put l sector b
  | none => Tbl.del l sector

/-- SECTOR_FILL_COMPLETE (R52 step 4, R444): once the frame is zeroed the sector takes the pool's bytes, and its poison, and is
valid. -/
def execSectorFillComplete (frame sector : Nat) (s : State) : Out :=
  (letI := Prog.monad
   do
    let s ← look fun x => x
    match Tbl.find? s.dev.frames frame with
    | none => pure ()
    | some f =>
      if !(f.state == 2 || f.state == 3) || f.valid.getLsbD sector || !blockServed s.dev frame || 16 ≤ sector then pure ()
      else if s.dev.zeroingFrames.contains frame then due (.sectorFillComplete frame sector)
      else do
        let src := blockPa f.blk sector
        let dst := frame * 65536 + sector * 4096
        each (upTo 0 4096) fun o => emit (.byte (dst + o) (s.mem.get (src + o)))
        let bad := if s.dev.poolPorts == 0 then some 0 else Tbl.find? s.dev.poison (src / 4096)
        modDev fun d => { d with poison := movePoison d.poison (dst / 4096) bad }
        modFrame frame fun f => { f with valid := setBit f.valid sector, dirty := clearBit f.dirty sector }
        rekeyLines src dst).outcome s

/-- DEVICE_TLB_INVAL_DONE (R464, R52 step 5): no structure holds an entry any more, and the page is resolved. -/
def execDeviceTlbInvalDone (id : Nat) (s : State) : Out :=
  (letI := Prog.monad
   do
    match ← look fun s => s.dev.moves.find? (fun (m : Move) => m.id == id) with
    | none => pure ()
    | some m =>
      if m.inval then pure ()
      else do
        each m.ranges fun r => invalOutput m.part r.1 r.2 m.tables m.leaves
        modMove id fun m => { m with inval := true }
        (if m.kind == 0 then modFrame m.frame fun f => { f with state := if f.state == 2 then 3 else f.state } else pure ())
        (match m.key with
         | some key => do
           resolvePage key (if m.kind == 0 then some m.frame else none)
           settlePage key 1
         | none => pure ())
        (if m.kind == 1 then due (.evictionWritebackDone m.frame) else pure ())
        (if m.kind == 1 then pure () else endMove id)).outcome s

/-- A sector's bytes and poison return to the pool (R54 step 4). A write that no port takes is lost and poisons (R26). -/
def writeBackSector (s : State) (f : Frame) (frame sector : Nat) : Prog Unit :=
  letI := Prog.monad
  do
    let dst := blockPa f.blk sector
    let src := frame * 65536 + sector * 4096
    if s.dev.poolPorts == 0 then poisonSector dst
    else do
      each (upTo 0 4096) fun o => emit (.byte (dst + o) (s.mem.get (src + o)))
      modDev fun d => { d with poison := movePoison d.poison (dst / 4096) (Tbl.find? d.poison (src / 4096)) }

/-- EVICTION_WRITEBACK_DONE (R54 steps 4 and 5): dirty sectors are in the pool and the frame is free. -/
def execEvictionWritebackDone (frame : Nat) (s : State) : Out :=
  (letI := Prog.monad
   do
    let s ← look fun x => x
    match Tbl.find? s.dev.frames frame, s.dev.moves.find? (fun (m : Move) => m.kind == 1 && m.frame == frame) with
    | some f, some m =>
      if m.step < 3 || !m.inval then pure ()
      else do
        each ((upTo 0 16).filter fun k => f.dirty.getLsbD k) (writeBackSector s f frame)
        each ((upTo 0 16).filter fun k => f.valid.getLsbD k) fun k => rekeyLines (frame * 65536 + k * 4096) (blockPa f.blk k)
        modDev fun d => { d with
          frames := Tbl.del d.frames frame, moves := d.moves.filter (·.id != m.id),
          poison := d.poison.filter fun x => x.1 / 16 != frame }
        releaseHeld
    | _, _ => pure ()).outcome s

/-- A register of a ring of table frames has been written: the reserve event, and what waited for a frame goes on (R58). -/
def ringWritten (part : Nat) : Prog Unit := Prog.bind (noteReserve part) fun _ => releaseHeld

/-- TFRTAIL_WRITE (R58): the driver has filled the ring. -/
def execTfrtailWrite (part : Nat) (v : BitVec 32) (s : State) : Out :=
  (fromHost (Prog.bind (modPart part fun p => { p with tfrtail := v }) fun _ => ringWritten part)).outcome s

/-- Cycles of the hub in 1 ms (R50). -/
def decayPeriod : Nat := 2500000

/-- Whether the counters are due to decay. -/
def decayDue (s : State) : Bool := s.dev.decayed + decayPeriod ≤ hubClock s

/-- ACCESS_COUNTER_DECAY (R50): every 1 ms every counter shifts right by one. -/
def execAccessCounterDecay (s : State) : Out :=
  (.get fun s => if !decayDue s then skip else modDev fun d =>
    let half := Tbl.mapVals d.counters fun _ l => l.map (· / 2)
    { d with counters := half.filter (fun x => x.2.any (· != 0)), decayed := d.decayed + decayPeriod } : Prog Unit).outcome s

end Sys2Proof.Machine
end

