-- ==== Sys2Proof/Machine/Fle.lean ====
section
/-! DEFINITION. The Fulling Engine (R118 to R130, R462, R463): cluster stages, sori, predictions, decisions, page requests and
replies. What the spec leaves open is in notes/assumptions/32.md. -/

namespace Sys2Proof.Machine

/-! ### Pages in sori -/

/-- A page entry with no waiters (R121, R123, R124). -/
def FlePage.bare (key : PageKey) : FlePage :=
  { key, acc := 0, cls := 0, pred := true, doneSt := 0, waits := [0, 0, 0, 0], hv := false, hdie := 0, tries := 0,
    held := false, gpage := none }

/-- Whether the page has an entry in a slot, or waits for one to free (R120). -/
def inSorus (f : Fle) (key : PageKey) : Bool :=
  (f.sori.any fun x => x.2.pages.any fun p => p.key == key) || f.queue.any fun p => p.key == key

/-- Whether the page awaits a page request. -/
def awaits (f : Fle) (key : PageKey) : Bool := f.reqs.any fun (r : PageReq) => r.page.key == key

/-- The open slot. -/
def openSorus (f : Fle) : Option (Nat × Sorus) := f.sori.find? fun x => x.2.state == 1

/-- Closes an open slot (R120). -/
def closeSorus (n : Nat) : Prog Unit :=
  letI := Prog.monad
  do
    modDev fun d =>
      let sori := Tbl.modify d.fle.sori n fun x => { x with state := 2, order := d.fle.order }
      { d with fle := { d.fle with order := d.fle.order + 1, sori } }
    freeSori
    due .sorusProcess

/-- A page enters the open sorus, or opens the lowest free slot; false while none is free. A sorus that holds 64 pages
closes, but not by a prediction (R120, R124). -/
def enterSorus (p : FlePage) (closes : Bool) : Prog Bool :=
  letI := Prog.monad
  do
    let f ← look fun s => s.dev.fle
    (match openSorus f with
     | some (n, x) => if 64 ≤ x.pages.length then closeSorus n else pure ()
     | none => pure ())
    let f ← look fun s => s.dev.fle
    match openSorus f with
    | some (n, x) => do
      modDev fun d =>
        let sori := Tbl.put d.fle.sori n { x with pages := x.pages ++ [p] }
        { d with fle := { d.fle with sori } }
      (if closes && 64 ≤ x.pages.length + 1 then closeSorus n else pure ())
      pure true
    | none =>
      match freeBelow 32 (Tbl.keys f.sori) with
      | none => pure false
      | some n => do
        let now ← look hubClock
        modDev fun d =>
          let sori := Tbl.put d.fle.sori n { state := 1, opened := now, order := 0, pages := [p] }
          { d with fle := { d.fle with sori } }
        pure true

/-- Changes the entry of a page wherever it stands; an entry already decided is decided again. -/
def joinPage (key : PageKey) (f : FlePage → FlePage) : Prog Unit :=
  letI := Prog.monad
  do
    modDev fun d =>
      let upd := fun (p : FlePage) =>
        if p.key == key then
          let q := f p
          { q with doneSt := if p.doneSt == 2 && awaits d.fle key then 2 else 0 }
        else p
      let inReq := fun (r : PageReq) => if r.page.key == key then { r with page := f r.page } else r
      let sori := Tbl.mapVals d.fle.sori fun _ x => { x with pages := x.pages.map upd }
      { d with fle := { d.fle with sori, reqs := d.fle.reqs.map inReq, queue := d.fle.queue.map upd } }
    due .sorusProcess

/-! ### The stages -/

/-- CLUSTER_STAGE_PAGE (R118, R119): a core's new page reaches the die's stage, or waits while its 256 entries are in use. -/
def execClusterStagePage (core page : Nat) (s : State) : Out :=
  (letI := Prog.monad
   do
    let l ← look fun s => (coreAt s core).filter
    let st ← look fun s => (dieAt s (dieOf core)).stage
    match l.find? (fun (e : FilterEntry) => e.key.code == page && !e.sent) with
    | none => pure ()
    | some e =>
      if 256 ≤ st.length && !(st.any fun x => x.key == e.key) then pure ()
      else do
        modCore core fun c =>
          let sentOff := fun (x : FilterEntry) => if x.key == e.key then { x with sent := true } else x
          { c with filter := c.filter.map sentOff }
        stagePage (dieOf core) e.key e.cls e.acc e.waiters.length false).outcome s

/-- Whether a core of the die asked for the page with a migration hint (R398). -/
def hinted (s : State) (die : Nat) (key : PageKey) : Bool :=
  s.cores.any fun x => dieOf x.1 == die && x.2.filter.any fun e => e.key == key && e.hint

/-- What a stage entry adds to a page. -/
def FlePage.add (p : FlePage) (die : Nat) (e : StageEntry) (hint : Bool) : FlePage :=
  { p with acc := p.acc ||| e.acc, waits := setNth p.waits die e.count, pred := p.pred && e.count == 0,
           cls := if p.pred then e.cls else p.cls, hv := p.hv || hint, hdie := if hint then die else p.hdie }

/-! ### Neighbour prediction (R124 to R126) -/

/-- Records of a unit that wait on a page, with the die they are on. -/
def recordsOn (s : State) (key : PageKey) : List (Nat × RrSlotState) :=
  (s.cores.flatMap fun x => x.2.filter.flatMap fun e =>
    if e.key == key then e.waiters.filterMap fun w =>
      ((Tbl.find? s.groups w.1).bind fun g => Tbl.find? g.rr w.2).map fun r => (dieOf x.1, r)
    else []) ++
  (s.dies.flatMap fun x => (x.2.copyRr.filter fun r => engineWaits x.2 key r.2).map fun r => (x.1, r.2))

/-- A predicted page enters the open sorus while it has room, unless the page is already there or its leaf is valid (R124). -/
def predictPage (key : PageKey) : Prog Unit :=
  letI := Prog.monad
  do
    let f ← look fun s => s.dev.fle
    match openSorus f with
    | none => pure ()
    | some (_, x) =>
      if 64 ≤ x.pages.length || inSorus f key || awaits f key then pure ()
      else match ← probePage key with
        | .leaf .. => pure ()
        | _ => do
          let _ ← enterSorus (FlePage.bare key) false
          pure ()

/-- Pages a parked copy of OP 0 or 1 will touch next (R124): of its context, whatever the class of its fault. -/
def sequelKeys (s : State) (key : PageKey) : List PageKey :=
  let want := min 4 (bits s.dev.fle.pol 12 3)
  if !s.dev.fle.pol.getLsbD 16 then []
  else (recordsOn s key).flatMap fun x =>
    if x.2.unit != 2 then []
    else match (upTo 0 4).findSome? fun die => findCmd s die true x.2.cmd with
      | some c => (sequelPages c x.2 want).map fun p => { key with page := p, s2 := false }
      | none => []

/-- The agent of the FLE's own reads: context 0 of a partition (R125). -/
def fleAgent (s : State) (part : Nat) : Agent :=
  { part, ctxidx := 0, asid := (readCtx s part 0).elim 0 (·.asid), core := none, die := none }

/-- A directory slot that serves an address of a context: TMAPVA, BASE and PAGES. -/
def slotServes (w : Nat) (ctx addr : Nat) : Option (Nat × Nat × Nat) :=
  let tmap := nbits w 192 64
  let base := nbits w 64 64
  let pages := nbits w 32 32
  if nbits w 0 1 == 1 && nbits w 128 64 == 0 && nbits w 16 16 == 0 && nbits w 1 7 == 0 && tmap % 32 == 0 &&
      base % 65536 == 0 && 1 ≤ pages && pages ≤ 2 ^ 24 && nbits w 8 8 == ctx && base ≤ addr && addr < base + 65536 * pages
  then some (tmap, base, pages) else none

/-- The lowest slot of a directory that matches; a read that faults ends the search. -/
def findSlot (a : Agent) (dir ctx addr : Nat) (slots : List Nat) : Prog (Option (Nat × Nat × Nat)) :=
  letI := Prog.monad
  match slots with
  | [] => pure none
  | n :: rest => do
    match ← cdpRead a (dir + 32 * n) 32 with
    | .ok w =>
      match slotServes w ctx addr with
      | some x => pure (some x)
      | none => findSlot a dir ctx addr rest
    | _ => pure none

/-- Pages that the topology map names for a TRU fault at an address (R126). -/
def mapPages (key : PageKey) (addr : Nat) : Prog (List PageKey) :=
  letI := Prog.monad
  do
    let dir ← look fun s => (fnAt s.dev (fnOfPart key.part)).tmapdir.toNat
    let a ← look fun s => fleAgent s key.part
    if dir == 0 || dir % 4096 != 0 then pure []
    else match ← findSlot a dir key.ctx addr (upTo 0 64) with
      | none => pure []
      | some (tmap, base, pages) => do
        match ← cdpRead a (tmap + 32 * ((addr - base) / 65536)) 32 with
        | .ok w => pure (((upTo 0 8).map fun k => nbits w (32 * k) 32).filterMap fun i =>
            if i == 0xFFFFFFFF || 16 * pages ≤ i then none else some { key with page := base / 4096 + i })
        | _ => pure []

/-- Predictions that follow from a page with waiters. -/
def predictFrom (key : PageKey) : Prog Unit :=
  letI := Prog.monad
  do
    let seq ← look fun s => sequelKeys s key
    each seq predictPage
    let tru ← look fun s => (recordsOn s key).filter fun x => x.2.unit == 6
    let on ← look fun s => s.dev.fle.pol.getLsbD 15
    if on && !key.s2 then each tru fun x => do
      let l ← mapPages key (bits (nthD x.2.words 2 0) 0 52)
      each l predictPage
    else pure ()

/-- FLE_PAGE_ARRIVAL (R120): the page joins its entry, enters the open sorus or opens one; the stage keeps it while no slot
is free. -/
def execFlePageArrival (die page : Nat) (s : State) : Out :=
  (letI := Prog.monad
   do
    let st ← look fun s => (dieAt s die).stage
    match st.find? (fun (e : StageEntry) => e.key.code == page) with
    | none => pure ()
    | some e => do
      let hint ← look fun s => hinted s die e.key
      let f ← look fun s => s.dev.fle
      let again := inSorus f e.key || awaits f e.key
      let entered ← if again then do
          joinPage e.key fun p => p.add die e hint
          (match ← look fun s => awaitedTag s.dev e.key with
           | some tag => tagRecords e.key tag
           | none => pure ())
          pure true
        else enterSorus ((FlePage.bare e.key).add die e hint) true
      if entered then do
        modDie die fun d =>
          let sentOff := fun (x : StageEntry) => if x.key == e.key then { x with sent := true } else x
          { d with stage := d.stage.map sentOff }
        predictFrom e.key
      else pure ()).outcome s

/-- FLE_HINT_ARRIVAL (R123): HV and HDIE of the page's entry, or a hint entry. -/
def execFleHintArrival (id : Nat) (s : State) : Out :=
  (letI := Prog.monad
   do
    let f ← look fun s => s.dev.fle
    match f.hints.find? (fun (h : Nat × PageKey × Nat × Bool) => h.1 == id) with
    | none => pure ()
    | some (_, key, die, _) => do
      let mark := fun (p : FlePage) => { p with hv := true, hdie := die }
      let entered ← if inSorus f key || awaits f key then do
          joinPage key mark
          pure true
        else enterSorus (mark (FlePage.bare key)) true
      if entered then modDev fun d =>
        let hints := d.fle.hints.filter fun (h : Nat × PageKey × Nat × Bool) => h.1 != id
        { d with fle := { d.fle with hints } }
      else pure ()).outcome s

/-- Cycles a sorus stays open (R120). -/
def sorusOpen : Nat := 5000

/-- A page that a faulting access of the CDP, or of a peer, needs (R136, R237): it enters the FLE directly, with no record. -/
def raisePage (key : PageKey) (cls : Nat) (acc : Acc) : Prog Unit :=
  letI := Prog.monad
  do
    let f ← look fun s => s.dev.fle
    let add := fun (p : FlePage) => { p with acc := p.acc ||| acc.bits, cls := if p.pred then cls else p.cls, pred := false }
    if inSorus f key || awaits f key then joinPage key add
    else if ← enterSorus (add (FlePage.bare key)) true then pure ()
    else modDev fun d =>
      let queue := d.fle.queue ++ [add (FlePage.bare key)]
      { d with fle := { d.fle with queue } }

/-- SORUS_CLOSE_TIMEOUT (R120): 2 µs after its first page the open sorus closes. -/
def execSorusCloseTimeout (s : State) : Out :=
  (.get fun s => match openSorus s.dev.fle with
    | some (n, x) => if x.opened + sorusOpen ≤ hubClock s then closeSorus n else skip
    | none => skip : Prog Unit).outcome s

/-! ### Page requests (R127, R128) -/

/-- Where a request of a class goes: function, VF of the stage-2 space, completion queue. -/
def requestRoute (part cls : Nat) : Nat × Nat × Nat :=
  if cls ≤ 2 then (fnOfPart part, 0, 1) else (0, part, 3 + part)

/-- CODE of a class. -/
def requestCode (cls : Nat) : Nat :=
  match cls with
  | 1 => 1
  | 2 => 2
  | 4 => 3
  | _ => 4

/-- The page that a request names: of a stage-1 page with a stage-2 fault the guest page (R128). -/
def FlePage.named (p : FlePage) : Nat := p.gpage.getD p.key.page

/-- Whether a request of the class is outstanding for the page (R127). -/
def requested (f : Fle) (p : FlePage) (cls : Nat) : Bool :=
  f.reqs.any fun (r : PageReq) => r.page.cls == cls && r.page.key.part == p.key.part && r.page.key.ctx == p.key.ctx &&
    r.page.named == p.named

/-- Raises a request under the lowest free tag (R127); false while none is free, one for the page is outstanding, or its
completion queue takes no entry (R94). -/
def raiseRequest (p : FlePage) (cls : Nat) : Prog Bool :=
  letI := Prog.monad
  do
    let (fn, vf, cq) := requestRoute p.key.part cls
    let d ← look fun s => s.dev
    let used := (d.fle.reqs.filter fun (r : PageReq) => r.fn == fn && r.vf == vf).map (·.tag)
    if requested d.fle p cls || !cqTakes d fn cq then pure false
    else match freeBelow 4096 used with
    | none => pure false
    | some tag => do
      let page : FlePage := { p with cls, doneSt := 2, held := false }
      modDev fun d =>
        let reqs := d.fle.reqs ++ [{ fn, vf, tag, page }]
        { d with fle := { d.fle with reqs } }
      tagRecords p.key tag
      let qs ← look fun s => parkedOn s.dev p.key
      let q := qs.head?.getD 0xFFFF
      let waiters := min 255 (p.waits.foldl (· + ·) 0 + qs.length)
      postCq fn cq (cqEntry (p.named * 4096 + p.acc.toNat) tag (p.key.ctx * 256 + waiters) q (requestCode cls) 1)
      pure true

/-! ### Decisions (R122) -/

/-- What a valid leaf lacks for the accesses a page stands for (R43, R44): a class to request, or a trap. `above` is the stage-1
leaf over a stage-2 one. -/
def pageLack (key : PageKey) (p : FlePage) (e : Nat) (above : Option Nat) : Except Cause (Option Nat) :=
  let writes := p.acc.getLsbD 1 || p.acc.getLsbD 2
  let s2 := key.s2 || above.isSome
  let first := above.getD e
  let deny := if key.s2 then cS2Permission else cPermission
  let denyLast := if s2 then cS2Permission else cPermission
  let cls := effClass (eAc first) (eAc e)
  if key.s2 then
    if p.cls == 5 && !eW e then (if eAc e == 1 then .error cS2Permission else .ok (some 5)) else .ok none
  else if (p.acc.getLsbD 3 && !eX first) || (p.acc.getLsbD 4 && !eXr first) then .error deny
  else if (p.acc.getLsbD 3 && !eX e) || (p.acc.getLsbD 4 && !eXr e) then .error denyLast
  else if writes && !eW first then (if cls == 1 then .error deny else .ok (some 2))
  else if writes && !eW e then (if cls == 1 then .error denyLast else .ok (some 5))
  else .ok none

/-- The page becomes unresolved; a prediction or a hint is dropped. -/
def losePage (p : FlePage) (why : Nat → Cause) : Prog Unit :=
  letI := Prog.monad
  do
    if p.pred then settlePage p.key 1
    else do
      failPage p.key why
      settlePage p.key 3

/-- Every page of a disabled context is unresolved and its tags are freed (R462). -/
def loseContext (part ctx : Nat) : Prog Unit :=
  letI := Prog.monad
  do
    let f ← look fun s => s.dev.fle
    let mine := fun (p : FlePage) => p.key.part == part && p.key.ctx == ctx
    let ps := (f.sori.flatMap fun x => x.2.pages.filter fun p => mine p && p.doneSt == 0) ++
      ((f.reqs.map (·.page)).filter mine) ++ f.queue.filter mine
    modDev fun d =>
      let reqs := d.fle.reqs.filter fun (r : PageReq) => !mine r.page
      let queue := d.fle.queue.filter fun p => !mine p
      { d with fle := { d.fle with reqs, queue } }
    each ps fun p => losePage p fun cls => if cls < 3 then cUnresolved else cS2Unresolved
    releaseHeld

/-- Contexts that have been disabled lose their pages (R462). -/
def loseDisabled : Prog Unit :=
  letI := Prog.monad
  do
    let s ← look id
    let f := s.dev.fle
    let waiting : List PageKey := (f.reqs.map fun (r : PageReq) => r.page.key) ++ (f.queue.map fun (p : FlePage) => p.key) ++
      f.sori.flatMap fun (x : Nat × Sorus) => (x.2.pages.filter fun (y : FlePage) => y.doneSt == 0).map fun (y : FlePage) => y.key
    let lost := (waiting.map fun (k : PageKey) => (k.part, k.ctx)).eraseDups.filter fun x => (readCtx s x.1 x.2).isNone
    each lost fun x => loseContext x.1 x.2

/-- The page waits in its sorus. -/
def holdPage (key : PageKey) : Prog Unit := modPages key fun p => { p with held := true }

/-- The frame that serves a PA, which the eviction hand then spares (R131). -/
def frameOf (d : Dev) (pa : Nat) : Option Nat :=
  if isLocal pa && (Tbl.find? d.frames (pa / 65536)).isSome then some (pa / 65536) else none

/-- The page is resolved as it stands; a prediction or a hint is dropped. -/
def keepPage (p : FlePage) (pa : Nat) : Prog Unit :=
  letI := Prog.monad
  do
    let d ← look fun s => s.dev
    (if p.pred then pure () else resolvePage p.key (frameOf d pa))
    settlePage p.key 1

/-- The die a page migrates to (R122): that of the hint, or the one with most waiters. -/
def targetDie (p : FlePage) : Nat :=
  if p.hv then p.hdie
  else (upTo 1 3).foldl (fun b k => if nthD p.waits b 0 < nthD p.waits k 0 then k else b) 0

/-- Whether a C group may move whole into a frame: no leaf outside it maps a sector there. -/
def groupFits (f : Frame) (x : Site) : Bool :=
  f.leaf.all fun l => l.2 / 128 == x.epa / 128

/-- Maps a page to a frame: a C group whole, or the page alone once it has been splintered off, as the device chooses (R52 step 2,
R122; DESIGN CHOICE, log 31). -/
def placeLocal (p : FlePage) (x : Site) (addr n : Nat) : Prog (Changed Unit) :=
  letI := Prog.monad
  do
    let i ← fresh
    let fits ← look fun s => (Tbl.find? s.dev.frames n).any fun f => groupFits f x
    if x.sh == 12 && eC x.e && fits && Config.freeChoice i % 2 == 0 then mapGroup p.key x n
    else match ← splinter p.key.part x addr 3 with
      | .got y => mapLocal p.key y n
      | r => pure r.redo

/-- What happens to a page that does not move: a valid leaf stays, a deferred one is mapped remote. -/
def stayRemote (p : FlePage) (x : Site) (addr : Nat) : Prog (Changed Unit) :=
  letI := Prog.monad
  do
    if eV x.e then do
      keepPage p (leafPa x.e x.sh addr)
      pure (.got ())
    else mapRemote p.key x

/-- Moves a page into a frame (R52 step 1, R54, R55). A frame has one LEAFPTR for each sector and belongs to one partition: a
second leaf, or one of another partition, stays remote and is served there (R48, R49, R52; DEDUCED, log 31). -/
def movePage (p : FlePage) (x : Site) (addr die : Nat) : Prog (Changed Unit) :=
  letI := Prog.monad
  do
    let pa := leafPa x.e x.sh addr
    let d ← look fun s => s.dev
    match blockFrame d (poolBlock pa) with
    | some (n, f) =>
      if (Tbl.find? f.leaf (sectorOf pa)).any (· != x.epa) || f.part != p.key.part then stayRemote p x addr
      else placeLocal p x addr n
    | none =>
      if (evictingFrame d (poolBlock pa)).isSome then pure .hold
      else match ← obtainFrame p.key.part die (poolBlock pa) with
        | .got none => stayRemote p x addr
        | .got (some n) => do
          match ← placeLocal p x addr n with
          | .got _ => pure (.got ())
          | r => do
            modDev fun d => { d with frames := Tbl.del d.frames n }
            pure r
        | r => pure r.redo

/-- A page asks the host (R127): it waits in its sorus while no request can be raised. -/
def askHost (p : FlePage) (cls addr : Nat) : Prog Unit :=
  let q : FlePage := if 3 ≤ cls && !p.key.s2 then { p with gpage := some (addr / 4096) } else p
  Prog.bind (raiseRequest q cls) fun ok => if ok then settlePage p.key 2 else holdPage p.key

/-- Whether the change a page needed is made or waits in its sorus; false where it must be tried again. -/
def settled (p : FlePage) (r : Changed Unit) : Prog Bool :=
  match r with
  | .got _ => .pure true
  | .hold => Prog.bind (holdPage p.key) fun _ => .pure true
  | .again => .pure false

/-- Decides a page by what its walk found; false where the walk or the change of an entry must wait. -/
def decidePage (p : FlePage) : Prog Bool :=
  letI := Prog.monad
  do
    let d ← look fun s => s.dev
    match ← probePage p.key with
    | .wait => pure false
    | .disabled => do
      loseContext p.key.part p.key.ctx
      pure true
    | .trap c => do
      losePage p fun _ => c
      pure true
    | .fault cls addr => do
      (if p.pred then settlePage p.key 1 else askHost p cls addr)
      pure true
    | .leaf x addr above =>
      match pageLack p.key p x.e above with
      | .error c => do
        losePage p fun _ => c
        pure true
      | .ok (some cls) => do
        (if p.pred then settlePage p.key 1 else askHost p cls addr)
        pure true
      | .ok none => do
        let pa := leafPa x.e x.sh addr
        if p.hv && eMig x.e && isPool pa then do
          let r ← movePage p x addr (targetDie p)
          settled p r
        else do
          keepPage p pa
          pure true
    | .deferred x addr host => do
      let pa := leafPa x.e x.sh addr
      let wm := d.fle.pol.toNat % 256
      let most := p.waits.foldl max 0
      let moves := eMig x.e && (p.hv || (wm != 0 && wm ≤ most))
      let r ← if host && ((blockFrame d (poolBlock pa)).isSome || moves) then movePage p x addr (targetDie p)
        else stayRemote p x addr
      settled p r

/-- Whether a page of a closed sorus can be decided now. -/
def decidable (d : Dev) (p : FlePage) : Bool :=
  p.doneSt == 0 && !p.held && !(d.moves.any fun (m : Move) => m.key == some p.key)

/-- The next page to decide: of the sorus that closed first, the lowest entry. -/
def nextPage (d : Dev) : Option (Nat × FlePage) :=
  let closed := d.fle.sori.filter fun x => x.2.state != 1 && x.2.pages.any (decidable d)
  let first := closed.foldl (fun (b : Option (Nat × Sorus)) x => match b with
    | none => some x
    | some y => if x.2.order < y.2.order then some x else b) none
  first.bind fun x => (x.2.pages.find? (decidable d)).map fun p => (x.1, p)

/-- Pages that wait for a slot enter as soon as one frees (R120, R130). -/
def drainQueue : Prog Unit :=
  letI := Prog.monad
  do
    let f ← look fun s => s.dev.fle
    match f.queue with
    | [] => pure ()
    | p :: rest =>
      if ← enterSorus p true then modDev fun d => { d with fle := { d.fle with queue := rest } } else pure ()

/-- SORUS_PROCESS (R122): one page is decided, after contexts found disabled have lost theirs (R462). -/
def execSorusProcess (s : State) : Out :=
  (letI := Prog.monad
   do
    loseDisabled
    let d ← look fun s => s.dev
    match nextPage d with
    | none => do
      freeSori
      drainQueue
    | some (n, p) => do
      modDev fun d =>
        let sori := Tbl.modify d.fle.sori n fun x => { x with state := 3 }
        { d with fle := { d.fle with sori } }
      let _ ← decidePage p
      freeSori
      drainQueue
      let more ← look fun s => (nextPage s.dev).isSome
      if more then due .sorusProcess else pure ()).outcome s

/-! ### Replies (R129, R130) -/

/-- Whether a reply is well formed for the function that writes it. -/
def replyOk (fn : Nat) (v : Word64) : Bool :=
  bits v 32 32 == 0 && bits v 26 2 == 0 && bits v 16 8 == 0 && bits v 24 2 ≤ 1 && (fn == 0 || bits v 28 4 == 0) &&
    bits v 28 4 ≤ 8

/-- The request a reply names. -/
def replyTo (f : Fle) (fn : Nat) (v : Word64) : Option PageReq :=
  f.reqs.find? fun r => r.fn == fn && r.vf == bits v 28 4 && r.tag == bits v 0 16

/-- A page enters the open sorus with its waiters, or its own entry where its slot has not freed. -/
def reenter (p : FlePage) : Prog Unit :=
  letI := Prog.monad
  do
    let f ← look fun s => s.dev.fle
    let q : FlePage := { p with doneSt := 0, held := false }
    if inSorus f p.key then joinPage p.key fun _ => q
    else if ← enterSorus q true then pure ()
    else modDev fun d =>
      let queue := d.fle.queue ++ [q]
      { d with fle := { d.fle with queue } }

/-- What a RESOLVED reply does to a page: walked again, and resolved, queued again, asked again, or unresolved. A new request that
cannot be raised yet leaves the page in a sorus. -/
def answered (p : FlePage) : Prog Unit :=
  letI := Prog.monad
  do
    let again := fun (cls addr : Nat) => do
      let q : FlePage := { p with tries := p.tries + 1, gpage := if 3 ≤ cls && !p.key.s2 then some (addr / 4096) else none }
      if 3 ≤ q.tries then failPage p.key fun _ => 0
      else if ← raiseRequest q cls then pure ()
      else do
        reenter q
        holdPage p.key
    match ← probePage p.key with
    | .wait => reenter p
    | .disabled => failPage p.key fun cls => if cls < 3 then cUnresolved else cS2Unresolved
    | .trap c => failPage p.key fun _ => c
    | .deferred .. => reenter p
    | .fault cls addr => again cls addr
    | .leaf x addr above =>
      match pageLack p.key p x.e above with
      | .error c => failPage p.key fun _ => c
      | .ok (some cls) => again cls addr
      | .ok none => do
        let d ← look fun s => s.dev
        resolvePage p.key (frameOf d (leafPa x.e x.sh addr))

/-- A write to PRREPLY (R129, R130). -/
def pageReply (fn : Nat) (v : Word64) : Prog Unit :=
  letI := Prog.monad
  do
    let f ← look fun s => s.dev.fle
    match (if replyOk fn v then replyTo f fn v else none) with
    | none => postCq fn 0 (cqEntry v.toNat 0 0 0xFFFF 0x10 2)
    | some r => do
      modDev fun d =>
        let reqs := d.fle.reqs.filter fun x => !(x.fn == r.fn && x.vf == r.vf && x.tag == r.tag)
        { d with fle := { d.fle with reqs } }
      tagRecords r.page.key 0xFFFF
      (if bits v 24 2 == 0 then answered r.page else failPage r.page.key fun _ => 0)
      releaseHeld

/-- PRREPLY_RESOLVED (R130). -/
def execPrreplyResolved (fn : Nat) (v : Word64) (s : State) : Out := (fromHost (pageReply fn v)).outcome s

/-- PRREPLY_FAILED (R130). -/
def execPrreplyFailed (fn : Nat) (v : Word64) (s : State) : Out :=
  (Prog.bind (fromHost (pageReply fn v)) fun _ => skip).outcome s

end Sys2Proof.Machine
end

