-- ==== Sys2Proof/Machine/Launch.lean ====
section
/-! DEFINITION. Launch (R137 to R152): the kernel object, footprints and quotas, placement of teams and clusters, the start
of groups (R161, R199), pre-emption and restart (R149 to R152, R193, R194). What the spec leaves open is in
notes/assumptions/33.md. -/

namespace Sys2Proof.Machine

/-! ### The kernel object (R137, R138) -/

/-- The kernel a 512-bit object describes; none where it breaks R137 or R138. -/
def kernelOf (w : Nat) : Option Kernel :=
  let f := fun (lo n : Nat) => nbits w lo n
  let k : Kernel :=
    { width := 16 * 2 ^ f 342 2, groups := f 336 6, baseBlk := f 328 5, extKib := f 320 8, tileKib := f 304 9, priv := f 288 16,
      csaStride := BitVec.ofNat 64 (f 256 32), csaVa := BitVec.ofNat 64 (f 192 64), restoreVa := BitVec.ofNat 64 (f 128 64),
      trapVa := BitVec.ofNat 64 (f 64 64), entry := BitVec.ofNat 64 (f 0 64) }
  let bad := f 342 2 == 3 || f 344 168 != 0 || f 333 3 != 0 || f 313 7 != 0 || k.groups == 0 || 32 < k.groups ||
    k.baseBlk == 0 || 16 < k.baseBlk || 240 < k.extKib || 384 < k.tileKib || k.priv % 16 != 0 || f 256 32 % 256 != 0 ||
    f 192 64 % 256 != 0 || f 128 64 % 128 != 0 || f 64 64 % 128 != 0 || f 0 64 % 128 != 0 || f 0 64 == 0 ||
    (f 192 64 != 0 && f 256 32 == 0)
  if bad then none else some k

/-- A kernel whose teams may be pre-empted (R149). -/
def Kernel.preemptible (k : Kernel) : Bool := k.trapVa != 0 && k.restoreVa != 0 && k.csaVa != 0

/-- Private frames a team needs (R140). -/
def Kernel.frames (k : Kernel) : Nat := (k.groups * k.width * (stkTop k.priv + 1024) + 65535) / 65536

/-! ### Room on a core (R140, R141, R103) -/

/-- What is taken of a core: slots (quarter, slot), half-KiB of register file in each quarter, KiB of tile memory. -/
structure CoreUse where
  slots : List (Nat × Nat)
  units : List Nat
  tile : Nat
deriving DecidableEq, Repr

def CoreUse.none : CoreUse := { slots := [], units := [0, 0, 0, 0], tile := 0 }

def addUnits (a b : List Nat) : List Nat := (upTo 0 4).map fun q => nthD a q 0 + nthD b q 0

/-- What some teams take. -/
def useOf (ts : List Team) : CoreUse :=
  ts.foldl (fun u t => { slots := u.slots ++ t.slots, units := addUnits u.units t.units, tile := u.tile + t.kernel.tileKib })
    CoreUse.none

/-- KiB of a core's tile memory that a depth store takes (R279). -/
def depthKib : Nat := 64

/-- Teams placed on a core, but for some. -/
def teamsOn (s : State) (core : Nat) (gone : List Nat) : List Team :=
  (s.teams.filter fun x => x.2.placed && x.2.core == core && !gone.contains x.1).map (·.2)

/-- What is taken of a core while some teams count as gone. -/
def coreUse (s : State) (core : Nat) (gone : List Nat) : CoreUse :=
  let u := useOf (teamsOn s core gone)
  if (coreAt s core).depthFor.isSome then { u with tile := u.tile + depthKib } else u

/-- What a launch holds on a core. -/
def launchUse (s : State) (q idx core : Nat) (gone : List Nat) : CoreUse :=
  let u := useOf ((teamsOn s core gone).filter fun t => t.queue == q && t.packet == idx)
  match (coreAt s core).depthFor with
  | some r => if r.queue == q && r.packet == idx then { u with tile := u.tile + depthKib } else u
  | none => u

/-- A team's place on a core: for each group its quarter, slot and half; the slots and units it takes. -/
structure Fit where
  groups : List (Nat × Nat × Bool)
  slots : List (Nat × Nat)
  units : List Nat
deriving DecidableEq, Repr

/-- Free slots of a quarter. -/
def freeSlots (u : CoreUse) (f : Fit) (q : Nat) : List Nat :=
  (upTo 0 16).filter fun k => !u.slots.contains (q, k) && !f.slots.contains (q, k)

/-- Units a quarter takes for one more occupant (R140): EXTBLK once for a quarter that holds a group of the team. -/
def quarterCost (k : Kernel) (f : Fit) (q cost : Nat) : Nat :=
  cost + (if f.slots.any fun x => x.1 == q then 0 else 2 * k.extKib)

/-- Whether a quarter's 256 KiB hold it. -/
def quarterRoom (u : CoreUse) (k : Kernel) (f : Fit) (q cost : Nat) : Bool :=
  nthD u.units q 0 + nthD f.units q 0 + quarterCost k f q cost ≤ 512

/-- Takes a slot of a quarter. -/
def Fit.take (f : Fit) (k : Kernel) (q slot cost : Nat) : Fit :=
  { f with slots := f.slots ++ [(q, slot)], units := modNth f.units q (· + quarterCost k f q cost) }

/-- The first of the candidates with the most free places. -/
def mostFree (l : List (Nat × List Nat)) : Option (Nat × Nat) :=
  (l.foldl (fun (b : Option (Nat × List Nat)) x => match b with
    | none => some x
    | some y => if y.2.length < x.2.length then some x else b) none).bind fun x => x.2.head?.map fun n => (x.1, n)

/-- A place for n groups of width 16 or 32 that share one slot (R141). -/
def fitSlot (u : CoreUse) (k : Kernel) (n : Nat) (f : Fit) : Option Fit :=
  let cost := if k.width == 16 then k.baseBlk * n else 2 * k.baseBlk
  let l := (upTo 0 4).filterMap fun q =>
    let free := freeSlots u f q
    if !free.isEmpty && quarterRoom u k f q cost then some (q, free) else none
  (mostFree l).map fun (q, slot) =>
    { f.take k q slot cost with groups := f.groups ++ (upTo 0 n).map fun h => (q, slot, h == 1) }

/-- A place for a group of width 64 (R141). -/
def fitPair (u : CoreUse) (k : Kernel) (f : Fit) : Option Fit :=
  let cost := 2 * k.baseBlk
  let l := [0, 2].filterMap fun q =>
    let free := (freeSlots u f q).filter fun x => (freeSlots u f (q + 1)).contains x
    if !free.isEmpty && quarterRoom u k f q cost && quarterRoom u k f (q + 1) cost then some (q, free) else none
  (mostFree l).map fun (q, slot) =>
    { (f.take k q slot cost).take k (q + 1) slot cost with groups := f.groups ++ [(q, slot, false)] }

/-- Places the groups from index i on, in ascending order. -/
def fitGroups (u : CoreUse) (k : Kernel) (left : Nat) (f : Fit) (fuel : Nat) : Option Fit :=
  match fuel with
  | 0 => some f
  | fuel + 1 =>
    if left == 0 then some f
    else
      let n := if k.width == 16 then min 2 left else 1
      ((if k.width == 64 then fitPair u k f else fitSlot u k n f).bind fun f1 => fitGroups u k (left - n) f1 fuel)

/-- A team's place under the physical limits and the quotas of its launch; none where it does not fit whole. -/
def fitTeam (u mine : CoreUse) (k : Kernel) (quota : BitVec 64) : Option Fit :=
  match fitGroups u k k.groups { groups := [], slots := [], units := [0, 0, 0, 0] } 33 with
  | none => none
  | some f =>
    let kib2 := (mine.units ++ f.units).foldl (· + ·) 0
    if u.tile + k.tileKib ≤ 384 && mine.slots.length + f.slots.length ≤ bits quota 0 16 && kib2 ≤ 2 * bits quota 16 16 &&
        mine.tile + k.tileKib ≤ bits quota 32 16 then some f
    else none

/-- A use with one more team. -/
def CoreUse.add (u : CoreUse) (k : Kernel) (f : Fit) : CoreUse :=
  { slots := u.slots ++ f.slots, units := addUnits u.units f.units, tile := u.tile + k.tileKib }

/-- Places for n teams on one core. -/
def fitMany (u mine : CoreUse) (k : Kernel) (quota : BitVec 64) (n : Nat) : Option (List Fit) :=
  match n with
  | 0 => some []
  | n + 1 => (fitTeam u mine k quota).bind fun f => (fitMany (u.add k f) (mine.add k f) k quota n).map (f :: ·)

/-! ### Launches -/

/-- Frames of the host driver's tables that no directory entry lists (R39, R58, R62). -/
def tableFrames (d : Dev) : List Nat :=
  ((upTo (d.qdtbase.toNat / 65536) 17 ++
    d.parts.flatMap fun x => upTo (x.2.ctxtbase.toNat / 65536) 2 ++ upTo (x.2.tfrbase.toNat / 65536) 6).filter (tableFrame d)).eraseDups

/-- Frames of a share that are free on a die (R48, R140). -/
def freeShare (d : Dev) (part die : Nat) : Nat :=
  let listed := (d.frames.filter fun x => frameDie x.1 == die).length
  let other := ((d.zeroingFrames ++ tableFrames d).eraseDups.filter fun n =>
    frameDie n == die && (Tbl.find? d.frames n).isNone).length
  min (frameShare d part die - (partFrames d part die).length) (directoryStart d die / 65536 - listed - other)

/-- What a launch places: its packet, kernel, quotas, partition. -/
structure Order where
  queue : Nat
  packet : Nat
  part : Nat
  kernel : Kernel
  quota : BitVec 64
  prio : Nat
deriving DecidableEq, Repr

/-- The launch of a packet that has started. -/
def orderOf (d : Dev) (p : Packet) : Option Order :=
  p.kernel.map fun k =>
    { queue := p.queue, packet := p.index, part := (queueAt d p.queue).part, kernel := k, quota := p.quota,
      prio := (queueAt d p.queue).prio }

/-- Places for n teams of a launch on a core, with private frames for `fresh` of them. -/
def fitsOn (s : State) (o : Order) (core n fresh : Nat) (gone : List Nat) : Option (List Fit) :=
  if freeShare s.dev o.part (dieOf core) < fresh * o.kernel.frames then none
  else fitMany (coreUse s core gone) (launchUse s o.queue o.packet core gone) o.kernel o.quota n

/-- Cores of a partition that exist, in ascending number. -/
def partCores (d : Dev) (part : Nat) : List Nat := (upTo 0 288).filter fun c =>
  (partAt d part).coreset.getLsbD c && !d.boot.coreOut.getLsbD c

/-- The ring of R142, from the core after the pointer. -/
def coreRing (d : Dev) (part : Nat) : List Nat :=
  let l := partCores d part
  let at_ := (partAt d part).ptr
  (l.filter fun c => at_ < c) ++ (l.filter fun c => c ≤ at_)

/-! ### Starting a team -/

/-- Fields of a DISPATCH or PGROUP body (R73). -/
def packetClt (p : Packet) : Nat := packetBits p.words 368 8
def packetClh (p : Packet) : Nat := packetBits p.words 360 8
def packetClw (p : Packet) : Nat := packetBits p.words 352 8
def packetArgs (p : Packet) : Word64 := BitVec.ofNat 64 (packetBits p.words 192 64)

/-- s3 at group start (R139). -/
def clusterWord (clt index : Nat) : Word64 := if clt == 0 then BitVec.allOnes 64 else BitVec.ofNat 64 (index / clt)

/-- A group at its start (R161, R139, R167): one split of the given lanes at a PC. -/
def Group.start (team index w q slot : Nat) (lanes : Mask) (pc : Word64) (t : Team) (s3 : Word64) : Group :=
  let e : Entry := { pc, via := .transfer, src := pc, mask := lanes, mode := 0, join := 0, jseq := 0, wait := .run, run := none }
  let g : Group :=
    { team, index, quarter := q, slot, width := w, halves := [], home := (upTo 0 (w / 16)).map fun j => (index, w, 16 * j),
      live := lanes, baseBlk := t.kernel.baseBlk, extBlk := 0, v := [], s := [], p := [], latch := [], q := defaultQueues,
      entries := [(0, e)], suspended := [], sdepth := 0, joinNext := [], arms := [], depth := 0, bseq := 0, hnd := false,
      jto := false, flags := 0, xpc := 0, xcause := 0, xmode := 0, xinfo := 0, trapbase := t.kernel.trapVa,
      csabase := t.kernel.csaVa + t.kernel.csaStride * BitVec.ofNat 64 t.index, rgnentry := pc, rgnmask := RgnMask.whole,
      snap := { live := lanes, entries := [(0, e)], depth := 0, bseq := 0 }, drawkey := 0, drawctr := 0, fusestat := 0,
      endok := false, lost := 0, rr := [], outstanding := 0, pend := [], overflow := [], leases := [], ending := false,
      preempt := false, mshemit := 0, failTaken := 0, emitSrc := [], statCopy := 0 }
  (((g.setS 0 t.args).setS 1 (BitVec.ofNat 64 t.index)).setS 2 (BitVec.ofNat 64 index)).setS 3 s3

/-- Takes n private frames on a die (R142, R48): they are zeroed as they are taken (R108). Which of the free ones they are is
the device's choice (log 33). -/
def takeFrames (part die n : Nat) : Prog (List Nat) :=
  letI := Prog.monad
  match n with
  | 0 => pure []
  | n + 1 => do
    match ← freeFrame part die with
    | none => pure []
    | some x => do
      modDev fun d => { d with frames := Tbl.put d.frames x (Frame.new 0 part 1), frameOwner := Tbl.put d.frameOwner x part }
      wipeFrame x
      let l ← takeFrames part die n
      pure (x :: l)

/-- What a core loses when it receives a team: clean copies at the packet's ACQ scope (R72), and always the instruction
cache and the constant-space lines (R299). -/
def receiveTeam (core acq : Nat) : Prog Unit :=
  letI := Prog.monad
  do
    (match acq with
     | 1 => acquireCore core .dev
     | 2 => acquireCore core .sys
     | _ => pure ())
    modCore core fun c => { c with icache := [], l1 := c.l1.filter fun x => !x.2.const }

/-- Marks a team as standing on a core: its tile memory is being zeroed (R108). -/
def standTeam (team core acq : Nat) (f : Fit) : Prog Unit :=
  letI := Prog.monad
  do
    receiveTeam core acq
    modTeam team fun t =>
      { t with core, placed := true, restarting := false, preempting := false, tile := [], zeroing := t.kernel.tileKib != 0,
               slots := f.slots, units := f.units, gang := 0, extUsed := [0, 0, 0, 0], racqFifo := [], arrivals := [],
               cluArrivals := [] }
    let z ← look fun s => (Tbl.find? s.teams team).elim false (·.zeroing)
    if z then due (.zeroingComplete (.tile team)) else pure ()

/-- The slots of a fit with the group index each holds. -/
def Fit.indexed (f : Fit) : List (Nat × Nat × Nat × Bool) := (upTo 0 f.groups.length).zip f.groups

/-- Launches a new team on a core. -/
def launchTeam (t : Team) (core acq : Nat) (f : Fit) (s3 : Word64) : Prog Nat :=
  letI := Prog.monad
  do
    let key ← newId
    let frames ← takeFrames t.part (dieOf core) t.kernel.frames
    emit (.team key { t with frames })
    standTeam key core acq f
    each f.indexed fun (i, q, slot, hi) => do
      let k := groupKey core q slot hi
      emit (.group k (Group.start key i t.kernel.width q slot (allLanes t.kernel.width) t.kernel.entry t s3))
      modTeam key fun t => { t with groups := t.groups ++ [k] }
    pure key

/-- A team of a launch before it stands anywhere. -/
def Team.fresh (o : Order) (p : Packet) (ctxidx index clt now : Nat) : Team :=
  { queue := o.queue, packet := o.packet, index, part := o.part, ctxidx, asid := p.asid, prio := o.prio, start := now,
    args := packetArgs p, kernel := o.kernel, clt, clw := packetClw p, clh := packetClh p,
    rank := if clt == 0 then 0 else index % clt, cluster := 0, core := 0, placed := false, restarting := false,
    preempting := false, gang := 0, tile := [], zeroing := false, priv := PrivMem.empty, groups := [],
    extUsed := [0, 0, 0, 0], racqFifo := [], arrivals := [], cluArrivals := [], failed := false, restart := [],
    saved := false, frames := [], slots := [], units := [0, 0, 0, 0], pg := p.pg }

/-- ACQ of a packet (R70). -/
def packetAcq (p : Packet) : Nat := packetBits p.words 5 2

/-- Launches that wait to place teams (R142, R151): by priority, then by start time; of two alike in both, the one that stands
first in the list of packets (DESIGN CHOICE, log 33). -/
def waitingLaunches (d : Dev) (part : Nat) : List Packet :=
  let l := d.packets.filter fun p => p.phase == 1 && p.kernel.isSome && (queueAt d p.queue).part == part &&
    (p.nextTeam < p.endTeam || !p.restarts.isEmpty)
  let before := fun (a b : Packet) =>
    let x := (queueAt d a.queue).prio
    let y := (queueAt d b.queue).prio
    y < x || (x == y && a.start < b.start)
  let rec insert (p : Packet) (l : List Packet) : List Packet :=
    match l with
    | [] => [p]
    | y :: rest => if before p y then p :: y :: rest else y :: insert p rest
  l.foldl (fun a p => insert p a) []

/-- Core at (x, y) of a die. -/
def coreXY (die x y : Nat) : Nat := 72 * die + 12 * y + x

/-- Cores of a w × h rectangle, in row-major order from its origin. -/
def patchCores (die x y w h : Nat) : List Nat := (upTo 0 (w * h)).map fun k => coreXY die (x + k % w) (y + k / w)

/-- Origins in the order of the patch finder, from the die after one. -/
def patchOrigins (last w h : Nat) : List (Nat × Nat × Nat) :=
  ((upTo (last + 1) 4).map (· % 4)).flatMap fun die =>
    (upTo 0 (6 + 1 - h)).flatMap fun y => (upTo 0 (12 + 1 - w)).map fun x => (die, x, y)

/-- Whether n teams of a launch would be admitted on a core that held no other team. -/
def admits (s : State) (o : Order) (core n : Nat) : Bool :=
  (fitMany CoreUse.none (launchUse s o.queue o.packet core []) o.kernel o.quota n).isSome

/-- The cores whose room a waiting launch waits for: those that would admit a team of it, and for a cluster those of the patches
that would, if they held no other team. The reading of R142's `the same room` is in log 33. -/
def wantedCores (s : State) (p : Packet) : List Nat :=
  match orderOf s.dev p with
  | none => []
  | some o =>
    let mine := partCores s.dev o.part
    let clt := packetClt p
    if clt == 0 then mine.filter fun c => o.kernel.frames ≤ frameShare s.dev o.part (dieOf c) && admits s o c 1
    else
      let w := packetClw p
      let h := packetClh p
      (patchOrigins 3 w h).flatMap fun (die, x, y) =>
        let cores := patchCores die x y w h
        if cores.all mine.contains && cores.all (fun c => admits s o c ((clt + w * h - 1) / (w * h))) &&
            clt * o.kernel.frames ≤ frameShare s.dev o.part die then cores else []

/-- Cores that a packet's teams may not take: the launches that go before it wait for their room (R142, R159). -/
def barredCores (s : State) (p : Packet) : List Nat :=
  ((waitingLaunches s.dev (queueAt s.dev p.queue).part).takeWhile fun x => x.queue != p.queue || x.index != p.index).flatMap
    (wantedCores s)

/-! ### Pre-emption (R149) -/

/-- Teams that must go when one does: its cluster whole. -/
def withCluster (s : State) (team : Nat) : List Nat := (clusterTeams s team).filter fun x =>
  (Tbl.find? s.teams x).elim false (·.placed)

/-- Teams on a core that a launch of some priority may pre-empt. -/
def victimsOn (s : State) (o : Order) (core : Nat) : List (Nat × Team) :=
  s.teams.filter fun x => x.2.placed && x.2.core == core && x.2.part == o.part && x.2.prio < o.prio && x.2.kernel.preemptible &&
    !x.2.failed

/-- The youngest of some teams; of those that started at one time, the one whose key is greatest (DESIGN CHOICE, log 33). -/
def youngest (l : List (Nat × Team)) : Option (Nat × Team) :=
  l.foldl (fun (b : Option (Nat × Team)) x => match b with
    | none => some x
    | some y => if y.2.start ≤ x.2.start then some x else b) none

/-- Asks for one victim among some teams, unless one of them is on its way already. -/
def takeVictim (l : List (Nat × Team)) : Prog Unit :=
  if l.any fun x => x.2.preempting then skip
  else match youngest l with
    | none => skip
    | some x => .get fun s => each (withCluster s x.1) fun k => due (.preemptRequest k)

/-- A waiting team chooses the first core on which it would fit were its victims gone. -/
def preemptFor (o : Order) (barred : List Nat) (fresh : Nat) : Prog Unit := .get fun s =>
  let found := (coreRing s.dev o.part).find? fun c =>
    !barred.contains c &&
    let vs := victimsOn s o c
    !vs.isEmpty && (fitsOn s o c 1 fresh (vs.map (·.1))).isSome
  match found with
  | some c => takeVictim (victimsOn s o c)
  | none => skip

/-! ### Teams outside clusters -/

/-- The core and place of one more team of a launch (R142). -/
def findCore (s : State) (o : Order) (barred : List Nat) (fresh : Nat) : Option (Nat × Fit) :=
  ((coreRing s.dev o.part).filter fun c => !barred.contains c).findSome? fun c => (fitsOn s o c 1 fresh []).bind fun l => l.head?.map fun f => (c, f)

/-- Places the next team of a packet; false while no core admits it. -/
def placeNext (p : Packet) (o : Order) : Prog Bool :=
  letI := Prog.monad
  do
    let s ← look fun s => s
    let barred := barredCores s p
    match findCore s o barred 1 with
    | none => do
      preemptFor o barred 1
      pure false
    | some (core, f) => do
      let t := Team.fresh o p (queueAt s.dev p.queue).ctx p.nextTeam 0 (hubClock s)
      let _ ← launchTeam t core (packetAcq p) f (clusterWord 0 p.nextTeam)
      modPart o.part fun x => { x with ptr := core }
      modPacket p.queue p.index fun p => { p with nextTeam := p.nextTeam + 1, running := p.running + 1 }
      pure true

/-- Whether no other restart of the packet has an earlier start time (R151). -/
def restartsFirst (s : State) (p : Packet) (team : Nat) : Bool :=
  let start := fun (k : Nat) => (Tbl.find? s.teams k).elim 0 (·.start)
  p.restarts.all fun k => start team ≤ start k

/-- Asks the restarts of a packet to go first (R151). -/
def askRestarts (p : Packet) : Prog Unit := .get fun s =>
  each ((p.restarts.filter (restartsFirst s p)).take 1) fun t => due (.teamRestart t)


/-- The first launch that can place a team places it. -/
def placeFirst (l : List Packet) : Prog Bool :=
  letI := Prog.monad
  match l with
  | [] => pure false
  | p :: rest => do
    if !p.restarts.isEmpty then do
      askRestarts p
      placeFirst rest
    else
      match ← look fun s => orderOf s.dev p with
      | none => placeFirst rest
      | some o => do
        if ← placeNext p o then pure true else placeFirst rest

/-- TEAM_PLACE (R142): one team of a partition is placed. -/
def execTeamPlace (part : Nat) (s : State) : Out :=
  (letI := Prog.monad
   do
    let l ← look fun s => (waitingLaunches s.dev part).filter fun p => packetClt p == 0
    if ← placeFirst l then replace part else pure ()).outcome s

/-! ### Clusters (R144 to R146) -/

/-- Places for the ranks of a cluster on the patch at an origin: rank, core, place. `patches` are patches that count as
gone. -/
def fitPatch (s : State) (o : Order) (barred ranks : List Nat) (fresh : Bool) (die x y w h : Nat) (gone patches : List Nat) :
    Option (List (Nat × Nat × Fit)) :=
  let cores := patchCores die x y w h
  let mine := partCores s.dev o.part
  let free := cores.all fun c => mine.contains c && !barred.contains c && ((coreAt s c).patch == 0 || patches.contains (coreAt s c).patch)
  let need := if fresh then ranks.length * o.kernel.frames else 0
  if !free || freeShare s.dev o.part die < need then none
  else
    let per := (upTo 0 (w * h)).map fun k =>
      let rs := ranks.filter fun r => r % (w * h) == k
      let c := nthD cores k 0
      (fitMany (coreUse s c gone) (launchUse s o.queue o.packet c gone) o.kernel o.quota rs.length).map fun fs =>
        (rs.zip fs).map fun z => (z.1, c, z.2)
    if per.any Option.isNone then none else some (per.flatMap fun x => x.getD [])

/-- The first patch that takes some ranks. -/
def findPatch (s : State) (o : Order) (barred ranks : List Nat) (fresh : Bool) (w h : Nat) :
    Option (Nat × Nat × Nat × List (Nat × Nat × Fit)) :=
  (patchOrigins (partAt s.dev o.part).lastDie w h).findSome? fun (die, x, y) =>
    (fitPatch s o barred ranks fresh die x y w h [] []).map fun l => (die, x, y, l)

/-- Cores of a patch are marked with the cluster that holds it. -/
def markPatch (cluster die x y w h : Nat) : Prog Unit :=
  each (upTo 0 (w * h)) fun k => modCore (coreXY die (x + k % w) (y + k / w)) fun c => { c with patch := cluster }

/-- Lower-priority teams on the cores of a patch, with the clusters that hold one (R149). -/
def patchVictims (s : State) (o : Order) (cores : List Nat) : List (Nat × Team) :=
  s.teams.filter fun x => x.2.placed && x.2.part == o.part && x.2.prio < o.prio && x.2.kernel.preemptible && !x.2.failed &&
    (cores.contains x.2.core || (x.2.clt != 0 && cores.any fun c => (coreAt s c).patch == x.2.cluster))

/-- Asks for all of some victims, the youngest first, each with its cluster. -/
def takeVictims (l : List (Nat × Team)) (fuel : Nat) : Prog Unit :=
  match fuel with
  | 0 => skip
  | fuel + 1 =>
    match youngest l with
    | none => skip
    | some x => .get fun s =>
      let gone := withCluster s x.1
      Prog.bind (each gone fun k => due (.preemptRequest k)) fun _ =>
      takeVictims (l.filter fun y => y.1 != x.1 && !gone.contains y.1) fuel

/-- A waiting cluster chooses the first patch that would take it, and all its victims go; it chooses no other one while some
team is on its way for a launch of its priority. -/
def preemptPatch (o : Order) (barred ranks : List Nat) (fresh : Bool) (w h : Nat) : Prog Unit := .get fun s =>
  if s.teams.any (fun x => x.2.placed && x.2.preempting && x.2.part == o.part && x.2.prio < o.prio) then skip
  else
    let found := (patchOrigins (partAt s.dev o.part).lastDie w h).findSome? fun (die, x, y) =>
      let vs := patchVictims s o (patchCores die x y w h)
      let ps := (vs.filter fun v => v.2.clt != 0).map (·.2.cluster)
      if vs.isEmpty then none
      else (fitPatch s o barred ranks fresh die x y w h (vs.map (·.1)) ps).map fun _ => vs
    match found with
    | some vs => takeVictims vs vs.length
    | none => skip

/-- Places the next cluster of a packet; false while no patch takes it. -/
def placeCluster (p : Packet) (o : Order) : Prog Bool :=
  letI := Prog.monad
  do
    let s ← look fun s => s
    let clt := packetClt p
    let w := packetClw p
    let h := packetClh p
    let ranks := upTo 0 clt
    let barred := barredCores s p
    match findPatch s o barred ranks true w h with
    | none => do
      preemptPatch o barred ranks true w h
      pure false
    | some (die, x, y, l) => do
      let cluster ← newId
      markPatch cluster die x y w h
      each l fun (rank, core, f) => do
        let index := p.nextTeam + rank
        let t := Team.fresh o p (queueAt s.dev p.queue).ctx index clt (hubClock s)
        let _ ← launchTeam { t with rank, cluster } core (packetAcq p) f (clusterWord clt index)
      modPart o.part fun x => { x with lastDie := die }
      modPacket p.queue p.index fun p => { p with nextTeam := p.nextTeam + clt, running := p.running + clt }
      resumeQueue p.queue
      pure true

/-- The first cluster launch that can place a cluster places it. -/
def placeClusterFirst (l : List Packet) : Prog Bool :=
  letI := Prog.monad
  match l with
  | [] => pure false
  | p :: rest => do
    if !p.restarts.isEmpty then do
      askRestarts p
      placeClusterFirst rest
    else
      match ← look fun s => orderOf s.dev p with
      | none => placeClusterFirst rest
      | some o => do
        if ← placeCluster p o then pure true else placeClusterFirst rest

/-- CLUSTER_PLACE (R145): one cluster of a partition is placed, whole. -/
def execClusterPlace (part : Nat) (s : State) : Out :=
  (letI := Prog.monad
   do
    let l ← look fun s => (waitingLaunches s.dev part).filter fun p => packetClt p != 0
    if ← placeClusterFirst l then replace part else pure ()).outcome s

/-! ### PREEMPT_REQUEST and TEAM_RESTART -/

/-- PREEMPT_REQUEST (R150 steps 1 to 3): the team's groups take PREEMPT, at once or when nothing holds it. -/
def execPreemptRequest (team : Nat) (s : State) : Out :=
  (letI := Prog.monad
   do
    match ← look fun s => Tbl.find? s.teams team with
    | none => pure ()
    | some t =>
      if !t.placed || t.preempting then pure ()
      else do
        modTeam team fun t => { t with preempting := true, saved := false }
        stopContexts t.core team
        each t.groups fun k => do
          modGroup k fun g => { g with preempt := true }
          servePreempt k).outcome s

/-- Where a saved group stands at its new placement: its own slot, or the half of it that it had become (R178). -/
def savedPlace (f : Fit) (w : Nat) (r : Restart) : Nat × Nat × Bool :=
  let (q, slot, hi) := nthD f.groups r.index (0, 0, false)
  (r.halves.reverse.foldl (fun (a : (Nat × Nat × Bool) × Nat) up =>
    let ((q, slot, hi), w) := a
    if w == 64 then ((if up then q + 1 else q, slot, hi), 32) else ((q, slot, up), 16)) ((q, slot, hi), w)).1

/-- Commands of a group that an engine still runs, and results that wait for it (R158, R230). -/
def owedResults (s : State) (team ident : Nat) : Nat :=
  (s.dies.foldl (fun a d => a + ((d.2.copy ++ d.2.coll).filter fun c =>
      c.team == team && c.ident == ident && c.packet.isNone && !c.remote).length) 0) +
  (s.dev.held.filter fun h => h.team == team && h.ident == ident && h.entry.counted).length

/-- A group as it restarts (R194): a PREEMPT handler at RESTOREVA, XPC, XMODE and XINFO from the frame. -/
def restartGroup (team : Nat) (t : Team) (owed q slot : Nat) (r : Restart) (s3 : Word64) : Group :=
  let g0 := Group.start team r.index r.width q slot (allLanes r.width) t.kernel.restoreVa t s3
  let g1 : Group := { g0 with halves := r.halves, home := r.home, depth := r.depth, bseq := r.bseq, arms := r.arms,
                              joinNext := r.joins, outstanding := owed }
  let top := stkTop t.kernel.priv
  let d := ((readFrame t.priv g1 top r.depth []).map (·.1)).getD 0
  let word := fun (l : Nat) => BitVec.ofNat 64 (ofBytes (privBytes t.priv g1 l (top - 8 * (d + 1)) 8))
  let live : Mask := word 3
  let xpc := BitVec.ofNat 64 (bits (word 0) 0 48)
  let e : Entry := { pc := t.kernel.restoreVa, via := .transfer, src := t.kernel.restoreVa, mask := live, mode := 0, join := 0,
                     jseq := 0, wait := .run, run := none }
  { g1 with live, entries := [(0, e)], sdepth := d, hnd := true, xcause := cPreempt, xpc, xinfo := word 1,
            xmode := (word 2).extractLsb' 8 19, rgnentry := xpc,
            snap := { live, entries := [(0, e)], depth := r.depth, bseq := r.bseq } }

/-- A pre-empted team stands on a core again. -/
def restartOn (team core : Nat) (f : Fit) : Prog Unit :=
  letI := Prog.monad
  do
    match ← look fun s => Tbl.find? s.teams team with
    | none => pure ()
    | some t => do
      let p ← look fun s => packetAt s.dev t.queue t.packet
      standTeam team core (p.elim 0 packetAcq) f
      each t.restart fun (ident, r) => do
        let owed ← look fun s => owedResults s team ident
        let (q, slot, hi) := savedPlace f t.kernel.width r
        let k := groupKey core q slot hi
        emit (.group k (restartGroup team t owed q slot r (clusterWord t.clt t.index)))
        modTeam team fun t => { t with groups := t.groups ++ [k] }
      modTeam team fun t => { t with restart := [], saved := false }
      modPacket t.queue t.packet fun p => { p with restarts := p.restarts.filter (· != team) }

/-- TEAM_RESTART (R151, R193, R194): a pre-empted team, or a whole cluster, is placed again. -/
def execTeamRestart (team : Nat) (s : State) : Out :=
  (letI := Prog.monad
   do
    match s.dev.packets.find? (fun (p : Packet) => p.restarts.contains team), Tbl.find? s.teams team with
    | some p, some t =>
      match orderOf s.dev p with
      | none => pure ()
      | some o =>
        let barred := barredCores s p
        if !restartsFirst s p team then pure ()
        else if t.clt == 0 then
          match findCore s o barred 0 with
          | none => preemptFor o barred 0
          | some (core, f) => do
            restartOn team core f
            modPart o.part fun x => { x with ptr := core }
            replace o.part
        else do
          let ms := clusterTeams s team
          let rank := fun (k : Nat) => (Tbl.find? s.teams k).elim 0 (·.rank)
          if ms.any fun k => (Tbl.find? s.teams k).elim false (·.placed) then pure ()
          else match findPatch s o barred (ms.map rank) false t.clw t.clh with
            | none => preemptPatch o barred (ms.map rank) false t.clw t.clh
            | some (die, x, y, l) => do
              markPatch t.cluster die x y t.clw t.clh
              each l fun (r, core, f) => each (ms.filter fun k => rank k == r) fun k => restartOn k core f
              modPart o.part fun x => { x with lastDie := die }
              replace o.part
    | _, _ => pure ()).outcome s

/-- Whether nothing of a partition that is torn down is left but its cache ways and table frames (R101 steps 1 to 4): no team,
no queue, no frame, no byte not yet written. -/
def tornDown (s : State) (p : Nat) : Bool :=
  (partAt s.dev p).tearing && s.teams.all (fun x => x.2.part != p) && s.dev.queues.all (fun x => !x.2.en || x.2.part != p) &&
  s.dev.frames.all (fun x => x.2.part != p) && s.dev.frameOwner.all (fun x => x.2 != p) &&
  s.cores.all (fun c => c.2.l1.all fun x => x.2.part != p || x.2.dirty == 0) &&
  s.dies.all fun d => d.2.rdc.all fun x => x.2.part != p || x.2.dirty == 0

/-- The last copies go, the ways are zero, the partition is down and says so (R101 steps 4 and 5). -/
def endTear (p : Nat) : Prog Unit :=
  letI := Prog.monad
  do
    let cs ← look fun s => Tbl.keys s.cores
    each cs fun c => modCore c fun x => { x with l1 := x.l1.filter fun y => y.2.part != p }
    each (upTo 0 4) fun die => modDie die fun d => { d with rdc := d.rdc.filter fun x => x.2.part != p }
    modPart p fun x => { x with tearing := false, spare := [], pctl := if p == 0 then x.pctl else clearBit x.pctl 0 }
    if p == 0 then pure () else postCq 0 0 (cqEntry p 0 0 0xFFFF 1 3)

/-- ZEROING_COMPLETE (R108): a buffer's zeroing ends; accesses that waited go on. -/
def execZeroingComplete (b : ZBuf) (s : State) : Out :=
  (match b with
   | .tile team => modTeam team fun t => { t with zeroing := false }
   | .frame n => .get fun s =>
     if s.dev.zeroingFrames.contains n then
       Prog.bind (wipeFrame n) fun _ =>
       modDev fun d => { d with
         zeroingFrames := d.zeroingFrames.filter (· != n),
         frameOwner := if (Tbl.find? d.frames n).isSome then d.frameOwner else Tbl.del d.frameOwner n }
     else skip
   | .ways part => .get fun s => if tornDown s part then endTear part else skip).outcome s

end Sys2Proof.Machine
end

