-- ==== Sys2Proof/Machine/Readback.lean ====
section
/-! DEFINITION. The state space (R107): one 8-byte word of the device's state by UNIT, INST and WORD. Where the spec
names a unit and gives no layout of its words, the word is a free value (notes/assumptions/36.md). -/

namespace Sys2Proof.Machine

/-- An index that names no state (R107). -/
def noState : Word64 := BitVec.allOnes 64

/-- Word n of a structure of so many words. -/
def wordIn (ws : List Word64) (n : Nat) : Word64 := nthD ws n noState

/-- The words of a watch entry (R83). -/
def Watch.words (w : Watch) : List Word64 :=
  let low := fun (x : Word64) => if w.w8 then x else BitVec.ofNat 64 (x.toNat % 2 ^ 32)
  let waiter := if w.kind == 3 then w.token % 16 * 2 ^ 28 + w.token2 % 2 ^ 28 else w.token % 2 ^ 32
  let wkind := if w.kind == 0 then 1 else if w.kind == 3 then 2 else 0
  [ BitVec.ofNat 64 (1 + w.w8.toNat * 2 + w.pa / 4 * 4 % 2 ^ 52 + w.cmp.code * 2 ^ 52 + wkind * 2 ^ 55 + w.part * 2 ^ 57),
    BitVec.ofNat 64 waiter, low w.mask, low w.comp ]

/-- The group in a slot of a core: a group of width 64 stands in both quarters of its pair (R141). -/
def slotGroup (s : State) (inst : Nat) (hi : Bool) : Option Group :=
  let core := inst / 64
  let q := inst % 64 / 16
  let slot := inst % 16
  match Tbl.find? s.groups (groupKey core q slot hi) with
  | some g => some g
  | none =>
    if hi || q % 2 == 0 then none
    else (Tbl.find? s.groups (groupKey core (q - 1) slot false)).bind fun g => if g.width == 64 then some g else none

/-- Four entries of a split table, in the layout of R168; zero where free. -/
def entryWords (t : Tbl Entry) : List Word64 :=
  (upTo 0 4).flatMap fun n => match Tbl.find? t n with
    | some e => (e.record n).words
    | none => [0, 0, 0, 0]

/-- The split state of a slot (R177). -/
def splitWords (s : State) (inst : Nat) : List Word64 :=
  let lo := slotGroup s inst false
  let hi := slotGroup s inst true
  let es := fun (g : Option Group) => entryWords (g.elim [] (·.entries))
  let snap := fun (g : Option Group) => entryWords (g.elim [] (·.snap.entries))
  let splits := fun (g : Option Group) => g.elim 0 Group.splits
  es lo ++ es hi ++ [splits lo, splits hi] ++ snap lo ++ snap hi

/-- The replay records of a group: eight words for each slot. -/
def recordWords (g : Option Group) : List Word64 :=
  (upTo 0 8).flatMap fun n => match g.bind fun g => Tbl.find? g.rr n with
    | some r => r.words
    | none => [BitVec.ofNat 64 (0xFFFF * 2 ^ 32), 0, 0, 0, 0, 0, 0, 0]

/-- The lease holds of a group (R218): line, then deadline and home die. -/
def leaseWords (s : State) (g : Option Group) : List Word64 :=
  (upTo 0 4).flatMap fun n => match (g.bind fun g => g.leases[n]?).filter fun (x : HeldLease) => x.held with
    | some x =>
      [BitVec.ofNat 64 x.line,
       BitVec.ofNat 64 ((Tbl.find? s.dev.leases x.line).elim 0 (fun h => h.deadline % 2 ^ 32) +
         (homeOf s.dev x.line).1 * 2 ^ 32)]
    | none => [0, 0]

/-- A page entry of a sorus (R121). -/
def FlePage.words (p : FlePage) : List Word64 :=
  [ BitVec.ofNat 64 (1 + p.doneSt % 4 * 2 + p.pred.toNat * 8 + p.cls % 8 * 16 + p.acc.toNat * 2 ^ 7 + p.key.page % 2 ^ 40 * 2 ^ 12 +
      p.key.ctx % 256 * 2 ^ 52 + p.key.part % 16 * 2 ^ 60),
    BitVec.ofNat 64 (nthD p.waits 0 0 % 256 + nthD p.waits 1 0 % 256 * 2 ^ 8 + nthD p.waits 2 0 % 256 * 2 ^ 16 +
      nthD p.waits 3 0 % 256 * 2 ^ 24 + p.hdie % 4 * 2 ^ 32 + p.hv.toNat * 2 ^ 34) ]

/-- A sorus slot (R121): its header and 64 page entries. -/
def sorusWords (x : Option Sorus) : List Word64 :=
  match x with
  | none => List.replicate 129 0
  | some x =>
    BitVec.ofNat 64 (x.state % 4 + x.opened % 2 ^ 32 * 2 ^ 8) ::
      (upTo 0 64).flatMap fun n => match x.pages[n]? with
        | some p => p.words
        | none => [0, 0]

/-- The lines of a slice with a predictor that is not 0 (R218). -/
def predictorWords (s : State) (inst : Nat) : List Word64 :=
  (s.dev.predict.filter fun x => sliceOf s.dev x.1 == inst).map fun x =>
    BitVec.ofNat 64 (x.1 / 128 * 128 + x.2.2.toNat * 8 + x.2.1 % 8)

/-- A frame's directory entry (R49). -/
def frameWords (f : Option Frame) : List Word64 :=
  match f with
  | none => List.replicate 20 0
  | some f =>
    [ BitVec.ofNat 64 (f.blk % 2 ^ 35 + f.part % 16 * 2 ^ 40 + f.state % 8 * 2 ^ 44 + f.refb.toNat * 2 ^ 47 + f.valid.toNat * 2 ^ 48),
      BitVec.ofNat 64 f.dirty.toNat, 0, 0 ] ++
    (upTo 0 16).map fun k => BitVec.ofNat 64 (Tbl.getD f.leaf k 0)

/-- PCAP of a partition (R99). -/
def pcapWord (p : Part) : Word64 :=
  BitVec.ofNat 64 (p.pcap.toNat % 2 ^ 12 + p.withheld % 64 * 2 ^ 16 + p.est.toNat * 2 ^ 32)

/-- The boot-step record in the order of its registers (R109). -/
def bootWords (b : Boot) : List Word64 :=
  (upTo 0 16).map (fun k => nthD b.steps k 0) ++ (upTo 0 5).map (fun k => b.coreMap.extractLsb' (64 * k) 64) ++
    [0, 0, 0, b.channelMap.setWidth 64, b.portMap.setWidth 64]

/-- The registers of a completion queue (R90). -/
def Cq.words (c : Cq) : List Word64 :=
  [c.base, c.ctl.setWidth 64, c.head.setWidth 64, c.tail.setWidth 64, c.irq.setWidth 64, c.stat.setWidth 64, 0, 0]

/-- How many completion queues a function has (R90, R128). -/
def cqCount (fn : Nat) : Nat := if fn == 0 then 12 else if fn ≤ 8 then 3 else 0

/-- Corrected errors of a die link, or of a port (R17, R31). -/
def linkWord (d : Dev) (inst : Nat) : Word64 :=
  if inst < 8 then (d.links[inst]?).elim noState fun l => BitVec.ofNat 64 l.errors
  else (d.ports[inst - 8]?).elim noState fun p => BitVec.ofNat 64 (bits p.stat 16 16)

/-- A word of the state space whose layout the spec gives; none for the units whose layout it does not. In UNITs 0x06 and 0x07
the words of the hi half of a slot stand after those of the lo half (DESIGN CHOICE, log 36). -/
def stateWord? (s : State) (unit inst word : Nat) : Option Word64 :=
  let within := fun (n : Nat) (ws : List Word64) => if inst < n then some (wordIn ws word) else some noState
  let unknown := fun (n : Nat) => if inst < n then none else some noState
  match unit with
  | 1 => within 8192 ((queueAt s.dev inst).words ++ List.replicate 8 0)
  | 2 => unknown 512
  | 3 => within 65536 ((s.dev.watches.find? fun w => !w.polled && w.slice == inst / 128 && w.entry == inst % 128).elim [0, 0, 0, 0]
      Watch.words)
  | 4 => if inst % 16 < cqCount (inst / 16) then some (wordIn (cqAt s.dev (inst / 16) (inst % 16)).words word) else some noState
  | 5 => within 18432 (splitWords s inst)
  | 6 => within 18432 (recordWords (slotGroup s inst false) ++ recordWords (slotGroup s inst true))
  | 7 => within 18432 (leaseWords s (slotGroup s inst false) ++ leaseWords s (slotGroup s inst true))
  | 8 => unknown 288
  | 9 => unknown 4
  | 10 => unknown 2
  | 11 => within 32 (sorusWords (Tbl.find? s.dev.fle.sori inst))
  | 12 => within 512 (predictorWords s inst)
  | 13 => unknown 512
  | 14 => if (inst * 65536) % dieSpan < directoryStart s.dev (inst / 1048576) && inst < 4194304
      then some (wordIn (frameWords (frameAt s.dev inst)) word) else some noState
  | 15 => within 9 [pcapWord (partAt s.dev inst)]
  | 16 => within 16 [linkWord s.dev inst]
  | 17 => within 1 (bootWords s.dev.boot)
  | 18 => within 576 (bytesWords (mxeAt s (inst / 2) (inst % 2)).image 2064)
  | 19 => unknown 18432
  | _ => some noState

/-- A word of the state space at an index: UNIT, INST, WORD. -/
def stateWord (index : Word64) : Prog Word64 :=
  letI := Prog.monad
  do
    match ← look fun s => stateWord? s (bits index 56 8) (bits index 32 24) (bits index 0 32) with
    | some x => pure x
    | none => do
      let n ← fresh
      pure (Config.freeWord n)

/-- SSIDX after a read: WORD goes up by 1 (R107). -/
def nextIndex (index : Word64) : Word64 := setBits index 0 32 (bits index 0 32 + 1)

/-- SSDATA_READ (R107). -/
def execSsdataRead (s : State) : Out :=
  (fromHost (letI := Prog.monad
   do
    let i ← look fun s => s.dev.ssidx
    let x ← stateWord i
    modDev fun d => { d with ssdata := x, ssidx := nextIndex i })).outcome s

end Sys2Proof.Machine
end

