-- ==== Sys2Proof/Machine/Cdp.lean ====
section
/-! DEFINITION. The Carding Processor (R62 to R82, R88, R89, R96, R97, R147, R148): lanes and parse steps, the packets and
what each does, retirement and abort. What the spec leaves open is in notes/assumptions/35.md. -/

namespace Sys2Proof.Machine

/-! ### Fields of packets (R70, R75) -/

def pType (p : Packet) : Nat := packetBits p.words 0 4
def pBarrier (p : Packet) : Bool := packetBits p.words 4 1 == 1
def pRel (p : Packet) : Nat := packetBits p.words 7 2
def pCsop (p : Packet) : Nat := packetBits p.words 9 2
def pCsBytes (p : Packet) : Nat := if packetBits p.words 11 1 == 1 then 8 else 4
def pCsVal (p : Packet) : Word64 := sextNat (packetBits p.words 16 32) 32 64
def pCsAddr (p : Packet) : Nat := packetBits p.words 64 64

/-- A condition of a wait (R75): address, bytes, comparison code, comparand. -/
structure WaitCond where
  addr : Nat
  bytes : Nat
  cmp : Nat
  comp : Int
deriving DecidableEq, Repr

/-- Condition k of a wait packet. -/
def waitCond (p : Packet) (k : Nat) : WaitCond :=
  let f := fun (lo n : Nat) => packetBits p.words (128 + 76 * k + lo) n
  { addr := f 0 46 * 4, bytes := if f 46 1 == 1 then 8 else 4, cmp := f 47 3, comp := (sextNat (f 50 26) 26 64 : Word64).toInt }

def waitCount (p : Packet) : Nat := packetBits p.words 508 3

/-- A signal's value, sign-extended from its width (R76). -/
def signedBytes (n x : Nat) : Int := (sextNat x (8 * n) 64 : Word64).toInt

/-- Whether a condition is satisfied by a value (R76). -/
def WaitCond.holds (c : WaitCond) (x : Int) : Bool :=
  let bx : Word64 := BitVec.ofInt 64 x
  let bc : Word64 := BitVec.ofInt 64 c.comp
  match c.cmp with
  | 0 => x == c.comp
  | 1 => x != c.comp
  | 2 => x < c.comp
  | 3 => c.comp ≤ x
  | 4 => bx &&& bc == bc
  | _ => bx &&& bc != 0

/-- A signal operation of a SIGNAL body (R77): operation, bytes, address, operand. -/
structure SigOp where
  op : Nat
  bytes : Nat
  addr : Nat
  val : Nat
deriving DecidableEq, Repr

/-- Signal 0 or 1 of a SIGNAL packet. -/
def sigOp (p : Packet) (k : Nat) : SigOp :=
  { op := packetBits p.words (384 + 4 * k) 2, bytes := if packetBits p.words (386 + 4 * k) 1 == 1 then 8 else 4,
    addr := packetBits p.words (128 + 128 * k) 64, val := packetBits p.words (192 + 128 * k) 64 }

/-! ### Malformed packets (R71) -/

/-- Argument fields of an ADMIN opcode (R80, R102): low bit and width; none for an opcode that does not exist. -/
def adminArgs (op : Nat) : Option (List (Nat × Nat)) :=
  if op == 1 then some [(192, 64), (256, 64), (320, 16), (336, 8), (344, 2), (352, 8)]
  else if op == 2 || op == 3 then some [(320, 16)]
  else if op == 4 then some [(192, 64), (256, 32), (288, 16), (304, 2), (312, 4)]
  else if op == 5 then some [(192, 64), (256, 64), (320, 64), (384, 4), (388, 28)]
  else if op == 0x10 then some [(192, 7), (208, 11), (224, 10)]
  else if op == 0x20 then some [(192, 4), (200, 3)]
  else if op == 0x21 then some [(192, 4), (208, 12)]
  else if op == 0x30 then some [(192, 64), (320, 16)]
  else if op == 0x31 then some [(192, 64), (256, 64), (320, 16)]
  else none

/-- Body bits of an ADMIN packet that no argument names are 0. -/
def adminClean (p : Packet) (l : List (Nat × Nat)) : Bool :=
  let named := l.foldl (fun a x => a + packetBits p.words x.1 x.2 * 2 ^ x.1) 0
  packetBits p.words 136 376 * 2 ^ 136 == named

/-- First queue of a partition: its admin queue (R62). -/
def adminQueue (d : Dev) (part : Nat) : Nat := bits (partAt d part).pqueue 0 13

/-- QCOUNT. -/
def queueCountOf (d : Dev) (part : Nat) : Nat := bits (partAt d part).pqueue 16 14

/-- Whether a wait body breaks R75. -/
def waitBad (p : Packet) : Bool :=
  let n := waitCount p
  packetBits p.words 511 1 != 0 || n == 0 || 5 < n ||
    (upTo 0 5).any fun k =>
      let raw := packetBits p.words (128 + 76 * k) 76
      let c := waitCond p k
      if n ≤ k then raw != 0 else 5 < c.cmp || c.addr % c.bytes != 0

/-- Whether a packet is malformed by its own words (R71), on a queue. -/
def packetBad (d : Dev) (p : Packet) : Bool :=
  let f := fun (lo n : Nat) => packetBits p.words lo n
  f 12 4 != 0 || pRel p == 3 || f 5 2 == 3 || (pCsop p != 0 && pCsAddr p % pCsBytes p != 0) ||
  match pType p with
  | 0 => f 128 384 != 0
  | 1 => f 448 64 != 0 || f 376 72 != 0
  | 2 => f 376 72 != 0 || f 256 96 != 0
  | 3 => f 384 128 != 0
  | 4 => waitBad p
  | 5 => waitBad p
  | 6 => f 391 121 != 0 || f 387 1 != 0 || [0, 1].any fun k =>
      let x := sigOp p k
      x.op == 3 || (x.op != 0 && x.addr % x.bytes != 0)
  | 7 => f 133 3 != 0 || f 138 374 != 0 || f 136 2 == 3
  | 8 => p.queue != adminQueue d (queueAt d p.queue).part || (match adminArgs (f 128 8) with
      | none => true
      | some l => !adminClean p l)
  | 9 => f 128 384 != 0
  | _ => true

/-! ### Queues and lanes -/

/-- Watches of a queue's own: its write index, and its packets that wait in the lane. -/
def dropWatches (q : Nat) : Prog Unit :=
  letI := Prog.monad
  do
    let x ← look fun s => queueAt s.dev q
    freeWatch x.watch
    let ps ← look fun s => s.dev.packets.filter fun (p : Packet) => p.queue == q && p.phase == 7
    each ps fun p => do
      each p.watches freeWatch
      modPacket q p.index fun p => { p with watches := [] }
    modQueue q fun x => { x with watch := 0 }

/-- A CDP access of a queue, for the packet of an index, has faulted (R88, R136): the page enters the FLE directly, the queue
parks and gives its lane back. -/
def parkQueue (q idx : Nat) (key : PageKey) (cls : Nat) (va : Nat) (acc : Acc) : Prog Unit :=
  letI := Prog.monad
  do
    dropWatches q
    dropLane q
    withdrawQueue q
    modDev fun d => { d with laneReqs := d.laneReqs.map fun l => l.filter (· != q) }
    modQueue q fun x => { x with stat := if x.stat == qAborted then qAborted else qParked, faultva := BitVec.ofNat 64 va,
                                 asked := false, parked := some key, blocked := some idx }
    raisePage key cls acc

/-- The queue leaves ACTIVE with nothing to read (R65). -/
def idleQueue (q : Nat) : Prog Unit :=
  letI := Prog.monad
  do
    dropLane q
    modQueue q fun x => { x with stat := qIdle }
    armWidx q

/-- The queue leaves ACTIVE: its next packet cannot start (R65). -/
def waitQueue (q : Nat) : Prog Unit :=
  letI := Prog.monad
  do
    dropLane q
    modQueue q fun x => { x with stat := qWaiting }

/-- Whether a request of a queue goes before another's (R66): by priority, then by time, then by queue number. -/
def asksBefore (d : Dev) (q r : Nat) : Bool :=
  let x := queueAt d q
  let y := queueAt d r
  if x.prio != y.prio then y.prio < x.prio
  else if x.askedAt != y.askedAt then x.askedAt < y.askedAt
  else q < r

/-- The next of an engine's requests (R66). -/
def nextRequest (d : Dev) (l : List Nat) : Option Nat :=
  l.foldl (fun (a : Option Nat) (q : Nat) => match a with
    | none => some q
    | some r => if asksBefore d q r then some q else a) none

/-- Phases of a packet whose completion path has work to do. -/
def completing (p : Packet) : Bool := p.phase == 2 || p.phase == 3 || p.phase == 4 || p.phase == 5 || p.phase == 8

/-- LANE_GRANT (R65, R66). -/
def execLaneGrant (engine : Nat) (s : State) : Out :=
  (letI := Prog.monad
   do
    let d := s.dev
    let l := nthD d.laneReqs engine []
    match nextRequest d l with
    | none => pure ()
    | some q => do
      let drop := modDev fun d => { d with laneReqs := modNth d.laneReqs engine fun l => l.filter (· != q) }
      let more := if 1 < l.length then due (.laneGrant engine) else skip
      let ps := d.packets.filter fun (p : Packet) => p.queue == q && completing p
      let finish := each ps fun p => due (.packetRetire q p.index)
      if !(queueAt d q).en then do
        drop
        more
      else if (queueAt d q).stat == qAborted then do
        drop
        modQueue q fun x => { x with asked := false, faultva := 0 }
        finish
        due (.packetRetire q (queueAt d q).ridx.toNat)
        more
      else
        match freeBelow 64 (Tbl.keys (nthD d.lanes engine [])) with
        | none => pure ()
        | some lane => do
          drop
          freeWatch (queueAt d q).watch
          modDev fun d => { d with lanes := modNth d.lanes engine fun t => Tbl.put t lane q }
          modQueue q fun x => { x with asked := false, stat := qActive, faultva := 0, watch := 0, served := 0 }
          finish
          due (.parseStep engine)
          more).outcome s

/-! ### Retirement (R72, R89) -/

/-- The cores that a partition's packets may have used. -/
def packetCores (s : State) (part : Nat) : List Nat := (partCores s.dev part).filter fun c => (Tbl.find? s.cores c).isSome

/-- A release (R72): every write of the packet's teams and engines is published; true while some write must wait. -/
def releasePacket (p : Packet) : Prog Bool :=
  letI := Prog.monad
  do
    if pRel p == 0 then pure false
    else do
      let part ← look fun s => (queueAt s.dev p.queue).part
      let cs ← look fun s => packetCores s part
      anyOf cs fun c => publish c none

/-- The new value of a completion signal. -/
def signalValue (p : Packet) (x : Nat) : Nat :=
  if p.refused then (BitVec.ofInt 64 (-2)).toNat
  else match pCsop p with
    | 1 => x + (BitVec.allOnes 64).toNat
    | 2 => x + (pCsVal p).toNat
    | _ => (pCsVal p).toNat

/-- The completion signal (R70, R72): an atomic at home. -/
def completeSignal (p : Packet) (f : Nat → Nat) : Prog (Cdp Nat) :=
  letI := Prog.monad
  do
    if pCsop p == 0 || p.nosig then pure (.ok 0)
    else do
      let a ← look fun s => queueAgent s p.queue
      cdpAtomic a (pCsAddr p) (pCsBytes p) f

/-- The packet has retired (R69): later packets of the queue may start. -/
def retired (p : Packet) : Prog Unit :=
  letI := Prog.monad
  do
    dropPacket p.queue p.index
    resumeQueue p.queue

/-- Its own completion signal's page is waited for (R88). -/
def parkSignal (p : Packet) (key : PageKey) (cls : Nat) (acc : Acc) : Prog Unit :=
  Prog.bind (modPacket p.queue p.index fun p => { p with stuck := true }) fun _ => parkQueue p.queue p.index key cls (pCsAddr p) acc

/-- The effect is complete: release, completion signal, retirement. -/
def finishPacket (p : Packet) : Prog Unit :=
  letI := Prog.monad
  do
    if ← releasePacket p then due (.packetRetire p.queue p.index)
    else
      match ← completeSignal p (signalValue p) with
      | .ok _ => retired p
      | .wait => due (.packetRetire p.queue p.index)
      | .fault key cls _ acc => parkSignal p key cls acc
      | .bad => do
        modPacket p.queue p.index fun p => { p with nosig := true }
        abortQueue p.queue p.index abUnresolved

/-! ### Process groups (R96, R97, R147, R148) -/

/-- Words of a table entry or header given as one number. -/
def tf (w lo n : Nat) : Nat := nbits w lo n

/-- An entry of a process-group table (R96). -/
def pgEntry (w : Nat) : PgEntry :=
  { devid := BitVec.ofNat 64 (tf w 0 64), rank := tf w 64 16, first := tf w 192 32, last := tf w 224 32,
    rvin := BitVec.ofNat 64 (tf w 256 64), rvout := BitVec.ofNat 64 (tf w 320 64) }

/-- A reserved field, or a neighbour's rank out of range (R97). -/
def entryBad (w count : Nat) : Bool :=
  let nb := fun (k : Nat) => tf w (80 + 16 * k) 16
  tf w 144 48 != 0 || tf w 384 128 != 0 || (upTo 0 4).any fun k => nb k != 0xFFFF && count ≤ nb k

/-- What is read of a table: header, entries as numbers. -/
structure PgRead where
  head : Nat
  entries : List Nat
deriving DecidableEq, Repr

/-- Reads n bytes that may cross a page. -/
def cdpSpan (a : Agent) (va n : Nat) : Prog (Cdp Nat) :=
  letI := Prog.monad
  do
    let first := 4096 - va % 4096
    if n ≤ first then cdpRead a va n
    else
      match ← cdpRead a va first with
      | .ok x =>
        match ← cdpRead a (va + first) (n - first) with
        | .ok y => pure (.ok (x + y * 2 ^ (8 * first)))
        | r => pure r
      | r => pure r

/-- Reads some 64-byte blocks. -/
def cdpBlocks (a : Agent) (l : List Nat) : Prog (Cdp (List Nat)) :=
  letI := Prog.monad
  match l with
  | [] => pure (.ok [])
  | va :: rest => do
    match ← cdpSpan a va 64 with
    | .ok x =>
      match ← cdpBlocks a rest with
      | .ok xs => pure (.ok (x :: xs))
      | .fault k c v e => pure (.fault k c v e)
      | .bad => pure .bad
      | .wait => pure .wait
    | .fault k c v e => pure (.fault k c v e)
    | .bad => pure .bad
    | .wait => pure .wait

/-- Reads a table on path C at system scope; of one with a COUNT out of range the header alone. -/
def readTable (a : Agent) (va : Nat) : Prog (Cdp PgRead) :=
  letI := Prog.monad
  do
    match ← cdpBlocks a [va] with
    | .ok l => do
      let head := nthD l 0 0
      let n := tf head 0 16
      if n == 0 || 64 < n then pure (.ok { head, entries := [] })
      else
        match ← cdpBlocks a ((upTo 0 n).map fun k => va + 64 + 64 * k) with
        | .ok es => pure (.ok { head, entries := es })
        | .fault k c v e => pure (.fault k c v e)
        | .bad => pure .bad
        | .wait => pure .wait
    | .fault k c v e => pure (.fault k c v e)
    | .bad => pure .bad
    | .wait => pure .wait

def PgRead.x (r : PgRead) : Nat := tf r.head 32 32
def PgRead.y (r : PgRead) : Nat := tf r.head 64 32
def PgRead.z (r : PgRead) : Nat := tf r.head 96 32
def PgRead.teams (r : PgRead) : Nat := r.x * r.y * r.z
def PgRead.table (r : PgRead) : List PgEntry := r.entries.map pgEntry

/-- Indexes of the entries that name this device. -/
def PgRead.mine (r : PgRead) : List Nat :=
  (upTo 0 r.entries.length).filter fun k => (r.table[k]?).elim false fun e => e.devid == Config.deviceId

/-- The abort code of a table (R97): PGROUP_NOMATCH first, else MALFORMED; none for a good one. Of a table of more than 64
entries none is read (DESIGN CHOICE, log 35). -/
def PgRead.fails (r : PgRead) : Option Nat :=
  let n := tf r.head 0 16
  let es := r.table
  let policy := tf r.head 16 8
  if 64 < n then some abMalformed
  else if r.mine.length != 1 then some abNoMatch
  else
    let own := nthD (es.map some) (nthD r.mine 0 0) none
    let ranks := es.map (·.rank)
    let bad := 1 < policy || tf r.head 24 8 != 0 || tf r.head 128 384 != 0 || r.entries.any (fun w => entryBad w n) ||
      ranks.any (fun x => n ≤ x) || ranks.eraseDups.length != ranks.length || r.x == 0 || r.y == 0 || r.z == 0 ||
      (policy == 0 && own.elim true fun e => e.last < e.first || r.teams ≤ e.last)
    if bad then some abMalformed else none

/-- First team of the share, and the end of it (R97). -/
def PgRead.share (r : PgRead) : Nat × Nat :=
  let n := tf r.head 0 16
  match r.table[nthD r.mine 0 0]? with
  | none => (0, 0)
  | some e =>
    if tf r.head 16 8 == 0 then (e.first, e.last + 1)
    else (e.rank * r.teams / n, (e.rank + 1) * r.teams / n)

/-- Whether an entry is this device's. -/
def PgEntry.isOwn (e : PgEntry) : Bool := e.devid == Config.deviceId

/-- Whether some of the words can not be reached yet: the first answer that says so. -/
def firstHeld (rs : List (Cdp Nat)) : Option (Cdp Nat) :=
  rs.find? fun r => match r with
    | .fault _ _ _ _ => true
    | .wait => true
    | _ => false

/-- Adds 1 to the RVIN or RVOUT of every entry, in entry order (R147), once the own word can be reached. -/
def pgAdd (a : Agent) (t : PgTable) (out : Bool) : Prog (Cdp Nat) :=
  letI := Prog.monad
  do
    let word := fun (e : PgEntry) => if out then e.rvout else e.rvin
    match t.entries[t.own]? with
    | none => pure .bad
    | some e =>
      match ← cdpPlace a (word e).toNat .atomic with
      | .ok pa => do
        each t.entries fun e =>
          if e.isOwn then .get fun s => homeWrite pa (bytesOf 8 (homeNat s pa 8 + 1)) else peerSend (.add e.rank (word e) 1)
        pure (.ok 0)
      | r => pure r

/-- Sets every RVIN and RVOUT to −1, in entry order (R148), once the own words can be reached; one that never can is left. -/
def pgFail (a : Agent) (t : PgTable) (lost : List Nat) : Prog (Cdp Nat) :=
  letI := Prog.monad
  do
    let ones := (BitVec.allOnes 64).toNat
    let own := t.entries.flatMap fun e => if e.isOwn then [e.rvin.toNat, e.rvout.toNat] else []
    let rs ← collect (own.filter fun va => !lost.contains va) fun va => cdpPlace a va .atomic
    match firstHeld rs with
    | some r => pure r
    | none => do
      let set := fun (e : PgEntry) (w : Word64) =>
        if !e.isOwn then peerSend (.set e.rank w (BitVec.allOnes 64))
        else if lost.contains w.toNat then skip
        else Prog.bind (cdpAtomic a w.toNat 8 fun _ => ones) fun _ => skip
      each t.entries fun e => do
        set e e.rvin
        set e e.rvout
      pure (.ok 0)

/-- Arms a watch "ne x" of a packet on a word (R76). -/
def armCond (a : Agent) (q idx va n : Nat) (x : Nat) : Prog Unit :=
  letI := Prog.monad
  do
    match ← translate a va .read with
    | .ok _ pa => do
      let (id, _) ← armWatch a.part pa (n == 8) (BitVec.allOnes 64) .ne (BitVec.ofNat 64 x) 1 q idx
      let live ← look fun s => s.dev.watches.any (·.id == id)
      modPacket q idx fun p => { p with watches := if live then p.watches ++ [id] else p.watches }
    | _ => due (.packetRetire q idx)

/-- The queue's next packet cannot start: an ACTIVE queue gives its lane back (R65). -/
def holdQueue (q : Nat) : Prog Unit := .get fun s => if (queueAt s.dev q).stat == qActive then waitQueue q else skip

/-- Steps 2 and 5 of R147: the device's own rendezvous word has reached COUNT. In step 2 the queue waits, as at a WAIT_ALL. -/
def pgWait (p : Packet) (out : Bool) : Prog Unit :=
  letI := Prog.monad
  do
    each p.watches freeWatch
    modPacket p.queue p.index fun p => { p with watches := [] }
    let a ← look fun s => queueAgent s p.queue
    match p.pg.bind fun t => (t.entries[t.own]?).map fun e => ((if out then e.rvout else e.rvin).toNat, t.entries.length) with
    | none => pure ()
    | some (va, n) =>
      match ← cdpRead a va 8 with
      | .wait => due (.packetRetire p.queue p.index)
      | .bad => abortQueue p.queue p.index abUnresolved
      | .fault key cls va acc => parkQueue p.queue p.index key cls va acc
      | .ok x =>
        if (n : Int) ≤ signedBytes 8 x then
          if out then do
            modPacket p.queue p.index fun p => { p with phase := 8 }
            due (.packetRetire p.queue p.index)
          else do
            modPacket p.queue p.index fun p => { p with phase := 1 }
            let part ← look fun s => (queueAt s.dev p.queue).part
            launchCheck p.queue p.index
            replace part
            resumeQueue p.queue
        else if signedBytes 8 x < 0 then abortQueue p.queue p.index abWait
        else do
          (if out then pure () else holdQueue p.queue)
          armCond a p.queue p.index va 8 x

/-- Step 4 of R147. -/
def pgDepart (p : Packet) (t : PgTable) : Prog Unit :=
  letI := Prog.monad
  do
    let a ← look fun s => queueAgent s p.queue
    match ← pgAdd a t true with
    | .ok _ => do
      modPacket p.queue p.index fun p => { p with phase := 4 }
      due (.packetRetire p.queue p.index)
    | .wait => due (.packetRetire p.queue p.index)
    | .bad => abortQueue p.queue p.index abUnresolved
    | .fault key cls va acc => parkQueue p.queue p.index key cls va acc

/-- A failed packet (R89): its completion signal becomes −1, and the rendezvous words of a process group too; it counts in
INFLIGHT until its last running team has exited, and its pre-empted teams are not placed again. The signal of a packet that is
malformed by its CSADDR is written at that address as it stands (DESIGN CHOICE, log 35). -/
def failPacket (p : Packet) : Prog Unit :=
  letI := Prog.monad
  do
    let gone ← look fun s => (s.teams.filter fun x => x.2.queue == p.queue && x.2.packet == p.index && !x.2.placed).map (·.1)
    each gone dropTeam
    let a ← look fun s => queueAgent s p.queue
    let again := due (.packetRetire p.queue p.index)
    match ← (match p.pg with
      | some t => pgFail a t p.lost
      | none => pure (.ok 0)) with
    | .wait => again
    | .fault key cls va acc => parkQueue p.queue p.index key cls va acc
    | _ =>
      match ← completeSignal p fun _ => (BitVec.allOnes 64).toNat with
      | .wait => again
      | .fault key cls _ acc => parkSignal p key cls acc
      | _ => do
        modPacket p.queue p.index fun p => { p with phase := 6, pg := none, stuck := false }
        launchCheck p.queue p.index
        let x ← look fun s => queueAt s.dev p.queue
        if x.stat == qAborted then due (.packetRetire p.queue x.ridx.toNat) else pure ()

/-- A packet that the CDP has just copied. -/
def Packet.fresh (q idx : Nat) (words : List Word64) (phase now : Nat) : Packet :=
  { queue := q, index := idx, words, phase, start := now, kernel := none, asid := 0, nextTeam := 0,
    endTeam := 0, running := 0, restarts := [], watches := [], latched := [], cmds := [], quota := 0, pg := none }

/-- The VA of a ring slot (R64). -/
def slotVa (x : Queue) (idx : Nat) : Nat := x.base.toNat + 64 * (idx % 2 ^ x.size)

/-- The eight words of a packet read as one number. -/
def packetWords (n : Nat) : List Word64 := (upTo 0 8).map fun k => BitVec.ofNat 64 (n / 2 ^ (64 * k))

/-- An ABORTED queue retires its next packet without executing it (R89 steps 4 and 5): held ones first, in ring order. Later
packets that had started when the queue aborted run on and retire normally (DESIGN CHOICE, log 35). -/
def retireNext (q : Nat) : Prog Unit :=
  letI := Prog.monad
  do
    let s ← look id
    let x := queueAt s.dev q
    let mine := s.dev.packets.filter fun (p : Packet) => p.queue == q
    if x.stat != qAborted || x.parked.isSome || mine.any (·.phase == 5) then pure ()
    else
      match mine.find? fun p => p.phase == 0 || p.phase == 7 with
      | some p => do
        each p.watches freeWatch
        modPacket q p.index fun p => { p with phase := 5, watches := [] }
        due (.packetRetire q p.index)
      | none => do
        let a ← look fun s => queueAgent s q
        match ← cdpRead a x.widx.toNat 8 with
        | .wait => due (.packetRetire q x.ridx.toNat)
        | .bad => pure ()
        | .fault key cls va acc => parkQueue q x.ridx.toNat key cls va acc
        | .ok w => do
          modQueue q fun x => { x with seen := BitVec.ofNat 64 w }
          if w ≤ x.ridx.toNat then armWidx q
          else
            let va := slotVa x x.ridx.toNat
            match ← cdpRead a va 64 with
            | .wait => due (.packetRetire q x.ridx.toNat)
            | .bad => pure ()
            | .fault key cls va acc => parkQueue q x.ridx.toNat key cls va acc
            | .ok n => do
              let idx := x.ridx.toNat
              modDev fun d => { d with packets := d.packets ++ [Packet.fresh q idx (packetWords n) 5 (hubClock s)] }
              modQueue q fun x => { x with ridx := BitVec.ofNat 64 (idx + 1) }
              due (.packetRetire q idx)

/-- PACKET_RETIRE (R72, R89, R147): the completion path of one packet. -/
def execPacketRetire (q idx : Nat) (s : State) : Out :=
  (letI := Prog.monad
   do
    match packetAt s.dev q idx with
    | none => retireNext q
    | some p =>
      match p.phase with
      | 2 => match p.pg with
        | some t => if pType p == 2 then pgDepart p t else finishPacket p
        | none => finishPacket p
      | 3 => pgWait p false
      | 4 => pgWait p true
      | 5 => failPacket p
      | 8 => finishPacket p
      | _ => retireNext q).outcome s

/-! ### Serving packets (R67) -/

/-- How a packet was served: done with; again in a later step; or its queue has left its lane. -/
inductive Served where
  | done
  | again
  | left
deriving DecidableEq, Repr

/-- The effect of a packet is complete. -/
def packetDone (p : Packet) : Prog Served :=
  letI := Prog.monad
  do
    modPacket p.queue p.index fun p => { p with phase := 2 }
    due (.packetRetire p.queue p.index)
    pure .done

/-- The queue aborts on this packet. -/
def packetAbort (p : Packet) (code : Nat) : Prog Served :=
  Prog.bind (abortQueue p.queue p.index code) fun _ => .pure .left

/-- What follows an access of a packet that is not performed. -/
def packetStop {α : Type} (p : Packet) (r : Cdp α) : Prog Served :=
  match r with
  | .fault key cls va acc => Prog.bind (parkQueue p.queue p.index key cls va acc) fun _ => .pure .left
  | .bad => packetAbort p abUnresolved
  | _ => .pure .again

/-- SIGNAL (R77): signal 0, then signal 1; what has been performed is not repeated after a fault. -/
def serveSignal (p : Packet) : Prog Served :=
  letI := Prog.monad
  do
    let a ← look fun s => queueAgent s p.queue
    let k := p.latched.length
    if k ≥ 2 then packetDone p
    else
      let x := sigOp p k
      let next := fun (p : Packet) => modPacket p.queue p.index fun p => { p with latched := p.latched ++ [true] }
      if x.op == 0 then do
        next p
        pure .again
      else
        match ← cdpAtomic a x.addr x.bytes (fun old => if x.op == 1 then x.val else old + x.val) with
        | .ok _ => do
          next p
          pure .again
        | r => packetStop p r

/-- Both signals of a SIGNAL in one step, as far as they can be performed. -/
def serveSignals (p : Packet) (fuel : Nat) : Prog Served :=
  letI := Prog.monad
  match fuel with
  | 0 => pure .again
  | fuel + 1 => do
    let before := p.latched.length
    match ← serveSignal p with
    | .again => do
      match ← look fun s => packetAt s.dev p.queue p.index with
      | some p1 => if p1.latched.length == before then pure .again else serveSignals p1 fuel
      | none => pure .left
    | r => pure r

/-- Reads the conditions that have not been satisfied. -/
def readConds (a : Agent) (p : Packet) (ks : List Nat) : Prog (Cdp (List (Nat × Nat))) :=
  letI := Prog.monad
  match ks with
  | [] => pure (.ok [])
  | k :: rest => do
    if nthD p.latched k false then readConds a p rest
    else
      let c := waitCond p k
      match ← cdpRead a c.addr c.bytes with
      | .ok x =>
        match ← readConds a p rest with
        | .ok xs => pure (.ok ((k, x) :: xs))
        | r => pure r
      | .fault key cls va e => pure (.fault key cls va e)
      | .bad => pure .bad
      | .wait => pure .wait

/-- WAIT_ALL and WAIT_ANY (R76). -/
def serveWait (p : Packet) : Prog Served :=
  letI := Prog.monad
  do
    each p.watches freeWatch
    modPacket p.queue p.index fun p => { p with watches := [] }
    let a ← look fun s => queueAgent s p.queue
    let n := waitCount p
    match ← readConds a p (upTo 0 n) with
    | .fault key cls va acc => do
      parkQueue p.queue p.index key cls va acc
      pure .left
    | .bad => packetAbort p abUnresolved
    | .wait => pure .again
    | .ok xs =>
      let value := fun (k : Nat) => (xs.find? (·.1 == k)).map fun x => signedBytes (waitCond p k).bytes x.2
      let sat := fun (k : Nat) => nthD p.latched k false || (value k).elim false (waitCond p k).holds
      let latched := (upTo 0 n).map sat
      let failed := (upTo 0 n).any fun k => !sat k && (value k).elim false (· < 0)
      modPacket p.queue p.index fun p => { p with latched }
      let all := pType p == 4
      let done := if all then latched.all id else latched.any id
      if (all && failed) || (!all && !done && failed) then packetAbort p abWait
      else if done then packetDone p
      else do
        waitQueue p.queue
        each (xs.filter fun x => !sat x.1) fun x => armCond a p.queue p.index (waitCond p x.1).addr (waitCond p x.1).bytes x.2
        pure .left

/-- FENCE (R78): an xfence over PATHS at SCOPE for every core of the partition. -/
def serveFence (p : Packet) : Prog Served :=
  letI := Prog.monad
  do
    let paths : BitVec 5 := BitVec.ofNat 5 (packetBits p.words 128 5)
    let scope := packetBits p.words 136 2
    let part ← look fun s => (queueAt s.dev p.queue).part
    let cs ← look fun s => packetCores s part
    if scope == 0 || paths == 0 then packetDone p
    else if ← (if pathC paths then anyOf cs fun c => publish c none else pure false) then pure .again
    else do
      each cs fun c => readerSide c (if scope == 2 then .sys else .dev) paths paths
      packetDone p

/-- COPY (R74): the descriptor goes to the copy engine of die n mod 4. -/
def serveCopy (p : Packet) : Prog Served :=
  letI := Prog.monad
  do
    let id ← newId
    let a ← look fun s => queueAgent s p.queue
    let x : EngCmd :=
      { id, packet := some (p.queue, p.index), team := 0, ident := 0, part := a.part, ctxidx := a.ctxidx, asid := a.asid,
        port := portCopy, words := (p.words.drop 2).take 4, phase := 0, done := 0, status := 0, cls := 0, elemMask := 0,
        record := none, set := 0, fault := none, launch := (p.queue, p.index) }
    modPacket p.queue p.index fun p => { p with phase := 1, cmds := [id] }
    addCmd (p.queue % 4) portCopy x
    pure .done

/-- Whether a team, or a whole cluster, fits on the partition's cores when all of them are free (R138). -/
def fitsEmpty (d : Dev) (part : Nat) (k : Kernel) (quota : BitVec 64) (clt w h : Nat) : Bool :=
  let cores := partCores d part
  let share := fun (die : Nat) => min (frameShare d part die) (directoryStart d die / 65536)
  if clt == 0 then
    cores.any (fun c => k.frames ≤ share (dieOf c)) && (fitTeam CoreUse.none CoreUse.none k quota).isSome
  else
    let n := (clt + w * h - 1) / (w * h)
    (fitMany CoreUse.none CoreUse.none k quota n).isSome &&
    (patchOrigins 3 w h).any fun (die, x, y) =>
      clt * k.frames ≤ share die && (upTo 0 (w * h)).all fun j => cores.contains (coreXY die (x + j % w) (y + j / w))

/-- Whether the cluster fields break R144 for a grid of T teams. -/
def clusterBad (p : Packet) (t : Nat) : Bool :=
  let clt := packetClt p
  let w := packetClw p
  let h := packetClh p
  if clt == 0 then w != 0 || h != 0
  else w == 0 || h == 0 || 12 < w * h || 24 < clt || clt < w * h || t % clt != 0 || 12 < w || 6 < h

/-- The kernel object of a packet, read once when it starts (R137, R138). -/
inductive KernelGot where
  | ok (k : Kernel)
  | bad
  | stop (r : Cdp Nat)

def readKernel (a : Agent) (p : Packet) : Prog KernelGot :=
  letI := Prog.monad
  do
    let va := packetBits p.words 128 64
    if va % 64 != 0 then pure .bad
    else
      match ← cdpRead a va 64 with
      | .ok n => pure ((kernelOf n).elim .bad .ok)
      | r => pure (.stop r)

/-- The whole clusters of a share of teams (R144): a cluster that the share cuts is not launched (DESIGN CHOICE, log 35). -/
def wholeClusters (clt first last : Nat) : Nat × Nat :=
  if clt == 0 then (first, last)
  else
    let a := (first + clt - 1) / clt * clt
    (a, max a (last / clt * clt))

/-- A launch whose checks have passed starts (R73, R142). -/
def startLaunch (p : Packet) (a : Agent) (k : Kernel) (first last : Nat) (phase : Nat) (pg : Option PgTable) :
    Prog Served :=
  letI := Prog.monad
  do
    let now ← look hubClock
    let quota ← look fun s => (partAt s.dev a.part).quota
    modPacket p.queue p.index fun p => { p with
      phase, kernel := some k, asid := a.asid, nextTeam := (wholeClusters (packetClt p) first last).1,
      endTeam := (wholeClusters (packetClt p) first last).2, start := now, quota, pg }
    (if phase == 1 then replace a.part else due (.packetRetire p.queue p.index))
    pure .done

/-- DISPATCH (R73, R138). -/
def serveDispatch (p : Packet) : Prog Served :=
  letI := Prog.monad
  do
    let s ← look id
    let a := queueAgent s p.queue
    match ← readKernel a p with
    | .bad => packetAbort p abMalformed
    | .stop r => packetStop p r
    | .ok k =>
      let gx := packetBits p.words 256 32
      let gy := packetBits p.words 288 32
      let gz := packetBits p.words 320 32
      let t := gx * gy * gz
      if t == 0 || 2 ^ 32 ≤ t || clusterBad p t ||
          !fitsEmpty s.dev a.part k (partAt s.dev a.part).quota (packetClt p) (packetClw p) (packetClh p) then
        packetAbort p abMalformed
      else startLaunch p a k 0 t 1 none

/-- PGROUP (R97, R147): the table is checked whole before arrival. -/
def servePgroup (p : Packet) : Prog Served :=
  letI := Prog.monad
  do
    let s ← look id
    let a := queueAgent s p.queue
    let va := packetBits p.words 448 64
    match ← readTable a va with
    | .ok r => do
      let t : PgTable := { entries := r.table, own := nthD r.mine 0 0 }
      modPacket p.queue p.index fun p => { p with pg := some t }
      match r.fails with
      | some code => packetAbort p code
      | none =>
        match ← readKernel a p with
        | .bad => packetAbort p abMalformed
        | .stop r => packetStop p r
        | .ok k =>
          if 2 ^ 32 ≤ r.teams || clusterBad p r.teams ||
              !fitsEmpty s.dev a.part k (partAt s.dev a.part).quota (packetClt p) (packetClw p) (packetClh p) then packetAbort p abMalformed
          else
            match ← pgAdd a t false with
            | .ok _ => startLaunch p a k r.share.1 r.share.2 3 (some t)
            | r => packetStop p r
    | .fault key cls va acc => do
      parkQueue p.queue p.index key cls va acc
      pure .left
    | .bad => packetAbort p abUnresolved
    | .wait => pure .again

/-! ### ADMIN (R80, R81, R102) -/

/-- A refused command (R80): −2 to its signal, an ADMIN_REFUSED entry; the queue runs on. -/
def adminRefuse (p : Packet) : Prog Served :=
  letI := Prog.monad
  do
    let part ← look fun s => (queueAt s.dev p.queue).part
    postCq (fnOfPart part) 0 (cqEntry p.index (packetBits p.words 48 16) 0 p.queue 2 0)
    modPacket p.queue p.index fun p => { p with refused := true }
    packetDone p

/-- Queue that QNUM names; none outside the partition's range, or for 0. -/
def adminTarget (d : Dev) (part n : Nat) : Option Nat :=
  if n == 0 || queueCountOf d part ≤ n then none else some (adminQueue d part + n)

/-- A queue comes into being with the current value of its write-index word (R80, R100). -/
def createQueue (q part ctx size prio : Nat) (base widx w : Word64) : Prog Unit :=
  letI := Prog.monad
  do
    modDev fun d => { d with energy := Tbl.del d.energy q, activity := Tbl.del d.activity q }
    modQueue q fun _ => { Queue.reset with base, widx, ridx := w, seen := w, size, prio, part, stat := qIdle, en := true, ctx }
    armWidx q

/-- A queue goes (R80, R101): its watch and its lane are free. -/
def destroyQueue (q : Nat) : Prog Unit :=
  letI := Prog.monad
  do
    dropWatches q
    let ps ← look fun s => s.dev.packets.filter fun (p : Packet) => p.queue == q
    each ps fun p => each p.watches freeWatch
    dropLane q
    modDev fun d => { d with laneReqs := d.laneReqs.map fun l => l.filter (· != q),
                             packets := d.packets.filter fun p => p.queue != q }
    modQueue q fun x => { x with en := false, stat := qIdle, asked := false, parked := none, blocked := none,
                                 inflight := 0 }

/-- Whether a context of a partition is enabled (R39). -/
def ctxEnabled (s : State) (part k : Nat) : Bool := (readCtx s part k).isSome

/-- QUEUE_CREATE. -/
def adminCreate (p : Packet) (part : Nat) : Prog Served :=
  letI := Prog.monad
  do
    let s ← look id
    let f := fun (lo n : Nat) => packetBits p.words lo n
    match adminTarget s.dev part (f 320 16) with
    | none => adminRefuse p
    | some q =>
      if (queueAt s.dev q).en || f 336 8 < 6 || 16 < f 336 8 || f 192 12 != 0 || f 256 3 != 0 || !ctxEnabled s part (f 352 8) then
        adminRefuse p
      else
        let a : Agent := { part, ctxidx := f 352 8, asid := (readCtx s part (f 352 8)).elim 0 (·.asid), core := none, die := none }
        match ← cdpRead a (f 256 64) 8 with
        | .ok w => do
          createQueue q part (f 352 8) (f 336 8) (f 344 2) (BitVec.ofNat 64 (f 192 64)) (BitVec.ofNat 64 (f 256 64))
            (BitVec.ofNat 64 w)
          packetDone p
        | r => packetStop p r

/-- QUEUE_DESTROY. -/
def adminDestroy (p : Packet) (part : Nat) : Prog Served :=
  letI := Prog.monad
  do
    let s ← look id
    match adminTarget s.dev part (packetBits p.words 320 16) with
    | none => adminRefuse p
    | some q =>
      let x := queueAt s.dev q
      if !x.en || !(x.stat == qIdle || x.stat == qAborted) || x.inflight != 0 then adminRefuse p
      else do
        destroyQueue q
        packetDone p

/-- QUEUE_RESET. -/
def adminReset (p : Packet) (part : Nat) : Prog Served :=
  letI := Prog.monad
  do
    let s ← look id
    match adminTarget s.dev part (packetBits p.words 320 16) with
    | none => adminRefuse p
    | some q =>
      let x := queueAt s.dev q
      if !x.en || x.stat != qAborted || x.inflight != 0 then adminRefuse p
      else
        match ← cdpRead (queueAgent s q) x.widx.toNat 8 with
        | .ok w => do
          modDev fun d => { d with packets := d.packets.filter fun y => y.queue != q }
          modQueue q fun y => { y with ridx := BitVec.ofNat 64 w, seen := BitVec.ofNat 64 w, abcode := 0, stat := qIdle,
                                       parked := none, blocked := none, faultva := 0 }
          armWidx q
          packetDone p
        | r => packetStop p r

/-- TLB_INVAL: the packet retires once the invalidation is done. -/
def adminInval (p : Packet) (part : Nat) : Prog Served :=
  letI := Prog.monad
  do
    let f := fun (lo n : Nat) => packetBits p.words lo n
    if f 192 12 != 0 || 8 < f 312 4 || (part != 0 && (f 312 4 != part || f 304 1 == 1)) then adminRefuse p
    else do
      modPacket p.queue p.index fun p => { p with phase := 1 }
      due (.tlbInvalDone p.queue p.index)
      pure .done

/-- A comparison code (R75). -/
def cmpOf (n : Nat) : Option Cmp := [Cmp.eq, .ne, .lt, .ge, .allSet, .anySet].find? fun c => c.code == n

/-- WATCH_ARM. -/
def adminWatch (p : Packet) (part : Nat) : Prog Served :=
  letI := Prog.monad
  do
    let s ← look id
    let f := fun (lo n : Nat) => packetBits p.words lo n
    let w8 := f 387 1 == 1
    match cmpOf (f 384 3) with
    | none => adminRefuse p
    | some c =>
      if f 192 64 % (if w8 then 8 else 4) != 0 || !(cqAt s.dev (fnOfPart part) 2).enabled then adminRefuse p
      else
        match ← cdpPlace (queueAgent s p.queue) (f 192 64) .read with
        | .ok pa => do
          let _ ← armWatch part pa w8 (BitVec.ofNat 64 (f 256 64)) c (BitVec.ofNat 64 (f 320 64)) 3 (fnOfPart part) (f 388 28)
          packetDone p
        | r => packetStop p r

/-- QUOTA_SET (R103). -/
def adminQuota (p : Packet) (part : Nat) : Prog Served :=
  letI := Prog.monad
  do
    let f := fun (lo n : Nat) => packetBits p.words lo n
    if f 192 7 == 0 || 64 < f 192 7 || f 208 11 < 8 || 1024 < f 208 11 || 384 < f 224 10 then adminRefuse p
    else do
      modPart part fun x => { x with quota := nthD p.words 3 0 }
      packetDone p

/-- PSTATE_SET (R104): the dies of DIEMASK begin to change. -/
def adminPstate (p : Packet) (part : Nat) : Prog Served :=
  letI := Prog.monad
  do
    let f := fun (lo n : Nat) => packetBits p.words lo n
    if part != 0 || f 200 3 == 7 then adminRefuse p
    else do
      each ((upTo 0 4).filter fun k => f (192 + k) 1 == 1) fun die => do
        modDie die fun d => { d with changing := some (f 200 3) }
        due (.pstateTransitionDone die)
      packetDone p

/-- CAP_SET. -/
def adminCap (p : Packet) (part : Nat) : Prog Served :=
  letI := Prog.monad
  do
    let f := fun (lo n : Nat) => packetBits p.words lo n
    if part != 0 || 8 < f 192 4 then adminRefuse p
    else do
      modPart (f 192 4) fun x => { x with pcap := BitVec.ofNat 64 (f 208 12) }
      packetDone p

/-- ENERGY_READ (R106). -/
def adminEnergy (p : Packet) (part : Nat) : Prog Served :=
  letI := Prog.monad
  do
    let s ← look id
    let f := fun (lo n : Nat) => packetBits p.words lo n
    match adminTarget s.dev part (f 320 16) with
    | none => adminRefuse p
    | some q =>
      if f 192 3 != 0 then adminRefuse p
      else
        match ← cdpAtomic (queueAgent s p.queue) (f 192 64) 8 (fun _ => (queueAt s.dev q).energy.toNat) with
        | .ok _ => packetDone p
        | r => packetStop p r

/-- Copies state-space words to memory; a fault leaves the rest to a later attempt, which begins again. -/
def copyState (a : Agent) (dest : Nat) (index : Word64) (n : Nat) : Prog (Cdp Nat × Nat) :=
  letI := Prog.monad
  match n with
  | 0 => pure (.ok 0, dest)
  | n + 1 => do
    let x ← stateWord index
    match ← cdpAtomic a dest 8 fun _ => x.toNat with
    | .ok _ => copyState a (dest + 8) (nextIndex index) n
    | r => pure (r, dest)

/-- STATE_READ (R102, R107). -/
def adminState (p : Packet) (part : Nat) : Prog Served :=
  letI := Prog.monad
  do
    let f := fun (lo n : Nat) => packetBits p.words lo n
    let a ← look fun s => queueAgent s p.queue
    if part != 0 || f 320 16 == 0 || 4096 < f 320 16 || f 192 3 != 0 then adminRefuse p
    else
      match ← copyState a (f 192 64) (BitVec.ofNat 64 (f 256 64)) (f 320 16) with
      | (.ok _, _) => packetDone p
      | (r, _) => packetStop p r

/-- ADMIN by opcode. -/
def serveAdmin (p : Packet) : Prog Served :=
  letI := Prog.monad
  do
    let part ← look fun s => (queueAt s.dev p.queue).part
    let op := packetBits p.words 128 8
    if op == 1 then adminCreate p part
    else if op == 2 then adminDestroy p part
    else if op == 3 then adminReset p part
    else if op == 4 then adminInval p part
    else if op == 5 then adminWatch p part
    else if op == 0x10 then adminQuota p part
    else if op == 0x20 then adminPstate p part
    else if op == 0x21 then adminCap p part
    else if op == 0x30 then adminEnergy p part
    else if op == 0x31 then adminState p part
    else packetAbort p abMalformed

/-- TLB_INVAL_DONE (R81): no structure holds an entry any more; a context whose descriptor has been disabled loses its
pages (R462). -/
def execTlbInvalDone (q idx : Nat) (s : State) : Out :=
  (letI := Prog.monad
   do
    match packetAt s.dev q idx with
    | none => pure ()
    | some p =>
      let f := fun (lo n : Nat) => packetBits p.words lo n
      if p.phase != 1 || pType p != 8 || f 128 8 != 4 then pure ()
      else do
        let part := f 312 4
        invalRange part (if f 305 1 == 1 then none else some (f 288 16)) (f 192 64) (f 256 32) (f 304 1 == 1)
        loseDisabled
        let _ ← packetDone p
        pure ()).outcome s

/-! ### Parse steps -/

/-- Serves a packet (R67): malformed ones abort, the others by type. -/
def servePacket (p : Packet) : Prog Served :=
  letI := Prog.monad
  do
    let d ← look fun s => s.dev
    if packetBad d p then packetAbort p abMalformed
    else match pType p with
      | 0 => packetDone p
      | 1 => serveDispatch p
      | 2 => servePgroup p
      | 3 => serveCopy p
      | 4 => serveWait p
      | 5 => serveWait p
      | 6 => serveSignals p 3
      | 7 => serveFence p
      | 8 => serveAdmin p
      | 9 => packetAbort p abPacket
      | _ => packetAbort p abMalformed

/-- A cluster launch of the queue still looks for a patch (R145): the queue waits. -/
def clusterWaits (d : Dev) (q : Nat) : Bool :=
  d.packets.any fun p => p.queue == q && p.phase == 1 && p.kernel.isSome && packetClt p != 0 && p.nextTeam < p.endTeam

/-- Packets of a queue that have started and not retired (R69). -/
def startedOn (d : Dev) (q : Nat) : Nat := (d.packets.filter fun x => x.queue == q && x.phase != 0).length

/-- Whether a held packet cannot start (R69, R78): behind a PGROUP that waits in its step 2 (R147), 16 in flight, or earlier
packets where it has BARRIER, is a FENCE or was the 17th. -/
def cannotStart (d : Dev) (p : Packet) : Bool :=
  let n := startedOn d p.queue
  clusterWaits d p.queue || (d.packets.any fun x => x.queue == p.queue && x.phase == 3) || 16 ≤ n ||
    ((pBarrier p || p.barred || pType p == 7) && n != 0)

/-- The packet that a queue's lane holds: one that is still served, or the next of the ring (R64). -/
def nextPacket (q : Nat) : Prog (Option Packet) :=
  letI := Prog.monad
  do
    let s ← look id
    match s.dev.packets.find? fun (p : Packet) => p.queue == q && (p.phase == 0 || p.phase == 7) with
    | some p => pure (some p)
    | none => do
      let x := queueAt s.dev q
      let a := queueAgent s q
      match ← cdpRead a x.widx.toNat 8 with
      | .wait => pure none
      | .bad => do
        abortQueue q x.ridx.toNat abUnresolved
        pure none
      | .fault key cls va acc => do
        parkQueue q x.ridx.toNat key cls va acc
        pure none
      | .ok w => do
        modQueue q fun x => { x with seen := BitVec.ofNat 64 w }
        if w ≤ x.ridx.toNat then do
          idleQueue q
          pure none
        else if x.ridx.toNat + 2 ^ x.size < w then do
          abortQueue q x.ridx.toNat abOverrun
          pure none
        else do
          let idx := x.ridx.toNat
          match ← cdpRead a (slotVa x idx) 64 with
          | .ok n => do
            let p := Packet.fresh q idx (packetWords n) 0 (hubClock s)
            modDev fun d => { d with packets := d.packets ++ [p] }
            modQueue q fun x => { x with ridx := BitVec.ofNat 64 (idx + 1) }
            pure (some p)
          | .fault key cls va acc => do
            parkQueue q idx key cls va acc
            pure none
          | .bad => do
            abortQueue q idx abUnresolved
            pure none
          | .wait => pure none

/-- What a lane offers in a parse step: a packet that can start. -/
def offerPacket (q : Nat) : Prog (Option (Nat × Nat × Nat)) :=
  letI := Prog.monad
  do
    match ← nextPacket q with
    | none => pure none
    | some p => do
      let d ← look fun s => s.dev
      if p.phase == 0 && cannotStart d p then do
        (if 16 ≤ startedOn d q then modPacket q p.index fun p => { p with barred := true } else pure ())
        waitQueue q
        pure none
      else pure (some (q, p.index, if packetBad d p then 16 else pType p))

/-- Serves the offered packets of some types, in lane order. -/
def serveTypes (ts : List Nat) (l : List (Nat × Nat × Nat)) : Prog Unit :=
  each (l.filter fun x => ts.contains x.2.2) fun (q, idx, _) =>
    letI := Prog.monad
    do
      let d ← look fun s => s.dev
      if (queueAt d q).stat != qActive then pure ()
      else match packetAt d q idx with
        | none => pure ()
        | some p => do
          let now ← look hubClock
          modPacket q idx fun p => if p.phase == 0 then { p with phase := 7, start := now } else p
          countInflight q
          match ← servePacket { p with phase := 7 } with
          | .done => do
            countInflight q
            modQueue q fun x => { x with served := x.served + 1 }
          | _ => pure ()

/-- PARSE_STEP (R67): every lane offers its packet, the types are served in their order, and a queue that has had 64
packets in a row gives its lane to one that waits (R66): it asks again as one just activated, IDLE until it has a lane
(DEDUCED, log 35). -/
def execParseStep (engine : Nat) (s : State) : Out :=
  (letI := Prog.monad
   do
    let lanes := nthD s.dev.lanes engine []
    let offered ← collect lanes fun x => offerPacket x.2
    let l := offered.filterMap id
    each [[16], [9], [6], [4, 5], [7], [3], [1], [2], [8], [0]] fun ts => serveTypes ts l
    let after ← look fun s => nthD s.dev.lanes engine []
    each after fun x => do
      let d ← look fun s => s.dev
      if 64 ≤ (queueAt d x.2).served && !(nthD d.laneReqs engine []).isEmpty then do
        dropLane x.2
        modQueue x.2 fun y => { y with stat := qIdle }
        askLane x.2
      else pure ()
    let rest ← look fun s => nthD s.dev.lanes engine []
    if rest.isEmpty then pure () else due (.parseStep engine)).outcome s

/-! ### Polling (R85) -/

/-- WATCH_POLL: a watch that has no entry evaluates its condition as though a write had occurred. -/
def execWatchPoll (id : Nat) (s : State) : Out :=
  (letI := Prog.monad
   do
    match s.dev.watches.find? fun (w : Watch) => w.id == id with
    | none => pure ()
    | some w =>
      if !w.polled || w.kind == 0 || w.fired.isSome then pure ()
      else if watchHolds w.w8 w.mask w.cmp w.comp (homeNat s w.pa (watchSize w.w8)) then fireAll [w]
      else due (.watchPoll id)).outcome s

end Sys2Proof.Machine
end

