-- ==== Sys2Proof/Machine/Partition.lean ====
section
/-! DEFINITION. Partitions (R99 to R101): enabling with its checks, the tear-down, the admin queues. Choices that the spec
leaves open are in notes/assumptions/38.md. -/

namespace Sys2Proof.Machine

/-- CFGERR of a partition: an enable or a write was refused. -/
def partRefused (p : Nat) : Prog Unit := modPart p fun x => { x with pctl := setBit x.pctl 1 }

def Part.enabled (x : Part) : Bool := x.pctl.getLsbD 0

/-- PFRAMES of a die, in GiB. -/
def Part.gib (x : Part) (die : Nat) : Nat := bits x.pframes (8 * die) 6

def Part.firstQueue (x : Part) : Nat := bits x.pqueue 0 13
def Part.queueCount (x : Part) : Nat := bits x.pqueue 16 14

/-- The sum of something over some partitions. -/
def sumOver (l : List Part) (f : Part → Nat) : Nat := l.foldl (fun a x => a + f x) 0

/-- SIZELOG2 of PADMR is in range, and context 0 is enabled (R100). -/
def adminOk (s : State) (p : Nat) (padmr : Word64) : Bool :=
  6 ≤ bits padmr 0 5 && bits padmr 0 5 ≤ 16 && ctxEnabled s p 0

/-- The checks made on a write of EN = 1 (R100). -/
def enableOk (s : State) (p : Nat) : Bool :=
  let x := partAt s.dev p
  let others := ((upTo 0 9).filter fun k => k != p && (partAt s.dev k).enabled).map (partAt s.dev)
  let lo := x.firstQueue
  let hi := lo + x.queueCount
  1 ≤ x.queueCount && hi ≤ 8192 &&
    others.all (fun y => y.coreset &&& x.coreset == 0 && y.pways &&& x.pways == 0 &&
      (hi ≤ y.firstQueue || y.firstQueue + y.queueCount ≤ lo)) &&
    (upTo 0 4).all (fun die => x.gib die + sumOver others (fun y => y.gib die) ≤ dieCapacity s.dev die / 0x40000000) &&
    x.pwatch.toNat + sumOver others (fun y => y.pwatch.toNat) ≤ 128 && adminOk s p x.padmr

/-- How the making of an admin queue ends. -/
inductive Made where
  | ok
  | bad
  | wait
deriving DecidableEq, Repr

/-- The admin queue of a partition (R100): PRIO 3, context 0, ring and write-index word from PADMR and PADMW. A word that
cannot be read makes no queue. -/
def makeAdmin (p : Nat) (padmr : Word64) : Prog Made :=
  letI := Prog.monad
  do
    let s ← look id
    let x := partAt s.dev p
    let a : Agent := { part := p, ctxidx := 0, asid := (readCtx s p 0).elim 0 (·.asid), core := none, die := none }
    match ← cdpRead a x.padmw.toNat 8 with
    | .ok w => do
      destroyQueue x.firstQueue
      createQueue x.firstQueue p 0 (bits padmr 0 5) 3 (BitVec.ofNat 64 (padmr.toNat / 4096 * 4096)) x.padmw (BitVec.ofNat 64 w)
      pure .ok
    | .wait => pure .wait
    | _ => pure .bad

/-- A write of EN = 1 (R100). -/
def enablePart (p : Nat) : Prog Unit :=
  letI := Prog.monad
  do
    let s ← look id
    if p == 0 || 8 < p || (partAt s.dev p).enabled then pure ()
    else if !enableOk s p then partRefused p
    else
      match ← makeAdmin p (partAt s.dev p).padmr with
      | .bad => partRefused p
      | .wait => due (.pctlEnable p)
      | .ok => modPart p fun x => { x with
          pctl := setBit x.pctl 0, quota := (Part.reset p s.dev).quota, ptr := 287, lastDie := 3, hand := [], withheld := 0,
          est := 0 }

/-- PCTL_ENABLE (R100). -/
def execPctlEnable (part : Nat) (s : State) : Out := (fromHost (enablePart part)).outcome s

/-! ### Tear-down (R101) -/

/-- Every team of a partition stops without a save. Its private frames stay for step 3. -/
def tearTeams (p : Nat) : Prog Unit :=
  letI := Prog.monad
  do
    let ts ← look fun s => (s.teams.filter fun x => x.2.part == p).map (·.1)
    each ts fun t => do
      stopTeam t
      modTeam t fun x => { x with frames := [] }
      dropTeam t

/-- Commands of a partition leave the engines of a die, and their records with them. -/
def tearEngines (p die : Nat) : Prog Unit :=
  modDie die fun d =>
    let ids := ((d.copy ++ d.coll).filter (·.part == p)).map (·.id)
    { d with copy := d.copy.filter (·.part != p), coll := d.coll.filter (·.part != p),
             copyRr := d.copyRr.filter (fun x => !ids.contains x.2.cmd), tlb := d.tlb.filter (·.part != p), stage := d.stage.filter (·.key.part != p) }

/-- What a core keeps of a partition goes, but for its L1 lines, whose dirty bytes an eviction still flushes (R54, R223). -/
def tearCore (p : Nat) (c : Core) (own : Bool) : Core :=
  let mine := c.depthFor.any fun r => r.part == p
  { c with tlb := c.tlb.filter (·.part != p),
           filter := c.filter.filter (·.key.part != p), pixel := c.pixel.filter (fun x => x.raster.part != p),
           depthFor := if mine then none else c.depthFor, depth := if mine then [] else c.depth,
           icache := if own then [] else c.icache, xcache := if own then [] else c.xcache }

/-- Pages, hints, watches and walk-cache entries of a partition go. -/
def tearTables (p : Nat) : Prog Unit :=
  letI := Prog.monad
  do
    modDev fun d =>
      let keep := fun (x : Sorus) => { x with pages := x.pages.filter fun y => y.key.part != p }
      let sori := Tbl.mapVals d.fle.sori fun _ x => keep x
      let reqs := d.fle.reqs.filter fun (r : PageReq) => r.page.key.part != p
      let hints := d.fle.hints.filter fun (h : Nat × PageKey × Nat × Bool) => h.2.1.part != p
      let queue := d.fle.queue.filter fun (y : FlePage) => y.key.part != p
      { d with
        fle := { d.fle with sori, reqs, hints, queue }, watches := d.watches.filter (·.part != p),
        walk1 := d.walk1.filter (·.part != p), walk2 := d.walk2.filter (·.part != p),
        peerWaits := d.peerWaits.filter fun x => x.2.part != p }
    freeSori

/-- Steps 1 and 2: the teams stop, and every queue is destroyed without retiring its packets. -/
def beginTear (p : Nat) : Prog Unit :=
  letI := Prog.monad
  do
    modPart p fun x => { x with tearing := true }
    tearTeams p
    let qs ← look fun s => (s.dev.queues.filter fun x => x.2.en && x.2.part == p).map (·.1)
    each qs destroyQueue
    each (upTo 0 4) (tearEngines p)
    let cs ← look fun s => Tbl.keys s.cores
    each cs fun c => do
      let own ← look fun s => (partAt s.dev p).coreset.getLsbD c
      modCore c fun x => tearCore p x own
    tearTables p
    due (.pctlDisable p)

/-- Every dirty byte of a partition is written back (DESIGN CHOICE, log 38: the rule does not say what becomes of those that
lie in no frame). -/
def tearFlush (p : Nat) : Prog Unit :=
  letI := Prog.monad
  do
    let s ← look id
    each s.cores fun c => each (c.2.l1.filter fun x => x.2.part == p && x.2.dirty != 0) fun x =>
      if heldNow s (128 * (x.1 / 2)) true then skip else pushL1 c.1 x.1
    let s ← look id
    each s.dies fun d => each (d.2.rdc.filter fun x => x.2.part == p && x.2.dirty != 0) fun x =>
      if heldNow s (128 * rdcLine x.1) true then skip else pushRdc d.1 x.1

/-- Steps 3 and 4: once no migration is in flight the frames are evicted and freed, what is left dirty is written back, and the
partition's frames and ways are zeroed. -/
def continueTear (p : Nat) : Prog Unit :=
  letI := Prog.monad
  do
    let d ← look fun s => s.dev
    if d.moves.any (fun (m : Move) => m.part == p && m.kind != 1) then due (.pctlDisable p)
    else do
      let fs := d.frames.filter fun x => x.2.part == p
      each (fs.filter fun x => x.2.state == 2 || x.2.state == 3) fun x => Prog.bind (startEvict x.1) fun _ => skip
      each (fs.filter fun x => x.2.state == 1) fun x => modDev fun d => { d with frames := Tbl.del d.frames x.1 }
      tearFlush p
      let s ← look id
      each ((Tbl.keys (s.dev.frameOwner.filter fun x => x.2 == p)).filter fun n =>
        (Tbl.find? s.dev.frames n).isNone && !s.dev.zeroingFrames.contains n) zeroFrame
      if tornDown s p then due (.zeroingComplete (.ways p)) else due (.pctlDisable p)

/-- A write of EN = 0 (R101), or a later step of the tear-down; partition 0 is always enabled. -/
def disablePart (p : Nat) : Prog Unit :=
  letI := Prog.monad
  do
    let x ← look fun s => partAt s.dev p
    if x.tearing then continueTear p
    else fromHost (if p == 0 then partRefused 0 else if x.enabled then beginTear p else skip)

/-- PCTL_DISABLE (R101): the write of EN = 0, and the later steps of the tear-down. -/
def execPctlDisable (part : Nat) (s : State) : Out := (disablePart part).outcome s

/-- A function-level reset (R101, R33): the function's registers return to reset, and its partition goes down. -/
def resetFunction (fn : Nat) : Prog Unit :=
  letI := Prog.monad
  do
    modDev fun d => { d with fns := Tbl.del d.fns fn }
    let x ← look fun s => partAt s.dev fn
    if x.enabled && !x.tearing then beginTear fn else pure ()

/-- VF_FLR (R101). -/
def execVfFlr (vf : Nat) (s : State) : Out := (fromHost (if vf == 0 || 8 < vf then skip else resetFunction vf)).outcome s

/-! ### Partition 0 -/

/-- PADMR_WRITE (R100): the admin queue of partition 0 is made anew. -/
def execPadmrWrite (v : Word64) (s : State) : Out :=
  (fromHost (letI := Prog.monad
   do
    let s ← look id
    let q := queueAt s.dev (partAt s.dev 0).firstQueue
    let idle := !q.en || ((q.stat == qIdle || q.stat == qAborted) && q.inflight == 0)
    let w : Word64 := BitVec.ofNat 64 (bits v 12 36 * 4096 + bits v 0 5)
    if !adminOk s 0 w || !idle then partRefused 0
    else
      match ← makeAdmin 0 w with
      | .ok => modPart 0 fun x => { x with padmr := w }
      | .bad => partRefused 0
      | .wait => due (.padmrWrite v))).outcome s

end Sys2Proof.Machine
end

