-- ==== Sys2Proof/Machine/Ports.lean ====
section
/-! DEFINITION. Ports and links (R17, R21, R24, R26, R28 to R33), boot (R109), attestation (R110, R111). Choices that the
spec leaves open are in notes/assumptions/39.md. -/

namespace Sys2Proof.Machine

/-! ### Registers of a port (R29, R31) -/

def modPort (n : Nat) (f : Port → Port) : Prog Unit := modDev fun d => { d with ports := modNth d.ports n f }

def Port.enabled (p : Port) : Bool := p.ctl.getLsbD 0
def Port.role (p : Port) : Nat := bits p.ctl 2 2

/-- The port with another STATE. -/
def Port.withState (p : Port) (st : Nat) : Port := { p with stat := setBits p.stat 4 3 st }

/-- ERRCNT goes up by one, to 0xFFFF at most (R31). -/
def Port.countError (p : Port) : Port := { p with stat := setBits p.stat 16 16 (min 0xFFFF (bits p.stat 16 16 + 1)) }

/-- IDEUP is 1 while the port is up, not in 68-byte flit mode, and every stream configured on it, of at least one, is keyed
(R22, R31). -/
def Port.settleIde (p : Port) : Port :=
  let up := p.state == 2 && !p.flit68 && !p.streams.isEmpty && p.streams.all fun x => x.2.2
  { p with stat := if up then setBit p.stat 14 else clearBit p.stat 14 }

/-- The keys of every stream are lost, as the link is (R28; log 39). -/
def Port.unkeyed (p : Port) : Port := ({ p with streams := p.streams.map fun x => (x.1, x.2.1, false) } : Port).settleIde

/-- The port has no link: PROTO, RATE, WIDTH and IDEUP are 0. -/
def Port.unlinked (p : Port) (st : Nat) : Port :=
  ({ p with stat := setBits (setBits p.stat 7 7 0) 4 3 st, flit68 := false, ran := false } : Port).unkeyed

/-- PORTSTAT as the INFO of an entry. -/
def portInfo (d : Dev) (n : Nat) : Nat := (portAt d n).stat.toNat

/-- The pool's active set without, or with, a port (R25, R26). -/
def leavePool (n : Nat) : Prog Unit := modDev fun d => { d with poolPorts := clearBit d.poolPorts n }
def joinPool (n : Nat) : Prog Unit := modDev fun d => { d with poolPorts := setBit d.poolPorts n }

/-! ### PORTCTL (R30) -/

/-- Whether a write to PORTCTL is refused, which sets CFGERR. -/
def ctlRefused (n : Nat) (v : BitVec 32) : Bool :=
  (n != 0 && bits v 2 2 == 1) || 2 < bits v 5 3 || 1 < bits v 8 2

/-- PORTCTL after a write: the fields that may change, each only where its write is not ignored. -/
def nextCtl (n : Nat) (skipped : Bool) (old v : BitVec 32) : BitVec 32 :=
  let take := fun (x : BitVec 32) (lo k : Nat) (ok : Bool) => if ok then setBits x lo k (bits v lo k) else x
  let off := !old.getLsbD 0
  let a := take old 4 1 true
  let b := take a 2 2 (off && n != 0 && bits v 2 2 != 1)
  let c := take b 5 3 (off && bits v 5 3 ≤ 2)
  let d := take c 8 2 (off && bits v 8 2 ≤ 1)
  let e := take d 10 2 off
  take e 0 1 (if v.getLsbD 0 then !skipped else n != 0)

/-- A write to PORTCTL: a rise of ENABLE clears ERRCNT and starts training, a fall disables the port. -/
def writePortctl (n : Nat) (v : BitVec 32) : Prog Unit :=
  letI := Prog.monad
  do
    let d ← look fun s => s.dev
    let p := portAt d n
    let ctl := nextCtl n (d.boot.portOut.getLsbD n) p.ctl v
    modPort n fun p => { p with ctl, stat := if ctlRefused n v then setBit p.stat 15 else p.stat }
    if !p.enabled && ctl.getLsbD 0 then do
      modPort n fun p => { p with stat := setBits p.stat 16 16 0 }
      if bits ctl 2 2 == 0 then pure () else modPort n fun p => p.withState 1
    else if p.enabled && !ctl.getLsbD 0 then do
      modPort n fun p => { p.unlinked 0 with lost := p.lost || d.poolPorts.getLsbD n, streams := [] }
      leavePool n
    else pure ()

/-- PORTCTL_WRITE (R30). -/
def execPortctlWrite (port : Nat) (v : BitVec 32) (s : State) : Out := (fromHost (writePortctl port v)).outcome s

/-! ### Training (R22 to R24, R32) -/

/-- Whether what a partner offers is enough for a port: a rate and a width there are, no better than allowed; CXL for a pool
or peer port; on port 0 PCIe too, and nothing else where this start trains it directly (R32). 68-byte flits are for 32 GT/s
and below, and not for a port that requires IDE (R22). -/
def trainingGood (b : Boot) (n : Nat) (p : Port) (proto : BitVec 2) (rate : BitVec 3) (width : BitVec 2) (flit68 : Bool) :
    Bool :=
  rate.toNat ≤ 2 && width.toNat ≤ 1 && bits p.ctl 5 3 ≤ rate.toNat && bits p.ctl 8 2 ≤ width.toNat &&
    (!flit68 || (1 ≤ rate.toNat && !p.ctl.getLsbD 10)) &&
    (if n == 0 then (proto == 1 && !b.pcieOnly) || proto == 2 else proto == 1)

/-- The boot-step record after training of a port at boot (R32). -/
def recordTraining (n : Nat) (proto : Option Nat) : Prog Unit :=
  modDev fun d =>
    let b := d.boot
    let b1 : Boot :=
      if n == 0 then (if proto == some 2 then { b with steps := modNth b.steps 10 fun x => setBits x 16 2 2 } else b)
      else if proto.isNone then { b with portMap := setBit b.portMap n } else b
    { d with boot := b1 }

/-! ### Runtime loss (R26, R33) -/

/-- Cycles of the hub in 100 ms. -/
def recoveryTime : Nat := 250000000

/-- PORT_LINK_DOWN (R33). -/
def execPortLinkDown (port : Nat) (s : State) : Out :=
  (letI := Prog.monad
   do
    let now ← look hubClock
    modPort port fun p => if p.state == 2 then { p.withState 3 with deadline := now + recoveryTime } else p).outcome s

/-- PORT_RECOVERED (R33): the link is back within its time, by a replay that ERRCNT counts (R31, log 39). -/
def execPortRecovered (port : Nat) (s : State) : Out :=
  (.get fun s => modPort port fun p =>
    if p.state == 3 && hubClock s ≤ p.deadline then (p.withState 2).countError else p : Prog Unit).outcome s

/-- Write-backs in flight on a lost pool port (R26): a sector whose completion had not arrived is poisoned and reported.
Which those are is a free choice. -/
def loseWrites (port : Nat) : Prog Unit :=
  letI := Prog.monad
  do
    let d ← look fun s => s.dev
    let out := d.frames.filter fun x => x.2.state == 4 && handedBack d x.1
    each out fun x => each ((upTo 0 16).filter fun k => x.2.dirty.getLsbD k && poolPort d (blockPa x.2.blk k) == some port)
      fun k => do
        let n ← fresh
        if Config.freeChoice n % 2 == 1 then do
          poisonSector (blockPa x.2.blk k)
          modFrame x.1 fun f => { f with dirty := clearBit f.dirty k }
          postCq 0 0 (cqEntry (blockPa x.2.blk k) 0 port 0xFFFF 1 2)
        else pure ()

/-- Reads in flight on a lost pool port complete as poisoned (R26): sectors that were being filled over it. Which those are is a
free choice. -/
def loseReads (port : Nat) : Prog Unit := .get fun s =>
  each s.pending fun i => match i with
    | .sectorFillComplete n k =>
      match Tbl.find? s.dev.frames n with
      | none => skip
      | some f =>
        if !(f.state == 2 || f.state == 3) || f.valid.getLsbD k || poolPort s.dev (blockPa f.blk k) != some port ||
            !blockServed s.dev n || s.dev.zeroingFrames.contains n then skip
        else Prog.bind fresh fun c =>
          if Config.freeChoice c % 2 == 1 then
            Prog.bind (poisonSector (n * 65536 + k * 4096)) fun _ =>
            Prog.bind (modFrame n fun f => { f with valid := setBit f.valid k, dirty := clearBit f.dirty k }) fun _ =>
            rekeyLines (blockPa f.blk k) (n * 65536 + k * 4096)
          else skip
    | _ => skip

/-- Commands that need a peer port complete PEER (R33, R235). -/
def losePeers : Prog Unit :=
  letI := Prog.monad
  do
    each (upTo 0 4) fun die => do
      let d ← look fun s => dieAt s die
      each (d.copy.filter fun c => copyRemote c && (c.phase == 1 || c.phase == 2)) fun c =>
        endCmd die true c.id stPeer 0 c.done
      each (d.coll.filter fun c => collScope c == 2 && !c.remote && (c.phase == 1 || c.phase == 2)) fun c =>
        endCmd die false c.id stPeer 0 c.done

/-- The port has not come back (R33). -/
def losePort (n : Nat) : Prog Unit :=
  letI := Prog.monad
  do
    let p ← look fun s => portAt s.dev n
    modPort n fun p => p.unlinked 4
    if p.role == 2 then do
      loseWrites n
      loseReads n
      modPort n fun p => { p with lost := true }
      leavePool n
      let d ← look fun s => s.dev
      postCq 0 0 (cqEntry (portInfo d n) 0 n 0xFFFF 1 5)
    else if p.role == 3 then do
      let up ← look fun s => peerAlive s.dev
      (if up then pure () else losePeers)
      let d ← look fun s => s.dev
      postCq 0 0 (cqEntry (portInfo d n) 0 n 0xFFFF 2 5)
    else if n == 0 then do
      modPort 0 fun p => { p with lost := true }
      each (upTo 0 9) resetFunction
    else pure ()

/-- PORT_TRAINING_DONE (R32): the port is up, or has failed. At boot (STATE still 000) the outcome is recorded. A pool port
joins the active set, unless it has left it since the last reset (R26). A port that had been up and trains again in vain is
lost (R28, R33). -/
def execPortTrainingDone (port : Nat) (t : Training) (s : State) : Out :=
  (letI := Prog.monad
   do
    let d ← look fun s => s.dev
    let p := portAt d port
    let boot := p.state == 0
    if 8 ≤ port || !p.enabled || p.role == 0 || p.state == 2 || p.state == 3 then pure ()
    else
      let fails : Prog Unit := do
        (if boot then recordTraining port none else pure ())
        (if p.ran then losePort port else modPort port fun p => p.unlinked 4)
      match t with
      | .up proto rate width flit68 =>
        if trainingGood d.boot port p proto rate width flit68 then do
          (if boot then recordTraining port (some proto.toNat) else pure ())
          let stat := setBits (setBits (setBits p.stat 7 2 width.toNat) 9 3 rate.toNat) 12 2 proto.toNat
          modPort port fun p => (({ p with stat, flit68, ran := true } : Port).withState 2).settleIde
          (if p.role == 2 && !p.lost then joinPool port else pure ())
          (if port == 0 && p.lost then do
            modPort 0 fun p => { p with lost := false }
            let s ← look id
            postCq 0 0 (cqEntry (portInfo s.dev 0) 0 0 0xFFFF 3 5)
           else pure ())
        else fails
      | .failed => fails).outcome s

/-- PORT_RECOVERY_TIMEOUT (R33). -/
def execPortRecoveryTimeout (port : Nat) (s : State) : Out :=
  (letI := Prog.monad
   do
    let p ← look fun s => portAt s.dev port
    let now ← look hubClock
    if p.state == 3 && p.deadline ≤ now then losePort port else pure ()).outcome s

/-- IDE_INTEGRITY_FAIL (R28): the link drops to training, and ERRCNT counts. -/
def execIdeIntegrityFail (port : Nat) (s : State) : Out :=
  (modPort port fun p => if p.state == 2 then ((p.withState 1).countError).unkeyed else p).outcome s

/-! ### Die links and GDDR7 (R17, R21) -/

/-- FLIT_CRC_FAIL (R17): a replay is counted; when 16 replays of one flit have failed, the link has failed, issue stops on
every core, and the hub reports it while port 0 carries it. -/
def execFlitCrcFail (link : Nat) (again : Bool) (s : State) : Out :=
  (letI := Prog.monad
   do
    match ← look fun s => s.dev.links[link]? with
    | none => pure ()
    | some l =>
      if l.failed then pure ()
      else if again && 16 ≤ l.replays then do
        modDev fun d => { d with links := modNth d.links link fun l => { l with failed := true }, stopped := true }
        let up ← look fun s => (portAt s.dev 0).state == 2
        if up then postCq 0 0 (cqEntry l.errors 0 link 0xFFFF 4 5) else pure ()
      else modDev fun d =>
        let count := fun (l : LinkState) => { l with errors := l.errors + 1, replays := if again then l.replays + 1 else 1 }
        { d with links := modNth d.links link count }).outcome s

/-- GDDR_UNCORRECTABLE_ERROR (R21): the 4 KiB sector is poisoned. -/
def execGddrUncorrectableError (pa : Nat) (s : State) : Out :=
  (.get fun s => if isLocal pa && paExists s.dev pa then poisonSector pa else skip : Prog Unit).outcome s

/-! ### Boot (R109) -/

/-- What a failed step does. -/
inductive OnFail where
  | stop
  | fallback
  | cores
  | ways
  | channels
  | goesOn
deriving DecidableEq, Repr

/-- The table of R109. -/
def onFail (step : Nat) : OnFail :=
  match step with
  | 2 => .fallback
  | 7 => .cores
  | 8 => .ways
  | 9 => .channels
  | 10 => .channels
  | 11 => .goesOn
  | 12 => .goesOn
  | 14 => .fallback
  | 16 => .goesOn
  | _ => .stop

/-- ATTEMPTS and RESULT of a step that has run. -/
def ranStep (x : BitVec 64) (result : BitVec 8) : BitVec 64 :=
  setBits (setBits x 0 8 (min 255 (bits x 0 8 + 1))) 8 8 result.toNat

/-- Whether an image is taken: its signature verifies and its security version is not below the fused minimum (R110). -/
def imageTaken (x : Image) (step : Nat) : Bool := x.verifies && Config.minVersion step ≤ x.version

/-- An update is written to the slot that does not run, and a normal start loads it (R110). -/
def Firmware.update (f : Firmware) (x : Option Image) : Firmware :=
  match x with
  | none => f
  | some i => if f.backup then { f with current := i } else { f with current := i, other := f.current }

/-- The image that this start runs. -/
def Firmware.inUse (f : Firmware) : Image := if f.backup then f.other else f.current

/-- The firmware that a step verifies. -/
def Boot.firmware (b : Boot) (step : Nat) : Firmware := if step == 2 then b.mgmt else b.cdp

/-- The record of a firmware, for the slot that a step loads. -/
def Boot.loads (b : Boot) (step : Nat) (backup : Bool) : Boot :=
  if step == 2 then { b with mgmt := { b.mgmt with backup } } else { b with cdp := { b.cdp with backup } }

/-- A step that has a fallback, the previous image slot (R109, R110): it stops where that fails too. A refused image fails the
step with a RESULT of 1 where none is given (DESIGN CHOICE, log 39). -/
def imageStep (r : BootRun) (b : Boot) (step : Nat) (direct : Bool) : Boot :=
  let x := nthD b.steps (step - 1) 0
  let f := b.firmware step
  let given := nthD r.results (step - 1) 0
  let refused := if direct then !imageTaken f.other step else !imageTaken f.current step
  let result := if given == 0 && refused then 1 else given
  let ran := ranStep x result
  let stops := r.fallbacks.getLsbD (step - 1) || !imageTaken f.other step
  if direct then { (b.loads step true) with steps := setNth b.steps (step - 1) ran, stopped := stops }
  else if result == 0 then { (b.loads step false) with steps := setNth b.steps (step - 1) ran }
  else { (b.loads step true) with steps := setNth b.steps (step - 1) (setBits ran 16 2 2), stopped := stops }

/-- One boot step. A step recorded as skip is not run; one recorded as fallback runs its fallback directly. -/
def bootStep (r : BootRun) (b : Boot) (step : Nat) : Boot :=
  let x := nthD b.steps (step - 1) 0
  let action := bits x 16 2
  let result := nthD r.results (step - 1) 0
  if b.stopped || action == 1 then b
  else if onFail step == .fallback then imageStep r b step (action == 2)
  else
    let b1 : Boot := { b with steps := setNth b.steps (step - 1) (ranStep x result) }
    if result == 0 then b1
    else match onFail step with
      | .stop => { b1 with stopped := true }
      | .fallback => b1
      | .cores => { b1 with coreMap := b1.coreMap ||| r.cores }
      | .ways => { b1 with stopped := r.manyWays, waysOut := r.ways }
      | .channels => { b1 with channelMap := b1.channelMap ||| r.channels }
      | .goesOn => b1

/-- The sixteen steps: units in a map are out of use from this start on, and port 0 trains as the record said before it. -/
def bootAll (r : BootRun) (b : Boot) : Boot :=
  let b0 : Boot := { b with
    stopped := false, waysOut := 0, pcieOnly := bits (nthD b.steps 10 0) 16 2 == 2,
    mgmt := b.mgmt.update r.update2, cdp := b.cdp.update r.update14 }
  let b1 := (upTo 1 16).foldl (bootStep r) b0
  { b1 with coreOut := b1.coreMap, channelOut := b1.channelMap, portOut := b1.portMap }

/-- PORTCTL as a port starts with it: that of the record; a skipped port has ROLE 00 (R29, R32). -/
def bootPort (b : Boot) (n : Nat) : Port :=
  let ctl := nthD b.ctl n (ctlReset n)
  { Port.reset n with ctl := if b.portOut.getLsbD n then setBits ctl 2 2 0 else ctl }

/-- DEVICE_RESET (R109): every register and every byte of GDDR7 is as after reset; the boot-step record, in flash, stays and
takes the outcome of each step. Host memory and the pool are outside the device. -/
def execDeviceReset (r : BootRun) (s : State) : Out :=
  (letI := Prog.monad
   do
    let s ← look id
    each (Tbl.keys s.groups) fun k => emit (.noGroup k)
    each (Tbl.keys s.teams) fun k => emit (.noTeam k)
    each (Tbl.keys s.cores) fun k => emit (.noCore k)
    each (Tbl.keys s.dies) fun k => emit (.noDie k)
    each ((Tbl.keys s.mem).filter fun a => a < localLimit) fun a => emit (.byte a 0)
    emit (.focus none)
    emit (.pending [])
    let boot := bootAll r s.dev.boot
    emit (.dev { Dev.reset with boot, ports := (upTo 0 8).map (bootPort boot) })).outcome s

/-! ### Attestation (R110, R111) -/

/-- The words a block measures: the images in use for blocks 1 and 2, the boot-step record and maps for block 4, the partition
descriptor for block 5; the spec gives no image of the boot ROM and of the power controller (log 5). -/
def measured (s : State) (fn block : Nat) : List Word64 :=
  let p := partAt s.dev fn
  if block == 1 then s.dev.boot.mgmt.inUse.words
  else if block == 2 then s.dev.boot.cdp.inUse.words
  else if block == 4 then bootWords s.dev.boot
  else if block == 5 then
    (upTo 0 5).map (fun k => p.coreset.extractLsb' (64 * k) 64) ++
      [p.pqueue.setWidth 64, p.pframes, p.pways, p.pwatch.setWidth 64, pcapWord p, p.pctl.setWidth 64, p.padmw, p.padmr]
  else []

/-- SPDM_REQUEST (R111, R28): a measurement report of the six blocks with its signature; a stream of a port, of the five it
supports, or the keys of one, which no port in 68-byte flit mode takes (R22). -/
def execSpdmRequest (fn : Nat) (r : SpdmReq) (s : State) : Out :=
  (fromHost (letI := Prog.monad
   do
    let s ← look id
    if 8 < fn then pure ()
    else match r with
      | .measurements =>
        let ds := (upTo 0 6).map fun k => Config.digest k (measured s fn k)
        let words := ds.flatMap fun (x : BitVec 256) => (upTo 0 4).map fun k => x.extractLsb' (64 * k) 64
        modDev fun d => { d with spdm := words ++ [Config.signature ds] }
      | .ideConfig port stream cxl =>
        if fn != 0 || 4 < stream then pure ()
        else modPort port fun p => if p.state == 2 then
          ({ p with streams := Tbl.put p.streams stream (cxl, false) } : Port).settleIde else p
      | .ideKeys port stream =>
        if fn != 0 then pure ()
        else modPort port fun p => if p.state == 2 && !p.flit68 then
          ({ p with streams := Tbl.modify p.streams stream fun x => (x.1, true) } : Port).settleIde else p)).outcome s

end Sys2Proof.Machine
end

