-- ==== Sys2Proof/Machine/HostRegs.lean ====
section
/-! DEFINITION. Host registers: completion queues and MSI-X (R90, R94, R95), and writes of the management aperture and of
BAR0 (R7, R8, R29 to R31, R39, R51, R58, R62, R87, R99, R100, R107, R109, R123, R125, R129). Choices that the spec leaves
open are in notes/assumptions/40.md. -/

namespace Sys2Proof.Machine

/-! ### Completion queues -/

/-- Buffered entries are written as far as there is room, then firings that found none; both are announced, and pages whose
request found the queue full are decided again (R94, R95, R128). -/
def settleCq (fn q : Nat) : Prog Unit := .get fun s =>
  Prog.bind (drainCq fn q ((cqAt s.dev fn q).buffer.length + 1)) fun _ =>
  Prog.bind (if q == 2 then postFired fn else skip) fun _ =>
  Prog.bind (announceCq fn q) fun _ => releaseHeld

/-- Whether a function has a completion queue of that number (R90, R128). -/
def hasCq (fn q : Nat) : Bool := q < cqCount fn

/-- CQCTL after a write (R90): SIZELOG2 changes only while EN = 0, and values other than 4 to 16 keep EN at 0. -/
def nextCqctl (old v : BitVec 32) : BitVec 32 :=
  let size := if old.getLsbD 31 then bits old 0 5 else bits v 0 5
  BitVec.ofNat 32 (size + (if v.getLsbD 31 && 4 ≤ size && size ≤ 16 then 2 ^ 31 else 0))

/-- A write to CQCTL. Setting EN resets CQTAIL and the phase. -/
def writeCqctl (fn q : Nat) (v : BitVec 32) : Prog Unit :=
  if !hasCq fn q then skip
  else
    Prog.bind (modCq fn q fun c =>
      let ctl := nextCqctl c.ctl v
      if ctl.getLsbD 31 && !c.enabled then { c with ctl, tail := 0, phase := true } else { c with ctl }) fun _ =>
    settleCq fn q

/-- CQCTL_WRITE (R90). -/
def execCqctlWrite (fn queue : Nat) (v : BitVec 32) (s : State) : Out := (fromHost (writeCqctl fn queue v)).outcome s

/-- A write to CQHEAD: room for entries that wait (R94). -/
def writeCqhead (fn q : Nat) (v : BitVec 32) : Prog Unit :=
  if !hasCq fn q then skip
  else Prog.bind (modCq fn q fun c => { c with head := v }) fun _ => settleCq fn q

/-- CQHEAD_WRITE (R94). -/
def execCqheadWrite (fn queue : Nat) (v : BitVec 32) (s : State) : Out := (fromHost (writeCqhead fn queue v)).outcome s

/-- The other registers of a completion queue. -/
def writeCq (fn q r : Nat) (v : Word64) : Prog Unit :=
  if !hasCq fn q then skip
  else match r with
    | 0 => modCq fn q fun c => if c.enabled then c else { c with base := BitVec.ofNat 64 (v.toNat / 4096 * 4096) }
    | 1 => writeCqctl fn q (v.setWidth 32)
    | 2 => writeCqhead fn q (v.setWidth 32)
    | 4 => Prog.bind (modCq fn q fun c => { c with irq := BitVec.ofNat 32 (bits v 0 29) }) fun _ => announceCq fn q
    | 5 => modCq fn q fun c => if v.getLsbD 0 then { c with stat := clearBit c.stat 0 } else c
    | _ => skip

/-- Whether TIMER has passed since the first entry not yet announced (R95); a microsecond is 2,500 cycles of the hub. -/
def cqTimerDue (now : Nat) (c : Cq) : Bool := c.unann != 0 && c.since + 2500 * bits c.irq 8 10 ≤ now

/-- MSIX_TIMER_EXPIRE (R95). -/
def execMsixTimerExpire (fn queue : Nat) (s : State) : Out :=
  (.get fun s => if cqTimerDue (hubClock s) (cqAt s.dev fn queue) then sendMsix fn queue else skip : Prog Unit).outcome s

/-- MSIX_VECTOR_UNMASK (R95): a pending message is sent. -/
def execMsixVectorUnmask (fn vec : Nat) (s : State) : Out :=
  (fromHost (modDev fun d =>
    let f := fnAt d fn
    let f1 : Fn := { f with masked := clearBit f.masked vec }
    let f2 : Fn := if f.pending.getLsbD vec then { f1 with pending := clearBit f.pending vec, sent := f.sent ++ [vec] } else f1
    if 8 < fn || 2048 ≤ vec then d else { d with fns := Tbl.put d.fns fn f2 })).outcome s

/-! ### Partition blocks (R99, R100) -/

/-- Partition 0 loses nothing in use by a write (R100): of the ways, RDC ways that hold a line of it. The lines of the L2 ways
are not in the state: whether an L2 way that is taken away holds one is a free choice (log 38). -/
def keepsInUse (s : State) (r : Nat) (v : Word64) : Prog Bool :=
  letI := Prog.monad
  do
    let x := partAt s.dev 0
    if r < 5 then
      pure ((upTo 0 64).all fun k =>
        !(x.coreset.getLsbD (64 * r + k) && !v.getLsbD k) || (teamsOn s (64 * r + k) []).isEmpty)
    else if r == 8 then
      pure (s.dev.queues.all fun y => !(y.2.en && y.2.part == 0) || (bits v 0 13 ≤ y.1 && y.1 < bits v 0 13 + bits v 16 14))
    else if r == 9 then
      pure ((upTo 0 4).all fun die => (partFrames s.dev 0 die).length ≤ bits v (8 * die) 6 * 16384)
    else if r == 10 then
      let lost := x.pways &&& ~~~v
      if s.dies.any fun d => d.2.rdc.any fun y => y.1 % 16 == 0 && lost.getLsbD (16 + y.2.way) then pure false
      else if bits lost 0 16 == 0 then pure true
      else do
        let n ← fresh
        pure (Config.freeChoice n % 2 == 0)
    else if r == 11 then
      pure (s.dev.watches.all fun w => w.polled || w.part != 0 || partUse s.dev w.slice 0 ≤ bits v 0 8)
    else pure true

/-- The partition with one of its resource registers written. -/
def Part.written (x : Part) (fused : BitVec 288) (r : Nat) (v : Word64) : Part :=
  if r < 5 then { x with coreset := setBits x.coreset (64 * r) 64 v.toNat &&& ~~~fused }
  else match r with
    | 8 => { x with pqueue := BitVec.ofNat 32 (bits v 0 13 + bits v 16 14 * 2 ^ 16) }
    | 9 => { x with pframes := v &&& 0x3F3F3F3F }
    | 10 => { x with pways := BitVec.ofNat 64 (bits v 0 32) }
    | 11 => { x with pwatch := BitVec.ofNat 32 (bits v 0 8) }
    | 14 => { x with padmw := BitVec.ofNat 64 (bits v 3 45 * 8) }
    | 15 => { x with padmr := BitVec.ofNat 64 (bits v 12 36 * 4096 + bits v 0 5) }
    | _ => x

/-- A write to a partition's block: of a VF's resources only while EN = 0; CAP at any time. -/
def writePart (p r : Nat) (v : Word64) : Prog Unit :=
  letI := Prog.monad
  do
    let s ← look id
    let x := partAt s.dev p
    if r == 12 then modPart p fun x => { x with pcap := BitVec.ofNat 64 (bits v 0 12) }
    else if r == 13 then do
      (if v.getLsbD 1 then modPart p fun x => { x with pctl := clearBit x.pctl 1 } else pure ())
      if v.getLsbD 0 then enablePart p else if x.tearing then pure () else disablePart p
    else if p == 0 && r == 15 then due (.padmrWrite v)
    else if p != 0 && x.enabled then partRefused p
    else
      let ok ← if p == 0 then keepsInUse s r v else pure true
      if ok then modPart p fun x => x.written s.dev.boot.coreOut r v else partRefused p

/-! ### The management aperture -/

/-- FLEPOL after a write (R123): SEQN of 5 to 7 is ignored. -/
def nextFlepol (old : BitVec 32) (v : Word64) : BitVec 32 :=
  let a := setBits (setBits old 0 8 (bits v 0 8)) 15 2 (bits v 15 2)
  if bits v 12 3 ≤ 4 then setBits a 12 3 (bits v 12 3) else a

/-- The boot-record registers (R109): ACTION back to 00, and map bits cleared. -/
def writeBoot (off : Nat) (v : Word64) : Prog Unit :=
  modDev fun d =>
    let b := d.boot
    let k := off / 8
    let b1 : Boot :=
      if k < 16 then { b with steps := modNth b.steps k fun x => if bits v 16 2 == 0 then setBits x 16 2 0 else x }
      else if k < 21 then { b with coreMap := b.coreMap &&& ~~~(BitVec.ofNat 288 (v.toNat * 2 ^ (64 * (k - 16)))) }
      else if k == 24 then { b with channelMap := b.channelMap &&& ~~~(v.setWidth 24) }
      else if k == 25 then { b with portMap := b.portMap &&& ~~~(v.setWidth 8) }
      else b
    { d with boot := b1 }

/-- The queue descriptors at a new table (R62). -/
def writeQdtbase (v : Word64) : Prog Unit :=
  letI := Prog.monad
  do
    modDev fun d => { d with qdtbase := BitVec.ofNat 64 (v.toNat / 0x100000 * 0x100000) }
    let qs ← look fun s => Tbl.keys s.dev.queues
    each qs fun q => modQueue q id

/-- Registers of the table-frame ring (R58). -/
def writeTfr (p r : Nat) (v : Word64) : Prog Unit :=
  match r with
  | 0 => modPart p fun x => { x with tfrbase := BitVec.ofNat 64 (v.toNat / 8 * 8) }
  | 1 => Prog.bind (modPart p fun x => { x with tfrsize := bits v 0 16 }) fun _ => ringWritten p
  | 3 => Prog.bind (modPart p fun x => { x with tfrtail := v.setWidth 32 }) fun _ => ringWritten p
  | _ => skip

/-- Registers of the context table (R39). -/
def writeCtxt (p r : Nat) (v : Word64) : Prog Unit := .get fun s =>
  if p != 0 && (partAt s.dev p).enabled then skip
  else match r with
    | 0 => modPart p fun x => { x with ctxtbase := BitVec.ofNat 64 (bits v 13 39 * 8192) }
    | 1 => if bits v 0 9 ≤ 256 then modPart p fun x => { x with ctxtcount := bits v 0 9 } else skip
    | _ => skip

/-- A write to the management aperture, by offset. -/
def writeMgmt (off : Nat) (v : Word64) : Prog Unit :=
  let r := off % 0x10000
  match off / 0x10000 with
  | 1 =>
    if r % 256 == 0 then writePortctl (r / 256) (v.setWidth 32)
    else if r % 256 == 8 && v.getLsbD 15 then modPort (r / 256) fun p => { p with stat := clearBit p.stat 15 }
    else skip
  | 2 =>
    if r == 0 then modDev fun d => { d with migthresh := BitVec.ofNat 32 (bits v 0 8) }
    else if r == 0x300 then modDev fun d => { d with fle := { d.fle with pol := nextFlepol d.fle.pol v } }
    else if 0x100 ≤ r && r < 0x220 then writeTfr ((r - 0x100) / 32) (r % 32 / 8) v
    else if 0x400 ≤ r && r < 0x520 then writeCtxt ((r - 0x400) / 32) (r % 32 / 8) v
    else skip
  | 3 => if r == 0 then writeQdtbase v else skip
  | 4 => if r / 128 ≤ 8 then writePart (r / 128) (r % 128 / 8) v else skip
  | 5 => if r == 0 then modDev fun d => { d with ssidx := v } else skip
  | 6 => writeBoot r v
  | _ => skip

/-- A write to a function's BAR0, by offset. -/
def writeBar0 (fn off : Nat) (v : Word64) : Prog Unit :=
  if 8 < fn then skip
  else if 0x1000 ≤ off && off < 0x1300 then writeCq fn ((off - 0x1000) / 64) (off % 64 / 8) v
  else if off == 0x1800 then pageReply fn v
  else if off == 0x1900 then modDev fun d => { d with fns := Tbl.put d.fns fn { fnAt d fn with tmapdir := v } }
  else if off == 0x1A00 && fn != 0 && v.toNat % 2 ^ 36 == 0 && v.toNat < 2 ^ 48 then
    modDev fun d => { d with fns := Tbl.put d.fns fn { fnAt d fn with winbase := v } }
  else skip

/-- REGISTER_WRITE (R7, R8): a write by the host, which a device that stopped, or whose port 0 failed, does not hear (R32,
R109). What no register takes is ignored. -/
def execRegisterWrite (sp : RegSpace) (off : Nat) (v : Word64) (s : State) : Out :=
  (if off % 8 != 0 then skip
   else fromHost (match sp with
     | .mgmt => writeMgmt off v
     | .bar0 fn => writeBar0 fn off v)).outcome s

end Sys2Proof.Machine
end

