-- ==== Sys2Proof/Machine/HostMem.lean ====
section
/-! DEFINITION. Memory as the host, the pool and peers reach it (R59 to R61, R84, R86, R87, R147, R148, R237, R239). Choices
that the spec leaves open are in notes/assumptions/41.md. -/

namespace Sys2Proof.Machine

/-! ### The BAR windows (R87) -/

/-- Where an offset of a window leads. -/
inductive Window where
  | at (pa : Nat)
  /-- The physical function's offset names no storage. -/
  | hole
  /-- Not translated, or beyond the window: Unsupported Request. -/
  | refused
  | wait
deriving DecidableEq, Repr

/-- Translates an offset of a function's window. -/
def windowPlace (fn off : Nat) (write : Bool) : Prog Window :=
  letI := Prog.monad
  do
    let s ← look id
    if !pcieMode s.dev || 8 < fn || (if fn == 0 then 2 ^ 38 else 2 ^ 36) ≤ off then pure .refused
    else if fn == 0 then
      if off % dieSpan < directoryStart s.dev (off / dieSpan) then
        if ← holdsRequest off write .once then pure .wait else pure (.at off)
      else pure .hole
    else
      let a : Agent := { part := fn, ctxidx := 0, asid := (readCtx s fn 0).elim 0 (·.asid), core := none, die := none }
      match ← translate a ((fnAt s.dev fn).winbase.toNat + off) (if write then .write else .read) with
      | .ok _ pa => if ← holdsRequest pa write .once then pure .wait else pure (.at pa)
      | .wait => pure .wait
      | _ => pure .refused

/-- BAR_FAULT (R93), for a VF whose window exists. -/
def barFault (fn off : Nat) (write : Bool) : Prog Unit := .get fun s =>
  if fn == 0 || 8 < fn || !pcieMode s.dev then skip else postCq fn 0 (cqEntry off 0 write.toNat 0xFFFF 0x11 2)

/-- Bytes from an offset that lie in one 64-byte block. -/
def pieceLen (off n : Nat) : Nat := min n (64 - off % 64)

/-- The head of the requests leaves. -/
def windowDone : Prog Unit := modDev fun d => { d with window := d.window.drop 1 }

/-- The head of the requests becomes what is left of it. -/
def windowLeft (r : WinReq) : Prog Unit := modDev fun d => { d with window := r :: d.window.drop 1 }

/-- Serves requests in the order port 0 received them, piece by piece, until one must wait. -/
def serveWindow (fuel : Nat) : Prog Unit :=
  letI := Prog.monad
  match fuel with
  | 0 => pure ()
  | fuel + 1 => do
    match ← look fun s => s.dev.window.head? with
    | none => pure ()
    | some (.read fn off n got) =>
      if n == 0 then do
        modDev fun d => { d with hostRead := some got }
        windowDone
        serveWindow fuel
      else
        let k := pieceLen off n
        match ← windowPlace fn off false with
        | .wait => due (.barWindowWrite fn 0 [])
        | .refused => do
          modDev fun d => { d with hostRead := none }
          barFault fn off false
          windowDone
          serveWindow fuel
        | .hole => do
          windowLeft (.read fn (off + k) (n - k) (got ++ List.replicate k 0xFF))
          serveWindow fuel
        | .at pa => do
          let s ← look id
          if poisoned s.dev pa then do
            modDev fun d => { d with hostRead := none }
            windowDone
            serveWindow fuel
          else do
            touchFrame pa false
            windowLeft (.read fn (off + k) (n - k) (got ++ homeBytes s pa k))
            serveWindow fuel
    | some (.write fn off bytes) =>
      if bytes.isEmpty then do
        windowDone
        serveWindow fuel
      else
        let k := pieceLen off bytes.length
        let rest : WinReq := .write fn (off + k) (bytes.drop k)
        match ← windowPlace fn off true with
        | .wait => due (.barWindowWrite fn 0 [])
        | .refused => do
          barFault fn off true
          windowDone
          serveWindow fuel
        | .hole => do
          windowLeft rest
          serveWindow fuel
        | .at pa => do
          (if fn == 0 then keepFrame pa else pure ())
          homeWrite pa (bytes.take k)
          windowLeft rest
          serveWindow fuel

/-- Steps that serve every piece of the requests that wait. -/
def windowFuel (l : List WinReq) : Nat :=
  l.foldl (fun a r => a + 2 + match r with
    | .read _ _ n _ => n
    | .write _ _ bs => bs.length) 0

/-- A request joins the others. -/
def windowRequest (r : WinReq) : Prog Unit :=
  letI := Prog.monad
  do
    modDev fun d => { d with window := d.window ++ [r] }
    let n ← look fun s => windowFuel s.dev.window
    serveWindow n

/-- BAR_WINDOW_READ (R87). -/
def execBarWindowRead (fn off n : Nat) (s : State) : Out := (windowRequest (.read fn off n [])).outcome s

/-- BAR_WINDOW_WRITE (R87): with no bytes, the requests that wait are served again. -/
def execBarWindowWrite (fn off : Nat) (bytes : List Byte) (s : State) : Out :=
  (windowRequest (.write fn off bytes)).outcome s

/-! ### Host coherence with device memory (R59) -/

/-- A line the host may hold as HDM: local storage that is not a frame of a pool block. -/
def isHdm (d : Dev) (line : Nat) : Bool :=
  isLocal line && paReachable d line && (Tbl.find? d.frames (line / 65536)).all fun f => f.state == 0 || f.state == 1

/-- Lines that a home slice has on record, the oldest of them. -/
def heldOn (d : Dev) (sl : Nat) : List (Nat × Bool × Nat) := d.hostLines.filter fun x => sliceOf d x.1 == sl

def oldestHeld (l : List (Nat × Bool × Nat)) : Option Nat :=
  (l.foldl (fun (a : Option (Nat × Bool × Nat)) x => match a with
    | none => some x
    | some y => if x.2.2 < y.2.2 then some x else a) none).map (·.1)

/-- How many lines a slice records (R59). -/
def hostRecord : Nat := 32768

/-- A BISnp goes out; its BIRsp is due. -/
def sendBisnp (line : Nat) (inv : Bool) : Prog Unit := .get fun s =>
  if (Tbl.find? s.dev.heldBirsp line).isSome then skip
  else Prog.bind (modDev fun d => { d with heldBirsp := Tbl.put d.heldBirsp line inv }) fun _ => due (.hostBirsp line)

/-- Whether an access of the host to a line waits at its home: keys (R28), a lease (R214), zeroing (R108). -/
def hostWaits (s : State) (line : Nat) : Bool :=
  (portAt s.dev 0).holdsTraffic || leaseBlocks s (lineOf (canonPa s.dev line)) .once ||
    s.dev.zeroingFrames.contains (line / 65536)

/-- The host takes a line: it goes on record, in the place of the oldest where the record is full. Answers whether it has
the line. -/
def takeLine (line : Nat) (own : Bool) : Prog Bool :=
  letI := Prog.monad
  do
    let d ← look fun s => s.dev
    let l := heldOn d (sliceOf d line)
    match Tbl.find? d.hostLines line, oldestHeld l with
    | some (o, k), _ => do
      modDev fun d => { d with hostLines := Tbl.put d.hostLines line (o || own, k) }
      pure true
    | none, some old =>
      if hostRecord ≤ l.length then do
        sendBisnp old true
        pure false
      else do
        let k ← newId
        modDev fun d => { d with hostLines := Tbl.put d.hostLines line (own, k) }
        pure true
    | none, none => do
      let k ← newId
      modDev fun d => { d with hostLines := Tbl.put d.hostLines line (own, k) }
      pure true

/-- HOST_HDM_ACCESS (R59): an access over CXL.mem, by line; a write is performed at the home like any other. -/
def execHostHdmAccess (pa : Nat) (k : HdmAccess) (s : State) : Out :=
  (letI := Prog.monad
   do
    let s ← look id
    let line := lineOf pa
    let again := due (.hostHdmAccess pa k)
    if !cxlMode s.dev || !isHdm s.dev line then modDev fun d => { d with hostRead := none }
    else if hostWaits s line then again
    else
      let read := fun (own : Bool) => do
        if ← takeLine line own then do
          touchFrame line false
          let s ← look id
          modDev fun d => { d with hostRead := if poisoned s.dev line then none else some (homeBytes s line 128) }
        else again
      match k with
      | .readShared => read false
      | .readOwn => read true
      | .write bytes => do
        keepFrame pa
        homeWrite pa (bytes.take (128 - pa % 128))
      | .evict => modDev fun d => { d with hostLines := Tbl.del d.hostLines line }).outcome s

/-- HOST_BIRSP (R59): the host's answer. After a BISnpInv it holds the line no more; after a BISnpData it may keep it to
read. -/
def execHostBirsp (line : Nat) (s : State) : Out :=
  (modDev fun d =>
    match Tbl.find? d.heldBirsp line with
    | none => d
    | some inv =>
      let kept := if inv then Tbl.del d.hostLines line else Tbl.modify d.hostLines line fun x => (false, x.2)
      { d with heldBirsp := Tbl.del d.heldBirsp line, hostLines := kept }).outcome s

/-! ### Snoops (R60, R61, R86) -/

/-- A line takes other bytes outside the device; watches on it are evaluated as the home re-reads it (R84, R86). -/
def rereadLine (line : Nat) (store : Prog Unit) : Prog Unit :=
  letI := Prog.monad
  do
    let before ← look id
    store
    let after ← look id
    fireAll (firedBy before after line 128)

/-- Bytes at storage addresses. -/
def putBytes (a : Nat) (bs : List Byte) : Prog Unit :=
  match bs with
  | [] => skip
  | b :: rest => Prog.bind (emit (.byte a b)) fun _ => putBytes (a + 1) rest

/-- A line's dirty bytes in its frame go to the pool (R60 step 1). -/
def cleanFrameLine (line a : Nat) : Prog Unit :=
  letI := Prog.monad
  do
    let s ← look id
    match Tbl.find? s.dev.frames (a / 65536) with
    | some f =>
      if isLocal a && f.dirty.getLsbD (sectorOf a) then putBytes line ((upTo a 128).map s.mem.get) else pure ()
    | none => pure ()

/-- RDC copies that a sharer record names lose their clean bytes (R60 step 3, R198). -/
def dropSharers (line : Nat) : Prog Unit :=
  letI := Prog.monad
  do
    let l ← look fun s => Tbl.getD s.dev.sharers line []
    each l fun x => invalRdc line x.1 x.2.getLsbD
    modDev fun d => { d with sharers := Tbl.del d.sharers line }

/-- POOL_BISNP (R60, R61): served at the line's current home; held during a handoff. A snoop that invalidates comes with the
bytes that its sender then writes to the line, none if it changes nothing, and the home takes the line from the pool again
(DESIGN CHOICE, log 41); one for data changes none. -/
def execPoolBisnp (line : Nat) (inv : Bool) (bytes : List Byte) (s : State) : Out :=
  (letI := Prog.monad
   do
    let s ← look id
    let blk := poolBlock line
    let moving := s.dev.moves.any fun (m : Move) =>
      m.step < 3 && m.kind != 2 && (Tbl.find? s.dev.frames m.frame).any fun (f : Frame) => f.blk == blk
    let filled := (blockFrame s.dev blk).all fun (x : Nat × Frame) => x.2.valid.getLsbD (sectorOf line)
    if !isPool line || line % 128 != 0 || s.dev.poolPorts == 0 then pure ()
    else if moving || leaseBlocks s (lineOf (canonPa s.dev line)) .once then due (.poolBisnp line inv bytes)
    else
      let new := if inv then bytes.take 128 else []
      if !filled then putBytes line new
      else do
        let a := storedAt s.dev line
        cleanFrameLine line a
        each [line / 128, a / 128].eraseDups dropSharers
        if inv then do
          resetPredict [line]
          rereadLine line do
            putBytes line new
            if a == line then pure () else putBytes a new
        else pure ()).outcome s

/-- HOST_SNOOP (R86): the host takes a line of its memory and writes it; the home loses the line, reads it again and evaluates
its watches. Without CXL on port 0 the write reaches no home: its watches are polled (R24, R86). -/
def execHostSnoop (line : Nat) (bytes : List Byte) (s : State) : Out :=
  (letI := Prog.monad
   do
    let s ← look id
    if !isHost line || line % 128 != 0 then pure ()
    else if !cxlMode s.dev then putBytes line (bytes.take 128)
    else if leaseBlocks s line .once then due (.hostSnoop line bytes)
    else do
      dropSharers (line / 128)
      resetPredict [line]
      rereadLine line (putBytes line (bytes.take 128))).outcome s

/-! ### Peers (R147, R148, R237, R239) -/

/-- A request of a peer waits for a page here (R237): the page is raised, and the request tried again once it is resolved. -/
def awaitPage (r : PeerReq) (key : PageKey) (cls : Nat) (acc : Acc) : Prog Unit :=
  Prog.bind (modDev fun d => { d with peerWaits := d.peerWaits ++ [(r, key)] }) fun _ => raisePage key cls acc

/-- A write of a peer's copy engine, in pieces of one 64-byte block. -/
def peerWrite (q : Nat) (va : Nat) (bytes : List Byte) (fuel : Nat) : Prog Unit :=
  letI := Prog.monad
  match fuel with
  | 0 => pure ()
  | fuel + 1 => do
    if bytes.isEmpty then pure ()
    else
      let k := pieceLen va bytes.length
      let left : PeerReq := .write q (BitVec.ofNat 64 va) bytes
      let a ← look fun s => queueAgent s q
      match ← cdpPlace a va .write with
      | .ok pa => do
        homeWrite pa (bytes.take k)
        peerWrite q (va + k) (bytes.drop k) fuel
      | .wait => due (.peerRequest left)
      | .fault key cls _ acc => awaitPage left key cls acc
      | .bad => pure ()

/-- A rendezvous atomic of a peer; answers whether it has been performed. -/
def peerAtomic (r : PeerReq) (q : Nat) (va : Word64) (f : Nat → Nat) : Prog Bool :=
  letI := Prog.monad
  do
    let a ← look fun s => queueAgent s q
    match ← cdpAtomic a va.toNat 8 f with
    | .ok _ => pure true
    | .wait => do
      due (.peerRequest r)
      pure false
    | .fault key cls _ acc => do
      awaitPage r key cls acc
      pure false
    | .bad => pure false

/-- A PGROUP has failed on another device (R148): the word that says so is set, and collectives here that wait for the members
there are abandoned (R239). -/
def peerFail (q : Nat) (va : Word64) : Prog Unit :=
  letI := Prog.monad
  do
    if ← peerAtomic (.fail q va) q va fun _ => (BitVec.allOnes 64).toNat then do
      let mine := fun (t : PgTable) => (t.entries[t.own]?).any fun (e : PgEntry) => e.rvin == va || e.rvout == va
      let ps ← look fun s => s.dev.packets.filter fun (p : Packet) => p.queue == q && p.pg.any mine
      each ps fun p => do
        modPacket q p.index fun p => { p with gone := true }
        recheckColl q p.index
    else pure ()

/-- A member of another device arrives (R239): it joins the PGROUP that runs on the queue. -/
def peerMember (q : Nat) (desc : BitVec 256) (bytes : List Byte) : Prog Unit :=
  letI := Prog.monad
  do
    let s ← look id
    match s.dev.packets.find? fun (p : Packet) => p.queue == q && p.pg.isSome && 1 ≤ p.phase && p.phase < 5 with
    | none => pure ()
    | some p => do
      let id ← newId
      let a := queueAgent s q
      let c : EngCmd :=
        { id, packet := none, team := 0, ident := 0, part := a.part, ctxidx := a.ctxidx, asid := a.asid, port := portColl,
          words := (upTo 0 4).map fun k => desc.extractLsb' (64 * k) 64, phase := 0, done := 0, status := 0, cls := 0,
          elemMask := 0, record := none, set := 0, fault := none, launch := (q, p.index), data := bytes, remote := true,
          pg := p.pg }
      addCmd (q % 4) portColl c

/-- PEER_REQUEST (R237, R147, R148, R239): a request on a peer port, translated in the context of the queue that launched
the same PGROUP here. -/
def execPeerRequest (r : PeerReq) (s : State) : Out :=
  (letI := Prog.monad
   do
    if !(← look fun s => peerUp s.dev) then pure ()
    else match r with
      | .write q va bytes => peerWrite q va.toNat bytes (bytes.length + 1)
      | .rendezvous q va n => Prog.bind (peerAtomic r q va fun x => x + n.toNat) fun _ => skip
      | .fail q va => peerFail q va
      | .member q desc bytes => peerMember q desc bytes).outcome s

end Sys2Proof.Machine
end

