-- ==== Sys2Proof/Machine/Power.lean ====
section
/-! DEFINITION. Power control (R104 to R106): states, temperature, estimates, caps and energy. The energy model itself is
not in the spec: estimates and shares are free values (notes/assumptions/4.md). -/

namespace Sys2Proof.Machine

/-- PSTATE_TRANSITION_DONE (R104): the die runs in its new state and issues again. -/
def execPstateTransitionDone (die : Nat) (s : State) : Out :=
  (modDie die fun d => match d.changing with
    | some n => { d with pstate := n, changing := none }
    | none => d).outcome s

/-- THERMAL_TRIP (R104): every issue slot of the die is withheld, and a THERMAL entry posted, whose INFO and DETAIL the
spec does not state. -/
def execThermalTrip (die : Nat) (s : State) : Out :=
  (letI := Prog.monad
   do
    if ← look fun s => (dieAt s die).thermal then pure ()
    else do
      modDie die fun d => { d with thermal := true }
      let n ← fresh
      let m ← fresh
      postCq 0 0 (cqEntry (Config.freeWord n).toNat 0 (Config.freeWord m).toNat 0xFFFF 2 4)).outcome s

/-- THERMAL_RESTORE (R104). -/
def execThermalRestore (die : Nat) (s : State) : Out := (modDie die fun d => { d with thermal := false }).outcome s

/-- WHELD after an estimate (R105). -/
def nextWithheld (cap est w : Nat) : Nat :=
  if cap != 0 && cap < est then min (w + 1) 63
  else if cap == 0 || 100 * est ≤ 98 * cap then w - 1
  else w

/-- One queue's energy goes up by a number of 1/256 µJ; the fraction is carried forward, and ENERGY never wraps (R106). -/
def addEnergy (q n : Nat) : Prog Unit :=
  letI := Prog.monad
  do
    let f ← look fun s => Tbl.getD s.dev.energy q 0
    let x := f + n
    modDev fun d => { d with energy := Tbl.setD d.energy q 0 (x % 256) }
    modQueue q fun y => { y with energy := BitVec.ofNat 64 (min (2 ^ 64 - 1) (y.energy.toNat + x / 256)) }

/-- Activity of a queue's teams and COPY work in this interval (R106). -/
def activityOf (d : Dev) (q : Nat) : Nat := Tbl.getD d.activity q 0

/-- Divides energy among a partition's queues (R106): its dynamic part, which the energy model gives (log 4), in proportion to
their activity, the rest to the admin queue. -/
def shareEnergy (admin : Nat) (qs : List Nat) (total : Nat) : Prog Unit :=
  letI := Prog.monad
  do
    let n ← fresh
    let d ← look fun s => s.dev
    let sum := qs.foldl (fun a q => a + activityOf d q) 0
    let dynamic := if sum == 0 then 0 else min total (Config.freeEnergy n)
    let part := fun (q : Nat) => dynamic * activityOf d q / sum
    each qs fun q => addEnergy q (part q)
    addEnergy admin (total - qs.foldl (fun a q => a + part q) 0)

/-- Cycles of the hub in a millisecond (R105). -/
def capPeriod : Nat := 2500000

/-- The estimate of one partition: EST, WHELD, CAP_UNMET, energy. -/
def estimatePart (p : Nat) : Prog Unit :=
  letI := Prog.monad
  do
    let n ← fresh
    let est := Config.freeEstimate n
    let s ← look id
    let x := partAt s.dev p
    let cap := bits x.pcap 0 12
    let now := hubClock s
    let unmet := cap != 0 && cap < est.toNat && x.withheld == 63 && x.capUnmet.all fun t => t + capPeriod ≤ now
    modPart p fun x => { x with est, withheld := nextWithheld cap est.toNat x.withheld,
                                capUnmet := if unmet then some now else x.capUnmet }
    (if unmet then postCq 0 0 (cqEntry p 0 0 0xFFFF 1 4) else pure ())
    let admin := bits x.pqueue 0 13
    let qs := (s.dev.queues.filter fun y => y.2.en && y.2.part == p).map (·.1)
    (if (queueAt s.dev admin).en then shareEnergy admin qs (2560 * est.toNat) else pure ())
    modDev fun d => { d with activity := d.activity.filter fun x => !qs.contains x.1 }

/-- Cycles of the hub in 10 µs (R105). -/
def estimatePeriod : Nat := 25000

/-- Whether the estimate is due. -/
def estimateDue (s : State) : Bool := s.dev.estimated + estimatePeriod ≤ hubClock s

/-- POWER_ESTIMATE (R105, R106), every 10 µs. -/
def execPowerEstimate (s : State) : Out :=
  (letI := Prog.monad
   do
    if !(← look estimateDue) then pure ()
    else do
    modDev fun d => { d with estimated := d.estimated + estimatePeriod }
    let ps ← look fun s => (upTo 0 9).filter fun p => (partAt s.dev p).pctl.getLsbD 0
    each ps estimatePart).outcome s

end Sys2Proof.Machine
end

