-- ==== Sys2Proof/Machine/Exact.lean ====
section
/-! DEFINITION. Exact quotients and infinities: the arithmetic that the render units carry out before they round once
(R255, R258, R263 to R265, R273, R277), the negative logarithm of R265, and the Philox generator of R267. -/

namespace Sys2Proof.Machine

/-! ### Exact quotients -/

/-- An exact quotient of integers; the divisor is positive. -/
structure Quo where
  n : Int
  d : Nat
deriving DecidableEq, Repr

/-- An integer as a quotient. -/
def Quo.int (x : Int) : Quo := ⟨x, 1⟩

def Quo.zero : Quo := Quo.int 0

def Quo.add (a b : Quo) : Quo := if a.d == b.d then ⟨a.n + b.n, a.d⟩ else ⟨a.n * b.d + b.n * a.d, a.d * b.d⟩

def Quo.neg (a : Quo) : Quo := ⟨-a.n, a.d⟩

def Quo.sub (a b : Quo) : Quo := a.add b.neg

def Quo.mul (a b : Quo) : Quo := ⟨a.n * b.n, a.d * b.d⟩

/-- The quotient of two; 0 where the divisor is 0. -/
def Quo.div (a b : Quo) : Quo :=
  if b.n == 0 then Quo.zero
  else if b.n < 0 then ⟨-a.n * b.d, a.d * b.n.natAbs⟩ else ⟨a.n * b.d, a.d * b.n.natAbs⟩

def Quo.lt (a b : Quo) : Bool := a.n * b.d < b.n * a.d

def Quo.le (a b : Quo) : Bool := a.n * b.d ≤ b.n * a.d

def Quo.eq (a b : Quo) : Bool := a.n * b.d == b.n * a.d

/-- The largest integer at or below. -/
def Quo.floor (a : Quo) : Int := a.n / (a.d : Int)

/-- The smallest integer at or above. -/
def Quo.ceil (a : Quo) : Int := -(-a.n / (a.d : Int))

/-- The exact value of a finite code; none of an infinity or a NaN. -/
def quoOf (x : FVal) : Option Quo :=
  match x with
  | .fin s m e =>
    let v : Int := if s then -(m : Int) else m
    some (if 0 ≤ e then ⟨v * 2 ^ e.toNat, 1⟩ else ⟨v, 2 ^ (-e).toNat⟩)
  | _ => none

/-- The exact value of an FP32 code. -/
def quo32 (c : Word32) : Option Quo := quoOf (unpack fp32 c.toNat)

/-- One rounding to FP32, to nearest, ties to even. -/
def Quo.rn (a : Quo) : Word32 :=
  let sh := Nat.log2 a.d + 80
  let m := a.n.natAbs * 2 ^ sh
  BitVec.ofNat 32 (roundTo fp32 nearestEven (a.n < 0) (m / a.d) (-(sh : Int)) (m % a.d != 0)).code

/-! ### With infinities -/

/-- An exact value or an infinity. -/
inductive Ext where
  | minus
  | fin (q : Quo)
  | plus
deriving DecidableEq, Repr

def Ext.lt (a b : Ext) : Bool :=
  match a, b with
  | .minus, .minus => false
  | .minus, _ => true
  | .plus, _ => false
  | .fin _, .minus => false
  | .fin _, .plus => true
  | .fin x, .fin y => x.lt y

def Ext.le (a b : Ext) : Bool := !b.lt a

def Ext.eq (a b : Ext) : Bool := a.le b && b.le a

def Ext.max (a b : Ext) : Ext := if a.lt b then b else a

def Ext.min (a b : Ext) : Ext := if b.lt a then b else a

/-- The value of an FP32 code; none of a NaN. -/
def ext32 (c : Word32) : Option Ext :=
  match unpack fp32 c.toNat with
  | .nan _ => none
  | .inf s => some (if s then .minus else .plus)
  | x => (quoOf x).map .fin

/-- One rounding to FP32. -/
def Ext.rn (a : Ext) : Word32 :=
  match a with
  | .minus => 0xFF800000
  | .fin q => q.rn
  | .plus => 0x7F800000

/-! ### Three components -/

/-- A vector of exact values. -/
structure Vec3 where
  x : Quo
  y : Quo
  z : Quo
deriving DecidableEq, Repr

def Vec3.sub (a b : Vec3) : Vec3 := ⟨a.x.sub b.x, a.y.sub b.y, a.z.sub b.z⟩

def Vec3.dot (a b : Vec3) : Quo := ((a.x.mul b.x).add (a.y.mul b.y)).add (a.z.mul b.z)

def Vec3.cross (a b : Vec3) : Vec3 :=
  ⟨(a.y.mul b.z).sub (a.z.mul b.y), (a.z.mul b.x).sub (a.x.mul b.z), (a.x.mul b.y).sub (a.y.mul b.x)⟩

/-- Component by axis. -/
def Vec3.at (a : Vec3) (k : Nat) : Quo := if k == 0 then a.x else if k == 1 then a.y else a.z

/-- Three FP32 codes as exact values; none where one is not finite. -/
def vec32 (x y z : Word32) : Option Vec3 := do
  let a ← quo32 x
  let b ← quo32 y
  let c ← quo32 z
  pure ⟨a, b, c⟩

/-- The interval of a ray inside [lo, hi] on one axis (R255): empty is none. The entry is the smaller parameter. -/
def axisSpan (o d lo hi : Quo) : Option (Ext × Ext) :=
  if d.n == 0 then (if lo.le o && o.le hi then some (.minus, .plus) else none)
  else
    let a := (lo.sub o).div d
    let b := (hi.sub o).div d
    some (if a.le b then (.fin a, .fin b) else (.fin b, .fin a))

/-- The interval of a ray inside a box: the largest entry and the smallest exit. -/
def boxSpan (o d lo hi : Vec3) : Option (Ext × Ext) :=
  (upTo 0 3).foldl (fun (a : Option (Ext × Ext)) k =>
    match a, axisSpan (o.at k) (d.at k) (lo.at k) (hi.at k) with
    | some x, some y => some (x.1.max y.1, x.2.min y.2)
    | _, _ => none) (some (.minus, .plus))

/-! ### −ln(1 − x) (R265) -/

/-- −ln of y = m · 2^e with 0 < y < 1, enclosed at growing precision and rounded to FP32. -/
def negLnVal (m : Nat) (e : Int) : FRes :=
  let n : Int := (Nat.log2 m : Int) + e
  refine (fun p =>
    let y := m * 2 ^ p / 2 ^ Nat.log2 m
    let z := (y - 2 ^ p) * 2 ^ p / (y + 2 ^ p)
    let t : Int := -(n * ln2Fx p) - 2 * artanhFx p z
    let v := t.toNat
    encloses nearestEven false (v - 16 * fxSlack) (v + 16 * fxSlack) (-(p : Int))) 256 refineFuel

/-- rn(−ln(1 − x)) of an FP32 code with 0 ≤ x < 1. -/
def negLn1m (x : Word32) : Word32 :=
  match unpack fp32 x.toNat with
  | .fin _ m e =>
    if m == 0 then 0
    else
      let k := (-e).toNat
      BitVec.ofNat 32 (negLnVal (2 ^ k - m) (-(k : Int))).code
  | _ => 0

/-! ### Philox4x32-10 (R267) -/

/-- One round: four counter words and the two key words of the round. -/
def philoxRound (c : List Nat) (k0 k1 : Nat) : List Nat :=
  let p0 := 0xD2511F53 * nthD c 0 0
  let p1 := 0xCD9E8D57 * nthD c 2 0
  [(p1 / 2 ^ 32) ^^^ nthD c 1 0 ^^^ k0, p1 % 2 ^ 32, (p0 / 2 ^ 32) ^^^ nthD c 3 0 ^^^ k1, p0 % 2 ^ 32]

/-- n rounds, the key advancing between them. -/
def philoxRounds (n : Nat) (c : List Nat) (k0 k1 : Nat) : List Nat :=
  match n with
  | 0 => c
  | n + 1 => philoxRounds n (philoxRound c k0 k1) ((k0 + 0x9E3779B9) % 2 ^ 32) ((k1 + 0xBB67AE85) % 2 ^ 32)

/-- Draw number w of a stream: a multiple of 2^−24 below 1, as FP32. -/
def philoxDraw (w stream : Word32) (key ctr : Word64) : Word32 :=
  let c := [w.toNat / 4, stream.toNat, bits ctr 0 32, bits ctr 32 32]
  let word := nthD (philoxRounds 10 c (bits key 0 32) (bits key 32 32)) (w.toNat % 4) 0
  (⟨(word / 256 : Nat), 2 ^ 24⟩ : Quo).rn

end Sys2Proof.Machine
end

