-- ==== Sys2Proof/Machine/Render.lean ====
section
/-! DEFINITION. Reads on path X (R195, R220, R252), and how one lane of a render unit ends (R116, R117, R420). -/

namespace Sys2Proof.Machine

/-! ### Path X -/

/-- Whether the die's RDC serves a render read of a core: the line whole, clean, and not from before its last `xfence`
with a reader X (R222). -/
def rdcServesX (s : State) (core part line : Nat) : Bool :=
  match Tbl.find? (dieAt s (dieOf core)).rdc (rdcKey line part) with
  | some c => c.dirty == 0 && c.valid == BitVec.allOnes 128 && !c.xstale.getLsbD (core % 72)
  | none => false

/-- Lines of a render read cache: 128 KiB (R195). -/
def xLines : Nat := 1024

/-- A line enters the core's render read cache; one of the device's choice leaves a full one (log 3). -/
def cacheX (core line : Nat) (x : Line) : Prog Unit :=
  Prog.bind fresh fun i => modCore core fun c =>
    let l := Tbl.del c.xcache line
    let l1 := if l.length < xLines then l else Tbl.del l ((Tbl.keys l)[Config.freeChoice i % l.length]?.getD 0)
    { c with xcache := Tbl.put l1 line x }

/-- A line for a render read: from the render read cache where it is still there (DESIGN CHOICE, log 3), from
the RDC, or from its home. -/
def lineX (part core : Nat) (x : Loc) : Prog (Eng Line) :=
  letI := Prog.monad
  do
    let line := x.pa / 128
    let i ← fresh
    let kept := Config.freeChoice i % 2 == 0
    match ← look fun s => if kept then Tbl.find? (coreAt s core).xcache line else none with
    | some y => pure (.ok y)
    | none => do
      let s ← look id
      let near := homeOnDie s x.pa (dieOf core)
      let copy := Tbl.find? (dieAt s (dieOf core)).rdc (rdcKey line part)
      if !near && rdcServesX s core part line then do
        let y := (copy.getD (CLine.empty false false part)).data
        cacheX core line y
        pure (.ok y)
      else if ← holdsRequest x.pa (!near && copy.any fun c => c.dirty != 0) .once then pure .wait
      else if poisoned s.dev x.pa then pure .poison
      else do
        let y ← if near then do
            noteRequest (dieOf core) x false
            look fun s => homeLine s (128 * line)
          else fillRdc (dieOf core) part x
        cacheX core line y
        pure (.ok y)

/-- One piece of a render read: an HX page is read at home (R252). -/
def pieceX (a : Agent) (core : Nat) (p : Nat × Nat) : Prog (Eng (List Byte)) :=
  letI := Prog.monad
  do
    match ← translate a p.1 .render with
    | .fault cls y => pure (.fault cls y)
    | .trap c => pure (.trap c)
    | .wait => pure .wait
    | .ok tl _ => do
      let x ← look fun s => tl.loc s.dev a p.1
      if x.ac == 2 then
        if ← holdsRequest x.pa false .once then pure .wait
        else do
          noteRequest (dieOf core) x false
          let s ← look id
          pure (if poisoned s.dev x.pa then .poison else .ok (homeBytes s x.pa p.2))
      else do
        let r ← lineX a.part core x
        pure (r.map fun y => lineBytes y x.pa p.2)

/-- Reads n bytes of a team's context on path X. -/
def readX (t : Team) (va n : Nat) : Prog (Eng (List Byte)) :=
  Prog.bind (engAll (piecesOf va n) (pieceX (teamAgent t) t.core)) fun r => .pure (r.map List.flatten)

/-! ### Fields of what is read -/

/-- The number in n bytes at an offset. -/
def fieldAt (bs : List Byte) (o n : Nat) : Nat := ofBytes ((bs.drop o).take n)

/-- The 32-bit word at an offset. -/
def wordAt (bs : List Byte) (o : Nat) : Word32 := BitVec.ofNat 32 (fieldAt bs o 4)

/-- Whether some byte from an offset to the end of the first n is not 0. -/
def dirtyFrom (bs : List Byte) (o n : Nat) : Bool := ((bs.take n).drop o).any (· != 0)

/-! ### One lane -/

/-- How one lane of a render instruction ends: its registers' words, with or without FLAGS.NV; parked with the block it
spills; a trap with the address; a wait; or never, where the unit's loop has no end. -/
inductive LaneEnd where
  | done (ws : List Word32) (nv : Bool)
  | park (cls addr : Nat) (block : List Byte)
  | trap (c : Cause) (addr : Nat)
  | wait
  | never
deriving DecidableEq, Repr

/-- Goes on with what a read gave, or ends the lane: `block` is what it spills. -/
def orPark {α : Type} (va : Nat) (block : List Byte) (r : Eng α) (f : α → Prog LaneEnd) : Prog LaneEnd :=
  match r with
  | .ok x => f x
  | .fault cls addr => .pure (.park cls addr block)
  | .trap c => .pure (.trap c va)
  | .poison => .pure (.trap cMemory va)
  | .wait => .pure .wait

/-- What every lane of a render operation shares: the team, the address of its structure, DRAWKEY and DRAWCTR (R267). -/
structure RndCtx where
  t : Team
  va : Nat
  key : Word64
  ctr : Word64
deriving DecidableEq, Repr

/-- Free words for a result the spec does not state (DESIGN CHOICE, log 4). -/
def freeWords (n : Nat) : Prog (List Word32) :=
  match n with
  | 0 => .pure []
  | n + 1 => Prog.bind fresh fun i => Prog.bind (freeWords n) fun l => .pure ((Config.freeWord i).setWidth 32 :: l)

end Sys2Proof.Machine
end

