-- ==== Sys2Proof/Machine/Texture.lean ====
section
/-! DEFINITION. The texture unit (R271 to R274, R421, R422). -/

namespace Sys2Proof.Machine

/-! ### Descriptor (R271, R272) -/

/-- A level: sizes on three axes, and the VA where its tiles start. -/
structure Level where
  size : List Nat
  va : Nat
deriving DecidableEq, Repr

/-- A valid texture descriptor. -/
structure Texture where
  fmt : Nat
  dim3 : Bool
  wrap : Bool
  filt : Nat
  tile : List Nat
  levels : List Level
deriving DecidableEq, Repr

/-- Texels of a 64 KiB tile on each axis (R272). -/
def tileShape (fmt : Nat) (dim3 : Bool) : List Nat :=
  if dim3 then (if fmt == 1 then [32, 16, 16] else [32, 32, 16]) else (if fmt == 1 then [128, 64, 1] else [128, 128, 1])

/-- Tiles of a level on an axis. -/
def tilesOn (l : Level) (tile : List Nat) (k : Nat) : Nat :=
  (nthD l.size k 1 + nthD tile k 1 - 1) / nthD tile k 1

/-- n levels from level L on, each after the tiles of the one before. -/
def levelsFrom (dims tile : List Nat) (va lv n : Nat) : List Level :=
  match n with
  | 0 => []
  | n + 1 =>
    let l : Level := { size := dims.map fun w => max 1 (w / 2 ^ lv), va }
    let tiles := tilesOn l tile 0 * tilesOn l tile 1 * tilesOn l tile 2
    l :: levelsFrom dims tile (va + 65536 * tiles) (lv + 1) n

/-- The texture a descriptor gives; none where it breaks R271. -/
def textureOf (b : List Byte) : Option Texture :=
  let base := fieldAt b 0 8
  let f := fieldAt b 14 1
  let lvm1 := fieldAt b 15 1
  let filt := fieldAt b 16 1
  let dims := [fieldAt b 8 2 + 1, fieldAt b 10 2 + 1, fieldAt b 12 2 + 1]
  let dim3 := nbits f 2 1 == 1
  let tile := tileShape (f % 4) dim3
  if 2 ^ 48 ≤ base || base % 65536 != 0 || f % 4 == 3 || 1 < nbits f 3 2 || nbits f 5 3 != 0 || 15 < lvm1 || 2 < filt ||
      dirtyFrom b 17 64 || (!dim3 && nthD dims 2 1 != 1) then none
  else some { fmt := f % 4, dim3, wrap := nbits f 3 2 == 1, filt, tile, levels := levelsFrom dims tile base 0 (lvm1 + 1) }

/-! ### Texels -/

/-- Bytes of a texel. -/
def Texture.bytes (x : Texture) : Nat := if x.fmt == 1 then 8 else 4

/-- VA of a texel (R272). -/
def Texture.texelVa (x : Texture) (l : Level) (i j k : Nat) : Nat :=
  let tw := nthD x.tile 0 1
  let th := nthD x.tile 1 1
  let td := nthD x.tile 2 1
  let tile := i / tw + tilesOn l x.tile 0 * (j / th + tilesOn l x.tile 1 * (k / td))
  l.va + 65536 * tile + x.bytes * (i % tw + tw * (j % th + th * (k % td)))

/-- Channels of a texel, widened to FP32 (R273); a NaN is canonical (R282). -/
def Texture.widen (x : Texture) (b : List Byte) : List Word32 :=
  if x.fmt == 0 then (upTo 0 4).map fun k => (⟨(nthD b k 0).toNat, 255⟩ : Quo).rn
  else if x.fmt == 1 then
    (upTo 0 4).map fun k => BitVec.ofNat 32 (convert fp16 fp32 nearestEven (fieldAt b (2 * k) 2)).code
  else [if (ext32 (wordAt b 0)).isNone then 0x7FC00000 else wordAt b 0, 0, 0, 0x3F800000]

/-! ### Footprints (R273) -/

/-- A coordinate: NaN is 0; an infinite one is 0 when wrapping, and beyond every texel when clamping. -/
def coordOf (wrap : Bool) (c : Word32) : Quo :=
  match ext32 c with
  | some (.fin q) => q
  | some .plus => if wrap then Quo.zero else Quo.int (2 ^ 80)
  | some .minus => if wrap then Quo.zero else Quo.int (-(2 ^ 80))
  | none => Quo.zero

/-- An index addressed: clamped to the level, or taken modulo its size. -/
def addressed (wrap : Bool) (n : Nat) (i : Int) : Nat :=
  if wrap then (i % (n : Int)).toNat else if i < 0 then 0 else min i.toNat (n - 1)

/-- The weight of the second texel: floor(fraction × 256). -/
def weight256 (x : Quo) : Nat := ((x.sub (Quo.int x.floor)).mul (Quo.int 256)).floor.toNat

/-- Indices on one axis and the weight of the second, in 256ths. -/
def axisTexels (x : Texture) (linear : Bool) (n : Nat) (c : Quo) : List Nat × Nat :=
  let u := c.mul (Quo.int n)
  if linear then
    let v := u.sub ⟨1, 2⟩
    ([addressed x.wrap n v.floor, addressed x.wrap n (v.floor + 1)], weight256 v)
  else ([addressed x.wrap n u.floor], 0)

/-- rn of an exact weighted sum of two texel values, the weight of the second in 256ths (R273): a weight of 0 contributes
exactly +0. -/
def lerp (w : Nat) (a b : Word32) : Word32 :=
  let term := fun (k : Nat) (c : Word32) => if k == 0 then [] else [(FVal.fin false k (-8), unpack fp32 c.toNat)]
  let ps := term (256 - w) a ++ term w b
  let zero : List FVal := if ps.length < 2 then [.fin false 0 0] else []
  BitVec.ofNat 32 (sumOfProducts fp32 nearestEven ps zero).code

/-- The footprint of a sample on one level: texel indices in order x, y, z, and the weights. -/
def footprint (x : Texture) (l : Level) (linear : Bool) (co : List Quo) : List (Nat × Nat × Nat) × List Nat :=
  let ax := (upTo 0 3).map fun k =>
    if k == 2 && !x.dim3 then ([0], 0) else axisTexels x linear (nthD l.size k 1) (nthD co k Quo.zero)
  let at_ := fun (k : Nat) => (nthD ax k ([0], 0)).1
  ((at_ 2).flatMap fun k => (at_ 1).flatMap fun j => (at_ 0).map fun i => (i, j, k), ax.map (·.2))

/-- Halves a list of texels along one axis: pairs are combined. -/
def combinePairs (w : Nat) (l : List (List Word32)) : List (List Word32) :=
  match l with
  | a :: b :: rest => List.zipWith (lerp w) a b :: combinePairs w rest
  | l => l

/-- The filtered value of a footprint: along x, then y, then z (R273). -/
def filterTexels (x : Texture) (linear : Bool) (ws : List Nat) (l : List (List Word32)) : List Word32 :=
  if !linear then nthD l 0 []
  else
    let l1 := combinePairs (nthD ws 1 0) (combinePairs (nthD ws 0 0) l)
    nthD (if x.dim3 then combinePairs (nthD ws 2 0) l1 else l1) 0 []

/-- The value of one level. -/
def sampleLevel (c : RndCtx) (x : Texture) (l : Level) (linear : Bool) (co : List Quo) : Prog (Eng (List Word32)) :=
  let f := footprint x l linear co
  Prog.bind (engAll f.1 fun p => readX c.t (x.texelVa l p.1 p.2.1 p.2.2) x.bytes) fun r =>
    .pure (r.map fun bs => filterTexels x linear f.2 (bs.map x.widen))

/-- Levels sampled and the weight of the second in 256ths (R273). -/
def levelsFor (x : Texture) (lod : Quo) : List Nat × Nat :=
  let top := x.levels.length - 1
  if x.filt < 2 then ([addressed false x.levels.length (lod.add ⟨1, 2⟩).floor], 0)
  else
    let cl := if lod.lt Quo.zero then Quo.zero else if (Quo.int top).lt lod then Quo.int top else lod
    let l0 := cl.floor.toNat
    ([l0, min (l0 + 1) top], weight256 cl)

/-- The sample of a valid texture. -/
def sampleTexture (c : RndCtx) (x : Texture) (u v w lod : Word32) : Prog (Eng (List Word32)) :=
  let co := [u, v, w].map (coordOf x.wrap)
  let ls := levelsFor x (coordOf false lod)
  Prog.bind (engAll ls.1 fun k =>
    sampleLevel c x (nthD x.levels k { size := [], va := 0 }) (x.filt != 0) co) fun r =>
    .pure (r.map fun vs => nthD (combinePairs ls.2 vs) 0 [])

/-- The canonical NaN. -/
def nanWord : Word32 := 0x7FC00000

/-- One lane of tex (R421): a lane with any texel of its footprint not resident parks whole (R274). -/
def texLane (c : RndCtx) (u v w lod : Word32) : Prog LaneEnd :=
  Prog.bind (readX c.t c.va 64) fun r =>
  orPark c.va [] r fun b =>
    match textureOf b with
    | none => .pure (.done [nanWord, nanWord, nanWord, nanWord] false)
    | some x => Prog.bind (sampleTexture c x u v w lod) fun r => orPark c.va [] r fun ws => .pure (.done ws false)

/-- One lane of texq (R422). -/
def texqLane (c : RndCtx) (level : Word32) : Prog LaneEnd :=
  Prog.bind (readX c.t c.va 64) fun r =>
  orPark c.va [] r fun b =>
    match (textureOf b).bind fun x => (x.levels.drop level.toNat).head?.map fun l => (x, l) with
    | none => .pure (.done [0, 0, 0, 0] false)
    | some (x, l) =>
      .pure (.done ([nthD l.size 0 1, nthD l.size 1 1, nthD l.size 2 1, x.levels.length].map (BitVec.ofNat 32)) false)

end Sys2Proof.Machine
end

