-- ==== Sys2Proof/Machine/March.lean ====
section
/-! DEFINITION. The volume-march unit: media (R262, R263), the march (R264 to R266, R270, R458) and draws (R267 to R269,
R425). -/

namespace Sys2Proof.Machine

/-! ### Draws -/

/-- Where draws come from: the generator, or a table with its length. -/
abbrev DrawTab := Option (Nat × Nat)

/-- Position of draw W of a stream in a table (R269). -/
def tabPos (len : Nat) (w stream : Word32) : Nat := (stream.toNat + w.toNat) % len

/-- A draw is valid from 0 up to but not including 1 (R269). -/
def validDraw (x : Word32) : Bool := (quo32 x).elim false fun q => 0 ≤ q.n && q.lt (Quo.int 1)

/-- Draw W of a stream. -/
def drawAt (c : RndCtx) (tab : DrawTab) (w stream : Word32) : Prog (Eng Word32) :=
  match tab with
  | none => .pure (.ok (philoxDraw w stream c.key c.ctr))
  | some (va, len) => Prog.bind (readX c.t (va + 4 * tabPos len w stream) 4) fun r => .pure (r.map fun b => wordAt b 0)

/-! ### Spilled state (R116, R270) -/

/-- The state of a march at the start of a step. -/
structure March where
  cell : List Nat
  t : Word32
  w : Word32
  tr : Word32
deriving DecidableEq, Repr

/-- Cell index of a march that has not begun: no cell has it (R262). -/
def noCell : Nat := 0xFFFF

/-- The block of a lane. -/
def March.block (x : March) (pos : Nat) : List Byte :=
  (upTo 0 3).flatMap (fun k => bytesOf 2 (nthD x.cell k 0)) ++ [0, 0] ++ bytesOf 4 x.t.toNat ++
    bytesOf 4 (x.w.toNat / 4) ++ [BitVec.ofNat 8 (x.w.toNat % 4), 0, 0, 0] ++ bytesOf 4 x.tr.toNat ++ bytesOf 4 pos ++
    List.replicate 100 0

/-- The state in a block. -/
def March.ofBlock (b : List Byte) : March :=
  { cell := (upTo 0 3).map fun k => fieldAt b (2 * k) 2, t := wordAt b 8,
    w := BitVec.ofNat 32 (4 * fieldAt b 12 4 + fieldAt b 16 1 % 4), tr := wordAt b 20 }

/-- A march that has not begun. -/
def March.idle (w : Word32) : March := { cell := [noCell, noCell, noCell], t := 0, w, tr := 0x3F800000 }

/-! ### Media (R262) -/

/-- A valid medium descriptor. -/
structure Medium where
  maj : Nat
  den : Nat
  tab : DrawTab
  mn : List Nat
  dn : List Nat
  org : Vec3
  cell : Vec3
  albedo : Quo
  dscale : Quo
  byteDen : Bool
  ratio : Bool
deriving DecidableEq, Repr

/-- The medium a descriptor gives; none where it breaks R262. -/
def mediumOf (b : List Byte) : Option Medium := do
  let ctl := fieldAt b 72 1
  let es := if ctl % 2 == 1 then 1 else 2
  let table := nbits ctl 2 1 == 1
  let org ← vec32 (wordAt b 40) (wordAt b 44) (wordAt b 48)
  let cell ← vec32 (wordAt b 52) (wordAt b 56) (wordAt b 60)
  let albedo ← quo32 (wordAt b 64)
  let dscale ← quo32 (wordAt b 68)
  let mn := (upTo 0 3).map fun k => fieldAt b (28 + 2 * k) 2
  let dn := (upTo 0 3).map fun k => fieldAt b (34 + 2 * k) 2
  if 2 ^ 48 ≤ fieldAt b 0 8 || 2 ^ 48 ≤ fieldAt b 8 8 || 2 ^ 48 ≤ fieldAt b 16 8 || fieldAt b 0 8 % 4 != 0 ||
      fieldAt b 8 8 % es != 0 || 7 < ctl || dirtyFrom b 73 128 || mn.contains 0 || dn.contains 0 ||
      cell.x.n ≤ 0 || cell.y.n ≤ 0 || cell.z.n ≤ 0 || albedo.n < 0 || (Quo.int 1).lt albedo || dscale.n < 0 ||
      (table && (fieldAt b 16 8 % 4 != 0 || fieldAt b 24 4 == 0)) then none
  else
    some { maj := fieldAt b 0 8, den := fieldAt b 8 8, tab := if table then some (fieldAt b 16 8, fieldAt b 24 4) else none,
           mn, dn, org, cell, albedo, dscale, byteDen := es == 1, ratio := nbits ctl 1 1 == 1 }

/-- VA of element (x, y, z) of a grid. -/
def gridVa (base es : Nat) (n at_ : List Nat) : Nat :=
  base + es * (nthD at_ 0 0 + nthD n 0 1 * (nthD at_ 1 0 + nthD n 1 1 * nthD at_ 2 0))

/-- The voxel of a point on one axis (R263). -/
def voxelOn (m : Medium) (k : Nat) (p : Word32) : Nat :=
  let dn := nthD m.dn k 1
  match ext32 p with
  | some (.fin q) =>
    let i := (((q.sub (m.org.at k)).mul (Quo.int dn)).div ((m.cell.at k).mul (Quo.int (nthD m.mn k 1 : Nat)))).floor
    if i < 0 then 0 else min (dn - 1) i.toNat
  | some .plus => dn - 1
  | _ => 0

/-- The extinction of a voxel's value (R263). -/
def extinction (m : Medium) (b : List Byte) : Ext :=
  let v := if m.byteDen then FVal.fin false (fieldAt b 0 1) 0 else unpack fp16 (fieldAt b 0 2)
  if m.dscale.n == 0 then .fin Quo.zero
  else match v with
    | .nan _ => .fin Quo.zero
    | .inf s => if s then .minus else .plus
    | x => (ext32 ((m.dscale.mul ((quoOf x).getD Quo.zero)).rn)).getD (.fin Quo.zero)

/-- min(μ / m, 1), exact. -/
def eventRatio (mu : Ext) (m : Quo) : Ext :=
  match mu with
  | .fin q => Ext.min (.fin (q.div m)) (.fin (Quo.int 1))
  | .plus => .fin (Quo.int 1)
  | .minus => .minus

/-- rn(TR × (1 − r)) (R265). -/
def fadeRatio (tr : Word32) (r : Ext) : Word32 :=
  match r, unpack fp32 tr.toNat with
  | .fin q, .fin _ _ _ => (((quo32 tr).getD Quo.zero).mul ((Quo.int 1).sub q)).rn
  | .fin q, .inf s => if ((Quo.int 1).sub q).n == 0 then 0x7FC00000 else if s then 0xFF800000 else 0x7F800000
  | _, .fin _ m _ => if m == 0 then 0x7FC00000 else 0x7F800000
  | _, .inf s => if s then 0xFF800000 else 0x7F800000
  | _, .nan _ => 0x7FC00000

/-! ### Rays and cells -/

/-- A ray: its eight words, and its exact origin and direction. -/
structure Ray where
  ws : List Word32
  o : Vec3
  d : Vec3
deriving DecidableEq, Repr

/-- Position at a parameter: one rounding for each component (R265). -/
def pointAt (ws : List Word32) (t : Word32) : List Word32 :=
  (upTo 0 3).map fun k =>
    BitVec.ofNat 32 (sumOfProducts fp32 nearestEven [(unpack fp32 t.toNat, unpack fp32 (nthD ws (3 + k) 0).toNat)]
      [unpack fp32 (nthD ws k 0).toNat]).code

/-- The ray of eight words; none where a component is not finite, a bound is a NaN, or TMIN > TMAX (R264). -/
def rayOf (ws : List Word32) : Option Ray := do
  let o ← vec32 (nthD ws 0 0) (nthD ws 1 0) (nthD ws 2 0)
  let d ← vec32 (nthD ws 3 0) (nthD ws 4 0) (nthD ws 5 0)
  let a ← ext32 (nthD ws 6 0)
  let b ← ext32 (nthD ws 7 0)
  if b.lt a then none else some { ws, o, d }

def Ray.tmin (r : Ray) : Ext := (ext32 (nthD r.ws 6 0)).getD .minus
def Ray.tmax (r : Ray) : Ext := (ext32 (nthD r.ws 7 0)).getD .plus

/-- The upper corner of a grid. -/
def Medium.far (m : Medium) : Vec3 :=
  ⟨m.org.x.add ((Quo.int (nthD m.mn 0 1 : Nat)).mul m.cell.x), m.org.y.add ((Quo.int (nthD m.mn 1 1 : Nat)).mul m.cell.y),
   m.org.z.add ((Quo.int (nthD m.mn 2 1 : Nat)).mul m.cell.z)⟩

/-- Where the march begins (R264): its exact entry; none where the ray misses the grid or is not bounded. -/
def marchEntry (m : Medium) (r : Ray) : Option Quo :=
  match boxSpan r.o r.d m.org m.far with
  | none => none
  | some (a, b) =>
    match r.tmin.max a, r.tmax.min b with
    | .fin x, .fin y => if y.lt x then none else some x
    | _, _ => none

/-- The start cell on an axis. -/
def startCell (m : Medium) (r : Ray) (t0 : Quo) (k : Nat) : Nat :=
  let q := (((r.o.at k).add (t0.mul (r.d.at k))).sub (m.org.at k)).div (m.cell.at k)
  let i := if 0 ≤ (r.d.at k).n then q.floor else q.ceil - 1
  addressed3 (nthD m.mn k 1) i
where
  /-- An index clamped to the grid. -/
  addressed3 (n : Nat) (i : Int) : Nat := if i < 0 then 0 else min i.toNat (n - 1)

/-- Exit parameter of a cell on an axis. -/
def cellExit (m : Medium) (r : Ray) (cell : List Nat) (k : Nat) : Ext :=
  let d := r.d.at k
  if d.n == 0 then .plus
  else
    let i := nthD cell k 0 + (if 0 < d.n then 1 else 0)
    .fin (((m.org.at k).add ((Quo.int i).mul (m.cell.at k)) |>.sub (r.o.at k)).div d)

/-- The cell after leaving by the axes with the smallest exit; none outside the grid. -/
def nextCell (m : Medium) (r : Ray) (cell : List Nat) (ex : List Ext) (least : Ext) : Option (List Nat) :=
  (upTo 0 3).foldr (fun k (a : Option (List Nat)) => do
    let rest ← a
    let i := nthD cell k 0
    if (nthD ex k .plus).eq least then
      if 0 < (r.d.at k).n then (if i + 1 < nthD m.mn k 1 then some ((i + 1) :: rest) else none)
      else if i == 0 then none else some ((i - 1) :: rest)
    else some (i :: rest)) (some [])

/-! ### Results (R266) -/

/-- The seven registers, and the draw pair. -/
def marchWords (kind : Nat) (ws : List Word32) (cell : List Nat) (t tr w : Word32) : List Word32 :=
  BitVec.ofNat 32 (kind + nthD cell 2 0 * 65536) :: t :: pointAt ws t ++
    [BitVec.ofNat 32 (nthD cell 0 0 + nthD cell 1 0 * 65536), tr, w, nthD ws 9 0]

/-- The MALFORMED event: draws taken before stay counted. -/
def marchBad (ws : List Word32) (w : Word32) : LaneEnd := .done [3, 0, 0, 0, 0, 0, 0, w, nthD ws 9 0] false

/-- The escape of a ray that misses the grid. -/
def marchMiss (ws : List Word32) (w : Word32) : LaneEnd :=
  .done (marchWords 0 ws [0xFFFF, 0xFFFF, 0xFFFF] (nthD ws 7 0) 0x3F800000 w) false

/-! ### The march (R265) -/

/-- How a step ends: the march goes on, or the lane ends. -/
inductive Step1 where
  | go (x : March)
  | fin (e : LaneEnd)

/-- What a step does with what a read gives. -/
def onRead {α : Type} (va : Nat) (block : List Byte) (r : Eng α) (f : α → Prog Step1) : Prog Step1 :=
  match r with
  | .ok x => f x
  | .fault cls addr => .pure (.fin (.park cls addr block))
  | .trap c => .pure (.fin (.trap c va))
  | .poison => .pure (.fin (.trap cMemory va))
  | .wait => .pure (.fin .wait)

/-- One step of the march: the rest of a cell, a null collision, a fade, or an event. -/
def marchStep (c : RndCtx) (m : Medium) (r : Ray) (x : March) : Prog Step1 :=
  let stream := nthD r.ws 9 0
  let block := x.block (m.tab.elim 0 fun y => tabPos y.2 x.w stream)
  let ex := (upTo 0 3).map (cellExit m r x.cell)
  let least := ex.foldl Ext.min .plus
  let tend := (least.min r.tmax).rn
  let tendv := (ext32 tend).getD .plus
  let leave := fun (w : Word32) =>
    let out : LaneEnd := .done (marchWords 0 r.ws x.cell tend (if m.ratio then x.tr else 0x3F800000) w) false
    if tendv.eq r.tmax then Step1.fin out
    else match nextCell m r x.cell ex least with
      | some cell => Step1.go { x with cell, t := tend, w }
      | none => Step1.fin out
  let va := gridVa m.maj 4 m.mn x.cell
  Prog.bind (readX c.t va 4) fun g => onRead va block g fun b =>
    let maj := ((quo32 (wordAt b 0)).getD Quo.zero)
    if maj.n ≤ 0 then .pure (leave x.w)
    else
      Prog.bind (drawAt c m.tab x.w stream) fun g => onRead c.va block g fun x1 =>
        if !validDraw x1 then .pure (.fin (marchBad r.ws x.w))
        else
          let tau := (quo32 (negLn1m x1)).getD Quo.zero
          let tc : Word32 := BitVec.ofNat 32 (add32 x.t.toNat (tau.div maj).rn.toNat)
          let tcv := (ext32 tc).getD .plus
          if tendv.le tcv then .pure (leave (x.w + 1))
          else
            let p := pointAt r.ws tc
            let es := if m.byteDen then 1 else 2
            let dva := gridVa m.den es m.dn ((upTo 0 3).map fun k => voxelOn m k (nthD p k 0))
            Prog.bind (readX c.t dva es) fun g => onRead dva block g fun b =>
              let q := eventRatio (extinction m b) maj
              if m.ratio then .pure (.go { x with t := tc, w := x.w + 1, tr := fadeRatio x.tr q })
              else
                Prog.bind (drawAt c m.tab (x.w + 1) stream) fun g => onRead c.va block g fun x2 =>
                  if !validDraw x2 then .pure (.fin (marchBad r.ws (x.w + 1)))
                  else if !((ext32 x2).getD .plus).lt q then .pure (.go { x with t := tc, w := x.w + 2 })
                  else
                    Prog.bind (drawAt c m.tab (x.w + 2) stream) fun g => onRead c.va block g fun x3 =>
                      if !validDraw x3 then .pure (.fin (marchBad r.ws (x.w + 2)))
                      else
                        let kind := if ((quo32 x3).getD Quo.zero).lt m.albedo then 1 else 2
                        .pure (.fin (.done (marchWords kind r.ws x.cell tc 0 (x.w + 3)) false))

/-- Steps until the lane ends. -/
def marchLoop (fuel : Nat) (c : RndCtx) (m : Medium) (r : Ray) (x : March) : Prog LaneEnd :=
  match fuel with
  | 0 => .pure .never
  | fuel + 1 => Prog.bind (marchStep c m r x) fun y =>
    match y with
    | .go z => marchLoop fuel c m r z
    | .fin e => .pure e

/-- Steps that a march is followed for. A march that makes more has no end in this model (DESIGN CHOICE, log 26). -/
def marchFuel : Nat := 0x1000000000000000

/-- One lane of vmarch (R424): from the start, or from its spilled block. -/
def marchLane (c : RndCtx) (ws : List Word32) (block : Option (List Byte)) : Prog LaneEnd :=
  let w0 := nthD ws 8 0
  let begun := (block.map March.ofBlock).filter fun x => nthD x.cell 0 0 != noCell
  Prog.bind (readX c.t c.va 128) fun r =>
  orPark c.va (block.getD ((March.idle w0).block 0)) r fun b =>
    match mediumOf b, rayOf ws with
    | none, _ => .pure (marchBad ws w0)
    | some _, none => .pure (marchMiss ws w0)
    | some m, some ray =>
      match begun with
      | some x => marchLoop marchFuel c m ray x
      | none =>
        match marchEntry m ray with
        | none => .pure (marchMiss ws w0)
        | some t0 =>
          marchLoop marchFuel c m ray
            { cell := (upTo 0 3).map (startCell m ray t0), t := t0.rn, w := w0, tr := 0x3F800000 }

/-! ### draw (R425) -/

/-- An invalid draw: NaN, W unchanged, FLAGS.NV. -/
def badDraw (w stream : Word32) : LaneEnd := .done [0x7FC00000, w, stream] true

/-- One lane of draw without a table. -/
def drawLane (c : RndCtx) (w stream : Word32) : Prog LaneEnd :=
  .pure (.done [philoxDraw w stream c.key c.ctr, w + 1, stream] false)

/-- One lane of draw.tab: only TABVA and TABLEN of the descriptor are read. -/
def drawTabLane (c : RndCtx) (w stream : Word32) : Prog LaneEnd :=
  let block := fun (pos : Nat) => (March.idle w).block pos
  Prog.bind (readX c.t (c.va + 16) 12) fun r =>
  orPark (c.va + 16) (block 0) r fun b =>
    let va := fieldAt b 0 8
    let len := fieldAt b 8 4
    if 2 ^ 48 ≤ va || va % 4 != 0 || len == 0 then .pure (badDraw w stream)
    else Prog.bind (drawAt c (some (va, len)) w stream) fun r =>
      orPark (va + 4 * tabPos len w stream) (block (tabPos len w stream)) r fun x =>
        .pure (if validDraw x then .done [x, w + 1, stream] false else badDraw w stream)

end Sys2Proof.Machine
end

