-- ==== Sys2Proof/Machine/Trace.lean ====
section
/-! DEFINITION. The traversal unit (R254 to R261, R423). -/

namespace Sys2Proof.Machine

/-! ### Structures in memory (R254, R256, R257) -/

/-- What is read from a structure: malformed, with a value that has no exact one (DESIGN CHOICE, log 4), or well. -/
inductive Parsed (α : Type) where
  | bad
  | unstated
  | ok (x : α)
deriving DecidableEq, Repr

/-- A child of a node: number, CHILD word, records of its run, and its box. -/
structure Child where
  k : Nat
  word : Word32
  lcnt : Nat
  lo : Vec3
  hi : Vec3
deriving DecidableEq, Repr

/-- KIND of a CHILD word: 0 node, 1 leaf run, 2 instance. -/
def childKind (w : Word32) : Nat := bits w 30 2

/-- Offset of a CHILD word in 128-byte units. -/
def childOff (w : Word32) : Nat := bits w 0 30

/-- Bytes of six quantised bounds of child k. -/
def boxByte (b : List Byte) (k j : Nat) : Nat := fieldAt b (16 + 6 * k + j) 1

/-- A bound: ORG + Q × 2^E. -/
def boundOf (org : Quo) (e : Int) (q : Nat) : Quo :=
  org.add (if 0 ≤ e then Quo.int (q * 2 ^ e.toNat : Nat) else ⟨q, 2 ^ (-e).toNat⟩)

/-- A signed byte. -/
def signedByte (x : Nat) : Int := if x < 128 then x else (x : Int) - 256

/-- The children that are present. -/
def childrenOf (b : List Byte) (org : Vec3) : List Child :=
  let e := fun (a : Nat) => signedByte (fieldAt b (12 + a) 1)
  let corner := fun (k j : Nat) => (⟨boundOf org.x (e 0) (boxByte b k j), boundOf org.y (e 1) (boxByte b k (j + 1)),
    boundOf org.z (e 2) (boxByte b k (j + 2))⟩ : Vec3)
  ((upTo 0 8).filter fun k => (fieldAt b 15 1).testBit k).map fun k =>
    { k, word := wordAt b (64 + 4 * k), lcnt := nbits (fieldAt b 96 4) (4 * k) 4, lo := corner k 0, hi := corner k 3 }

/-- Whether a node breaks R254: KIND and equal CHILD words count for the children present, QLO, QHI and LCNT for all. -/
def nodeBad (b : List Byte) : Bool :=
  let ks := (upTo 0 8).filter fun k => (fieldAt b 15 1).testBit k
  let kind := fun (k : Nat) => childKind (wordAt b (64 + 4 * k))
  let lcnt := fun (k : Nat) => nbits (fieldAt b 96 4) (4 * k) 4
  dirtyFrom b 100 128 || ((upTo 0 3).any fun a => signedByte (fieldAt b (12 + a) 1) < -126) ||
    ((upTo 0 8).any fun k => ((kind k == 1) != (lcnt k != 0)) ||
      (upTo 0 3).any fun a => boxByte b k (a + 3) < boxByte b k a) ||
    ks.any fun k => kind k == 3 || ks.any fun j => j < k && wordAt b (64 + 4 * j) == wordAt b (64 + 4 * k)

/-- The children of a node. -/
def nodeOf (b : List Byte) : Parsed (List Child) :=
  if nodeBad b then .bad
  else if fieldAt b 15 1 == 0 then .ok []
  else match vec32 (wordAt b 0) (wordAt b 4) (wordAt b 8) with
    | none => .unstated
    | some org => .ok (childrenOf b org)

/-- A triangle record. -/
structure Tri where
  v0 : Vec3
  v1 : Vec3
  v2 : Vec3
  id : Word32
deriving DecidableEq, Repr

def triOf (b : List Byte) : Parsed Tri :=
  if 0xFFFFFFFD < fieldAt b 36 4 || dirtyFrom b 40 64 then .bad
  else match vec32 (wordAt b 0) (wordAt b 4) (wordAt b 8), vec32 (wordAt b 12) (wordAt b 16) (wordAt b 20),
      vec32 (wordAt b 24) (wordAt b 28) (wordAt b 32) with
    | some v0, some v1, some v2 => .ok { v0, v1, v2, id := wordAt b 36 }
    | _, _, _ => .unstated

/-- Every record of a run. -/
def runOf (b : List Byte) (n : Nat) : Parsed (List Tri) :=
  match n with
  | 0 => .ok []
  | n + 1 =>
    match triOf (b.take 64), runOf (b.drop 64) n with
    | .bad, _ => .bad
    | _, .bad => .bad
    | .ok x, .ok l => .ok (x :: l)
    | _, _ => .unstated

/-- An instance node. -/
structure Inst where
  m : List Word32
  base : Nat
  id : Word32
deriving DecidableEq, Repr

def instOf (b : List Byte) : Parsed Inst :=
  let base := fieldAt b 48 8
  if 2 ^ 48 ≤ base || base % 128 != 0 || fieldAt b 56 4 == 0xFFFFFFFF || dirtyFrom b 60 128 then .bad
  else .ok { m := (upTo 0 12).map fun k => wordAt b (4 * k), base, id := wordAt b 56 }

/-! ### Rays -/

/-- One component of a transformed ray: an exact sum rounded once (R257). -/
def rowTimes (m ws : List Word32) (i j : Nat) (plus : List FVal) : Word32 :=
  let f := fun (l : List Word32) (k : Nat) => unpack fp32 (nthD l k 0).toNat
  BitVec.ofNat 32 (sumOfProducts fp32 nearestEven ((upTo 0 3).map fun k => (f m (4 * i + k), f ws (j + k))) plus).code

/-- The six words of the ray inside an instance (R257). -/
def enterInst (x : Inst) (ws : List Word32) : List Word32 :=
  ((upTo 0 3).map fun i => rowTimes x.m ws i 0 [unpack fp32 (nthD x.m (4 * i + 3) 0).toNat]) ++
    (upTo 0 3).map fun i => rowTimes x.m ws i 3 []

/-- Exact origin and direction of six words. -/
def originDir (ws : List Word32) : Option (Vec3 × Vec3) := do
  let o ← vec32 (nthD ws 0 0) (nthD ws 1 0) (nthD ws 2 0)
  let d ← vec32 (nthD ws 3 0) (nthD ws 4 0) (nthD ws 5 0)
  pure (o, d)

/-! ### Hits (R258) -/

/-- The best hit so far; TRIID 0xFFFFFFFF is none. -/
structure Hit where
  t : Word32
  tri : Word32
  inst : Word32
  u : Word32
  v : Word32
deriving DecidableEq, Repr

/-- The intersection with a triangle: t and the two weights. -/
def intersect (o d : Vec3) (x : Tri) : Option (Word32 × Word32 × Word32) :=
  let a := x.v0.sub o
  let b := x.v1.sub o
  let c := x.v2.sub o
  let uu := d.dot (c.cross b)
  let vv := d.dot (a.cross c)
  let ww := d.dot (b.cross a)
  let det := (uu.add vv).add ww
  let pos := 0 ≤ uu.n && 0 ≤ vv.n && 0 ≤ ww.n
  let neg := uu.n ≤ 0 && vv.n ≤ 0 && ww.n ≤ 0
  if det.n == 0 || !(pos || neg) then none
  else
    let n := (x.v1.sub x.v0).cross (x.v2.sub x.v0)
    some (((n.dot a).div (n.dot d)).rn, (vv.div det).rn, (ww.div det).rn)

/-- The order of two values of codes. -/
def codeLt (a b : Word32) : Bool :=
  match ext32 a, ext32 b with
  | some x, some y => x.lt y
  | _, _ => false

/-- Whether a hit is accepted (R258). -/
def acceptHit (tmin tmax : Word32) (best h : Hit) : Bool :=
  !codeLt h.t tmin && !codeLt tmax h.t &&
    (codeLt h.t best.t || (!codeLt best.t h.t &&
      (h.inst.toNat < best.inst.toNat || (h.inst == best.inst && h.tri.toNat < best.tri.toNat))))

/-- Tests the records of a run in order; with `first` the first accepted hit ends it. -/
def testRun (o d : Vec3) (tmin tmax : Word32) (inst : Word32) (first : Bool) (l : List Tri) (best : Hit) : Hit × Bool :=
  match l with
  | [] => (best, false)
  | x :: rest =>
    match intersect o d x with
    | some (t, u, v) =>
      let h : Hit := { t, tri := x.id, inst, u, v }
      if acceptHit tmin tmax best h then (if first then (h, true) else testRun o d tmin tmax inst first rest h)
      else testRun o d tmin tmax inst first rest best
    | none => testRun o d tmin tmax inst first rest best

/-! ### Traversal (R259) -/

/-- The state of a traversal: ancestors (newest first), the current item as a CHILD word with the records of its run, the
child come back from, and the best hit. -/
structure Trav where
  stack : List Word32
  cur : Word32
  lcnt : Nat
  prev : Option Word32
  best : Hit
deriving DecidableEq, Repr

/-- The instance that the traversal is in: IBASE, INSTID, and the transformed ray. -/
structure Inside where
  base : Nat
  id : Word32
  ws : List Word32
deriving DecidableEq, Repr

/-- Offset of the instance entered, from the stack. -/
def Trav.instance? (x : Trav) : Option Nat := (x.stack.find? fun w => childKind w == 2).map childOff

/-- VA of the current item. -/
def Trav.va (x : Trav) (base : Nat) (i : Option Inside) : Nat :=
  (if childKind x.cur == 2 then base else i.elim base (·.base)) + 128 * childOff x.cur

/-- What a traversal resumes with beside the fields of R116, in the stack entry above its depth: the CHILD word of the child
come back from, else, under the reserved KIND, what the current item is (DESIGN CHOICE, log 27). -/
def Trav.mark (x : Trav) : Word32 :=
  x.prev.getD (BitVec.ofNat 32 (3 * 2 ^ 30 + childKind x.cur * 16 + x.lcnt % 16))

/-- The block of a lane (R116): entries 0 to 15, VA of the current item, depth, best hit. -/
def Trav.block (x : Trav) (base : Nat) (i : Option Inside) : List Byte :=
  let words := x.stack.reverse ++ [x.mark]
  ((upTo 0 16).flatMap fun k => bytesOf 4 (nthD words k 0).toNat) ++ bytesOf 8 (x.va base i) ++
    bytesOf 4 x.stack.length ++
    [x.best.t, x.best.tri, x.best.inst, x.best.u, x.best.v].flatMap (fun w => bytesOf 4 w.toNat) ++ List.replicate 32 0

/-- Depth of a block, its ancestors, newest first, and the VA of its current item. -/
def blockDepth (b : List Byte) : Nat := min 16 (fieldAt b 72 4)

def blockStack (b : List Byte) : List Word32 := ((upTo 0 (blockDepth b)).map fun k => wordAt b (4 * k)).reverse

def blockVa (b : List Byte) : Nat := fieldAt b 64 8

/-- The traversal in a block, where the current item is a CHILD word's of a kind and count. -/
def Trav.ofBlock (b : List Byte) (base kind lcnt : Nat) (prev : Option Word32) : Trav :=
  { stack := blockStack b, cur := BitVec.ofNat 32 (kind * 2 ^ 30 + (blockVa b - base) / 128 % 2 ^ 30), lcnt, prev,
    best := { t := wordAt b 76, tri := wordAt b 80, inst := wordAt b 84, u := wordAt b 88, v := wordAt b 92 } }

/-- The five registers (R260). -/
def travWords (h : Hit) : List Word32 :=
  if h.tri == 0xFFFFFFFF then [0x7F800000, 0xFFFFFFFF, 0, 0, 0xFFFFFFFF] else [h.t, h.tri, h.u, h.v, h.inst]

def travBad : LaneEnd := .done [0x7FC00000, 0xFFFFFFFE, 0, 0, 0xFFFFFFFF] false

def travDone (h : Hit) : LaneEnd := .done (travWords h) false

/-- How a step of a traversal ends. -/
inductive TStep where
  | go (x : Trav) (i : Option Inside)
  | fin (e : LaneEnd)

/-- A well-formed node without a child, which no ray needs a direction for. -/
def childless (b : List Byte) : Bool := !nodeBad b && fieldAt b 15 1 == 0

/-- The traversal goes back to the parent of the current item, or is done. -/
def Trav.pop (x : Trav) (i : Option Inside) : TStep :=
  match x.stack with
  | [] => .fin (travDone x.best)
  | w :: rest =>
    let cur := if childKind w == 2 then w else BitVec.ofNat 32 (childOff w)
    .go { x with stack := rest, cur, lcnt := 0, prev := some x.cur } i

/-- The current item becomes the newest ancestor: none on a full stack. -/
def Trav.push (x : Trav) : Option (List Word32) :=
  if 16 ≤ x.stack.length then none
  else
    let kind := if childKind x.cur == 2 then 2 else if x.instance?.isSome then 1 else 0
    some (BitVec.ofNat 32 (kind * 2 ^ 30 + childOff x.cur) :: x.stack)

/-- Key of a child for the ray, if it is entered (R255). -/
def childKey (o d : Vec3) (tmin : Ext) (best : Ext) (c : Child) : Option (Ext × Nat) :=
  match boxSpan o d c.lo c.hi with
  | some (near, far) => if near.le far && near.le best && tmin.le far then some (near, c.k) else none
  | none => none

/-- The order of keys. -/
def keyLt (a b : Ext × Nat) : Bool := a.1.lt b.1 || (a.1.eq b.1 && a.2 < b.2)

/-- TNEAR of a child, whether it is entered or not. -/
def keyOf (o d : Vec3) (c : Child) : Option (Ext × Nat) := (boxSpan o d c.lo c.hi).map fun x => (x.1, c.k)

/-- The next child to visit: the least key, beyond that of the child come back from. -/
def nextChild (o d : Vec3) (tmin best : Ext) (l : List Child) (prev : Option Word32) : Option Child :=
  let after := prev.bind fun w => (l.find? fun c => c.word == w).bind (keyOf o d)
  let ks := (l.filterMap fun c => (childKey o d tmin best c).map fun k => (k, c)).filter fun x =>
    match prev, after with
    | none, _ => true
    | some _, some k => keyLt k x.1
    | some _, none => false
  (ks.foldl (fun (a : Option ((Ext × Nat) × Child)) x => match a with
    | none => some x
    | some y => if keyLt x.1 y.1 then some x else a) none).map (·.2)

/-- What a step does with what a read gives. -/
def onTrav {α : Type} (va : Nat) (block : List Byte) (r : Eng α) (f : α → Prog TStep) : Prog TStep :=
  match r with
  | .ok x => f x
  | .fault cls addr => .pure (.fin (.park cls addr block))
  | .trap c => .pure (.fin (.trap c va))
  | .poison => .pure (.fin (.trap cMemory va))
  | .wait => .pure (.fin .wait)

/-- A result that rests on a value without an exact one. -/
def travFree : Prog TStep := Prog.bind (freeWords 5) fun l => .pure (.fin (.done l false))

/-- The first visit of a leaf run. -/
def visitRun (tmin tmax : Word32) (od : Vec3 × Vec3) (first : Bool) (x : Trav) (i : Option Inside) (b : List Byte) :
    Prog TStep :=
  match runOf b x.lcnt with
  | .bad => .pure (.fin travBad)
  | .unstated => travFree
  | .ok l =>
    let r := testRun od.1 od.2 tmin tmax (i.elim 0xFFFFFFFF (·.id)) first l x.best
    if r.2 then .pure (.fin (travDone r.1)) else .pure (Trav.pop { x with best := r.1 } i)

/-- The first visit of an instance: into the instanced structure (R257). -/
def visitInst (ws : List Word32) (x : Trav) (b : List Byte) : Prog TStep :=
  match instOf b, x.push with
  | .ok y, some stack =>
    .pure (.go { x with stack, cur := 0, lcnt := 0, prev := none } (some { base := y.base, id := y.id, ws := enterInst y ws }))
  | .unstated, _ => travFree
  | _, _ => .pure (.fin travBad)

/-- A visit of a node, first or again. -/
def visitNode (tmin : Word32) (od : Vec3 × Vec3) (x : Trav) (i : Option Inside) (b : List Byte) : Prog TStep :=
  match nodeOf b with
  | .bad => .pure (.fin travBad)
  | .unstated => travFree
  | .ok l =>
    match nextChild od.1 od.2 ((ext32 tmin).getD .minus) ((ext32 x.best.t).getD .plus) l x.prev with
    | none => .pure (x.pop i)
    | some c =>
      match x.push with
      | none => .pure (.fin travBad)
      | some stack => .pure (.go { x with stack, cur := c.word, lcnt := c.lcnt, prev := none } i)

/-- One step of a traversal. -/
def travStep (c : RndCtx) (ws : List Word32) (first : Bool) (x : Trav) (i : Option Inside) : Prog TStep :=
  let va := x.va c.va i
  let block := x.block c.va i
  let kind := childKind x.cur
  let tmin := nthD ws 6 0
  let tmax := nthD ws 7 0
  if kind == 2 && x.prev.isSome then .pure (x.pop none)
  else if kind == 2 && x.instance?.isSome then .pure (.fin travBad)
  else if kind == 1 then
    Prog.bind (readX c.t va (64 * x.lcnt)) fun r => onTrav va block r fun b =>
      match originDir (i.elim ws (·.ws)) with
      | none => travFree
      | some od => visitRun tmin tmax od first x i b
  else
    Prog.bind (readX c.t va 128) fun r => onTrav va block r fun b =>
      if kind == 2 then visitInst ws x b
      else match originDir (i.elim ws (·.ws)) with
        | some od => visitNode tmin od x i b
        | none => if nodeBad b then .pure (.fin travBad) else if childless b then .pure (x.pop i) else travFree

/-- Steps until the lane ends. -/
def travLoop (fuel : Nat) (c : RndCtx) (ws : List Word32) (first : Bool) (x : Trav) (i : Option Inside) : Prog LaneEnd :=
  match fuel with
  | 0 => .pure .never
  | fuel + 1 => Prog.bind (travStep c ws first x i) fun y =>
    match y with
    | .go z j => travLoop fuel c ws first z j
    | .fin e => .pure e

/-- More than the visits of any traversal: 9 for each of at most 8^16 nodes, in the structure and in an instance. -/
def travFuel : Nat := 0x1000000000000000

/-- The traversal of a ray before its first visit. -/
def Trav.start (ws : List Word32) : Trav :=
  { stack := [], cur := 0, lcnt := 0, prev := none,
    best := { t := nthD ws 7 0, tri := 0xFFFFFFFF, inst := 0xFFFFFFFF, u := 0, v := 0 } }

/-- A ray that misses before any read (R260): a NaN component, or TMIN > TMAX. -/
def rayMisses (ws : List Word32) : Bool := (ws.take 8).any (fun w => (ext32 w).isNone) || codeLt (nthD ws 7 0) (nthD ws 6 0)

/-- A traversal goes on from its spilled block (R261). On a full stack there is no entry above the depth: the item is the first
child of its parent, read again, at that offset; below an instance it is the root of the instanced structure. -/
def resumeTrav (c : RndCtx) (ws : List Word32) (first : Bool) (block : List Byte) (i : Option Inside) : Prog LaneEnd :=
  let d := blockDepth block
  let base := i.elim c.va (·.base)
  let go := fun (kind lcnt : Nat) (prev : Option Word32) =>
    travLoop travFuel c ws first (Trav.ofBlock block (if kind == 2 then c.va else base) kind lcnt prev) i
  let w := wordAt block (4 * d)
  if d < 16 then (if childKind w == 3 then go (bits w 4 2) (bits w 0 4) none else go 0 0 (some w))
  else match blockStack block with
    | [] => go 0 0 none
    | up :: _ =>
      if childKind up == 2 then go 0 0 none
      else
        let va := base + 128 * childOff up
        Prog.bind (readX c.t va 128) fun r => orPark va block r fun b =>
          let at_ := fun (y : Child) => (if childKind y.word == 2 then c.va else base) + 128 * childOff y.word == blockVa block
          let zero : Vec3 := ⟨Quo.zero, Quo.zero, Quo.zero⟩
          match (childrenOf b zero).find? at_ with
          | some y => go (childKind y.word) y.lcnt none
          | none => .pure travBad

/-- One lane of trace and tracec (R423), from the root or from its spilled block: then the instance it was in is read
first, and a fault there spills the block as it is. -/
def traceLane (c : RndCtx) (ws : List Word32) (first : Bool) (block : Option (List Byte)) : Prog LaneEnd :=
  if rayMisses ws then .pure (travDone (Trav.start ws).best)
  else match block with
    | none => travLoop travFuel c ws first (Trav.start ws) none
    | some bs =>
      match ((blockStack bs).find? fun w => childKind w == 2).map childOff with
      | none => resumeTrav c ws first bs none
      | some off =>
        let va := c.va + 128 * off
        Prog.bind (readX c.t va 128) fun r => orPark va bs r fun b =>
          match instOf b with
          | .ok y => resumeTrav c ws first bs (some { base := y.base, id := y.id, ws := enterInst y ws })
          | _ => .pure travBad

end Sys2Proof.Machine
end

