-- ==== Sys2Proof/Machine/Rnd.lean ====
section
/-! DEFINITION. The per-lane render instructions (R418 to R426), how their lanes complete and park (R115 to R117), and the
replay of their records. -/

namespace Sys2Proof.Machine

/-! ### One instruction's operation -/

/-- UNIT of a render instruction (R115). -/
def rndUnit (i : Instr) : Nat :=
  match i with
  | .rndTex .. => 5
  | .rndTexq .. => 5
  | .rndTrace .. => 6
  | .rndTracec .. => 6
  | .rndMshemit .. => 8
  | _ => 7

/-- OP of its record: the minor. -/
def rndMinor (i : Instr) : Nat :=
  match i with
  | .rndTex .. => 0
  | .rndTexq .. => 1
  | .rndTrace .. => 2
  | .rndTracec .. => 3
  | .rndVmarch .. => 4
  | .rndMshemit .. => 5
  | .rndDrawseed .. => 7
  | _ => 6

/-- D of its record. -/
def rndD (i : Instr) : Nat :=
  match i with
  | .rndTex _ _ d _ _ => d.val
  | .rndTexq _ _ d _ _ => d.val
  | .rndTrace _ _ d _ _ => d.val
  | .rndTracec _ _ d _ _ => d.val
  | .rndVmarch _ _ d _ _ => d.val
  | .rndDraw _ d _ => d.val
  | .rndDrawTab _ _ d _ _ => d.val
  | _ => 0

/-- The address of the structure: s_B + V (R418). -/
def rndAddr (g : Group) (im : Option Imm) (b : Fin 32) : Word64 := g.sreg b.val + immValue im

/-- The address an instruction uses, with the alignment it needs; none for draw. -/
def rndSite (g : Group) (i : Instr) : Option (Word64 × Nat) :=
  match i with
  | .rndTex _ im _ _ b => some (rndAddr g im b, 64)
  | .rndTexq _ im _ _ b => some (rndAddr g im b, 64)
  | .rndTrace _ im _ _ b => some (rndAddr g im b, 128)
  | .rndTracec _ im _ _ b => some (rndAddr g im b, 128)
  | .rndVmarch _ im _ _ b => some (rndAddr g im b, 64)
  | .rndDrawTab _ im _ _ b => some (rndAddr g im b, 64)
  | _ => none

/-- What the lanes of an instruction share. -/
def rndCtx (j : Job) (i : Instr) : RndCtx :=
  { t := j.t, va := ((rndSite j.g i).map fun x => x.1.toNat).getD 0, key := j.g.drawkey, ctr := j.g.drawctr }

/-- Words of n registers at a lane. -/
def regWords (g : Group) (lo n l : Nat) : List Word32 := (upTo lo n).map fun r => lane (g.vreg r) l

/-- One lane, from its beginning or from its spilled block. -/
def rndLane (i : Instr) (j : Job) (l : Nat) (block : Option (List Byte)) : Prog LaneEnd :=
  let c := rndCtx j i
  let w := fun (a : Fin 240) (k : Nat) => lane (j.g.vreg (a.val + k)) l
  match i with
  | .rndTex _ _ _ a _ => texLane c (w a 0) (w a 1) (w a 2) (w a 3)
  | .rndTexq _ _ _ a _ => texqLane c (w a 0)
  | .rndTrace _ _ _ a _ => traceLane c (regWords j.g a.val 8 l) false block
  | .rndTracec _ _ _ a _ => traceLane c (regWords j.g a.val 8 l) true block
  | .rndVmarch _ _ _ a _ => marchLane c (regWords j.g a.val 10 l) block
  | .rndDraw _ _ a => drawLane c (w a 0) (w a 1)
  | .rndDrawTab _ _ _ a _ => drawTabLane c (w a 0) (w a 1)
  | _ => .pure .never

/-- All lanes of a job. -/
def rndLanes (i : Instr) (j : Job) (block : Nat → Option (List Byte)) : Prog (List (Nat × LaneEnd)) :=
  collect (lanesOf j.lanes) fun l => Prog.bind (rndLane i j l (block l)) fun r => .pure (l, r)

/-- What some lanes did: an access, the lanes that set NV, those without an end, and the blocks that the parked ones spill. -/
structure Rendered where
  a : Access
  nv : Mask
  never : Mask
  blocks : Tbl (List Byte)
deriving DecidableEq, Repr

/-- How a render operation ends: like an access. -/
inductive RndEnd where
  | trap (c : Cause) (info : Word64)
  | wait
  | did (x : Rendered)
deriving DecidableEq, Repr

/-- Lanes put together: the lowest lane that traps decides. -/
def rndSort (regs : Nat) (l : List (Nat × LaneEnd)) : RndEnd :=
  match l.findSome? (fun x => match x.2 with
    | .trap c a => some (c, a)
    | _ => none) with
  | some (c, a) => .trap c (BitVec.ofNat 64 a)
  | none =>
    if l.any (fun x => x.2 == .wait) then .wait
    else
      let vals := l.filterMap fun x => match x.2 with
        | .done ws _ => some (x.1, ws)
        | _ => none
      let nv := l.filterMap fun x => match x.2 with
        | .done _ true => some x.1
        | _ => none
      let faults := l.filterMap fun x => match x.2 with
        | .park cls addr _ => some ({ lane := x.1, cls, addr } : LaneFault)
        | _ => none
      let blocks := l.filterMap fun x => match x.2 with
        | .park _ _ (b :: bs) => some (x.1, b :: bs)
        | _ => none
      let never := l.filterMap fun x => match x.2 with
        | .never => some x.1
        | _ => none
      .did { a := { rows := rowsFrom regs vals, sval := 0, pval := 0, done := maskOfLanes (vals.map (·.1)),
                    parked := faultMask faults, faults },
             nv := maskOfLanes nv, never := maskOfLanes never, blocks }

/-! ### Issue -/

/-- The record of parked lanes (R114, R115). -/
def rndRecord (i : Instr) (id entry : Nat) (pc : Word64) (x : Rendered) : RrSlotState :=
  let f := firstFault x.a.faults
  { words := [rrWord0 0xFFFF (rndMinor i) Acc.render.bits f.cls rrParked (rndUnit i), x.a.parked,
              BitVec.ofNat 64 (f.addr % 2 ^ 52), pc, BitVec.ofNat 64 (rndD i), 0, 0, 0],
    pend := id, entry, pages := faultPages x.a.faults, region := true, stamp := id, cmd := 0, why := 0,
    spill := x.blocks }

/-- Each lane's result arrives by itself (R420). -/
def dueLanes (k id : Nat) (m : Mask) : Prog Unit := each (lanesOf m) fun l => due (.renderComplete k id l)

/-- An operation performed at issue is delivered (R420): the chain shifts, the results are on their way, the parked lanes'
record is written when the unit parks them, or at once inside a run. -/
def deliverRnd (i : Instr) (c : Ctx) (x : Rendered) : Prog Unit :=
  letI := Prog.monad
  do
    let g ← look fun s => (Tbl.find? s.groups c.k).getD c.g
    let u := regUse i
    if c.act == 0 then retireV c (g.shiftLatch 0 zeroRow 0)
    else do
      let id ← newId
      let pd : Pend :=
        { pc := c.f.pc, entry := c.n, lanes := x.a.done ||| x.never, parked := x.a.parked,
          regs := pendRegs u.vw c.act x.a.rows, sdst := none, sval := 0, pdst := none, pval := 0, counted := true,
          acquire := none, srcV := u.vr, srcS := u.sr, render := true, region := true, noResult := false, nv := x.nv,
          drawkey := c.g.drawkey, drawctr := c.g.drawctr }
      let g1 := u.vw.foldl (fun g r => g.overtake r c.act) g
      let g2 : Group := { g1 with pend := Tbl.put g1.pend id pd, outstanding := g1.outstanding + 1 }
      let g3 := (g2.shiftLatch x.a.done (nthD x.a.rows 0 zeroRow) id).retired c true
      let inRun := x.a.parked != 0 && c.e.run.isSome
      let slot := (freeBelow 8 (Tbl.keys g3.rr)).getD 8
      let r := rndRecord i id c.n c.f.pc x
      emit (.group c.k (if inRun then g3.setEntry c.n (c.e.parkRun slot c.f) else g3))
      dueLanes c.k id x.a.done
      if x.a.parked == 0 then pure ()
      else if inRun then do
        writeRecord c.k r
        cutRuns c.k
      else do
        modGroup c.k fun g => { g with overflow := g.overflow ++ [r] }
        due (.renderFaultPark c.k id)

/-- The checks of the address (R420), then the operation. -/
def issueRnd (i : Instr) (s : State) : Out :=
  (issueOnce i never fun c =>
    let bad : Option (Cause × Word64) := match rndSite c.g i with
      | some (a, n) => if a.toNat % n != 0 then some (cAlign, a) else if 2 ^ 48 ≤ a.toNat then some (cPermission, a) else none
      | none => none
    match bad with
    | some (cause, a) => raise c cause a
    | none =>
      let j := c.job c.act
      letI := Prog.monad
      do
        let l ← rndLanes i j fun _ => none
        match rndSort (regUse i).vw.length l with
        | .trap cause a => raise c cause a
        | .wait => pure ()
        | .did x => do
          let room ← look fun s => slotFree s j x.a.faults
          if j.needSlot && x.a.parked != 0 && !room then pure () else deliverRnd i c x).outcome s

/-- RND_TEX (R421). -/
def execRndTex (m : Option Mod) (im : Option Imm) (d a : Fin 240) (b : Fin 32) (s : State) : Out :=
  issueRnd (.rndTex m im d a b) s

/-- RND_TEXQ (R422). -/
def execRndTexq (m : Option Mod) (im : Option Imm) (d a : Fin 240) (b : Fin 32) (s : State) : Out :=
  issueRnd (.rndTexq m im d a b) s

/-- RND_TRACE (R423). -/
def execRndTrace (m : Option Mod) (im : Option Imm) (d a : Fin 240) (b : Fin 32) (s : State) : Out :=
  issueRnd (.rndTrace m im d a b) s

/-- RND_TRACEC (R423). -/
def execRndTracec (m : Option Mod) (im : Option Imm) (d a : Fin 240) (b : Fin 32) (s : State) : Out :=
  issueRnd (.rndTracec m im d a b) s

/-- RND_VMARCH (R424). -/
def execRndVmarch (m : Option Mod) (im : Option Imm) (d a : Fin 240) (b : Fin 32) (s : State) : Out :=
  issueRnd (.rndVmarch m im d a b) s

/-- RND_DRAW (R425). -/
def execRndDraw (m : Option Mod) (d a : Fin 240) (s : State) : Out := issueRnd (.rndDraw m d a) s

/-- RND_DRAW_TAB (R425). -/
def execRndDrawTab (m : Option Mod) (im : Option Imm) (d a : Fin 240) (b : Fin 32) (s : State) : Out :=
  issueRnd (.rndDrawTab m im d a b) s

/-- RND_DRAWSEED (R268, R426): it completes at issue, and the chain shifts with W. -/
def execRndDrawseed (m : Option Mod) (im : Option Imm) (d : Fin 240) (b : Fin 32) (s : State) : Out :=
  (issueOnce (.rndDrawseed m im d b) never fun c =>
    let seed := (rndAddr c.g im b).toNat
    let g1 := (c.g.writeV d.val c.act zeroRow).writeV (d.val + 1) c.act (rowOf fun l => BitVec.ofNat 32 (seed + l))
    retireV c (g1.shiftLatch c.act zeroRow 0)).outcome s

/-! ### Completion and parking -/

/-- A lane's results are written (R420); the operation is over once no lane is on its way and none is parked. -/
def landLane (g : Group) (id : Nat) (p : Pend) (l : Nat) : Group :=
  let m := laneBit l
  let g1 := g.land { p with lanes := m }
  let g2 := if hasLane p.nv l then g1.raise fNV else g1
  let p1 : Pend := { p with lanes := p.lanes &&& ~~~m, regs := p.regs.map fun x => { x with lanes := x.lanes &&& ~~~m } }
  if p1.lanes == 0 && p1.parked == 0 then
    let latch := g2.latch.map fun x => if x.2 == id then (x.1, 0) else x
    let g3 : Group := { g2 with pend := Tbl.del g2.pend id, latch }
    if p.counted then g3.uncount else g3
  else { g2 with pend := Tbl.put g2.pend id p1 }

/-- RENDER_COMPLETE (R420): one lane of an operation completes. -/
def execRenderComplete (k id l : Nat) (s : State) : Out :=
  (modGroup k fun g =>
    match Tbl.find? g.pend id with
    | some p => if p.render && hasLane p.lanes l then landLane g id p l else g
    | none => g).outcome s

/-- RENDER_FAULT_PARK (R113, R116): the unit parks the faulted lanes of an operation. -/
def execRenderFaultPark (k id : Nat) (s : State) : Out :=
  (letI := Prog.monad
   do
    match ← look fun s => (Tbl.find? s.groups k).bind fun g => g.overflow.find? fun (r : RrSlotState) => r.pend == id && r.unit != 0 with
    | some r => do
      modGroup k fun g => { g with overflow := g.overflow.erase r }
      writeRecord k r
    | none => pure ()).outcome s

/-! ### Replay -/

/-- The block of a lane of a slot. -/
def slotBlock (t : Team) (g : Group) (slot l : Nat) : List Byte := privBytes t.priv g l (unitSave t slot) 128

/-- The operation in flight with what a replay gave. -/
def Pend.rendered (p : Pend) (vw : List Nat) (mask : Mask) (x : Rendered) : Pend :=
  let reg := fun (n r : Nat) =>
    let row := nthD x.a.rows n zeroRow
    match p.regs.find? fun y => y.reg == r with
    | some y => { y with row := blend x.a.done row y.row }
    | none => { reg := r, lanes := mask, row }
  { p with lanes := p.lanes ||| x.a.done ||| x.never, parked := x.a.parked, nv := p.nv ||| x.nv, regs := vw.mapIdx reg }

/-- The job of a replay, with DRAWKEY and DRAWCTR as the operation read them at issue (R267). -/
def issuedJob (j : Job) (r : RrSlotState) : Job :=
  match Tbl.find? j.g.pend r.pend with
  | some p => { j with g := { j.g with drawkey := p.drawkey, drawctr := p.drawctr } }
  | none => j

/-- Replays a render record (R117): the masked lanes go on from their blocks. -/
def replayRnd (k slot : Nat) (r : RrSlotState) (j0 : Job) (i : Instr) : Prog Unit :=
  letI := Prog.monad
  do
    let j := issuedJob j0 r
    let vw := (regUse i).vw
    let spilled := r.unit == 6 || r.unit == 7
    let l ← rndLanes i j fun l => if spilled then some (slotBlock j.t j.g slot l) else none
    match rndSort vw.length l with
    | .trap cause _ => modGroup k fun g => { g with rr := Tbl.put g.rr slot { r.withStat rrUnresolved with why := cause } }
    | .wait => do
      modGroup k fun g => { g with rr := Tbl.put g.rr slot (r.withStat rrReady) }
      due (.recordReplay (keyCore k))
    | .did x => do
      modGroup k fun g => match Tbl.find? g.pend r.pend with
        | some p => { g with pend := Tbl.put g.pend r.pend (p.rendered vw r.mask x) }
        | none => g
      dueLanes k r.pend x.a.done
      if x.a.parked == 0 then freeSlot k slot
      else do
        spillBlocks j.g slot x.blocks
        repark k slot r x.a

end Sys2Proof.Machine
end

