-- ==== Sys2Proof/Machine/Raster.lean ====
section
/-! DEFINITION. The raster setup unit (R275 to R280, R427, R428): reading of meshlets, coverage, delivery of quads, the depth
store and pixel groups. What the spec leaves open is in notes/assumptions/34.md. -/

namespace Sys2Proof.Machine

/-! ### Raster state (R275) -/

/-- The raster state of 64 bytes, with the kernel object's 512 bits; the kernel is none where either breaks R275. -/
def rasterOf (t : Team) (va : Word64) (b : List Byte) (kobj : Nat) : Raster :=
  let f := fun (o n : Nat) => fieldAt b o n
  let zc := f 28 1
  let ok := f 0 8 < 2 ^ 48 && f 0 8 % 64 == 0 && f 8 8 < 2 ^ 48 && 1 ≤ f 24 2 && f 24 2 ≤ 16384 && 1 ≤ f 26 2 && f 26 2 ≤ 16384 &&
    zc % 4 != 3 && zc / 16 == 0 && f 29 3 == 0 && !dirtyFrom b 36 64
  let k := (kernelOf kobj).bind fun k => if k.width == 32 && k.groups == 1 then some k else none
  { queue := t.queue, packet := t.packet, part := t.part, ctxidx := t.ctxidx, asid := t.asid, prio := t.prio, va,
    pkobj := BitVec.ofNat 64 (f 0 8), kernel := if ok then k else none, mapva := BitVec.ofNat 64 (f 8 8),
    args := BitVec.ofNat 64 (f 16 8), sw := f 24 2, sh := f 26 2, zctl := BitVec.ofNat 4 zc, zclear := wordAt b 32 }

/-! ### Coverage (R277) -/

/-- A vertex: X and Y in 16.8, Z. -/
structure Vertex where
  x : Int
  y : Int
  z : Word32
deriving DecidableEq, Repr

/-- A signed 32-bit field. -/
def signedWord (n : Nat) : Int := if n < 2 ^ 31 then (n : Int) else (n : Int) - 2 ^ 32

def vertexAt (b : List Byte) (k : Nat) : Vertex :=
  { x := signedWord (fieldAt b (12 * k) 4), y := signedWord (fieldAt b (12 * k + 4) 4), z := wordAt b (12 * k + 8) }

/-- X or Y outside its range (R276). -/
def Vertex.bad (v : Vertex) : Bool := v.x < -8388608 || 8388607 < v.x || v.y < -8388608 || 8388607 < v.y

/-- E_ab at a point. -/
def edgeAt (a b : Vertex) (px py : Int) : Int := (b.x - a.x) * (py - a.y) - (b.y - a.y) * (px - a.x)

/-- Whether an edge admits a point. -/
def edgeTakes (a b : Vertex) (px py : Int) : Bool :=
  let e := edgeAt a b px py
  let dy := b.y - a.y
  0 < e || (e == 0 && (0 < dy || (dy == 0 && b.x - a.x < 0)))

/-- Twice the area. -/
def area2 (a b c : Vertex) : Int := (b.x - a.x) * (c.y - a.y) - (c.x - a.x) * (b.y - a.y)

/-- Centre of a pixel. -/
def centre (p : Nat) : Int := 256 * (p : Int) + 128

/-- Whether a pixel of the screen is covered. -/
def covers (r : Raster) (a b c : Vertex) (px py : Nat) : Bool :=
  let x := centre px
  let y := centre py
  px < r.sw && py < r.sh && edgeTakes a b x y && edgeTakes b c x y && edgeTakes c a x y

/-- bu, bv and z of a pixel; z none where an input is not finite. -/
def weights (a b c : Vertex) (px py : Nat) : Word32 × Word32 × Option Word32 :=
  let x := centre px
  let y := centre py
  let s := Quo.int (area2 a b c)
  let u := (Quo.int (edgeAt c a x y)).div s
  let v := (Quo.int (edgeAt a b x y)).div s
  let z := match quo32 a.z, quo32 b.z, quo32 c.z with
    | some z0, some z1, some z2 => some ((z0.add (u.mul (z1.sub z0))).add (v.mul (z2.sub z0))).rn
    | _, _, _ => none
  (u.rn, v.rn, z)

/-- First and last pixel that an extent can cover, on an axis of n pixels. -/
def pixelSpan (lo hi : Int) (n : Nat) : List Nat :=
  let first := (lo / 256).toNat
  let last := min (hi / 256).toNat (n - 1)
  if hi < 0 then [] else upTo first (last + 1 - first)

/-- The quads of a triangle, row-major, each with its covered pixels (R278). -/
def triangleQuads (r : Raster) (a b c : Vertex) : List (Nat × Nat × BitVec 4) :=
  let xs := (pixelSpan (min a.x (min b.x c.x)) (max a.x (max b.x c.x)) r.sw).map (· / 2)
  let ys := (pixelSpan (min a.y (min b.y c.y)) (max a.y (max b.y c.y)) r.sh).map (· / 2)
  ys.eraseDups.flatMap fun y => xs.eraseDups.filterMap fun x =>
    let m := (upTo 0 4).foldl (fun n k => if covers r a b c (2 * x + k % 2) (2 * y + k / 2) then n + 2 ^ k else n) 0
    if m == 0 then none else some (2 * x, 2 * y, BitVec.ofNat 4 m)

/-- The triangle as it is rasterised: none where it is discarded, back faces turned over. -/
def facing (r : Raster) (a b c : Vertex) : Option (Vertex × Vertex × Vertex) :=
  let s := area2 a b c
  if s == 0 then none
  else if s < 0 then (if r.zctl.getLsbD 2 then none else some (a, c, b))
  else if r.zctl.getLsbD 3 then none
  else some (a, b, c)

/-! ### Reading (R276, R278, R427) -/

/-- How the reading of a job goes on. -/
inductive Reading where
  | done (j : RsuJob) (nv : Bool)
  | fault (j : RsuJob) (nv : Bool) (cls addr : Nat)
  | trap (c : Cause)
  | wait (j : RsuJob)

/-- The map entry of a tile. -/
def mapVa (r : Raster) (x y : Nat) : Nat := r.mapva.toNat + 2 * (y / 32 * ((r.sw + 31) / 32) + x / 32)

/-- The owner of a quad: discarded, malformed, or core and slot. -/
inductive Owner where
  | discard
  | bad
  | at (core slot : Nat)
deriving DecidableEq, Repr

def ownerOf (d : Dev) (r : Raster) (die e : Nat) : Owner :=
  if e == 0xFFFF then .discard
  else if 71 < e / 256 || 15 < e % 256 || !(partAt d r.part).coreset.getLsbD (72 * die + e / 256) then .bad
  else .at (72 * die + e / 256) (e % 256)

/-- The words of a quad; a value that the spec does not state is free (DESIGN CHOICE, log 4). -/
def quadWords (a b c : Vertex) (x y : Nat) (cover : BitVec 4) : Prog (List Word32) :=
  Prog.bind (collect (upTo 0 4) fun k =>
    if !cover.getLsbD k then .pure [0, 0, 0]
    else
      let (u, v, z) := weights a b c (2 * (x / 2) + k % 2) (2 * (y / 2) + k / 2)
      match z with
      | some z => .pure [u, v, z]
      | none => Prog.bind (freeWords 1) fun l => .pure (u :: v :: l)) fun l => .pure l.flatten

/-- The quads of one triangle, each with its owner; the first read that does not complete stops. -/
def ownQuads (t : Team) (r : Raster) (mesh : Word32) (tri : Nat) (a b c : Vertex) (l : List (Nat × Nat × BitVec 4)) :
    Prog (Eng (List Quad × Bool)) :=
  letI := Prog.monad
  match l with
  | [] => pure (.ok ([], false))
  | (x, y, cover) :: rest => do
    match ← readX t (mapVa r x y) 2 with
    | .ok bs => do
      let o ← look fun s => ownerOf s.dev r (dieOf t.core) (ofBytes bs)
      let here ← match o with
        | .at core slot => do
          let words ← quadWords a b c x y cover
          pure [({ raster := r, mesh, tri, cover, x, y, core, slot, words } : Quad)]
        | _ => pure []
      let more ← ownQuads t r mesh tri a b c rest
      pure (more.map fun m => (here ++ m.1, m.2 || o == .bad))
    | .fault cls z => pure (.fault cls z)
    | .trap z => pure (.trap z)
    | .poison => pure .poison
    | .wait => pure .wait

/-- The quads of one meshlet record, and whether FLAGS.NV is set. -/
def meshletQuads (t : Team) (r : Raster) (va : Nat) : Prog (Eng (List Quad × Bool)) :=
  letI := Prog.monad
  do
    match ← readX t va 32 with
    | .ok b =>
      let nv := fieldAt b 16 1 + 1
      let nt := fieldAt b 17 1 + 1
      if 64 < nv || 126 < nt || fieldAt b 18 2 != 0 || dirtyFrom b 24 32 || 2 ^ 48 ≤ fieldAt b 0 8 || 2 ^ 48 ≤ fieldAt b 8 8 then
        pure (.ok ([], true))
      else do
        match ← engAll [(fieldAt b 0 8, 12 * nv), (fieldAt b 8 8, 3 * nt)] fun p => readX t p.1 p.2 with
        | .ok [vb, ib] =>
          let vs := (upTo 0 nv).map (vertexAt vb)
          let ix := (upTo 0 (3 * nt)).map fun k => fieldAt ib k 1
          if vs.any Vertex.bad || ix.any (nv ≤ ·) then pure (.ok ([], true))
          else do
            let z : Vertex := { x := 0, y := 0, z := 0 }
            let parts ← engAll (upTo 0 nt) fun k =>
              match facing r (nthD vs (nthD ix (3 * k) 0) z) (nthD vs (nthD ix (3 * k + 1) 0) z)
                  (nthD vs (nthD ix (3 * k + 2) 0) z) with
              | some (p, q, w) => ownQuads t r (wordAt b 20) k p q w (triangleQuads r p q w)
              | none => pure (.ok ([], false))
            pure (parts.map fun l => (l.flatMap (·.1), l.any (·.2)))
        | .ok _ => pure (.ok ([], true))
        | .fault cls x => pure (.fault cls x)
        | .trap c => pure (.trap c)
        | .poison => pure .poison
        | .wait => pure .wait
    | .fault cls x => pure (.fault cls x)
    | .trap c => pure (.trap c)
    | .poison => pure .poison
    | .wait => pure .wait

/-- Reads the records that are left. -/
def readMeshlets (t : Team) (r : Raster) (j : RsuJob) (nv : Bool) (left : Nat) : Prog Reading :=
  letI := Prog.monad
  match left with
  | 0 => pure (.done { j with read := true } nv)
  | left + 1 => do
    match ← meshletQuads t r (j.meshlets.toNat + 32 * j.next) with
    | .ok (l, bad) => readMeshlets t r { j with next := j.next + 1, quads := j.quads ++ l } (nv || bad) left
    | .fault cls x => pure (.fault j nv cls x)
    | .trap c => pure (.trap c)
    | .poison => pure (.trap cMemory)
    | .wait => pure (.wait j)

/-- Reads the raster state and the pixel kernel's object. -/
def readRaster (t : Team) (va : Word64) : Prog (Eng Raster) :=
  letI := Prog.monad
  do
    match ← readX t va.toNat 64 with
    | .ok b =>
      let k := fieldAt b 0 8
      if 2 ^ 48 ≤ k || k % 64 != 0 then pure (.ok (rasterOf t va b 0))
      else do
        let r ← readX t k 64
        pure (r.map fun w => rasterOf t va b (ofBytes w))
    | .fault cls x => pure (.fault cls x)
    | .trap c => pure (.trap c)
    | .poison => pure .poison
    | .wait => pure .wait

/-- Reads everything a job still needs. A raster state that breaks R275 discards every record (R276). -/
def readJob (t : Team) (j : RsuJob) : Prog Reading :=
  letI := Prog.monad
  do
    match (← (match j.raster with
      | some r => pure (.ok r)
      | none => readRaster t j.state) : Eng Raster) with
    | .ok r =>
      let j1 := { j with raster := some r }
      if r.kernel.isNone then pure (.done { j1 with read := true } true) else readMeshlets t r j1 false (j.count - j.next)
    | .fault cls x => pure (.fault j false cls x)
    | .trap c => pure (.trap c)
    | .poison => pure (.trap cMemory)
    | .wait => pure (.wait j)

/-! ### RND_MSHEMIT (R427, R428) -/

/-- The entry that waits for an mshemit. -/
def waitsEmit (e : Entry) : Bool :=
  match e.wait with
  | .mshemit _ => true
  | _ => false

/-- An mshemit completes: a commit point (R428); a held PREEMPT is taken. -/
def finishEmit (k : Nat) : Prog Unit :=
  letI := Prog.monad
  do
    modCore (keyCore k) fun c => { c with rsu := c.rsu.filter fun (j : RsuJob) => j.group != k }
    modGroup k fun g =>
      let g0 : Group := { g with mshemit := 0, emitSrc := [] }
      match g0.findWait waitsEmit with
      | some (sus, n, e) =>
        match e.wait with
        | .mshemit next => (g0.setWait sus n (e.after next e.pc)).commit next sus
        | _ => g0
      | none => g0
    servePreempt k

/-- Cores that some quads go to. -/
def quadCores (l : List Quad) : List Nat := (l.map (·.core)).eraseDups

/-- Reading is over: quads are delivered, or there is none and the mshemit completes. -/
def startEmit (k : Nat) (j : RsuJob) (nv : Bool) : Prog Unit :=
  letI := Prog.monad
  do
    modGroup k fun g => g.raise (flagIf nv fNV)
    if j.quads.isEmpty then finishEmit k
    else do
      modCore (keyCore k) fun c => { c with rsu := (c.rsu.filter fun (x : RsuJob) => x.group != k) ++ [j] }
      each (quadCores j.quads) fun c => due (.quadDelivery c)

/-- Record of a read fault (R115, R427). -/
def emitRecord (j : RsuJob) (pc : Word64) (mask : Mask) (stamp cls addr : Nat) : RrSlotState :=
  { words := [rrWord0 0xFFFF 5 Acc.render.bits cls rrParked 8, mask, BitVec.ofNat 64 (addr % 2 ^ 52), pc,
              BitVec.ofNat 64 j.next, 0, 0, 0],
    pend := 0, entry := j.entry, pages := [(addr / 4096, cls)], region := true, stamp, cmd := 0, why := 0 }

/-- RND_MSHEMIT (R427): count and addresses, then the reading; the split waits until it completes. -/
def execRndMshemit (m : Option Mod) (im : Option Imm) (d a : Fin 64) (b : Fin 32) (s : State) : Out :=
  (issueOnce (.rndMshemit m im d a b) never fun c => guarded c <|
    letI := Prog.monad
    do
      let n := (c.g.sreg a.val).toNat
      let state := c.g.sreg b.val + immValue im
      let meshlets := c.g.sreg d.val
      if n == 0 then retireCommit c c.g
      else if 256 < n then retireCommit c (c.g.raise fNV)
      else if meshlets.toNat % 32 != 0 then raise c cAlign meshlets
      else if state.toNat % 64 != 0 then raise c cAlign state
      else do
        let j : RsuJob := { group := c.k, entry := c.n, state, meshlets, count := n, next := 0, raster := none, quads := [],
                            read := false }
        let hold := fun (g : Group) => match Tbl.find? g.entries c.n with
          | some e => { g.setEntry c.n { e with wait := .mshemit c.f.next } with
            mshemit := 1, emitSrc := (regUse (.rndMshemit m im d a b)).sr }
          | none => g
        match ← readJob c.t j with
        | .trap cause => raise c cause
        | .wait _ => pure ()
        | .done j nv => do
          modGroup c.k hold
          startEmit c.k j nv
        | .fault j nv cls addr => do
          modGroup c.k fun g => (hold g).raise (flagIf nv fNV)
          modCore (keyCore c.k) fun x => { x with rsu := x.rsu ++ [j] }
          let stamp ← newId
          let mask := ((lowLane c.act).map laneBit).getD 1
          writeRecord c.k (emitRecord j c.f.pc mask stamp cls addr)).outcome s

/-- A record of UNIT 0x8 replays: the reads go on from MESHLET (R117). -/
def replayEmit (k slot : Nat) (r : RrSlotState) : Prog Unit :=
  letI := Prog.monad
  do
    let s ← look fun s => s
    let j? := (coreAt s (keyCore k)).rsu.find? fun j => j.group == k && !j.read
    match j?, (Tbl.find? s.groups k).bind fun g => Tbl.find? s.teams g.team with
    | some j, some t => do
      let keep := fun (j : RsuJob) => modCore (keyCore k) fun c =>
        { c with rsu := c.rsu.map fun x => if x.group == k then j else x }
      match ← readJob t { j with next := (nthD r.words 4 0).toNat } with
      | .trap cause => modGroup k fun g => { g with rr := Tbl.put g.rr slot { r.withStat rrUnresolved with why := cause } }
      | .wait j => do
        keep j
        let words := setNth r.words 4 (BitVec.ofNat 64 j.next)
        modGroup k fun g => { g with rr := Tbl.put g.rr slot (RrSlotState.withStat { r with words } rrReady) }
        due (.recordReplay (keyCore k))
      | .done j nv => do
        startEmit k j nv
        freeSlot k slot
      | .fault j nv cls addr => do
        keep j
        modGroup k fun g => g.raise (flagIf nv fNV)
        let r1 : RrSlotState := { emitRecord j (nthD r.words 3 0) r.mask r.stamp cls addr with region := r.region }
        let room ← look fun s => filterRoom s (keyCore k) [pageKey t (addr / 4096, cls)]
        if room then do
          modGroup k fun g => { g with rr := Tbl.put g.rr slot r1 }
          fileFault (keyCore k) (pageKey t (addr / 4096, cls)) cls Acc.render.bits (k, slot)
        else do
          modGroup k fun g => { g with rr := Tbl.put g.rr slot (r1.withStat rrReady) }
          due (.recordReplay (keyCore k))
    | _, _ => freeSlot k slot

/-! ### Delivery and depth (R278, R279) -/

/-- Whether the packet of a raster state has retired. -/
def rasterOver (d : Dev) (r : Raster) : Bool := (packetAt d r.queue r.packet).isNone

/-- Whether a core can hold the depth store of a raster state. -/
def depthRoom (s : State) (core : Nat) (r : Raster) : Bool :=
  let quota := ((packetAt s.dev r.queue r.packet).map (·.quota)).getD 0
  (useOf (teamsOn s core [])).tile + depthKib ≤ 384 &&
    (launchUse s r.queue r.packet core []).tile + depthKib ≤ bits quota 32 16

/-- Whether a raster state holds a core's depth store, or may take it now. -/
def mayHold (s : State) (core : Nat) (r : Raster) : Bool :=
  match (coreAt s core).depthFor with
  | some h => h == r ||
      (rasterOver s.dev h && !((coreAt s core).pixel.any fun (q : Quad) => q.raster == h) && depthRoom s core r)
  | none => depthRoom s core r

/-- x < y, or x ≤ y, as FP32; false with a NaN. -/
def depthPasses (zctl : BitVec 4) (z old : Word32) : Bool :=
  match ext32 z, ext32 old with
  | some a, some b => if bits zctl 0 2 == 1 then a.lt b else a.le b
  | _, _ => false

/-- Word of a pixel in its slot. -/
def depthWord (q : Quad) (k : Nat) : Nat := 1024 * q.slot + 32 * ((q.y + k / 2) % 32) + (q.x + k % 2) % 32

/-- Tests a quad pixel by pixel against the store: the store, and the pixels that pass. -/
def testQuad (q : Quad) (store : Tbl (BitVec 32)) : Tbl (BitVec 32) × BitVec 4 :=
  if bits q.raster.zctl 0 2 == 0 then (store, q.cover)
  else (upTo 0 4).foldl (fun (a : Tbl (BitVec 32) × BitVec 4) k =>
    if !q.cover.getLsbD k then a
    else
      let z := nthD q.words (3 * k + 2) 0
      if depthPasses q.raster.zctl z (Tbl.getD a.1 (depthWord q k) q.raster.zclear) then
        (Tbl.setD a.1 (depthWord q k) q.raster.zclear z, setBit a.2 k)
      else a) (store, 0)

/-- The jobs of a die that may deliver a quad to a core: core of the RSU, job, quad. -/
def deliverable (s : State) (core : Nat) : List (Nat × RsuJob × Quad) :=
  s.cores.flatMap fun x => if dieOf x.1 != dieOf core then [] else x.2.rsu.filterMap fun j =>
    if !j.read then none
    else (j.quads.find? fun q => q.core == core).bind fun q =>
      if mayHold s core q.raster then some (x.1, j, q) else none

/-- QUAD_DELIVERY (R278 to R280): one quad reaches its core, is tested, and waits for a pixel group; its mshemit completes
with its last quad. -/
def execQuadDelivery (core : Nat) (s : State) : Out :=
  (letI := Prog.monad
   do
    let l ← look fun s => deliverable s core
    let full : Bool ← look fun s => 256 ≤ (coreAt s core).pixel.length
    let i ← fresh
    match l.drop (Config.freeChoice i % (l.length + 1)) ++ l with
    | [] => pure ()
    | (home, j, q) :: _ =>
      if full then pure ()
      else do
        modGroup j.group fun g => { g with mshemit := 2 }
        modCore core fun c =>
          let store := if c.depthFor == some q.raster then c.depth else []
          let (store1, cover) := testQuad q store
          let pixel := if cover == 0 then c.pixel else c.pixel ++ [{ q with cover }]
          { c with depthFor := some q.raster, depth := store1, pixel }
        let left := j.quads.erase q
        let rest := fun (x : RsuJob) => if x.group == j.group then { x with quads := left } else x
        modCore home fun c => { c with rsu := c.rsu.map rest }
        (if left.isEmpty then finishEmit j.group else pure ())
        due (.quadDelivery core)
        due (.pixelGroupStart core)).outcome s

/-! ### Pixel groups (R280) -/

/-- Leading quads of one raster state, at most 8. -/
def leadingQuads (l : List Quad) : List Quad :=
  match l with
  | [] => []
  | q :: _ => (l.takeWhile fun x => x.raster == q.raster).take 8

/-- Whether quads of a raster state are still on their way to a core. -/
def moreComing (s : State) (core : Nat) (r : Raster) : Bool :=
  s.cores.any fun x => x.2.rsu.any fun j => j.quads.any fun q => q.core == core && q.raster == r

/-- Lanes of a pixel group that are active. -/
def pixelLanes (l : List Quad) : Mask :=
  maskOf fun n => (nthD (l.map (·.cover)) (n / 4) 0).getLsbD (n % 4)

/-- Its v0 to v5 (R280). -/
def pixelRows (l : List Quad) : List Row :=
  let at_ := fun (n : Nat) => l[n / 4]?
  let row := fun (f : Quad → Nat → Word32) => rowOf fun n =>
    match at_ n with
    | some q => if q.cover.getLsbD (n % 4) then f q (n % 4) else 0
    | none => 0
  [ row fun q k => BitVec.ofNat 32 ((q.x + k % 2) + (q.y + k / 2) * 65536), row fun q _ => q.mesh,
    row fun q _ => BitVec.ofNat 32 q.tri, row fun q k => nthD q.words (3 * k) 0, row fun q k => nthD q.words (3 * k + 1) 0,
    row fun q k => nthD q.words (3 * k + 2) 0 ]

/-- PIXEL_GROUP_START (R280): up to 8 leading quads become a one-group team on their core. -/
def execPixelGroupStart (core : Nat) (s : State) : Out :=
  (letI := Prog.monad
   do
    let s ← look fun s => s
    let l := leadingQuads (coreAt s core).pixel
    match l with
    | [] => pure ()
    | q :: _ =>
      let r := q.raster
      if l.length < 8 && moreComing s core r then pure ()
      else match r.kernel, packetAt s.dev r.queue r.packet with
        | some k, some p =>
          if p.phase != 1 then do
            modCore core fun c => { c with pixel := c.pixel.drop l.length }
            launchCheck r.queue r.packet
          else
          let o : Order := { queue := r.queue, packet := r.packet, part := r.part, kernel := k, quota := p.quota, prio := r.prio }
          match (fitsOn s o core 1 1 []).bind List.head? with
          | none => pure ()
          | some f => do
            let t := Team.fresh o p r.ctxidx 0 0 (hubClock s)
            let team ← launchTeam { t with args := r.args, asid := r.asid, clw := 0, clh := 0 } core 0 f (clusterWord 0 0)
            let ks ← look fun s => (Tbl.find? s.teams team).elim [] (·.groups)
            let lanes := pixelLanes l
            each ks fun g => modGroup g fun g =>
              let g1 := ((upTo 0 6).zip (pixelRows l)).foldl (fun (g : Group) (x : Nat × Row) => g.setV x.1 lanes x.2) g
              let es := Tbl.mapVals g1.entries fun _ e => { e with mask := lanes }
              { g1 with live := lanes, entries := es, snap := { g1.snap with live := lanes, entries := es } }
            modCore core fun c => { c with pixel := c.pixel.drop l.length }
            modPacket r.queue r.packet fun p => { p with running := p.running + 1 }
            due (.pixelGroupStart core)
            each (quadCores [q]) fun c => due (.quadDelivery c)
        | _, _ => modCore core fun c => { c with pixel := c.pixel.drop l.length }).outcome s

end Sys2Proof.Machine
end

