-- ==== Sys2Proof/Machine/Replay.lean ====
section
/-! DEFINITION. Replay records as instructions see them (R429 to R433), and the replay engine of a core (R117, R131). -/

namespace Sys2Proof.Machine

/-! ### Fields of a record -/

/-- Words 0 to 7 of a FREE slot (R430). -/
def freeRecord : List Word64 := [BitVec.ofNat 64 (0xFFFF * 2 ^ 32), 0, 0, 0, 0, 0, 0, 0]

/-- Progress word n of a record. -/
def progress (ws : List Word64) (n : Nat) : Word64 := nthD ws (3 + n) 0

/-- Whether the progress words hold a reserved bit, by unit (R115). -/
def progressBad (unit : Nat) (ws : List Word64) : Bool :=
  let p := progress ws
  let clear := fun (l : List Nat) => l.any fun n => p n != 0
  match unit with
  | 0 => bits (p 3) 8 56 != 0 || p 4 != 0
  | 1 => clear [1, 2, 3, 4]
  | 2 => bits (p 4) 40 24 != 0
  | 3 => bits (p 0) 1 7 != 0 || bits (p 0) 11 5 != 0 || bits (p 0) 19 13 != 0 || bits (p 0) 49 15 != 0 ||
      bits (p 2) 3 61 != 0 || clear [3, 4]
  | 4 => bits (p 4) 40 24 != 0
  | 8 => clear [2, 3, 4]
  | _ => bits (p 1) 8 56 != 0 || clear [2, 3, 4]

/-- Whether `rr.write` refuses the words (R431). -/
def recordBad (ws : List Word64) : Bool :=
  let w := nthD ws 0 0
  4 < bits w 8 3 || 8 < bits w 0 4 || 5 < bits w 12 3 ||
  bits w 48 16 != 0 || bits w 21 3 != 0 || bits w 15 1 != 0 || bits w 11 1 != 0 || bits w 4 4 != 0 ||
  bits (nthD ws 2 0) 52 12 != 0 || progressBad (bits w 0 4) ws

/-! ### The slot of an instruction -/

/-- The slot that `rr` names (R429). -/
def slotOf (g : Group) (n : RrSlot) : Nat :=
  match n with
  | .num n => n.val
  | .sreg a => bits (g.sreg a.val) 0 3

/-- RR_READ (R430): a record that is REPLAYING is read after its replay. -/
def execRrRead (m : Option Mod) (d : Fin 8) (n : RrSlot) (s : State) : Out :=
  (issue (.rrRead m d n) never fun c => guarded c <|
    let slot := slotOf c.g n
    let r? := Tbl.find? c.g.rr slot
    if r?.elim false (·.stat == rrReplaying) then skip
    else
      let ws := r?.elim freeRecord (·.words)
      retire c ((upTo 0 8).foldl (fun (g : Group) (k : Nat) => g.writeS (8 * d.val + k) (nthD ws k 0)) c.g)).outcome s

/-! ### Writing a record (R431) -/

/-- Whether the page of a record is resident now, for the access it records: the FLE would have nothing to do. -/
def residentNow (key : PageKey) (cls : Nat) (acc : BitVec 5) : Prog Bool :=
  letI := Prog.monad
  do
    let p : FlePage := { FlePage.bare key with cls, acc }
    match ← probePage key with
    | .leaf x _ above => pure (match pageLack key p x.e above with
      | .ok none => true
      | _ => false)
    | _ => pure false

/-- Major opcodes of UNIT 0x0 whose D field names a vector destination (R115): `ld`, `ld.nf`, atomics, `mxld`. -/
def vectorDest (op : Nat) : Bool := op == 0x70 || op == 0x72 || op == 0x73 || op == 0x74 || op == 0x79

/-- The operation in flight that a written record stands for: its MASK lanes are parked, and the register it names is
pending until the replay. -/
def writtenPend (unit : Nat) (ws : List Word64) (entry : Nat) : Pend :=
  let op := bits (nthD ws 0 0) 24 8
  let mask := nthD ws 1 0
  let d := bits (progress ws (if unit == 0 then 3 else 1)) 0 8
  let vec := (unit != 0 || vectorDest op) && d < 240
  let sca := if unit == 0 && op == 0x2D then finOf 64 d else none
  { pc := progress ws 0, entry, lanes := 0, parked := mask,
    regs := if vec then [{ reg := d, lanes := mask, row := zeroRow }] else [], sdst := sca, sval := 0, pdst := none,
    pval := 0, counted := vec || sca.isSome, acquire := none, srcV := [], srcS := [], render := unit != 0, region := false,
    noResult := !(vec || sca.isSome) }

/-- The parked command of a record of UNIT 0x2 or 0x4: of the same group, with the same words, and without a record. -/
def parkedCommand (s : State) (g : Group) (copy : Bool) (ws : List Word64) : Nat :=
  let l := (upTo 0 4).flatMap fun die => engineList (dieAt s die) copy
  ((l.find? fun c => c.team == g.team && c.ident == g.ident && c.phase == 2 && c.words == (ws.drop 3).take 4 &&
    !(s.groups.any fun x => x.2.rr.any fun r => ofCmd c.id r.2) &&
    !((upTo 0 4).any fun die => (dieAt s die).copyRr.any fun r => ofCmd c.id r.2)).map (·.id)).getD 0

/-- The context of a record of UNIT 0x3 is held parked at ROW, COL and DEPTH. -/
def holdContext (core team : Nat) (ws : List Word64) : Prog Unit :=
  let p0 := progress ws 0
  modMxe core (bits p0 0 1) fun x =>
    if x.owner == team && x.state == 2 then
      { x with row := bits p0 8 3, col := bits p0 16 3, depth := bits p0 32 17, fop := (progress ws 2).extractLsb' 0 3 }
    else x

/-- Whether a unit's records stand for an operation with lanes of its own. -/
def laneUnit (unit : Nat) : Bool := unit == 0 || (5 ≤ unit && unit ≤ 7)

/-- Stores a record into a free slot of the group (R431). -/
def storeRecord (c : Ctx) (slot : Nat) (ws : List Word64) : Prog Unit :=
  letI := Prog.monad
  do
    let w := nthD ws 0 0
    let unit := bits w 0 4
    let cls := bits w 12 3
    let acc := w.extractLsb' 16 5
    let key := faultKey c.t.part c.t.ctxidx cls (bits (nthD ws 2 0) 0 52)
    let open_ := bits w 8 3 != rrUnresolved
    let here ← if open_ then residentNow key cls acc else pure true
    let room ← look fun s => filterRoom s (keyCore c.k) [key]
    if !here && !room then pure ()
    else do
      let stamp ← newId
      let s ← look id
      let entry := ((c.g.suspended.find? fun x => x.2.pc == progress ws 0).map (·.1)).getD 0
      let st := if !open_ then rrUnresolved else if here then rrReady else rrParked
      let cmd := if unit == 2 || unit == 4 then parkedCommand s c.g (unit == 2) ws else if unit == 3 then bits (progress ws 0) 0 1 else 0
      let r : RrSlotState :=
        { words := setNth ws 0 (setBits w 8 3 st), pend := if laneUnit unit then stamp else 0, entry,
          pages := if here then [] else [(key.page, cls)], region := false, stamp, cmd, why := 0 }
      let wait := fun (n : Nat) (e : Entry) => match finOf 8 slot with
        | some fs => if unit == 1 && n == entry && e.pc == progress ws 0 then { e with wait := .record fs } else e
        | none => e
      modGroup c.k fun g =>
        let pd : Pend := { writtenPend unit ws entry with drawkey := g.drawkey, drawctr := g.drawctr }
        let g1 : Group := { g with
          rr := Tbl.put g.rr slot r, suspended := Tbl.mapVals g.suspended wait,
          mshemit := if unit == 8 && g.mshemit == 0 then 1 else g.mshemit,
          pend := if laneUnit unit then Tbl.put g.pend stamp pd else g.pend,
          outstanding := if laneUnit unit && pd.counted then g.outstanding + 1 else g.outstanding }
        g1.retired c false
      (if unit == 3 then holdContext (keyCore c.k) c.g.team ws else pure ())
      (if !open_ then pure ()
       else if here then due (.recordReplay (keyCore c.k))
       else fileFault (keyCore c.k) key cls acc (c.k, slot))

/-- RR_WRITE (R431). -/
def execRrWrite (m : Option Mod) (d : Fin 8) (n : RrSlot) (s : State) : Out :=
  (issue (.rrWrite m d n) (ifGuard fun c => !c.g.hnd) fun c => guarded c <|
    let slot := slotOf c.g n
    let ws := (upTo 0 8).map fun k => c.g.sreg (8 * d.val + k)
    if (Tbl.find? c.g.rr slot).isSome || recordBad ws then raise c cDescriptor
    else if bits (nthD ws 0 0) 8 3 == 0 then retire c c.g
    else storeRecord c slot ws).outcome s

/-! ### Retiring a record (R432) -/

/-- The parked lanes of an operation are not performed: their registers keep their old values. -/
def Group.dropParked (g : Group) (id : Nat) : Group :=
  match Tbl.find? g.pend id with
  | none => g
  | some p =>
    if p.lanes == 0 then
      let g1 : Group := { g with pend := Tbl.del g.pend id, latch := g.latch.map fun x => if x.2 == id then (x.1, 0) else x }
      if p.counted then g1.uncount else g1
    else
      let keep := fun (x : PendReg) => { x with lanes := x.lanes &&& ~~~p.parked }
      { g with pend := Tbl.put g.pend id { p with parked := 0, regs := p.regs.map keep } }

/-- The operation of a retired record is dropped, by unit (R432). -/
def dropOperation (k : Nat) (r : RrSlotState) : Prog Unit :=
  letI := Prog.monad
  do
    let die ← look fun s => cmdDie s (r.unit == 2) r.cmd
    match r.unit with
    | 1 => pure ()
    | 2 => if r.cmd == 0 then pure () else endCmd die true r.cmd stFault r.cls (bits (progress r.words 4) 0 40)
    | 3 => failContext (keyCore k) r.cmd (unresolvedCause r)
    | 4 => if r.cmd == 0 then pure () else failMember die r.cmd { r with why := 0 }
    | 8 => finishEmit k
    | _ => modGroup k fun g => g.dropParked r.pend

/-- RR_RETIRE (R432): a record that is REPLAYING is waited for. -/
def execRrRetire (m : Option Mod) (n : RrSlot) (s : State) : Out :=
  (issue (.rrRetire m n) (ifGuard fun c => !c.g.hnd) fun c => guarded c <|
    let slot := slotOf c.g n
    match Tbl.find? c.g.rr slot with
    | none => retire c c.g
    | some r =>
      if r.stat == rrReplaying then skip
      else
        letI := Prog.monad
        do
          retire c c.g
          dropOperation c.k r
          freeSlot c.k slot).outcome s

/-! ### The replay engine -/

/-- The oldest READY record of a core (R131): group and slot. -/
def oldestReady (s : State) (core : Nat) : Option (Nat × Nat × RrSlotState) :=
  let l := s.groups.flatMap fun x =>
    if keyCore x.1 == core then (x.2.rr.filter fun y => y.2.stat == rrReady).map fun y => (x.1, y.1, y.2) else []
  l.foldl (fun (a : Option (Nat × Nat × RrSlotState)) (x : Nat × Nat × RrSlotState) =>
    match a with
    | none => some x
    | some y => if x.2.2.stamp < y.2.2.stamp then some x else a) none

/-- Stores a record of a group again. -/
def putRecord (k slot : Nat) (r : RrSlotState) : Prog Unit := modGroup k fun g => { g with rr := Tbl.put g.rr slot r }

/-- A replay that must wait is tried again. -/
def replayLater (k slot : Nat) (r : RrSlotState) : Prog Unit :=
  Prog.bind (putRecord k slot (r.withStat rrReady)) fun _ => due (.recordReplay (keyCore k))

/-- A replay of code meets a fault: the record parks again with the same lanes. -/
def reparkCode (k slot : Nat) (r : RrSlotState) (cls addr : Nat) : Prog Unit :=
  repark k slot r { rows := [], sval := 0, pval := 0, done := 0, parked := r.mask,
                    faults := [{ lane := (lowLane r.mask).getD 0, cls, addr }] }

/-- A record that stands for nothing any more is freed. -/
def dropRecord (k slot : Nat) (r : RrSlotState) : Prog Unit :=
  Prog.bind (modGroup k fun g => g.dropParked r.pend) fun _ => freeSlot k slot

/-- The scope of the acquire of an ordered load or atomic. -/
def acquireOf (i : Instr) : Option Scope :=
  match i with
  | .ld _ _ _ _ sz ord _ sc => (ldShape .discard sz ord sc).acquire
  | .sld _ _ d _ _ ord _ sc => (sldShape d ord sc).acquire
  | .mxld _ _ d _ ord _ x => (mxldShape d ord x).acquire
  | .atom _ _ d _ _ w8 _ x => (atomShape d w8 x).acquire
  | .atomCas _ _ d _ w8 _ x => (atomShape d w8 (some x)).acquire
  | _ => none

/-- The registers and the acquire of a written record's operation, which its words do not hold (R385, R431). -/
def Pend.filled (p : Pend) (i : Instr) (mask : Mask) : Pend :=
  let more := (regUse i).vw.filter fun n => !(p.regs.any fun x => x.reg == n)
  let new := more.map fun n => ({ reg := n, lanes := mask, row := zeroRow } : PendReg)
  { p with regs := if p.noResult then p.regs else p.regs ++ new, acquire := p.acquire.orElse fun _ => acquireOf i }

/-- Performs a memory record again from its instruction. -/
def replayCore (k slot : Nat) (r : RrSlotState) (j : Job) (i : Instr) : Prog Unit :=
  letI := Prog.monad
  match i with
  | .engErd _ n a => do
    let x ← look fun s => mxeAt s (keyCore k) n.val
    let p ← erdJob (j.g.sreg a.val) (if r.image.isEmpty then x.image else r.image) j
    redeliver k slot r erdShape p
  | .ld .. => replayMemory k slot r j i
  | .st .. => replayMemory k slot r j i
  | .sld .. => replayMemory k slot r j i
  | .sst .. => replayMemory k slot r j i
  | .atom .. => replayMemory k slot r j i
  | .atomCas .. => replayMemory k slot r j i
  | .mxld .. => replayMemory k slot r j i
  | .mxst .. => replayMemory k slot r j i
  | .cacheWb .. => replayMemory k slot r j i
  | .cacheDrop .. => replayMemory k slot r j i
  | .mma _ _ => do
    dropRecord k slot r
    tryMma k
  | .mmaAcc _ _ => do
    dropRecord k slot r
    tryMma k
  | _ => dropRecord k slot r

/-- Performs a render record again; the instruction at its PC must be a render instruction of that kind. -/
def replayRender (k slot : Nat) (r : RrSlotState) (j : Job) (i : Instr) : Prog Unit :=
  match i with
  | .rndTex .. => replayRnd k slot r j i
  | .rndTexq .. => replayRnd k slot r j i
  | .rndTrace .. => replayRnd k slot r j i
  | .rndTracec .. => replayRnd k slot r j i
  | .rndVmarch .. => replayRnd k slot r j i
  | .rndDrawTab .. => replayRnd k slot r j i
  | _ => dropRecord k slot r

/-- The job of an mshemit whose record has been written back: every meshlet is read again. -/
def replayEmitAt (k slot : Nat) (r : RrSlotState) (j : Job) (i : Instr) : Prog Unit :=
  letI := Prog.monad
  do
    let live ← look fun s => (coreAt s (keyCore k)).rsu.any fun (x : RsuJob) => x.group == k && !x.read
    if live then replayEmit k slot r
    else match i with
      | .rndMshemit _ im d a b => do
        let n := (j.g.sreg a.val).toNat
        let state := j.g.sreg b.val + immValue im
        let meshlets := j.g.sreg d.val
        if n == 0 || 256 < n || meshlets.toNat % 32 != 0 || state.toNat % 64 != 0 then do
          finishEmit k
          freeSlot k slot
        else do
          let job : RsuJob := { group := k, entry := r.entry, state, meshlets, count := n, next := 0, raster := none,
                                quads := [], read := false }
          modCore (keyCore k) fun x => { x with rsu := x.rsu ++ [job] }
          modGroup k fun g => { g with emitSrc := (regUse i).sr }
          replayEmit k slot { r with words := setNth r.words 4 0 }
      | _ => do
        finishEmit k
        freeSlot k slot

/-- The record of a group's operation is performed again from the instruction at P0 (R385, R431). -/
def replayInstr (k slot : Nat) (r : RrSlotState) (j : Job) : Prog Unit :=
  letI := Prog.monad
  do
    let e : Entry := { pc := progress r.words 0, via := .seq, src := 0, mask := r.mask, mode := 0, join := 0, jseq := 0,
                       wait := .run, run := none }
    match ← fetchAt k r.entry j.t e with
    | .wait => replayLater k slot r
    | .trap c _ _ => putRecord k slot { r.withStat rrUnresolved with why := c }
    | .park cls addr => reparkCode k slot r cls addr
    | .instr _ i _ _ => do
      modGroup k fun g => { g with pend := Tbl.modify g.pend r.pend fun p => p.filled i r.mask }
      if r.unit == 8 then replayEmitAt k slot r j i
      else if r.unit == 0 then replayCore k slot r j i
      else replayRender k slot r j i

/-- The fetch of a record of UNIT 0x1 is performed again. -/
def replayFetch (k slot : Nat) (r : RrSlotState) (t : Team) : Prog Unit :=
  letI := Prog.monad
  do
    match ← translate (teamAgent t) (progress r.words 0).toNat .exec with
    | .ok _ _ => freeSlot k slot
    | .fault cls addr => reparkCode k slot r cls (if cls < 3 then (progress r.words 0).toNat else addr)
    | .trap c => putRecord k slot { r.withStat rrUnresolved with why := c }
    | .wait => replayLater k slot r

/-- RECORD_REPLAY (R117, R131): the oldest READY record of the core is performed. -/
def execRecordReplay (core : Nat) (s : State) : Out :=
  (letI := Prog.monad
   do
    match ← look fun s => oldestReady s core with
    | none => pure ()
    | some (k, slot, r0) => do
      let r : RrSlotState := { r0.withStat rrReplaying with guards := [] }
      putRecord k slot r
      let die ← look fun s => cmdDie s (r.unit == 2) r.cmd
      let s1 ← look id
      (match r.unit with
       | 2 => if (findCmd s1 die true r.cmd).isSome then resumeCmd die true r.cmd r else freeSlot k slot
       | 4 => if (findCmd s1 die false r.cmd).isSome then resumeCmd die false r.cmd r else freeSlot k slot
       | 3 => do
         if ← resumeContext core r.cmd then replayLater k slot r else freeSlot k slot
       | u =>
         match replayJob s1 k r with
         | none => freeSlot k slot
         | some j => if u == 1 then replayFetch k slot r j.t else replayInstr k slot r j)
      let more ← look fun s => (oldestReady s core).isSome && !s.pending.contains (.recordReplay core)
      if more then due (.recordReplay core) else pure ()).outcome s

end Sys2Proof.Machine
end

