-- ==== Sys2Proof/Machine/Special.lean ====
section
/-! DEFINITION. Special registers (R341 to R343, R183): reading, writing, and what is refused. -/

namespace Sys2Proof.Machine

/-- EXTREGS (R164). -/
def Group.extRegs (g : Group) : Word64 := BitVec.ofNat 64 (256 * g.baseBlk + g.extBlk)

/-- The cluster index (R139, R343): all ones outside a cluster. -/
def Team.cid (t : Team) : Word64 := if t.clt == 0 then BitVec.allOnes 64 else BitVec.ofNat 64 (t.index / t.clt)

/-- The value of a special register (R342, R343). -/
def spValue (s : State) (c : Ctx) (r : SpReg) : Word64 :=
  match r with
  | .mode => c.e.mode.setWidth 64
  | .flags => c.g.flags.setWidth 64
  | .gang => c.t.gang.setWidth 64
  | .width => c.g.widthWord
  | .gid => BitVec.ofNat 64 c.g.index
  | .tid => BitVec.ofNat 64 c.t.index
  | .cid => c.t.cid
  | .core => coreWord (keyCore c.k) c.g.quarter c.g.slot
  | .xpc => c.g.xpc
  | .xcause => c.g.xcause.setWidth 64
  | .xmode => c.g.xmode.setWidth 64
  | .xinfo => c.g.xinfo
  | .trapbase => c.g.trapbase
  | .csabase => c.g.csabase
  | .rgnentry => c.g.rgnentry
  | .rgnmask => c.g.rgnmask.word
  | .drawkey => c.g.drawkey
  | .drawctr => c.g.drawctr
  | .rrcount => BitVec.ofNat 64 c.g.rrCount
  | .splits => c.g.splits
  | .clock => BitVec.ofNat 64 (clockAt s (dieOf (keyCore c.k)))
  | .leasestat => c.g.leaseStat
  | .extregs => c.g.extRegs
  | .fusestat => c.g.fusestat.setWidth 64

/-- SRD (R341). -/
def execSrd (m : Option Mod) (d : SDst) (r : SpReg) (s : State) : Out :=
  (issue (.srd m d r) never fun c => guarded c <|
    letI := Prog.monad
    do
      let x ← look fun s => spValue s c r
      retire c (c.g.resultS d x)).outcome s

/-- Whether R342 refuses a write of a value with ILLEGAL_WORD. -/
def writeRefused (hnd : Bool) (r : SpReg) (v : Word64) : Bool :=
  match r with
  | .mode | .gang | .drawkey | .drawctr | .splits => false
  | .flags => bits v 7 57 != 0
  | .xpc => !hnd || bits v 48 16 != 0
  | .xmode => !hnd
  | .trapbase => bits v 0 7 != 0 || bits v 48 16 != 0
  | .fusestat => bits v 32 32 != 0
  | .width | .gid | .tid | .cid | .core | .xcause | .xinfo | .csabase | .rgnentry | .rgnmask | .rrcount | .clock
  | .leasestat | .extregs => true

/-- Member i of a GANG value. -/
def gangMember (v : Word64) (i : Nat) : Nat := bits v (5 * i) 5

/-- Whether a gang mma of the team is in flight (R183): a context with members that has not stopped, or members that
wait at the rendezvous. -/
def gangBusy (s : State) (team : Nat) (t : Team) : Bool :=
  ((coreAt s t.core).mxe.any fun x => x.owner == team && x.members.length > 1 && (x.state == 1 || x.state == 2 || x.state == 3)) ||
  (bits t.gang 32 3 != 0 && t.groups.any fun k => (Tbl.find? s.groups k).elim false fun g => g.entries.any fun x => waitsMma x.2)

/-- Whether a write of GANG traps GANG_INVALID (R183). -/
def gangRefused (s : State) (team : Nat) (t : Team) (v : Word64) : Bool :=
  let n := bits v 32 3
  let ms := (upTo 0 n).map (gangMember v)
  bits v 35 29 != 0 || bits v 30 2 != 0 || n == 1 || n == 7 ||
    (upTo 0 n).any (fun i => (upTo 0 i).any fun j => gangMember v i == gangMember v j) ||
    ms.any (fun x => t.kernel.groups ≤ x) || gangBusy s team t

/-- The group with a special register of its own written. -/
def writeSp (g : Group) (r : SpReg) (v : Word64) : Group :=
  match r with
  | .flags => { g with flags := v.setWidth 7 }
  | .xpc => { g with xpc := v }
  | .xmode => { g with xmode := v.setWidth 19 }
  | .trapbase => { g with trapbase := v }
  | .drawkey => { g with drawkey := v }
  | .drawctr => { g with drawctr := v }
  | .splits => if v.getLsbD 24 then { g with jto := false } else g
  | .fusestat => { g with fusestat := v.setWidth 32 }
  | .mode | .gang | .width | .gid | .tid | .cid | .core | .xcause | .xinfo | .csabase | .rgnentry | .rgnmask | .rrcount
  | .clock | .leasestat | .extregs => g

/-- The write of a special register (R342). -/
def writeSpecial (c : Ctx) (r : SpReg) (v : Word64) : Prog Unit :=
  match r with
  | .mode => writeMode c v
  | .xmode => if modeWritable v then retire c (writeSp c.g .xmode v) else raise c cMode
  | .gang => .get fun s =>
    if gangRefused s c.g.team c.t v then raise c cGang
    else Prog.bind (modTeam c.g.team fun t => { t with gang := v.setWidth 35 }) fun _ => retire c c.g
  | r => retire c (writeSp c.g r v)

/-- SWR (R341, R342). -/
def execSwr (m : Option Mod) (a : SSrc) (r : SpReg) (s : State) : Out :=
  (issue (.swr m a r) (ifGuard fun c => writeRefused c.g.hnd r (c.g.ssrc a none)) fun c => guarded c
    (writeSpecial c r (c.g.ssrc a none))).outcome s

end Sys2Proof.Machine
end

