-- ==== Sys2Proof/Machine/Width.lean ====
section
/-! DEFINITION. Width and compaction: wsplit, wfuse, lpc (R178 to R181, R334 to R336). -/

namespace Sys2Proof.Machine

/-- Lanes of a row from lane n on, at the low lanes. -/
def rowFrom (r : Row) (n w : Nat) : Row := rowOf fun l => if l < w then lane r (n + l) else 0

/-- A row that holds w lanes of one and then w lanes of another. -/
def rowJoin (w : Nat) (a b : Row) : Row := rowOf fun l => if l < w then lane a l else if l < 2 * w then lane b (l - w) else 0

/-- A table of rows, or of masks, without the entries that hold the default. -/
def packRows (t : Tbl Row) : Tbl Row := Tbl.pack t zeroRow

def packMasks (t : Tbl Mask) : Tbl Mask := Tbl.pack t 0

/-- No operation outstanding, no record (R178, R179). -/
def Group.idle (g : Group) : Bool := g.outstanding == 0 && g.rr.isEmpty && g.overflow.isEmpty

/-- A new split table with one entry, as a commit point (R334, R335). -/
def Group.oneSplit (g : Group) (f : Focus) (mask : Mask) (mode : BitVec 19) : Group :=
  let e : Entry := { pc := f.next, via := if f.nextFall then .fall else .seq, src := f.pc, mask, mode, join := 0, jseq := 0,
                     wait := .run, run := none }
  ({ g with entries := if mask == 0 then [] else [(0, e)], depth := 0, bseq := 0, latch := [], joinNext := [],
            arms := [] }).commit f.next

/-- Queue registers with the same bindings and nothing in them. -/
def Group.emptyQueues (g : Group) : Tbl QReg := Tbl.mapVals g.q fun _ q => { q with entries := [], retained := [] }

/-- One half of a group of width 2w (R178): lanes from `from_` on. -/
def Group.halfOf (g : Group) (f : Focus) (e : Entry) (w : Nat) (upper : Bool) (d : SDst) : Group :=
  let from_ := if upper then w else 0
  let cut := fun (m : Mask) => (m >>> from_) &&& allLanes w
  let h : Group := { g with
    width := w, halves := upper :: g.halves, home := (g.home.drop (from_ / 16)).take (w / 16), live := cut g.live,
    v := packRows (Tbl.mapVals g.v fun _ r => rowFrom r from_ w), p := packMasks (Tbl.mapVals g.p fun _ m => cut m),
    quarter := if upper && w == 32 then g.quarter + 1 else g.quarter, q := g.emptyQueues, hnd := false, jto := false,
    pend := [], suspended := [], leases := if upper then [] else g.leases,
    statCopy := if upper then BitVec.ofNat 8 (g.leaseStat.toNat % 256) else g.statCopy, emitSrc := [] }
  (h.resultS d upper.toNat).oneSplit f (cut e.mask) e.mode

/-- The key of the upper half: the upper half of the slot, or the same slot of the paired quarter. -/
def upperKey (k w : Nat) : Nat := if w == 16 then k + 1 else k + 32

/-- Whether wsplit traps WIDTH (R178). -/
def splitRefused (g : Group) : Bool :=
  g.width == 16 || g.depth != 0 || (g.entries.any fun x => x.2.join != 0) || (g.q.any fun x => !x.2.entries.isEmpty)

/-- WSPLIT (R178, R334). -/
def execWsplit (m : Option Mod) (d : SDst) (s : State) : Out :=
  (issue (.wsplit m d) never fun c => groupGuarded c <|
    if splitRefused c.g then raise c cWidth
    else if !c.g.idle then skip
    else
      letI := Prog.monad
      do
        let w := c.g.width / 2
        let j := upperKey c.k w
        emit (.group c.k (c.g.halfOf c.f c.e w false d))
        emit (.group j (c.g.halfOf c.f c.e w true d))
        modTeam c.g.team fun t => { t with groups := t.groups.flatMap fun x => if x == c.k then [x, j] else [x] }
        cutRuns c.k
        settleGroup c.k
        settleGroup j).outcome s

/-! ### wfuse -/

def fuPc : Nat := 1
def fuSplits : Nat := 2
def fuAlloc : Nat := 3
def fuMode : Nat := 4
def fuNeighbour : Nat := 5
def fuTimeout : Nat := 6

/-- The key of the partner a selector names (R179): the other half of the slot, or the same slot of the paired quarter. -/
def partnerKey (k : Nat) (sel : Bool) : Nat :=
  if sel then (if k / 32 % 2 == 0 then k + 32 else k - 32) else (if k % 2 == 0 then k + 1 else k - 1)

/-- The partner, if it is one (R179, R335): selector 0 at width 16, selector 1 at width 32, of the same team and width. -/
def partnerOf (s : State) (k : Nat) (g : Group) (sel : Bool) : Option Group :=
  if g.width != (if sel then 32 else 16) then none
  else match Tbl.find? s.groups (partnerKey k sel) with
    | some h => if h.team == g.team && h.width == g.width then some h else none
    | none => none

/-- The entry that waits at wfuse. -/
def waitsFuse (e : Entry) : Bool :=
  match e.wait with
  | .wfuse .. => true
  | _ => false

/-- More than one live entry, a binding, or records on the stack (R179). -/
def Group.busySplits (g : Group) : Bool :=
  g.entries.length > 1 || g.depth != 0 || g.entries.any fun x => x.2.join != 0

/-- The values of the q-registers. -/
def Group.queueValues (g : Group) : List (List (Word64 × Row)) :=
  (upTo 0 8).map fun n => (g.qreg n).entries.map fun x => (x.word, x.row)

/-- The first check that fails when both wait (R179); 0 none. -/
def fuseCode (a b : Group) (pa pb : Word64) (ea eb : Entry) : Nat :=
  if pa != pb then fuPc
  else if a.busySplits || b.busySplits then fuSplits
  else if a.baseBlk != b.baseBlk || a.extBlk != b.extBlk || a.queueValues != b.queueValues then fuAlloc
  else if ea.mode != eb.mode then fuMode
  else 0

/-- The group of double width (R179, R335). -/
def fuse (lo hi : Group) (f : Focus) (el eh : Entry) (d : SDst) : Group :=
  let w := lo.width
  let g : Group := { lo with
    width := 2 * w, halves := lo.halves.drop 1, home := lo.home ++ hi.home, live := lo.live ||| (hi.live <<< w),
    v := packRows ((upTo 0 (8 * lo.blocks)).map fun n => (n, rowJoin w (lo.vreg n) (hi.vreg n))),
    p := packMasks ((upTo 0 128).map fun n => (n, Tbl.getD lo.p n 0 ||| (Tbl.getD hi.p n 0 <<< w))),
    pend := [] }
  (g.resultS d 0).oneSplit f (el.mask ||| (eh.mask <<< w)) el.mode

/-- A group that has waited goes on with its code in D (R179). -/
def Group.fuseResult (g : Group) (n : Nat) (e : Entry) (code : Nat) : Group :=
  match e.wait with
  | .wfuse _ d _ next =>
    (match d with
     | some r => g.writeS r.val (BitVec.ofNat 64 code)
     | none => g).setEntry n (e.after next e.pc)
  | _ => g

/-- WFUSE (R179, R335). -/
def execWfuse (m : Option Mod) (d : SDst) (sel : Bool) (s : State) : Out :=
  (issue (.wfuse m d sel) never fun c => groupGuarded c <|
    if c.g.width == 64 then raise c cWidth
    else if !c.g.idle then skip
    else
      letI := Prog.monad
      do
        let s ← look id
        match partnerOf s c.k c.g sel with
        | none => retire c (c.g.resultS d (BitVec.ofNat 64 fuNeighbour))
        | some h =>
          match h.entries.find? (fun (x : Nat × Entry) => waitsFuse x.2) with
          | none => do
            let r := match d with
              | .s n => some n
              | .discard => none
            let dl := clockAt s (dieOf (keyCore c.k)) + 4096
            emit (.group c.k (c.g.setEntry c.n { c.e with pc := c.f.pc, wait := .wfuse sel r dl c.f.next, run := none }))
          | some (n, e) => do
            let j := partnerKey c.k sel
            let code := fuseCode c.g h c.f.pc e.pc c.e e
            if code != 0 then do
              emit (.group j (h.fuseResult n e code))
              retire c (c.g.resultS d (BitVec.ofNat 64 code))
            else do
              let low := c.k < j
              let hi := max c.k j
              dropLeases hi
              let h ← look fun s => (Tbl.find? s.groups j).getD h
              let g ← look fun s => (Tbl.find? s.groups c.k).getD c.g
              let x := if low then fuse g h c.f c.e e d else fuse h g c.f e c.e d
              emit (.group (min c.k j) x)
              emit (.noGroup hi)
              modTeam c.g.team fun t => { t with groups := t.groups.filter (· != hi) }
              cutRuns c.k
              cutRuns j
              checkBars c.g.team).outcome s

/-- WFUSE_TIMEOUT (R179): the partner has not arrived in 4,096 cycles. -/
def execWfuseTimeout (k : Nat) (s : State) : Out :=
  (letI := Prog.monad
   do
    let now ← look fun s => clockAt s (dieOf (keyCore k))
    modGroup k fun g =>
      match g.entries.find? (fun (x : Nat × Entry) => waitsFuse x.2) with
      | some (n, e) =>
        (match e.wait with
         | .wfuse _ _ dl _ => if dl ≤ now then g.fuseResult n e fuTimeout else g
         | _ => g)
      | none => g).outcome s

/-! ### lpc (R181, R336) -/

/-- A participant at the rendezvous: group key, group, entry number, entry. -/
structure Participant where
  k : Nat
  g : Group
  n : Nat
  e : Entry
deriving DecidableEq, Repr

/-- The participant mask, key register and block mask of an entry that waits at lpc. -/
def lpcKey (e : Entry) : Option (Word64 × Nat × BitVec 30) :=
  match e.wait with
  | .lpc m key b _ => some (m, key, b)
  | _ => none

/-- Groups of the team that wait at lpc. -/
def lpcWaiting (s : State) (t : Team) : List Participant :=
  t.groups.filterMap fun k =>
    match Tbl.find? s.groups k with
    | some g => (g.entries.find? fun x => (lpcKey x.2).isSome).map fun x => { k, g, n := x.1, e := x.2 }
    | none => none

/-- Group indices of a team that have not ended. -/
def liveIndices (s : State) (t : Team) : List Nat :=
  t.groups.filterMap fun k => (Tbl.find? s.groups k).map (·.index)

/-- Indices a participant mask names. -/
def namedBy (m : Word64) : List Nat := (upTo 0 64).filter m.getLsbD

/-- A thread of a lane position: key, membership, the registers that move with it. -/
structure Thread where
  key : Nat
  live : Bool
  regs : List Word32
deriving DecidableEq, Repr

/-- Inserts a thread after those of an equal or lower key. -/
def insertThread (l : List Thread) (x : Thread) : List Thread :=
  match l with
  | [] => [x]
  | y :: rest => if x.key < y.key then x :: y :: rest else y :: insertThread rest x

/-- Registers that a block mask names. -/
def blockRegs (b : BitVec 30) : List Nat := ((upTo 0 30).filter b.getLsbD).flatMap fun k => upTo (8 * k) 8

/-- The sorted threads of one lane position: ties keep ascending group index. -/
def sortLane (ps : List Participant) (key : Nat) (regs : List Nat) (l : Nat) : List Thread :=
  ps.foldl (fun a p =>
    let live := hasLane p.g.live l
    insertThread a { key := if live then (lane (p.g.vreg key) l).toNat else 0xFFFFFFFF, live,
                     regs := regs.map fun r => lane (p.g.vreg r) l }) []

/-- The i-th participant takes the i-th thread of every lane position. -/
def takeThreads (p : Participant) (i : Nat) (regs : List Nat) (sorted : List (List Thread)) : Group :=
  let at_ := fun (l : Nat) => nthD (nthD sorted l []) i { key := 0, live := false, regs := [] }
  let live := maskOf fun l => l < p.g.width && (at_ l).live
  let held := p.g.live &&& ~~~p.e.mask
  let g1 := (regs.zipIdx).foldl (fun g x => g.writeV x.1 p.g.lanes (rowOf fun l => nthD (at_ l).regs x.2 0)) p.g
  let g2 : Group := { g1 with live }
  let mask := live &&& ~~~held
  match p.e.wait with
  | .lpc _ _ _ next =>
    if mask == 0 then g2.freeEntry p.n else g2.setEntry p.n { (p.e.after next p.e.pc) with mask }
  | _ => g2

/-- Inserts a participant by group index. -/
def insertPart (l : List Participant) (x : Participant) : List Participant :=
  match l with
  | [] => [x]
  | y :: rest => if x.g.index < y.g.index then x :: y :: rest else y :: insertPart rest x

/-- Traps every waiting participant of a failed rendezvous. -/
def lpcFail (ps : List Participant) (cause : Cause) : Prog Unit :=
  each ps fun p => takeTrap p.k p.n cause 0 p.e.pc

/-- The rendezvous of a participant mask, once a participant has joined it. -/
def lpcMeet (team : Nat) (m : Word64) (key : Nat) (b : BitVec 30) (who : Nat) : Prog Unit :=
  letI := Prog.monad
  do
    let s ← look id
    match Tbl.find? s.teams team with
    | none => pure ()
    | some t => do
      let named := namedBy m
      let mine := (lpcWaiting s t).filter fun p =>
        p.g.index == who || named.contains p.g.index || (lpcKey p.e).elim false fun x => x.1.getLsbD who
      let live := liveIndices s t
      let ps := (mine.filter fun p => named.contains p.g.index).foldl insertPart []
      if !named.contains who || (mine.any fun p => lpcKey p.e != some (m, key, b)) || !(named.all live.contains) then
        lpcFail mine cGang
      else if (named.any fun i => !(ps.any fun p => p.g.index == i)) then pure ()
      else if ps.any fun p => !p.g.halves.isEmpty || p.g.width != (ps.head?.elim 0 (·.g.width)) then lpcFail ps cWidth
      else if ps.any fun p => 2 ^ p.g.blocks ≤ b.toNat || !p.g.hasV key then lpcFail ps cRegRange
      else do
        let regs := blockRegs b
        let sorted := (upTo 0 64).map (sortLane ps key regs)
        each (ps.zipIdx) fun (x : Participant × Nat) => emit (.group x.1.k (takeThreads x.1 x.2 regs sorted))
        each ps fun (p : Participant) => settleGroup p.k

/-- LPC (R181, R336): the guard is ignored. -/
def execLpc (m : Option Mod) (d : SSrc) (a : Fin 240) (blocks : BitVec 30) (s : State) : Out :=
  (issue (.lpc m d a blocks) never fun c =>
    letI := Prog.monad
    do
      let pm := c.g.ssrc d none
      let e : Entry := { c.e with pc := c.f.pc, wait := .lpc pm a.val blocks c.f.next, run := none }
      emit (.group c.k (c.g.setEntry c.n e))
      lpcMeet c.g.team pm a.val blocks c.g.index).outcome s

end Sys2Proof.Machine
end

