-- ==== Sys2Proof/Machine/Dispatch.lean ====
section
/-! DEFINITION. The dispatch: one arm for each constructor of `Instr`. -/

namespace Sys2Proof.Machine

/-- Executes an instruction or performs a device event. -/
def exec (i : Instr) (s : State) : Host.Outcome State Fault Refusal :=
  match i with
  | .nop m => Sys2Proof.Machine.execNop m s
  | .brU m p neg t => Sys2Proof.Machine.execBrU m p neg t s
  | .brUAny m p neg t => Sys2Proof.Machine.execBrUAny m p neg t s
  | .brD m p neg loff slot j => Sys2Proof.Machine.execBrD m p neg loff slot j s
  | .call m p neg t => Sys2Proof.Machine.execCall m p neg t s
  | .brx m a => Sys2Proof.Machine.execBrx m a s
  | .brxCall m a => Sys2Proof.Machine.execBrxCall m a s
  | .join m n => Sys2Proof.Machine.execJoin m n s
  | .joinTimeout g e => Sys2Proof.Machine.execJoinTimeout g e s
  | .yield m => Sys2Proof.Machine.execYield m s
  | .yieldC m q c => Sys2Proof.Machine.execYieldC m q c s
  | .sleep m n => Sys2Proof.Machine.execSleep m n s
  | .sleepExpire g e => Sys2Proof.Machine.execSleepExpire g e s
  | .exit m => Sys2Proof.Machine.execExit m s
  | .exitSave m => Sys2Proof.Machine.execExitSave m s
  | .rgn m v sm pm => Sys2Proof.Machine.execRgn m v sm pm s
  | .modeImm m v => Sys2Proof.Machine.execModeImm m v s
  | .modeScalar m a => Sys2Proof.Machine.execModeScalar m a s
  | .wsplit m d => Sys2Proof.Machine.execWsplit m d s
  | .wfuse m d sel => Sys2Proof.Machine.execWfuse m d sel s
  | .wfuseTimeout g => Sys2Proof.Machine.execWfuseTimeout g s
  | .lpc m d a blocks => Sys2Proof.Machine.execLpc m d a blocks s
  | .bar m n => Sys2Proof.Machine.execBar m n s
  | .barClu m n => Sys2Proof.Machine.execBarClu m n s
  | .racq m k => Sys2Proof.Machine.execRacq m k s
  | .rrel m k => Sys2Proof.Machine.execRrel m k s
  | .trap m c => Sys2Proof.Machine.execTrap m c s
  | .brk m c => Sys2Proof.Machine.execBrk m c s
  | .xret m => Sys2Proof.Machine.execXret m s
  | .srd m d r => Sys2Proof.Machine.execSrd m d r s
  | .swr m a r => Sys2Proof.Machine.execSwr m a r s
  | .sadd m im d a b => Sys2Proof.Machine.execSadd m im d a b s
  | .ssub m im d a b => Sys2Proof.Machine.execSsub m im d a b s
  | .smul m im d a b => Sys2Proof.Machine.execSmul m im d a b s
  | .sand m im d a b => Sys2Proof.Machine.execSand m im d a b s
  | .sor m im d a b => Sys2Proof.Machine.execSor m im d a b s
  | .sxor m im d a b => Sys2Proof.Machine.execSxor m im d a b s
  | .sshl m im d a b => Sys2Proof.Machine.execSshl m im d a b s
  | .sshr m im d a b => Sys2Proof.Machine.execSshr m im d a b s
  | .ssar m im d a b => Sys2Proof.Machine.execSsar m im d a b s
  | .smin m im d a b => Sys2Proof.Machine.execSmin m im d a b s
  | .smax m im d a b => Sys2Proof.Machine.execSmax m im d a b s
  | .smov m im d b => Sys2Proof.Machine.execSmov m im d b s
  | .scmpEq m im d a b => Sys2Proof.Machine.execScmpEq m im d a b s
  | .scmpNe m im d a b => Sys2Proof.Machine.execScmpNe m im d a b s
  | .scmpLt m im d a b => Sys2Proof.Machine.execScmpLt m im d a b s
  | .scmpLtu m im d a b => Sys2Proof.Machine.execScmpLtu m im d a b s
  | .scmpLe m im d a b => Sys2Proof.Machine.execScmpLe m im d a b s
  | .scmpLeu m im d a b => Sys2Proof.Machine.execScmpLeu m im d a b s
  | .sbfx m im d a b w => Sys2Proof.Machine.execSbfx m im d a b w s
  | .vtos m d a b => Sys2Proof.Machine.execVtos m d a b s
  | .sld m im d a sz ord sp sc => Sys2Proof.Machine.execSld m im d a sz ord sp sc s
  | .sst m im d a sz ord sp sc => Sys2Proof.Machine.execSst m im d a sz ord sp sc s
  | .iadd m im d a b => Sys2Proof.Machine.execIadd m im d a b s
  | .isub m im d a b => Sys2Proof.Machine.execIsub m im d a b s
  | .imul m im d a b => Sys2Proof.Machine.execImul m im d a b s
  | .imulh m im d a b => Sys2Proof.Machine.execImulh m im d a b s
  | .imulhu m im d a b => Sys2Proof.Machine.execImulhu m im d a b s
  | .imad m im d a b c => Sys2Proof.Machine.execImad m im d a b c s
  | .vAnd m im d a b => Sys2Proof.Machine.execVAnd m im d a b s
  | .vOr m im d a b => Sys2Proof.Machine.execVOr m im d a b s
  | .vXor m im d a b => Sys2Proof.Machine.execVXor m im d a b s
  | .vAndn m im d a b => Sys2Proof.Machine.execVAndn m im d a b s
  | .shl m im d a b => Sys2Proof.Machine.execShl m im d a b s
  | .shr m im d a b => Sys2Proof.Machine.execShr m im d a b s
  | .sar m im d a b => Sys2Proof.Machine.execSar m im d a b s
  | .rot m im d a b => Sys2Proof.Machine.execRot m im d a b s
  | .imin m im d a b => Sys2Proof.Machine.execImin m im d a b s
  | .imax m im d a b => Sys2Proof.Machine.execImax m im d a b s
  | .umin m im d a b => Sys2Proof.Machine.execUmin m im d a b s
  | .umax m im d a b => Sys2Proof.Machine.execUmax m im d a b s
  | .sel m im d a b p => Sys2Proof.Machine.execSel m im d a b p s
  | .lea m im d a b k => Sys2Proof.Machine.execLea m im d a b k s
  | .add64 m im d a b => Sys2Proof.Machine.execAdd64 m im d a b s
  | .bfx m im d a b w => Sys2Proof.Machine.execBfx m im d a b w s
  | .bfi m im d a b w c => Sys2Proof.Machine.execBfi m im d a b w c s
  | .mov m im d b => Sys2Proof.Machine.execMov m im d b s
  | .icmpEq m im d a b => Sys2Proof.Machine.execIcmpEq m im d a b s
  | .icmpNe m im d a b => Sys2Proof.Machine.execIcmpNe m im d a b s
  | .icmpLt m im d a b => Sys2Proof.Machine.execIcmpLt m im d a b s
  | .icmpLe m im d a b => Sys2Proof.Machine.execIcmpLe m im d a b s
  | .icmpLtu m im d a b => Sys2Proof.Machine.execIcmpLtu m im d a b s
  | .icmpLeu m im d a b => Sys2Proof.Machine.execIcmpLeu m im d a b s
  | .itest m im d a b => Sys2Proof.Machine.execItest m im d a b s
  | .iun m d a op => Sys2Proof.Machine.execIun m d a op s
  | .fadd m im d a b => Sys2Proof.Machine.execFadd m im d a b s
  | .fsub m im d a b => Sys2Proof.Machine.execFsub m im d a b s
  | .fmul m im d a b => Sys2Proof.Machine.execFmul m im d a b s
  | .ffma m im d a b c => Sys2Proof.Machine.execFfma m im d a b c s
  | .fmin m im d a b => Sys2Proof.Machine.execFmin m im d a b s
  | .fmax m im d a b => Sys2Proof.Machine.execFmax m im d a b s
  | .fdot2 m im d a b c => Sys2Proof.Machine.execFdot2 m im d a b c s
  | .fcmpEq m im d a b => Sys2Proof.Machine.execFcmpEq m im d a b s
  | .fcmpNe m im d a b => Sys2Proof.Machine.execFcmpNe m im d a b s
  | .fcmpLt m im d a b => Sys2Proof.Machine.execFcmpLt m im d a b s
  | .fcmpLe m im d a b => Sys2Proof.Machine.execFcmpLe m im d a b s
  | .fcmpUn m im d a b => Sys2Proof.Machine.execFcmpUn m im d a b s
  | .fclass m d a => Sys2Proof.Machine.execFclass m d a s
  | .funop m d a op => Sys2Proof.Machine.execFunop m d a op s
  | .dadd m im d a b => Sys2Proof.Machine.execDadd m im d a b s
  | .dmul m im d a b => Sys2Proof.Machine.execDmul m im d a b s
  | .dfma m im d a b c => Sys2Proof.Machine.execDfma m im d a b c s
  | .dcmpLt m im d a b => Sys2Proof.Machine.execDcmpLt m im d a b s
  | .dcmpEq m im d a b => Sys2Proof.Machine.execDcmpEq m im d a b s
  | .cvt m d a op => Sys2Proof.Machine.execCvt m d a op s
  | .pack m im d a b => Sys2Proof.Machine.execPack m im d a b s
  | .unpack m im d a b => Sys2Proof.Machine.execUnpack m im d a b s
  | .mxq m im d a f c => Sys2Proof.Machine.execMxq m im d a f c s
  | .mxdq m im d a f c => Sys2Proof.Machine.execMxdq m im d a f c s
  | .shfl m im d a b => Sys2Proof.Machine.execShfl m im d a b s
  | .shflXor m im d a b => Sys2Proof.Machine.execShflXor m im d a b s
  | .vote m op a => Sys2Proof.Machine.execVote m op a s
  | .red m d a op => Sys2Proof.Machine.execRed m d a op s
  | .scan m d a op => Sys2Proof.Machine.execScan m d a op s
  | .pop m op d a b => Sys2Proof.Machine.execPop m op d a b s
  | .rrRead m d n => Sys2Proof.Machine.execRrRead m d n s
  | .rrWrite m d n => Sys2Proof.Machine.execRrWrite m d n s
  | .rrRetire m n => Sys2Proof.Machine.execRrRetire m n s
  | .ld m im d a sz ord sp sc => Sys2Proof.Machine.execLd m im d a sz ord sp sc s
  | .ldNf m im d a sz sp p => Sys2Proof.Machine.execLdNf m im d a sz sp p s
  | .st m im d a sz ord sp sc => Sys2Proof.Machine.execSt m im d a sz ord sp sc s
  | .atom m im d a op w8 sp x => Sys2Proof.Machine.execAtom m im d a op w8 sp x s
  | .atomCas m im d a w8 sp x => Sys2Proof.Machine.execAtomCas m im d a w8 sp x s
  | .loadComplete g id => Sys2Proof.Machine.execLoadComplete g id s
  | .lease m im x a => Sys2Proof.Machine.execLease m im x a s
  | .leaseEnd m p => Sys2Proof.Machine.execLeaseEnd m p s
  | .leaseEndComplete g => Sys2Proof.Machine.execLeaseEndComplete g s
  | .leaseExpire line => Sys2Proof.Machine.execLeaseExpire line s
  | .fence m sc => Sys2Proof.Machine.execFence m sc s
  | .fencePhase m sc => Sys2Proof.Machine.execFencePhase m sc s
  | .xfence m sc w r => Sys2Proof.Machine.execXfence m sc w r s
  | .cachePrefetch m im x a l2 sp => Sys2Proof.Machine.execCachePrefetch m im x a l2 sp s
  | .cachePagereq m im x a wr mig => Sys2Proof.Machine.execCachePagereq m im x a wr mig s
  | .cacheWb m im x a sp => Sys2Proof.Machine.execCacheWb m im x a sp s
  | .cacheDrop m im x a sp => Sys2Proof.Machine.execCacheDrop m im x a sp s
  | .cacheResq m im x a d => Sys2Proof.Machine.execCacheResq m im x a d s
  | .wwait m im d a tmo w8 c x => Sys2Proof.Machine.execWwait m im d a tmo w8 c x s
  | .wwaitPoll g e => Sys2Proof.Machine.execWwaitPoll g e s
  | .wwaitTimeout g e => Sys2Proof.Machine.execWwaitTimeout g e s
  | .mxld m im d a ord sp x => Sys2Proof.Machine.execMxld m im d a ord sp x s
  | .mxst m im d a ord sp x => Sys2Proof.Machine.execMxst m im d a ord sp x s
  | .qPush m n a => Sys2Proof.Machine.execQPush m n a s
  | .qPop m d n => Sys2Proof.Machine.execQPop m d n s
  | .qPeek m d n => Sys2Proof.Machine.execQPeek m d n s
  | .qStat m d n => Sys2Proof.Machine.execQStat m d n s
  | .qBind m n port => Sys2Proof.Machine.execQBind m n port s
  | .mma m a => Sys2Proof.Machine.execMma m a s
  | .mmaAcc m a => Sys2Proof.Machine.execMmaAcc m a s
  | .engErd m c a => Sys2Proof.Machine.execEngErd m c a s
  | .engEwr m c a => Sys2Proof.Machine.execEngEwr m c a s
  | .engEresume m c => Sys2Proof.Machine.execEngEresume m c s
  | .rndTex m im d a b => Sys2Proof.Machine.execRndTex m im d a b s
  | .rndTexq m im d a b => Sys2Proof.Machine.execRndTexq m im d a b s
  | .rndTrace m im d a b => Sys2Proof.Machine.execRndTrace m im d a b s
  | .rndTracec m im d a b => Sys2Proof.Machine.execRndTracec m im d a b s
  | .rndVmarch m im d a b => Sys2Proof.Machine.execRndVmarch m im d a b s
  | .rndMshemit m im d a b => Sys2Proof.Machine.execRndMshemit m im d a b s
  | .rndDraw m d a => Sys2Proof.Machine.execRndDraw m d a s
  | .rndDrawTab m im d a b => Sys2Proof.Machine.execRndDrawTab m im d a b s
  | .rndDrawseed m im d b => Sys2Proof.Machine.execRndDrawseed m im d b s
  | .renderComplete g id lane => Sys2Proof.Machine.execRenderComplete g id lane s
  | .renderFaultPark g id => Sys2Proof.Machine.execRenderFaultPark g id s
  | .quadDelivery core => Sys2Proof.Machine.execQuadDelivery core s
  | .pixelGroupStart core => Sys2Proof.Machine.execPixelGroupStart core s
  | .laneGrant engine => Sys2Proof.Machine.execLaneGrant engine s
  | .parseStep engine => Sys2Proof.Machine.execParseStep engine s
  | .tlbInvalDone q idx => Sys2Proof.Machine.execTlbInvalDone q idx s
  | .pstateTransitionDone die => Sys2Proof.Machine.execPstateTransitionDone die s
  | .packetRetire q idx => Sys2Proof.Machine.execPacketRetire q idx s
  | .watchPoll id => Sys2Proof.Machine.execWatchPoll id s
  | .teamPlace part => Sys2Proof.Machine.execTeamPlace part s
  | .clusterPlace part => Sys2Proof.Machine.execClusterPlace part s
  | .preemptRequest team => Sys2Proof.Machine.execPreemptRequest team s
  | .teamRestart team => Sys2Proof.Machine.execTeamRestart team s
  | .copyCommandStart die id => Sys2Proof.Machine.execCopyCommandStart die id s
  | .copyFaultPark die id => Sys2Proof.Machine.execCopyFaultPark die id s
  | .copyComplete die id => Sys2Proof.Machine.execCopyComplete die id s
  | .collectiveMatch die id => Sys2Proof.Machine.execCollectiveMatch die id s
  | .collectiveComplete die id => Sys2Proof.Machine.execCollectiveComplete die id s
  | .engineResultDelivery g port => Sys2Proof.Machine.execEngineResultDelivery g port s
  | .mxeFetchFault core ctx => Sys2Proof.Machine.execMxeFetchFault core ctx s
  | .mxePark core ctx => Sys2Proof.Machine.execMxePark core ctx s
  | .mxeComputeDone core ctx => Sys2Proof.Machine.execMxeComputeDone core ctx s
  | .clusterStagePage core page => Sys2Proof.Machine.execClusterStagePage core page s
  | .flePageArrival die page => Sys2Proof.Machine.execFlePageArrival die page s
  | .fleHintArrival id => Sys2Proof.Machine.execFleHintArrival id s
  | .sorusCloseTimeout => Sys2Proof.Machine.execSorusCloseTimeout s
  | .sorusProcess => Sys2Proof.Machine.execSorusProcess s
  | .pageHandoff id => Sys2Proof.Machine.execPageHandoff id s
  | .sectorFillComplete frame sector => Sys2Proof.Machine.execSectorFillComplete frame sector s
  | .deviceTlbInvalDone id => Sys2Proof.Machine.execDeviceTlbInvalDone id s
  | .evictionWritebackDone frame => Sys2Proof.Machine.execEvictionWritebackDone frame s
  | .recordReplay core => Sys2Proof.Machine.execRecordReplay core s
  | .accessCounterDecay => Sys2Proof.Machine.execAccessCounterDecay s
  | .l1Eviction core line => Sys2Proof.Machine.execL1Eviction core line s
  | .rdcEviction die line => Sys2Proof.Machine.execRdcEviction die line s
  | .rdcStaleDrop die line => Sys2Proof.Machine.execRdcStaleDrop die line s
  | .powerEstimate => Sys2Proof.Machine.execPowerEstimate s
  | .thermalTrip die => Sys2Proof.Machine.execThermalTrip die s
  | .thermalRestore die => Sys2Proof.Machine.execThermalRestore die s
  | .cqctlWrite fn queue v => Sys2Proof.Machine.execCqctlWrite fn queue v s
  | .cqheadWrite fn queue v => Sys2Proof.Machine.execCqheadWrite fn queue v s
  | .msixTimerExpire fn queue => Sys2Proof.Machine.execMsixTimerExpire fn queue s
  | .msixVectorUnmask fn vec => Sys2Proof.Machine.execMsixVectorUnmask fn vec s
  | .prreplyResolved fn v => Sys2Proof.Machine.execPrreplyResolved fn v s
  | .prreplyFailed fn v => Sys2Proof.Machine.execPrreplyFailed fn v s
  | .portctlWrite port v => Sys2Proof.Machine.execPortctlWrite port v s
  | .portTrainingDone port t => Sys2Proof.Machine.execPortTrainingDone port t s
  | .portLinkDown port => Sys2Proof.Machine.execPortLinkDown port s
  | .portRecovered port => Sys2Proof.Machine.execPortRecovered port s
  | .portRecoveryTimeout port => Sys2Proof.Machine.execPortRecoveryTimeout port s
  | .flitCrcFail link again => Sys2Proof.Machine.execFlitCrcFail link again s
  | .ideIntegrityFail port => Sys2Proof.Machine.execIdeIntegrityFail port s
  | .gddrUncorrectableError pa => Sys2Proof.Machine.execGddrUncorrectableError pa s
  | .deviceReset r => Sys2Proof.Machine.execDeviceReset r s
  | .vfFlr vf => Sys2Proof.Machine.execVfFlr vf s
  | .pctlEnable part => Sys2Proof.Machine.execPctlEnable part s
  | .pctlDisable part => Sys2Proof.Machine.execPctlDisable part s
  | .padmrWrite v => Sys2Proof.Machine.execPadmrWrite v s
  | .ssdataRead => Sys2Proof.Machine.execSsdataRead s
  | .tfrtailWrite part v => Sys2Proof.Machine.execTfrtailWrite part v s
  | .registerWrite sp off v => Sys2Proof.Machine.execRegisterWrite sp off v s
  | .barWindowRead fn off n => Sys2Proof.Machine.execBarWindowRead fn off n s
  | .barWindowWrite fn off bytes => Sys2Proof.Machine.execBarWindowWrite fn off bytes s
  | .hostHdmAccess pa k => Sys2Proof.Machine.execHostHdmAccess pa k s
  | .hostBirsp line => Sys2Proof.Machine.execHostBirsp line s
  | .poolBisnp line inv bytes => Sys2Proof.Machine.execPoolBisnp line inv bytes s
  | .spdmRequest fn r => Sys2Proof.Machine.execSpdmRequest fn r s
  | .hostSnoop line bytes => Sys2Proof.Machine.execHostSnoop line bytes s
  | .peerRequest r => Sys2Proof.Machine.execPeerRequest r s
  | .collectiveFaultPark die id => Sys2Proof.Machine.execCollectiveFaultPark die id s
  | .zeroingComplete b => Sys2Proof.Machine.execZeroingComplete b s

end Sys2Proof.Machine
end

