-- ==== Sys2Proof/Machine/Moves.lean ====
section
/-! DEFINITION. The moves of the device besides instructions: clocks, the events that time makes due, and what may happen
next when nothing is asked for. -/

namespace Sys2Proof.Machine

/-- The clock of a die is held (R104): its cores, L2, RDC and mesh stand, with all their state. -/
def standing (s : State) (die : Nat) : Bool := (dieAt s die).pstate == 6

/-- The clock of a die advances, unless it is held (R104), or that of the hub (die 4), which never is. -/
def tickDie (die n : Nat) : Prog Unit :=
  if die == 4 then modDev fun d => { d with hub := d.hub + n + 1 }
  else modDie die fun d => if d.pstate == 6 then d else { d with clock := d.clock + n + 1 }

/-- A GDDR7 channel has corrected an error: it is counted, and nothing else (R21). -/
def correctedMove (ch : Nat) : Prog Unit :=
  modDev fun d => if ch < 24 then { d with corrected := Tbl.setD d.corrected ch 0 (Tbl.getD d.corrected ch 0 + 1) } else d

/-- The die whose clock an event of a core or a die needs. -/
def eventDie (i : Instr) : Option Nat :=
  match i with
  | .loadComplete g _ => some (dieOf (keyCore g))
  | .renderComplete g _ _ => some (dieOf (keyCore g))
  | .renderFaultPark g _ => some (dieOf (keyCore g))
  | .leaseEndComplete g => some (dieOf (keyCore g))
  | .wwaitPoll g _ => some (dieOf (keyCore g))
  | .wwaitTimeout g _ => some (dieOf (keyCore g))
  | .joinTimeout g _ => some (dieOf (keyCore g))
  | .sleepExpire g _ => some (dieOf (keyCore g))
  | .wfuseTimeout g => some (dieOf (keyCore g))
  | .engineResultDelivery g _ => some (dieOf (keyCore g))
  | .quadDelivery c => some (dieOf c)
  | .pixelGroupStart c => some (dieOf c)
  | .mxeFetchFault c _ => some (dieOf c)
  | .mxePark c _ => some (dieOf c)
  | .mxeComputeDone c _ => some (dieOf c)
  | .clusterStagePage c _ => some (dieOf c)
  | .recordReplay c => some (dieOf c)
  | .l1Eviction c _ => some (dieOf c)
  | .rdcEviction d _ => some d
  | .rdcStaleDrop d _ => some d
  | .copyCommandStart d _ => some d
  | .copyFaultPark d _ => some d
  | .copyComplete d _ => some d
  | .collectiveMatch d _ => some d
  | .collectiveFaultPark d _ => some d
  | .collectiveComplete d _ => some d
  | _ => none

/-- Whether an event can happen: the clock it needs runs. -/
def mayRun (s : State) (i : Instr) : Bool := (eventDie i).all fun d => !standing s d

/-- Timed events of one entry of a group whose time has come (R175, R330, R400). A join's or a sleep's time does not run
while a handler has set the entry aside (R191, R330). -/
def entryTimed (now k n : Nat) (e : Entry) (aside : Bool) : List Instr :=
  match e.wait with
  | .join _ (some d) _ => if d < now && !aside then [.joinTimeout k n] else []
  | .sleep t => if t ≤ now && !aside then [.sleepExpire k n] else []
  | .wfuse _ _ d _ => if d ≤ now then [.wfuseTimeout k] else []
  | .watch _ _ _ _ _ _ _ _ _ dl poll at_ _ =>
    (match dl with
     | some d => if d ≤ now then [.wwaitTimeout k n] else []
     | none => []) ++ (if poll && at_ ≤ now then [.wwaitPoll k n] else [])
  | _ => []

/-- Timed events of the groups. -/
def groupTimed (s : State) : List Instr :=
  s.groups.flatMap fun x =>
    let now := clockAt s (dieOf (keyCore x.1))
    (x.2.entries.flatMap fun y => entryTimed now x.1 y.1 y.2 false) ++
    (x.2.suspended.flatMap fun y => entryTimed now x.1 y.1 y.2 true)

/-- Timed events of the memory side: leases that expire (R215) and stale RDC lines (R196). -/
def memoryTimed (s : State) : List Instr :=
  (s.dev.leases.filterMap fun x =>
    match x.2.holder with
    | some _ => if leaseExpired (clockAt s (homeOf s.dev x.1).1 % 2 ^ 32) x.2.deadline then some (.leaseExpire x.1) else none
    | none => none) ++
  (s.dies.flatMap fun d =>
    (d.2.rdc.filter fun x => rdcStale d.2.clock x.2).map fun x => .rdcStaleDrop d.1 x.1)

/-- Timed events of the hub: the open sorus (R120), message timers (R95), recoveries (R33), the power estimate (R105) and the
decay of the counters (R50). -/
def hubTimed (s : State) : List Instr :=
  let now := hubClock s
  (match openSorus s.dev.fle with
   | some (_, x) => if x.opened + sorusOpen ≤ now then [.sorusCloseTimeout] else []
   | none => []) ++
  (s.dev.fns.flatMap fun f => (f.2.cqs.filter fun c => cqTimerDue now c.2).map fun c => .msixTimerExpire f.1 c.1) ++
  ((upTo 0 8).filter fun n => (portAt s.dev n).state == 3 && (portAt s.dev n).deadline ≤ now).map .portRecoveryTimeout ++
  (if estimateDue s then [.powerEstimate] else []) ++ (if decayDue s then [.accessCounterDecay] else [])

/-- Events that the clocks have made due: they come before anything else at the same time. -/
def timed (s : State) : List Instr := (groupTimed s ++ memoryTimed s ++ hubTimed s).filter (mayRun s)

/-- Quarters that hold groups. -/
def busyQuarters (s : State) : List (Nat × Nat) :=
  s.groups.foldl (fun l x =>
    let q := (keyCore x.1, x.2.quarter)
    if l.contains q then l else l ++ [q]) []

/-- What caches may do of themselves: evictions (R197, R200), fills under a translation held (R205), predictors lost
(R215). -/
def cacheMoves (s : State) : List Act :=
  (s.cores.flatMap fun c => c.2.l1.map fun x => .event (.l1Eviction c.1 x.1)) ++
  (s.dies.flatMap fun d => d.2.rdc.map fun x => .event (.rdcEviction d.1 x.1)) ++
  (s.teams.flatMap fun t => if t.2.placed then (t.2.priv.dirty.take 1).map fun x => .event (.l1Eviction t.2.core (privVictim t.1 x.1))
    else []) ++
  (s.cores.flatMap fun c => if standing s (dieOf c.1) then [] else c.2.tlb.map fun t => .fill c.1 (t.pa / 128 + Config.freeChoice (s.free + 1) % (t.size / 128))) ++
  s.dev.predict.map fun x => .dropL2 x.1

/-- What the engines may do: commands in progress (R234, R240), matrix contexts and gangs that wait (R244 to R250), quads and
pixel groups (R278, R280). -/
def engineMoves (s : State) : List Act :=
  (s.dies.flatMap fun d => if standing s d.1 then [] else (d.2.copy.filter (·.phase == 1)).map fun c => .copyStep d.1 c.id) ++
  (s.dies.flatMap fun d => if standing s d.1 then [] else (d.2.coll.filter fun c => c.phase == 1 && c.set != 0).map fun c => .collStep d.1 c.id) ++
  (s.cores.flatMap fun c =>
    if standing s (dieOf c.1) then []
    else if c.2.mxe.any (fun x => x.state != 0) || !(mmaWaiting s c.1).isEmpty then [.mxeStep c.1 0, .mxeStep c.1 1] else []) ++
  (s.cores.flatMap fun c => if c.2.rsu.isEmpty then [] else [.event (.quadDelivery c.1)]) ++
  (s.cores.flatMap fun c => if c.2.pixel.isEmpty then [] else [.event (.pixelGroupStart c.1)])

/-- What may happen next of itself (DESIGN CHOICE, log 3): selections, due events, the passing of time, what caches and engines
do, an error corrected. -/
def mayMove (s : State) : List Act :=
  (busyQuarters s).map (fun x => .cycle x.1 x.2) ++
  (s.pending.filter (mayRun s)).map .event ++
  [.tick 0 0, .tick 1 0, .tick 2 0, .tick 3 0, .tick 4 0] ++
  (cacheMoves s ++ engineMoves s).filter (fun a => match a with
    | .event i => mayRun s i
    | _ => true) ++
  [.corrected (Config.freeChoice (s.free + 1) % 24)]

/-- The next move: the head of the agenda; else an event that time has made due; else a free choice among what may
happen (DESIGN CHOICE, log 3). Answers the move and the state without it. -/
def nextMove (s : State) : Act × State :=
  match s.agenda with
  | a :: rest => (a, { s with agenda := rest })
  | [] =>
    let l := match timed s with
      | [] => mayMove s
      | es => es.map .event
    let a := nthD l (Config.freeChoice s.free % l.length) (.tick 0 0)
    let s1 := { s with free := s.free + 1 }
    match a with
    | .event i => (a, { s1 with pending := s1.pending.erase i })
    | _ => (a, s1)

end Sys2Proof.Machine
end

