-- ==== Sys2Proof/Machine/Step.lean ====
section
/-! DEFINITION. One step of the device, and the placing of an instruction where the next step fetches. -/

namespace Sys2Proof.Machine

/-- Executes the instructions a selection has issued, one after the other, each for its split. -/
def issueAll (l : List (Focus × Instr)) (s : State) : Out :=
  match l with
  | [] => .next s
  | (f, i) :: rest =>
    match exec i { s with focus := some f } with
    | .next t => issueAll rest ((afterIssue f).run t).2
    | .fault e => .fault e
    | .refused r => .refused r

/-- Performs one move. -/
def perform (a : Act) (s : State) : Out :=
  match a with
  | .cycle c q => issueAll ((select c q).run s).1 ((select c q).run s).2
  | .event i => exec i { s with focus := none }
  | .tick d n => (tickDie d n).outcome s
  | .fill c l => (fillMove c l).outcome s
  | .dropL2 l => (dropPredictor l).outcome s
  | .corrected c => (correctedMove c).outcome s
  | .copyStep d i => (copyStep d i).outcome s
  | .collStep d i => (collStep d i).outcome s
  | .mxeStep c x => (mxeStep c x).outcome s

/-- One step: the next move, performed. -/
def step (s : State) : Host.Outcome State Fault Refusal := perform (nextMove s).1 (nextMove s).2

/-! ### Placing an instruction (notes/assumptions/42.md) -/

/-- The instruction's words, and zeros after them. -/
def probeWords (nbits w : Nat) : List Word32 :=
  let ws := tableWords 6 (w % 2 ^ nbits)
  match scanWords Scan.start ws with
  | some (_, _, rest) => ws.take (ws.length - rest.length)
  | none => ws

/-- A code line that holds one instruction at slot 0 (R295): START and TARGET at slot 0, USED, CHECK. -/
def probeLine (ws : List Word32) : Line :=
  let head : BitVec 128 := BitVec.ofNat 128 (1 + 2 ^ 28 + ws.length * 2 ^ 112)
  let check := (hCheck head).toNat
  BitVec.ofNat 1024 (head.toNat + check * 2 ^ 120 +
    ((upTo 0 28).zip ws).foldl (fun a x => a + x.2.toNat * 2 ^ (128 + 32 * x.1)) 0)

/-- Where the line lies: its address in the address space, and its storage. -/
def probeVa : Nat := 0x10000

/-- A kernel of one group of 32 lanes with the most base blocks that R137 admits. -/
def probeKernel : Kernel :=
  { width := 32, groups := 1, baseBlk := 16, extKib := 0, tileKib := 64, priv := 4096, csaStride := 0x10000, csaVa := 0x100000,
    restoreVa := 0x30000, trapVa := 0x20000, entry := BitVec.ofNat 64 probeVa }

/-- A team of that kernel on core 0. -/
def probeTeam (key : Nat) : Team :=
  { queue := 0, packet := 0, index := 0, part := 0, ctxidx := 0, asid := 0, prio := 0, start := 0, args := 0,
    kernel := probeKernel, clt := 0, clw := 0, clh := 0, rank := 0, cluster := key, core := 0, placed := true,
    restarting := false, preempting := false, gang := 0, tile := [], zeroing := false, priv := PrivMem.empty,
    groups := [groupKey 0 0 0 false], extUsed := [0, 0, 0, 0], racqFifo := [], arrivals := [], cluArrivals := [],
    failed := false, restart := [], saved := false, frames := [], slots := [(0, 0)], units := [32, 0, 0, 0], pg := none }

/-- The translation of the page that holds the line. -/
def probeTlb : Tlb :=
  { part := 0, asid := 0, va := probeVa, size := 4096, pa := probeVa, w := false, x := true, xr := false, d := false, ac := 0,
    mig := false, leaf2 := 0, two := false, gpa := 0, gpas := [] }

/-- Core 0 as it stands when it may issue: nothing of earlier groups, the page translated, the line fetched. -/
def probeCore (x : Line) : Core :=
  { Core.reset with tlb := [probeTlb], icache := [(probeVa / 128, x)] }

/-- Stores the bytes of the line. -/
def probeStore (x : Line) (os : List Nat) (m : Memory) : Memory :=
  match os with
  | [] => m
  | o :: rest => probeStore x rest (m.set (probeVa + o) (lineByte x o))

/-- The state with one team of one group on core 0 that stands before an instruction, and whose quarter the next step
selects. The line with the instruction is in memory and in the core's instruction cache. -/
def State.withFetchWord (s : State) (nbits w : Nat) : State :=
  let x := probeLine (probeWords nbits w)
  let key := s.dev.nextId
  let t := probeTeam key
  let k := groupKey 0 0 0 false
  let g := Group.start key 0 32 0 0 (allLanes 32) (BitVec.ofNat 64 probeVa) t (BitVec.allOnes 64)
  { s with
    focus := none, agenda := [.cycle 0 0], mem := probeStore x (upTo 0 128) s.mem,
    groups := Tbl.put (s.groups.filter fun y => keyCore y.1 != 0) k g, teams := Tbl.put s.teams key t,
    cores := Tbl.put s.cores 0 (probeCore x),
    dies := Tbl.put s.dies 0 { dieAt s 0 with pstate := 4, changing := none, thermal := false },
    dev := { s.dev with nextId := key + 1, stopped := false, boot := { s.dev.boot with stopped := false },
                        parts := Tbl.mapVals s.dev.parts fun _ y => { y with withheld := 0 } } }

end Sys2Proof.Machine
end

