-- ==== Sys2Proof/Safety.lean ====
section
/-! DEFINITION. What counts as a well-formed state, and the terms in which the statements speak: that a split stands to
execute an instruction, what a step leaves as it was, and what an instruction's result is. -/

namespace Sys2Proof.Machine

/-- The canonical form of the state's tables: memory lists no byte that an unlisted address reads as, and keys rise. -/
def State.canonical (s : State) : Bool :=
  s.mem.wf && Tbl.wf s.groups && Tbl.wf s.teams && Tbl.wf s.cores && Tbl.wf s.dies

/-- A split stands to execute an instruction in context c, and no check at issue (R321) refuses it. -/
abbrev Executes (i : Instr) (ill : Ctx → Bool) (s : State) (c : Ctx) : Prop :=
  ctxOf s (instrMod i) = some c ∧ issueCheck i c (ill c) = none

/-- The split guard of R320 passes. -/
abbrev GuardPasses (c : Ctx) : Prop := splitGuard c.g c.eff c.e.mask = true

/-- The whole-group guard of R182 passes. -/
abbrev GroupGuardPasses (c : Ctx) : Prop := splitGuard c.g c.eff c.g.live = true

/-- Nothing but the tables of groups differs: no byte of memory, no team, core or die, nothing of the device. -/
structure OnlyGroups (s t : State) : Prop where
  mem : ∀ a, t.mem.get a = s.mem.get a
  teams : t.teams = s.teams
  cores : t.cores = s.cores
  dies : t.dies = s.dies
  dev : t.dev = s.dev
  own : t.focus = s.focus ∧ t.agenda = s.agenda ∧ t.pending = s.pending ∧ t.free = s.free

/-- Group k has become g, and nothing else differs. -/
structure GroupStep (s t : State) (k : Nat) (g : Group) : Prop where
  here : Tbl.find? t.groups k = some g
  others : ∀ j, j ≠ k → Tbl.find? t.groups j = Tbl.find? s.groups j
  rest : OnlyGroups s t

/-- Group k has become g; other groups, memory, dies and the device are as they were, and the cores but for their
selectors. A team may differ. -/
structure TeamStep (s t : State) (k : Nat) (g : Group) : Prop where
  here : Tbl.find? t.groups k = some g
  others : ∀ j, j ≠ k → Tbl.find? t.groups j = Tbl.find? s.groups j
  mem : ∀ a, t.mem.get a = s.mem.get a
  cores : ∀ n, { coreAt t n with quarters := (coreAt s n).quarters } = coreAt s n
  dies : t.dies = s.dies
  dev : t.dev = s.dev

/-- What an instruction of the plain families leaves of the group besides registers, FLAGS, the latch chain and its
own entry: every special register, exception register, lease, record and q-register. -/
def Kept (g h : Group) : Prop :=
  { h with v := g.v, s := g.s, p := g.p, flags := g.flags, latch := g.latch, pend := g.pend, entries := g.entries } = g

def SameS (g h : Group) : Prop := ∀ n, h.sreg n = g.sreg n
def SameV (g h : Group) : Prop := ∀ n l, l < 64 → lane (h.vreg n) l = lane (g.vreg n) l
def SameP (g h : Group) : Prop := ∀ n, h.preg n = g.preg n

/-- The entry of the context stands at a PC with a wait, and keeps its MASK, MODE and join binding; the other entries are
as they were. -/
structure Stands (c : Ctx) (h : Group) (pc : Word64) (w : Wait) : Prop where
  entry : ∃ e, Tbl.find? h.entries c.n = some e ∧ e.pc = pc ∧ e.wait = w ∧ e.mask = c.e.mask ∧ e.mode = c.e.mode ∧
    e.join = c.e.join ∧ e.jseq = c.e.jseq
  others : ∀ n, n ≠ c.n → Tbl.find? h.entries n = Tbl.find? c.g.entries n

/-- The entry goes on at a PC. -/
abbrev At (c : Ctx) (h : Group) (pc : Word64) : Prop := Stands c h pc .run

/-- Only the entry has moved: it stands at a PC with a wait; no register, flag or byte of memory differs. -/
def Moved (s : State) (c : Ctx) (pc : Word64) (w : Wait) (o : Out) : Prop :=
  ∃ t g, o = .next t ∧ GroupStep s t c.k g ∧ Stands c g pc w ∧ Kept c.g g ∧ SameS c.g g ∧ SameV c.g g ∧ SameP c.g g ∧
    g.flags = c.g.flags ∧ g.latch = c.g.latch

/-- The instruction was a nop: the group is as it was, the split at the next instruction. -/
abbrev Skipped (s : State) (c : Ctx) (o : Out) : Prop := Moved s c c.f.next .run o

/-- A scalar result (R349): the destination holds x, everything else is as it was, the split at the next instruction. -/
def ScalarDone (s : State) (c : Ctx) (d : SDst) (x : Word64) (o : Out) : Prop :=
  ∃ t g, o = .next t ∧ GroupStep s t c.k g ∧ At c g c.f.next ∧ Kept c.g g ∧
    (∀ n : Fin 64, g.sreg n.val = if d = .s n then x else c.g.sreg n.val) ∧ SameV c.g g ∧ SameP c.g g ∧
    g.flags = c.g.flags ∧ g.latch = c.g.latch

/-- A predicate result: bits of d in the lanes of a mask take those of x, where d is not p0 (R302). -/
def PredDone (s : State) (c : Ctx) (d : Fin 128) (m : Mask) (x : Nat → Bool) (fl : Nat → Flags) (o : Out) : Prop :=
  ∃ t g, o = .next t ∧ GroupStep s t c.k g ∧ At c g c.f.next ∧ Kept c.g g ∧ SameS c.g g ∧ SameV c.g g ∧
    (∀ (n : Fin 128) (l : Nat), l < 64 → hasLane (g.preg n.val) l =
      if n = d ∧ d.val ≠ 0 ∧ hasLane m l = true then x l else hasLane (c.g.preg n.val) l) ∧
    (∀ k, g.flags.getLsbD k = (c.g.flags.getLsbD k || (lanesOf c.act).any fun l => (fl l).getLsbD k)) ∧
    g.latch = c.g.latch

/-- The latch chain has taken a vector result (R166). -/
def Latched (c : Ctx) (g : Group) (x : Nat → Word32) : Prop :=
  (∀ l, l < 64 → lane (g.latchRow 0) l = if hasLane c.act l then x l else 0) ∧
  ∀ k, k < 3 → g.latchRow (k + 1) = c.g.latchRow k

/-- A vector result (R345): in the active lanes the destination holds x; no other lane or register differs; FLAGS has
gained the flags of the active lanes and lost none (R291). -/
def VectorDone (s : State) (c : Ctx) (d : VDst) (x : Nat → Word32) (fl : Nat → Flags) (o : Out) : Prop :=
  ∃ t g, o = .next t ∧ GroupStep s t c.k g ∧ At c g c.f.next ∧ Kept c.g g ∧ SameS c.g g ∧ SameP c.g g ∧
    (∀ (n : Fin 240) (l : Nat), l < 64 → lane (g.vreg n.val) l =
      if d = .v n ∧ hasLane c.act l = true then x l else lane (c.g.vreg n.val) l) ∧
    (∀ k, g.flags.getLsbD k = (c.g.flags.getLsbD k || (lanesOf c.act).any fun l => (fl l).getLsbD k)) ∧
    Latched c g x

/-- A 64-bit vector result in an even register pair: low half in the lower register (R166, R301). -/
def PairDone (s : State) (c : Ctx) (d : VDst) (x : Nat → Word64) (fl : Nat → Flags) (o : Out) : Prop :=
  ∃ t g, o = .next t ∧ GroupStep s t c.k g ∧ At c g c.f.next ∧ Kept c.g g ∧ SameS c.g g ∧ SameP c.g g ∧
    (∀ (n l : Nat), l < 64 → lane (g.vreg n) l =
      match d with
      | .v r => if hasLane c.act l = true ∧ n = r.val then (x l).extractLsb' 0 32
          else if hasLane c.act l = true ∧ n = r.val + 1 then (x l).extractLsb' 32 32 else lane (c.g.vreg n) l
      | .discard => lane (c.g.vreg n) l) ∧
    (∀ k, g.flags.getLsbD k = (c.g.flags.getLsbD k || (lanesOf c.act).any fun l => (fl l).getLsbD k)) ∧
    Latched c g fun l => (x l).extractLsb' 0 32

/-- No lease of the group is held, and no access of it waits at a leased line. -/
abbrev NoLease (s : State) (k : Nat) (g : Group) : Prop :=
  (∀ x ∈ g.leases, x.held = false) ∧ ∀ x ∈ s.dev.leases, LeaseReq.access (.group k) ∉ x.2.queue

/-- A trap of the group can enter its handler (R187, R190): one is set, none runs, and the frame fits the stack. -/
abbrev HandlerReady (t : Team) (g : Group) : Prop :=
  g.trapbase ≠ 0 ∧ g.hnd = false ∧ recFits (stkTop t.kernel.priv) (g.depth + g.entries.length) = true

/-- The group has taken a trap (R187): XPC, XCAUSE, XMODE and XINFO are written, HND is 1, and the handler runs at
TRAPBASE as one split of the live lanes with MODE 0; the frame of the split table lies on the stack; no register, no
predicate and no byte of memory differs. -/
def Trapped (s : State) (c : Ctx) (cause : Cause) (info : Word64) (o : Out) : Prop :=
  ∃ t g m d, o = .next t ∧ TeamStep s t c.k g ∧ g.hnd = true ∧ g.xcause = cause ∧ g.xinfo = info ∧ g.xmode = c.e.mode ∧
    g.xpc = BitVec.ofNat 64 (c.f.pc.toNat % 2 ^ 48) ∧
    (∃ h, g.entries = [(0, h)] ∧ h.pc = c.g.trapbase ∧ h.mask = c.g.live ∧ h.mode = 0 ∧ h.wait = .run) ∧
    pushFrame c.t.priv c.g (stkTop c.t.kernel.priv)
      (frameHeader c.g.live c.n c.g.entries.length c.e.mode cause info g.xpc) = some (m, d) ∧
    g.depth = d ∧ (Tbl.find? t.teams c.g.team).map (·.priv) = some m ∧
    SameS c.g g ∧ SameV c.g g ∧ SameP c.g g ∧ g.flags = c.g.flags ∧ g.live = c.g.live ∧ g.trapbase = c.g.trapbase ∧
    g.rgnentry = c.g.rgnentry

/-! ### Memory accesses -/

/-- A split stands to execute an instruction that a run does not pass again (R132). -/
abbrev Performs (i : Instr) (s : State) (c : Ctx) : Prop := Executes i never s c ∧ c.passing = false

/-- Lanes' addresses of n bytes pass the checks of R383 in tile space, and the tile has been cleared (R108). -/
abbrev TileOpen (c : Ctx) (n : Nat) (l : List (Nat × Word64)) : Prop :=
  (∀ x ∈ l, x.2.toNat % n = 0 ∧ x.2.toNat + n ≤ c.t.tileSize) ∧ c.t.zeroing = false

/-- A byte of a team's tile (R201), 0 where nothing has been written. -/
def tileByte (s : State) (team o : Nat) : Byte := ((Tbl.find? s.teams team).map fun t => Tbl.getD t.tile o 0).getD 0

/-- Nothing at any home holds a request or moves: no frame, watch, lease, host copy, poisoned sector. -/
structure Quiet (s : State) : Prop where
  frames : s.dev.frames = []
  watches : s.dev.watches = []
  leases : s.dev.leases = []
  hostLines : s.dev.hostLines = []
  zeroing : s.dev.zeroingFrames = []
  poison : s.dev.poison = []

/-- One entry of the core's TLB translates every address of a list, for an access of n bytes, to local storage that a context
may reach (R34, R35, R45). -/
structure Mapped (s : State) (c : Ctx) (acc : Acc) (tl : Tlb) (n : Nat) (l : List (Nat × Word64)) : Prop where
  core : c.t.core = keyCore c.k
  hit : ∀ x ∈ l, x.2.toNat < 2 ^ 48 ∧ x.2.toNat % n = 0 ∧
    (coreAt s c.t.core).tlb.find? (fun t => t.covers (teamAgent c.t) x.2.toNat && t.serves acc) = some tl
  storage : ∀ x ∈ l, tl.pas x.2.toNat % n = 0 ∧ isLocal (tl.pas x.2.toNat) = true ∧ paReachable s.dev (tl.pas x.2.toNat) = true

/-- The lanes' physical addresses under a TLB entry. -/
def physicalAddrs (tl : Tlb) (l : List (Nat × Word64)) : List (Nat × Nat) := l.map fun x => (x.1, tl.pas x.2.toNat)

/-- No private line of a team on the core has dirty bytes. -/
abbrev PrivClean (s : State) (core : Nat) : Prop :=
  ∀ x ∈ s.teams, x.2.placed = true → x.2.core = core → x.2.priv.dirty = []

/-- The core's L1 and the RDC of its die hold nothing, private lines included. -/
abbrev CachesClean (s : State) (core : Nat) : Prop :=
  (coreAt s core).l1 = [] ∧ (dieAt s (dieOf core)).rdc = [] ∧ PrivClean s core

/-- The core's L1 has room for a line of every lane (R195). -/
abbrev L1Room (s : State) (core : Nat) : Prop := (coreAt s core).l1.length + 64 ≤ l1Lines ∧ PrivClean s core

/-- An access of class HX goes only when no earlier access of the group is parked (R46, R210). -/
abbrev HxFree (c : Ctx) (tl : Tlb) : Prop := tl.ac = 2 → c.g.pathCParked = false

/-- Bytes after the stores of lanes in ascending order (R389): a byte that no lane covers is as it was, and one that some
lanes cover is the highest lane's. -/
def StoredLast (n : Nat) (l : List (Nat × Nat)) (data : Nat → Nat) (before after : Nat → Byte) : Prop :=
  (∀ o, (∀ x ∈ l, ¬(x.2 ≤ o ∧ o < x.2 + n)) → after o = before o) ∧
  ∀ x ∈ l, ∀ k, k < n → (∀ y ∈ l, x.1 < y.1 → ¬(y.2 ≤ x.2 + k ∧ x.2 + k < y.2 + n)) →
    after (x.2 + k) = BitVec.ofNat 8 (data x.1 / 2 ^ (8 * k))

/-- One lane's atomic on bytes (R391): the bytes with the new value, if there is one, and the old values. -/
def atomicAt (n : Nat) (f : Nat → Nat → Option Nat) (r : (Nat → Byte) × (Nat → Nat)) (x : Nat × Nat) :
    (Nat → Byte) × (Nat → Nat) :=
  let old := ofBytes ((upTo x.2 n).map r.1)
  (fun o => match f x.1 old with
     | some v => if x.2 ≤ o ∧ o < x.2 + n then BitVec.ofNat 8 (v / 2 ^ (8 * (o - x.2))) else r.1 o
     | none => r.1 o,
   fun l => if l = x.1 then old else r.2 l)

/-- The registers that a destination of k words names. -/
def destNames (d : VDst) (k n : Nat) : Prop :=
  match d with
  | .v r => r.val ≤ n ∧ n < r.val + k
  | .discard => False

/-- A register of a destination, counted from its first. -/
def destNth (d : VDst) (n : Nat) : Nat :=
  match d with
  | .v r => n - r.val
  | .discard => 0

/-- The split has gone on while an access of it is in flight (R384): the instruction has left the split at the next
instruction, and the access's return, which the state expects, gives u. -/
def InFlight (s : State) (c : Ctx) (o : Out) (u : State) : Prop :=
  ∃ t g, o = .next t ∧ Tbl.find? t.groups c.k = some g ∧ At c g c.f.next ∧
    (∀ j, j ≠ c.k → Tbl.find? t.groups j = Tbl.find? s.groups j) ∧
    .loadComplete c.k s.dev.nextId ∈ t.pending ∧ exec (.loadComplete c.k s.dev.nextId) t = .next u

/-- A load has been performed and has returned (R384): the destination holds the words of the active lanes, everything
else is as it was, and no byte of memory or of a tile differs. -/
def Loaded (s : State) (c : Ctx) (d : VDst) (k : Nat) (word : Nat → Nat → Word32) (pm : Option (Fin 128)) (o : Out) :
    Prop :=
  ∃ u g, InFlight s c o u ∧ Tbl.find? u.groups c.k = some g ∧ At c g c.f.next ∧ Kept c.g g ∧ SameS c.g g ∧
    (∀ (n l : Nat), l < 64 → (destNames d k n ∧ hasLane c.act l = true → lane (g.vreg n) l = word l (destNth d n)) ∧
      (¬(destNames d k n ∧ hasLane c.act l = true) → lane (g.vreg n) l = lane (c.g.vreg n) l)) ∧
    (∀ (n : Fin 128) (l : Nat), l < 64 → hasLane (g.preg n.val) l =
      if pm = some n ∧ n.val ≠ 0 ∧ hasLane c.act l = true then true else hasLane (c.g.preg n.val) l) ∧
    g.flags = c.g.flags ∧ Latched c g (fun l => word l 0) ∧
    (∀ j, j ≠ c.k → Tbl.find? u.groups j = Tbl.find? s.groups j) ∧ (∀ a, u.mem.get a = s.mem.get a) ∧ u.teams = s.teams

/-- A scalar load has been performed and has returned. -/
def ScalarLoaded (s : State) (c : Ctx) (d : SDst) (x : Word64) (o : Out) : Prop :=
  ∃ u g, InFlight s c o u ∧ Tbl.find? u.groups c.k = some g ∧ At c g c.f.next ∧ Kept c.g g ∧
    (∀ n : Fin 64, g.sreg n.val = if d = .s n then x else c.g.sreg n.val) ∧ SameV c.g g ∧ SameP c.g g ∧
    g.flags = c.g.flags ∧ g.latch = c.g.latch ∧
    (∀ j, j ≠ c.k → Tbl.find? u.groups j = Tbl.find? s.groups j) ∧ (∀ a, u.mem.get a = s.mem.get a) ∧ u.teams = s.teams

/-- A store has been performed: the split goes on; no register differs, no other group. An ordered store commits
(R386). -/
def Stored (s : State) (c : Ctx) (ord : Bool) (o : Out) (t : State) : Prop :=
  ∃ g, o = .next t ∧ Tbl.find? t.groups c.k = some g ∧ At c g c.f.next ∧ SameS c.g g ∧ SameV c.g g ∧ SameP c.g g ∧
    g.flags = c.g.flags ∧ g.latch = c.g.latch ∧ g.rgnentry = (if ord then c.f.next else c.g.rgnentry) ∧
    (∀ j, j ≠ c.k → Tbl.find? t.groups j = Tbl.find? s.groups j)

/-- An atomic has been performed and its old values have returned; the instruction has committed (R386). -/
def Exchanged (s : State) (c : Ctx) (d : VDst) (k : Nat) (old : Nat → Nat) (o : Out) (u : State) : Prop :=
  ∃ g, (match d with
      | .v _ => InFlight s c o u
      | .discard => o = .next u) ∧
    Tbl.find? u.groups c.k = some g ∧ At c g c.f.next ∧ g.rgnentry = c.f.next ∧ SameS c.g g ∧ SameP c.g g ∧
    (∀ (n l : Nat), l < 64 →
      (destNames d k n ∧ hasLane c.act l = true → lane (g.vreg n) l = BitVec.ofNat 32 (old l / 2 ^ (32 * destNth d n))) ∧
      (¬(destNames d k n ∧ hasLane c.act l = true) → lane (g.vreg n) l = lane (c.g.vreg n) l)) ∧
    g.flags = c.g.flags ∧ Latched c g (fun l => BitVec.ofNat 32 (old l)) ∧
    (∀ j, j ≠ c.k → Tbl.find? u.groups j = Tbl.find? s.groups j)

/-- A byte and its dirty mark in the L1 of a core, of the copy that is no constant-space one. -/
def l1Byte (s : State) (core pa : Nat) : Byte :=
  lineByte (Tbl.getD (coreAt s core).l1 (l1Key pa false) (CLine.empty false false 0)).data (pa % 128)

def l1Dirty (s : State) (core pa : Nat) : Bool :=
  (Tbl.getD (coreAt s core).l1 (l1Key pa false) (CLine.empty false false 0)).dirty.getLsbD (pa % 128)

/-! ### Guards -/

/-- Instructions that act once for the split and are a nop where the split guard fails (R320, R349, R390, R394 to R396,
R400, R405, R415, R427, R429). A command push has no guard (R182). -/
def splitGuarded (c : Ctx) (i : Instr) : Bool :=
  match i with
  | .sadd .. | .ssub .. | .smul .. | .sand .. | .sor .. | .sxor .. | .sshl .. | .sshr .. | .ssar .. | .smin .. | .smax ..
  | .smov .. | .scmpEq .. | .scmpNe .. | .scmpLt .. | .scmpLtu .. | .scmpLe .. | .scmpLeu .. | .sbfx .. | .call ..
  | .brx .. | .brxCall .. | .join .. | .yield .. | .yieldC .. | .sleep .. | .modeImm .. | .modeScalar .. | .racq ..
  | .rrel .. | .trap .. | .brk .. | .xret .. | .srd .. | .swr .. | .sld .. | .sst .. | .qPop .. | .qPeek .. | .qStat ..
  | .qBind .. | .rrRead .. | .rrWrite .. | .rrRetire .. | .lease .. | .leaseEnd .. | .fence .. | .fencePhase ..
  | .xfence .. | .wwait .. | .engErd .. | .engEwr .. | .engEresume .. | .rndMshemit .. => true
  | .vtos _ _ _ b => !vtosIll b c
  | .qPush .. => !pushesCommand c.g i
  | _ => false

/-- Whole-group instructions whose guard is tested at the group's lowest live lane (R182). -/
def groupGuardedForm (c : Ctx) (i : Instr) : Bool :=
  match i with
  | .bar .. | .wsplit .. | .wfuse .. => true
  | .barClu .. => c.t.clt != 0
  | .rgn _ v _ _ => v.toNat < 2 ^ c.g.blocks
  | _ => false

/-! ### Device events -/

/-- An event has answered a next state of which P holds. -/
def Gives (o : Out) (P : State → Prop) : Prop := ∃ t, o = .next t ∧ P t

/-- Every byte of memory is as it was. -/
def BytesKept (s t : State) : Prop := ∀ a, t.mem.get a = s.mem.get a

/-- Every byte outside n bytes from an address is as it was. -/
def BytesOutside (s t : State) (a n : Nat) : Prop := ∀ b, ¬(a ≤ b ∧ b < a + n) → t.mem.get b = s.mem.get b

/-- n bytes from an address hold x. -/
def BytesAre (t : State) (a n : Nat) (x : Nat → Byte) : Prop := ∀ o, o < n → t.mem.get (a + o) = x o

/-- No group, team or core differs. -/
def CoresKept (s t : State) : Prop := t.groups = s.groups ∧ t.teams = s.teams ∧ t.cores = s.cores

/-- No group, team, core or die differs, and no byte of memory. -/
def DevOnly (s t : State) : Prop := CoresKept s t ∧ t.dies = s.dies ∧ BytesKept s t

/-- No group, team, core or die differs, and no byte of memory outside the descriptor of a queue (R62). -/
def QueueOnly (s t : State) (q : Nat) : Prop :=
  CoresKept s t ∧ t.dies = s.dies ∧
  ∀ a, (∀ o, o < 64 → a ≠ storedAt s.dev (s.dev.qdtbase.toNat + 128 * q + o)) → t.mem.get a = s.mem.get a

/-- The order in which a completion queue that is not enabled holds entries: the new one last, while the buffer has room
(R94). -/
abbrev Posted (s t : State) (fn q : Nat) (e : BitVec 128) : Prop :=
  (cqAt t.dev fn q).buffer = (cqAt s.dev fn q).buffer ++ [e]

/-- A completion queue that is not enabled and whose function still buffers (R94). -/
abbrev Buffers (s : State) (fn q : Nat) : Prop := (cqAt s.dev fn q).enabled = false ∧ buffered s.dev fn < 256

/-- The range of a TLB_INVAL names an entry (R81). -/
def inRange (tl : Tlb) (part : Nat) (asid : Option Nat) (addr pages : Nat) : Prop :=
  tl.part = part ∧ (∀ k, asid = some k → tl.asid = k) ∧
  (pages = 0 ∨ (tl.va < addr / 4096 * 4096 + 4096 * pages ∧ addr / 4096 * 4096 < tl.va + tl.size))

/-- One record waits on a page, and on nothing else; nothing else waits on that page, and no unit holds a fault (R113, R118). -/
structure WaitsOn (s : State) (core w slot : Nat) (z : RrSlotState) (key : PageKey) : Prop where
  filter : ∃ e, (coreAt s core).filter = [e] ∧ e.key = key ∧ e.waiters = [(w, slot)]
  others : ∀ k, k ≠ core → (coreAt s k).filter = []
  record : ∃ g, Tbl.find? s.groups w = some g ∧ Tbl.find? g.rr slot = some z
  parked : z.stat = rrParked ∧ ∀ p ∈ z.pages, isPage key p = true
  held : ∀ y ∈ s.groups, y.2.overflow = []
  engines : ∀ k, (dieAt s k).copyRr = []
  queues : parkedOn s.dev key = []
  peers : s.dev.peerWaits = []

/-- The agent that reads a partition's admin words (R100). -/
def adminAgent (s : State) (p : Nat) : Agent :=
  { part := p, ctxidx := 0, asid := (readCtx s p 0).elim 0 (·.asid), core := none, die := none }

end Sys2Proof.Machine
end

