-- ==== Sys2Proof/Certificates/Slice0/Obligations.lean ====
section
/-! DEFINITION. The statements for the provers. Each is about every state that meets its hypotheses, whether or not a run
reaches it. -/

open Sys2Proof Sys2Proof.Machine

/-! ### Scalar and vector instructions -/

/-- Scalar arithmetic (R349 to R353). Where the split guard passes, each instruction writes its result to the scalar
destination and nothing else, and the split goes on at the next instruction. -/
def Obligations.ScalarArithmetic : Prop :=
  ∀ (m : Option Mod) (im : Option Imm) (d : SDst) (a : SSrc) (b : SB) (w : BitVec 6) (va : VSrc) (n : BitVec 8) (sb : SSrc)
    (s : State) (c : Ctx), GuardPasses c →
    let x := c.g.ssrc a im
    let y := c.g.sb b im
    (Executes (.sadd m im d a b) never s c → ScalarDone s c d (x + y) (exec (.sadd m im d a b) s)) ∧
    (Executes (.ssub m im d a b) never s c → ScalarDone s c d (x - y) (exec (.ssub m im d a b) s)) ∧
    (Executes (.smul m im d a b) never s c → ScalarDone s c d (x * y) (exec (.smul m im d a b) s)) ∧
    (Executes (.sand m im d a b) never s c → ScalarDone s c d (x &&& y) (exec (.sand m im d a b) s)) ∧
    (Executes (.sor m im d a b) never s c → ScalarDone s c d (x ||| y) (exec (.sor m im d a b) s)) ∧
    (Executes (.sxor m im d a b) never s c → ScalarDone s c d (x ^^^ y) (exec (.sxor m im d a b) s)) ∧
    (Executes (.sshl m im d a b) never s c → ScalarDone s c d (x <<< y.toNat) (exec (.sshl m im d a b) s)) ∧
    (Executes (.sshr m im d a b) never s c → ScalarDone s c d (x >>> y.toNat) (exec (.sshr m im d a b) s)) ∧
    (Executes (.ssar m im d a b) never s c → ScalarDone s c d (x.sshiftRight y.toNat) (exec (.ssar m im d a b) s)) ∧
    (Executes (.smin m im d a b) never s c →
      ScalarDone s c d (if x.toInt ≤ y.toInt then x else y) (exec (.smin m im d a b) s)) ∧
    (Executes (.smax m im d a b) never s c →
      ScalarDone s c d (if x.toInt ≤ y.toInt then y else x) (exec (.smax m im d a b) s)) ∧
    (Executes (.smov m im d b) never s c → ScalarDone s c d y (exec (.smov m im d b) s)) ∧
    (Executes (.sbfx m im d a b w) never s c →
      ScalarDone s c d (BitVec.ofNat 64 (x.toNat / 2 ^ y.toNat % 2 ^ (if w = 0 then 64 else w.toNat)))
        (exec (.sbfx m im d a b w) s)) ∧
    (Executes (.vtos m d va (.num n)) never s c → n.toNat < c.g.width →
      ScalarDone s c d ((lane (c.g.vsrc va none) n.toNat).setWidth 64) (exec (.vtos m d va (.num n)) s)) ∧
    (Executes (.vtos m d va (.sreg sb)) never s c →
      ScalarDone s c d ((lane (c.g.vsrc va none) ((c.g.ssrc sb none).toNat % c.g.width)).setWidth 64)
        (exec (.vtos m d va (.sreg sb)) s))

/-- Scalar compares (R351): the predicate takes the outcome in every lane of the split's MASK, and no other lane. -/
def Obligations.ScalarCompare : Prop :=
  ∀ (m : Option Mod) (im : Option Imm) (d : Fin 128) (a : SSrc) (b : SB) (s : State) (c : Ctx), GuardPasses c →
    let x := c.g.ssrc a im
    let y := c.g.sb b im
    let done := fun (r : Bool) (o : Out) => PredDone s c d c.e.mask (fun _ => r) (fun _ => 0) o
    (Executes (.scmpEq m im d a b) never s c → done (decide (x = y)) (exec (.scmpEq m im d a b) s)) ∧
    (Executes (.scmpNe m im d a b) never s c → done (decide (x ≠ y)) (exec (.scmpNe m im d a b) s)) ∧
    (Executes (.scmpLt m im d a b) never s c → done (decide (x.toInt < y.toInt)) (exec (.scmpLt m im d a b) s)) ∧
    (Executes (.scmpLtu m im d a b) never s c → done (decide (x.toNat < y.toNat)) (exec (.scmpLtu m im d a b) s)) ∧
    (Executes (.scmpLe m im d a b) never s c → done (decide (x.toInt ≤ y.toInt)) (exec (.scmpLe m im d a b) s)) ∧
    (Executes (.scmpLeu m im d a b) never s c → done (decide (x.toNat ≤ y.toNat)) (exec (.scmpLeu m im d a b) s))

/-- Vector integer arithmetic and logic (R345, R346, R354 to R357): each active lane of the destination takes its result. Under
SAT iadd and isub clamp the exact result to INT32, and a lane that clamps raises ISAT; without SAT they wrap; every other
instruction here has one result, whatever SAT is, and FLAGS keeps its value. -/
def Obligations.VectorInteger : Prop :=
  ∀ (m : Option Mod) (im : Option Imm) (d : VDst) (a : VSrc) (b : VB) (z : Option VSrc) (p : Fin 128) (s : State) (c : Ctx),
    let x := fun l => lane (c.g.vsrc a im) l
    let y := fun l => lane (c.g.vb b im) l
    let done := fun (f : Word32 → Word32 → Word32) (o : Out) => VectorDone s c d (fun l => f (x l) (y l)) (fun _ => 0) o
    let clamped := fun (f : Int → Int → Int) (o : Out) =>
      let exact := fun l => f (x l).toInt (y l).toInt
      let r := fun l => max (-(2 ^ 31)) (min (2 ^ 31 - 1) (exact l))
      VectorDone s c d (fun l => BitVec.ofInt 32 (if c.eff.sat then r l else exact l))
        (fun l => if c.eff.sat = true ∧ r l ≠ exact l then fISAT else 0) o
    (Executes (.iadd m im d a b) never s c → clamped (fun x y => x + y) (exec (.iadd m im d a b) s)) ∧
    (Executes (.isub m im d a b) never s c → clamped (fun x y => x - y) (exec (.isub m im d a b) s)) ∧
    (Executes (.imul m im d a b) never s c → done (fun x y => x * y) (exec (.imul m im d a b) s)) ∧
    (Executes (.imulh m im d a b) never s c →
      done (fun x y => BitVec.ofInt 32 (x.toInt * y.toInt / 2 ^ 32)) (exec (.imulh m im d a b) s)) ∧
    (Executes (.imulhu m im d a b) never s c →
      done (fun x y => BitVec.ofNat 32 (x.toNat * y.toNat / 2 ^ 32)) (exec (.imulhu m im d a b) s)) ∧
    (Executes (.vAnd m im d a b) never s c → done (fun x y => x &&& y) (exec (.vAnd m im d a b) s)) ∧
    (Executes (.vOr m im d a b) never s c → done (fun x y => x ||| y) (exec (.vOr m im d a b) s)) ∧
    (Executes (.vXor m im d a b) never s c → done (fun x y => x ^^^ y) (exec (.vXor m im d a b) s)) ∧
    (Executes (.vAndn m im d a b) never s c → done (fun x y => x &&& ~~~y) (exec (.vAndn m im d a b) s)) ∧
    (Executes (.shl m im d a b) never s c → done (fun x y => x <<< y.toNat) (exec (.shl m im d a b) s)) ∧
    (Executes (.shr m im d a b) never s c → done (fun x y => x >>> y.toNat) (exec (.shr m im d a b) s)) ∧
    (Executes (.sar m im d a b) never s c → done (fun x y => x.sshiftRight y.toNat) (exec (.sar m im d a b) s)) ∧
    (Executes (.rot m im d a b) never s c → done (fun x y => x.rotateLeft (y.toNat % 32)) (exec (.rot m im d a b) s)) ∧
    (Executes (.imin m im d a b) never s c →
      done (fun x y => if x.toInt ≤ y.toInt then x else y) (exec (.imin m im d a b) s)) ∧
    (Executes (.imax m im d a b) never s c →
      done (fun x y => if x.toInt ≤ y.toInt then y else x) (exec (.imax m im d a b) s)) ∧
    (Executes (.umin m im d a b) never s c →
      done (fun x y => if x.toNat ≤ y.toNat then x else y) (exec (.umin m im d a b) s)) ∧
    (Executes (.umax m im d a b) never s c →
      done (fun x y => if x.toNat ≤ y.toNat then y else x) (exec (.umax m im d a b) s)) ∧
    (Executes (.mov m im d b) never s c → done (fun _ y => y) (exec (.mov m im d b) s)) ∧
    (Executes (.imad m im d a b z) never s c →
      VectorDone s c d (fun l => x l * y l + lane (c.g.third z d im) l) (fun _ => 0) (exec (.imad m im d a b z) s)) ∧
    (Executes (.sel m im d a b p) never s c →
      VectorDone s c d (fun l => if hasLane (c.g.preg p.val) l then x l else y l) (fun _ => 0)
        (exec (.sel m im d a b p) s)) ∧
    (Executes (.pack m im d a b) never s c →
      done (fun x y => y.extractLsb' 0 16 ++ x.extractLsb' 0 16) (exec (.pack m im d a b) s)) ∧
    (Executes (.unpack m im d a b) never s c →
      done (fun x y => if y.getLsbD 0 then x >>> 16 else x &&& 0xFFFF) (exec (.unpack m im d a b) s))

/-- The operations of iun (R361): abs and neg as INT32, where SAT clamps the one result out of range and sets ISAT; the others bit
by bit. -/
def Obligations.IntegerUnary : Prop :=
  ∀ (m : Option Mod) (d : VDst) (a : VSrc) (s : State) (c : Ctx) (op : IunOp),
    Executes (.iun m d a op) never s c →
    ∃ (r : Nat → Word32) (fl : Nat → Flags), VectorDone s c d r fl (exec (.iun m d a op) s) ∧ ∀ l,
      let x := lane (c.g.vsrc a none) l
      let outside := x = 0x80000000 ∧ c.eff.sat = true
      (fl l = if (op = .abs ∨ op = .neg) ∧ outside then fISAT else 0) ∧
      match op with
      | .abs => r l = if outside then 0x7FFFFFFF else if x.toInt < 0 then -x else x
      | .neg => r l = if outside then 0x7FFFFFFF else -x
      | .not => r l = ~~~x
      | .clz => (r l).toNat ≤ 32 ∧ (∀ k, k < (r l).toNat → x.getLsbD (31 - k) = false) ∧
          ((r l).toNat < 32 → x.getLsbD (31 - (r l).toNat) = true)
      | .ctz => (r l).toNat ≤ 32 ∧ (∀ k, k < (r l).toNat → x.getLsbD k = false) ∧
          ((r l).toNat < 32 → x.getLsbD (r l).toNat = true)
      | .popc => (r l).toNat = ((List.range 32).filter fun k => x.getLsbD k).length
      | .brev => ∀ k, k < 32 → (r l).getLsbD k = x.getLsbD (31 - k)
      | .sext8 => (r l).toInt = (x.extractLsb' 0 8).toInt
      | .sext16 => (r l).toInt = (x.extractLsb' 0 16).toInt
      | .zext8 => (r l).toNat = x.toNat % 2 ^ 8
      | .zext16 => (r l).toNat = x.toNat % 2 ^ 16

/-- 64-bit sums and bit fields (R358, R359). -/
def Obligations.PairsAndFields : Prop :=
  ∀ (m : Option Mod) (im : Option Imm) (d : VDst) (a : VSrc) (b : VB) (z : VSrc) (k : Option (BitVec 6)) (w : BitVec 6)
    (s : State) (c : Ctx), 1 ≤ w.toNat → w.toNat ≤ 32 →
    let x := fun l => lane (c.g.vsrc a im) l
    let y := fun l => lane (c.g.vb b im) l
    (Executes (.lea m im d a b k) never s c →
      PairDone s c d (fun l => c.g.vsrc64 a im l + ((y l).setWidth 64 <<< (k.getD 0).toNat)) (fun _ => 0)
        (exec (.lea m im d a b k) s)) ∧
    (Executes (.add64 m im d a b) never s c →
      PairDone s c d (fun l => c.g.vsrc64 a im l + c.g.vb64 b im l) (fun _ => 0) (exec (.add64 m im d a b) s)) ∧
    (Executes (.bfx m im d a b w) never s c →
      VectorDone s c d (fun l => BitVec.ofNat 32 ((x l).toNat / 2 ^ (y l).toNat % 2 ^ w.toNat)) (fun _ => 0)
        (exec (.bfx m im d a b w) s)) ∧
    (Executes (.bfi m im d a b w z) never s c →
      ∃ r : Nat → Word32, VectorDone s c d r (fun _ => 0) (exec (.bfi m im d a b w z) s) ∧ ∀ l j, j < 32 →
        (r l).getLsbD j = if (y l).toNat ≤ j ∧ j < (y l).toNat + w.toNat then (x l).getLsbD (j - (y l).toNat)
          else (lane (c.g.vsrc z im) l).getLsbD j)

/-- Integer compares and predicate logic (R360, R379): written in the active lanes alone; p0 is never written. -/
def Obligations.CompareAndPredicate : Prop :=
  ∀ (m : Option Mod) (im : Option Imm) (d p q : Fin 128) (a : VSrc) (b : VB) (op : PopOp) (s : State) (c : Ctx),
    let x := fun l => lane (c.g.vsrc a im) l
    let y := fun l => lane (c.g.vb b im) l
    let u := fun l => hasLane (c.g.preg p.val) l
    let v := fun l => hasLane (c.g.preg q.val) l
    let done := fun (f : Nat → Bool) (o : Out) => PredDone s c d c.act f (fun _ => 0) o
    (Executes (.icmpEq m im d a b) never s c → done (fun l => decide (x l = y l)) (exec (.icmpEq m im d a b) s)) ∧
    (Executes (.icmpNe m im d a b) never s c → done (fun l => decide (x l ≠ y l)) (exec (.icmpNe m im d a b) s)) ∧
    (Executes (.icmpLt m im d a b) never s c →
      done (fun l => decide ((x l).toInt < (y l).toInt)) (exec (.icmpLt m im d a b) s)) ∧
    (Executes (.icmpLe m im d a b) never s c →
      done (fun l => decide ((x l).toInt ≤ (y l).toInt)) (exec (.icmpLe m im d a b) s)) ∧
    (Executes (.icmpLtu m im d a b) never s c →
      done (fun l => decide ((x l).toNat < (y l).toNat)) (exec (.icmpLtu m im d a b) s)) ∧
    (Executes (.icmpLeu m im d a b) never s c →
      done (fun l => decide ((x l).toNat ≤ (y l).toNat)) (exec (.icmpLeu m im d a b) s)) ∧
    (Executes (.itest m im d a b) never s c → done (fun l => decide (x l &&& y l ≠ 0)) (exec (.itest m im d a b) s)) ∧
    (Executes (.pop m op d p q) never s c → done (fun l => match op with
        | .and => u l && v l
        | .or => u l || v l
        | .xor => u l != v l
        | .andn => u l && !v l
        | .orn => u l || !v l
        | .nand => !(u l && v l)
        | .nor => !(u l || v l)
        | .xnor => u l == v l
        | .mov => u l
        | .not => !u l) (exec (.pop m op d p q) s))

/-- Floating-point arithmetic of one result per lane (R362 to R365, R368): each active lane takes the rounded results of
its elements, and FLAGS gains the flags of the active lanes alone (R291). -/
def Obligations.FloatArithmetic : Prop :=
  ∀ (m : Option Mod) (im : Option Imm) (d : VDst) (a : VSrc) (b : VB) (z : Option VSrc) (op : FunOp) (s : State) (c : Ctx),
    let x := fun l => lane (c.g.vsrc a im) l
    let y := fun l => lane (c.g.vb b im) l
    let t := fun l => lane (c.g.third z d im) l
    let md := c.eff.fmode false
    let done := fun (f : Nat → Word32 × Flags) (o : Out) => VectorDone s c d (fun l => (f l).1) (fun l => (f l).2) o
    let each2 := fun (f : Fmt → FMode → Nat → Nat → FRes) (l : Nat) =>
      perElement c.eff fun k => f c.eff.fmt md (element c.eff (x l) k) (element c.eff (y l) k)
    (Executes (.fadd m im d a b) never s c → done (each2 fAdd) (exec (.fadd m im d a b) s)) ∧
    (Executes (.fsub m im d a b) never s c → done (each2 fSub) (exec (.fsub m im d a b) s)) ∧
    (Executes (.fmul m im d a b) never s c → done (each2 fMul) (exec (.fmul m im d a b) s)) ∧
    (Executes (.fmin m im d a b) never s c → done (each2 fun f md => fMinMax f md false) (exec (.fmin m im d a b) s)) ∧
    (Executes (.fmax m im d a b) never s c → done (each2 fun f md => fMinMax f md true) (exec (.fmax m im d a b) s)) ∧
    (Executes (.ffma m im d a b z) never s c → done (fun l => perElement c.eff fun k =>
      fFma c.eff.fmt md (element c.eff (x l) k) (element c.eff (y l) k) (element c.eff (t l) k))
        (exec (.ffma m im d a b z) s)) ∧
    (Executes (.fdot2 m im d a b z) never s c → c.eff.et ≠ 0 →
      done (fun l => dot2Lane c.eff (x l) (y l) (t l)) (exec (.fdot2 m im d a b z) s)) ∧
    (Executes (.fclass m d a) never s c → VectorDone s c d (fun l => classLane c.eff (lane (c.g.vsrc a none) l)) (fun _ => 0)
      (exec (.fclass m d a) s)) ∧
    (Executes (.funop m d a op) never s c → (funTranscends op = true → c.eff.et = 0) →
      done (fun l => funLane op c.eff (lane (c.g.vsrc a none) l)) (exec (.funop m d a op) s))

/-- FP64 arithmetic (R369): a pair in each active lane, rounded under RM alone. -/
def Obligations.DoubleArithmetic : Prop :=
  ∀ (m : Option Mod) (im : Option Imm) (d : VDst) (a : VSrc) (b : VB) (z : Option VSrc) (s : State) (c : Ctx),
    let x := fun l => (c.g.vsrc64 a im l).toNat
    let y := fun l => (c.g.vb64 b im l).toNat
    let md : FMode := ⟨c.eff.rm, false, false⟩
    let done := fun (f : Nat → FRes) (o : Out) =>
      PairDone s c d (fun l => BitVec.ofNat 64 (f l).code) (fun l => (f l).flags) o
    (Executes (.dadd m im d a b) never s c → done (fun l => fAdd fp64 md (x l) (y l)) (exec (.dadd m im d a b) s)) ∧
    (Executes (.dmul m im d a b) never s c → done (fun l => fMul fp64 md (x l) (y l)) (exec (.dmul m im d a b) s)) ∧
    (Executes (.dfma m im d a b z) never s c →
      done (fun l => fFma fp64 md (x l) (y l) (c.g.third64 z d im l).toNat) (exec (.dfma m im d a b z) s))

/-- Floating-point compares (R366, R369): a predicate in the active lanes, flags by the compare. -/
def Obligations.FloatCompare : Prop :=
  ∀ (m : Option Mod) (im : Option Imm) (d : Fin 128) (a : VSrc) (b : VB) (s : State) (c : Ctx),
    let e := c.eff
    let one := fun (k : FCmp) (o : Out) =>
      let r := fun l => fCompare e.fmt (e.fmode false) k (element e (lane (c.g.vsrc a im) l) 0)
        (element e (lane (c.g.vb b im) l) 0)
      PredDone s c d c.act (fun l => (r l).1) (fun l => (r l).2) o
    let two := fun (k : FCmp) (o : Out) =>
      let r := fun l => fCompare fp64 ⟨e.rm, false, false⟩ k (c.g.vsrc64 a im l).toNat (c.g.vb64 b im l).toNat
      PredDone s c d c.act (fun l => (r l).1) (fun l => (r l).2) o
    (Executes (.fcmpEq m im d a b) never s c → one .eq (exec (.fcmpEq m im d a b) s)) ∧
    (Executes (.fcmpNe m im d a b) never s c → one .ne (exec (.fcmpNe m im d a b) s)) ∧
    (Executes (.fcmpLt m im d a b) never s c → one .lt (exec (.fcmpLt m im d a b) s)) ∧
    (Executes (.fcmpLe m im d a b) never s c → one .le (exec (.fcmpLe m im d a b) s)) ∧
    (Executes (.fcmpUn m im d a b) never s c → one .un (exec (.fcmpUn m im d a b) s)) ∧
    (Executes (.dcmpLt m im d a b) never s c → two .lt (exec (.dcmpLt m im d a b) s)) ∧
    (Executes (.dcmpEq m im d a b) never s c → two .eq (exec (.dcmpEq m im d a b) s))

/-- Conversions and MX quantisation (R294, R370, R372, R373). Every cvt completes: its lanes take the converted values. mxq of a
legal format writes each active lane's element and, with EXT C, the scale of its block beside it; mxdq each lane's product. A
format that is not legal traps ILLEGAL_WORD, mxq at width 16 WIDTH. The scale of a block with a NaN or an infinity is 0xFF, with
elements 0; of one of zeros it is 0; and it is one for the active lanes of the block. -/
def Obligations.Conversions : Prop :=
  (∀ (m : Option Mod) (d : VDst) (a : VSrc) (op : CvtOp) (s : State) (c : Ctx), Executes (.cvt m d a op) never s c →
    (cvtWide op = false →
      VectorDone s c d (fun l => BitVec.ofNat 32 (cvtAt op a c l).code) (fun l => (cvtAt op a c l).flags)
        (exec (.cvt m d a op) s)) ∧
    (cvtWide op = true →
      PairDone s c d (fun l => BitVec.ofNat 64 (cvtAt op a c l).code) (fun l => (cvtAt op a c l).flags)
        (exec (.cvt m d a op) s))) ∧
  (∀ (m : Option Mod) (im : Option Imm) (d : VDst) (a : VSrc) (f : FmtSrc) (z : Option (Fin 240)) (s : State) (c : Ctx),
    let q : Instr := .mxq m im d a f z
    let dq : Instr := .mxdq m im d a f z
    let ready := HandlerReady c.t c.g ∧ NoLease s c.k c.g ∧ c.g.ending = false
    (Executes q never s c → c.g.width ≠ 16 → ∀ t emax, mxFormat (fmtValue c.g f im) = some (t, emax) →
      let r := mxqLane t emax (c.eff.fmode c.eff.sat) (c.g.vsrc a im) c.act
      ∃ u g, exec q s = .next u ∧ GroupStep s u c.k g ∧ At c g c.f.next ∧ Kept c.g g ∧ SameS c.g g ∧ SameP c.g g ∧
        (∀ (n : Fin 240) (l : Nat), l < 64 → lane (g.vreg n.val) l =
          if hasLane c.act l = false then lane (c.g.vreg n.val) l
          else if z = some n then BitVec.ofNat 32 (r l).1
          else if d = .v n then BitVec.ofNat 32 (r l).2.code else lane (c.g.vreg n.val) l) ∧
        (∀ k, g.flags.getLsbD k = (c.g.flags.getLsbD k || (lanesOf c.act).any fun l => (r l).2.flags.getLsbD k)) ∧
        Latched c g fun l => BitVec.ofNat 32 (r l).2.code) ∧
    (Executes dq never s c → ∀ t emax, mxFormat (fmtValue c.g f im) = some (t, emax) →
      let r := fun l => mxdqLane t (c.eff.fmode false) (z.elim 0x7F fun n => bits (lane (c.g.vreg n.val) l) 0 8)
        (lane (c.g.vsrc a im) l).toNat
      VectorDone s c d (fun l => BitVec.ofNat 32 (r l).code) (fun l => (r l).flags) (exec dq s)) ∧
    (Executes q never s c → ready → c.g.width = 16 → Trapped s c cWidth 0 (exec q s)) ∧
    (Executes q never s c → ready → c.g.width ≠ 16 → mxFormat (fmtValue c.g f im) = none → Trapped s c cIllegal 0 (exec q s)) ∧
    (Executes dq never s c → ready → mxFormat (fmtValue c.g f im) = none → Trapped s c cIllegal 0 (exec dq s))) ∧
  (∀ (t : Fmt) (emax : Nat) (md : FMode) (x : Row) (act : Mask) (l : Nat), hasLane act l = true → l < 64 →
    let value := fun k => readOperand fp32 md (lane x k).toNat
    let block := fun k => k / 32 = l / 32 ∧ hasLane act k = true
    ((∃ k, k < 64 ∧ block k ∧ ((value k).isNan = true ∨ (value k).isInf = true)) →
      mxqLane t emax md x act l = (0xFF, ⟨0, fNV⟩)) ∧
    ((∀ k, k < 64 → block k → ∃ sg e, value k = .fin sg 0 e) → (mxqLane t emax md x act l).1 = 0) ∧
    ∀ k, k < 64 → block k → (mxqLane t emax md x act k).1 = (mxqLane t emax md x act l).1)

/-- Cross-lane reads, votes, reductions and scans (R374 to R378), for the execution masks of the group's width.
What a reduction and a scan compute (R377, R378): with lanes l0 < l1 < …, the first is the value itself, and each
further one combines the result so far with the next lane's value, by the operation of the minor; a lane of a scan receives the
fold over the lanes up to itself. -/
def Obligations.CrossLane : Prop :=
  (∀ (m : Option Mod) (im : Option Imm) (d : VDst) (a b : VSrc) (y : SSrc) (p q : Fin 128) (op : RedOp) (s : State) (c : Ctx),
     let x := fun l => lane (c.g.vsrc a im) l
     let x0 := c.g.vsrc a none
     let md := c.eff.fmode false
     let yes := c.act &&& c.g.preg p.val
     let none0 : Nat → Flags := fun _ => 0
     (Executes (.shfl m im d a b) never s c →
       VectorDone s c d (fun l => x ((lane (c.g.vsrc b im) l).toNat % c.g.width)) none0 (exec (.shfl m im d a b) s)) ∧
     (Executes (.shflXor m im d a y) never s c →
       VectorDone s c d (fun l => x (l ^^^ ((c.g.ssrc y im).toNat % c.g.width))) none0 (exec (.shflXor m im d a y) s)) ∧
     (Executes (.vote m (.any q) p) never s c →
       PredDone s c q c.act (fun _ => (lanesOf c.act).any fun l => hasLane (c.g.preg p.val) l) none0 (exec (.vote m (.any q) p) s)) ∧
     (Executes (.vote m (.all q) p) never s c →
       PredDone s c q c.act (fun _ => (lanesOf c.act).all fun l => hasLane (c.g.preg p.val) l) none0
         (exec (.vote m (.all q) p) s)) ∧
     (Executes (.vote m (.ballot d) p) never s c → c.g.width ≠ 64 →
       VectorDone s c d (fun _ => yes.extractLsb' 0 32) none0 (exec (.vote m (.ballot d) p) s)) ∧
     (∀ n : Fin 240, d = .v n → Executes (.vote m (.ballot d) p) never s c → c.g.width = 64 → n.val % 2 = 0 →
       n.val + 1 < 8 * c.g.blocks → PairDone s c d (fun _ => yes) none0 (exec (.vote m (.ballot d) p) s)) ∧
     (Executes (.vote m (.count d) p) never s c →
       VectorDone s c d (fun _ => BitVec.ofNat 32 (lanesOf yes).length) none0 (exec (.vote m (.count d) p) s)) ∧
     (Executes (.red m d a op) never s c →
       VectorDone s c d (fun _ => (foldLanes op md x0 c.act).1) (fun _ => (foldLanes op md x0 c.act).2)
         (exec (.red m d a op) s)) ∧
     (Executes (.scan m d a op) never s c →
       VectorDone s c d (fun l => scanAt l (scanLanes op md x0 c.act)) (fun _ => (foldLanes op md x0 c.act).2)
         (exec (.scan m d a op) s))) ∧
  (∀ (op : RedOp) (md : FMode) (x : Row) (act : Mask),
     (∀ r a : Word32, foldStep op md r a = match op with
         | .add => (r + a, 0)
         | .min => (if r.toInt ≤ a.toInt then r else a, 0)
         | .max => (if r.toInt ≤ a.toInt then a else r, 0)
         | .umin => (if r.toNat ≤ a.toNat then r else a, 0)
         | .umax => (if r.toNat ≤ a.toNat then a else r, 0)
         | .and => (r &&& a, 0)
         | .or => (r ||| a, 0)
         | .xor => (r ^^^ a, 0)
         | .fadd => (BitVec.ofNat 32 (fAdd fp32 md r.toNat a.toNat).code, (fAdd fp32 md r.toNat a.toNat).flags)) ∧
     (∀ l, lanesOf act = [l] → foldLanes op md x act = (lane x l, 0) ∧ scanAt l (scanLanes op md x act) = lane x l) ∧
     (∀ ls l, lanesOf act = ls ++ [l] → ls ≠ [] → ∀ act', lanesOf act' = ls →
       foldLanes op md x act =
         ((foldStep op md (foldLanes op md x act').1 (lane x l)).1,
           (foldLanes op md x act').2 ||| (foldStep op md (foldLanes op md x act').1 (lane x l)).2) ∧
       scanAt l (scanLanes op md x act) = (foldLanes op md x act).1 ∧
       ∀ j, j ∈ ls → scanAt j (scanLanes op md x act) = scanAt j (scanLanes op md x act')))

/-! ### Control flow, traps and special registers -/

/-- Branches and calls (R304, R323, R325, R326): where the test holds the split goes to the target of the line offset and
slot, else to the next instruction; a call writes the next PC to s62 and nothing else. -/
def Obligations.Branches : Prop :=
  ∀ (m : Option Mod) (p : Fin 128) (neg : Bool) (b : BTarget) (a : SSrc) (s : State) (c : Ctx),
    let target := match b with
      | .near loff slot => slotAddr c.f (loff.signExtend 64) slot.toNat
      | .far v => slotAddr c.f ((v.extractLsb' 5 27).signExtend 64) (v.toNat % 32)
    let test := fun l => hasLane (c.g.preg p.val) l != neg
    let called := fun (pc : Word64) (o : Out) => ∃ t g, o = .next t ∧ GroupStep s t c.k g ∧ Stands c g pc .run ∧
      Kept c.g g ∧ (∀ n, g.sreg n = if n = 62 then c.f.next else c.g.sreg n) ∧ SameV c.g g ∧ SameP c.g g ∧
      g.flags = c.g.flags ∧ g.latch = c.g.latch
    (Executes (.brU m p neg b) never s c →
      Moved s c (if (lanesOf c.act).head?.any test then target else c.f.next) .run (exec (.brU m p neg b) s)) ∧
    (Executes (.brUAny m p neg b) never s c →
      Moved s c (if (lanesOf c.act).any test then target else c.f.next) .run (exec (.brUAny m p neg b) s)) ∧
    (Executes (.call m p neg b) never s c → GuardPasses c →
      if (lanesOf c.act).head?.any test then called target (exec (.call m p neg b) s)
      else Moved s c c.f.next .run (exec (.call m p neg b) s)) ∧
    (Executes (.brx m a) never s c → GuardPasses c → Moved s c (c.g.ssrc a none) .run (exec (.brx m a) s)) ∧
    (Executes (.brxCall m a) never s c → GuardPasses c → called (c.g.ssrc a none) (exec (.brxCall m a) s))

/-- br.d (R171, R324): with no lane taken it goes on, with every active lane taken it goes to the target, and else the
split divides: the taken lanes go to the target in the lowest free entry, both parts bound to the join location under a
fresh number. Shown with a free entry and no binding outside. -/
def Obligations.Divergence : Prop :=
  ∀ (m : Option Mod) (p : Fin 128) (neg : Bool) (loff : BitVec 11) (slot : BitVec 5) (j : BitVec 22) (s : State) (c : Ctx),
    let i : Instr := .brD m p neg loff slot j
    let target := slotAddr c.f (loff.signExtend 64) slot.toNat
    let taken := c.act &&& testMask c.g p neg
    let at_ := (payloadTarget c.f j).1.setWidth 48
    Executes i never s c →
    (taken = 0 → Moved s c c.f.next .run (exec i s)) ∧
    (taken ≠ 0 → taken = c.act → Moved s c target .run (exec i s)) ∧
    (∀ k q, taken ≠ 0 → taken ≠ c.act → c.e.join = 0 → c.g.firstFree = some k →
      freshSeq (stackOf c.t c.g) at_ c.g.bseq 64 = some q →
      ∃ t g a b, exec i s = .next t ∧ TeamStep s t c.k g ∧
        Tbl.find? g.entries c.n = some a ∧ a.pc = c.f.next ∧ a.mask = c.e.mask &&& ~~~taken ∧ a.mode = c.e.mode ∧
        a.join = at_ ∧ a.jseq = q ∧
        Tbl.find? g.entries k = some b ∧ b.pc = target ∧ b.mask = taken ∧ b.mode = c.e.mode ∧ b.join = at_ ∧ b.jseq = q ∧
        (∀ n, n ≠ c.n → n ≠ k → Tbl.find? g.entries n = Tbl.find? c.g.entries n) ∧
        g.bseq = q + 1 ∧ g.depth = c.g.depth ∧ SameS c.g g ∧ SameV c.g g ∧ SameP c.g g)

/-- join and its timeout (R173 to R175, R327). A split that no binding brings to this location goes on. An arrival completes:
no register, predicate, flag or live lane changes, and no other group. Where it is the last of its binding, the entries join in
the lowest of them, with all their lanes, outside the binding; while another entry of the binding has not come, the split waits
behind the join until its deadline. A wait whose deadline has passed goes on, and JTO is set. -/
def Obligations.Joining : Prop :=
  (∀ (m : Option Mod) (x : Fin 21) (s : State) (c : Ctx), Executes (.join m x) never s c → GuardPasses c →
     let o := exec (.join m x) s
     let st := stackOf c.t c.g
     let here := c.f.pc.setWidth 48
     let till := if x.val = 0 then none else some (clockAt s (dieOf (keyCore c.k)) + 2 ^ x.val)
     (c.e.join = 0 ∨ (∀ b ∈ chain st.recs c.e.binding 8, b.1 ≠ here) → Skipped s c o) ∧
     (∀ b, arrivesAt st c.e here = some b →
       (∀ r ∈ st.recs, r.2.kind = kArm → r.2.binding ≠ b) ∨ recFits st.top c.g.depth = true →
       ∃ t g, o = .next t ∧ TeamStep s t c.k g ∧ SameS c.g g ∧ SameV c.g g ∧ SameP c.g g ∧ g.flags = c.g.flags ∧
         g.live = c.g.live ∧ g.jto = c.g.jto) ∧
     (c.e.join = here → here ≠ 0 → c.g.depth = 0 → c.g.hnd = false → Tbl.wf c.g.entries = true →
       (∀ y ∈ c.g.entries, y.1 ≠ c.n → y.2.binding = c.e.binding ∧ y.2.wait.estate = 1) →
       ∀ n a, c.g.entries.head? = some (n, a) →
       ∃ t g e, o = .next t ∧ TeamStep s t c.k g ∧ g.entries = [(n, e)] ∧ e.mask = unionMask (c.g.entries.map (·.2.mask)) ∧
         e.pc = (if n = c.n then c.f.next else a.pc) ∧ e.mode = a.mode ∧ e.wait = .run ∧ e.join = 0 ∧ SameS c.g g ∧
         SameV c.g g ∧ SameP c.g g) ∧
     (c.e.join = here → here ≠ 0 → c.g.depth = 0 → c.g.hnd = false →
       (∀ y ∈ c.g.entries, y.1 ≠ c.n → y.2.wait.estate ≠ 1) →
       (∃ y ∈ c.g.entries, y.1 ≠ c.n ∧ y.2.binding = c.e.binding) →
       ∃ t g, o = .next t ∧ TeamStep s t c.k g ∧ Stands c g c.f.next (.join c.f.next till (BitVec.ofNat 5 x.val)) ∧
         SameS c.g g ∧ SameV c.g g ∧ SameP c.g g ∧ g.flags = c.g.flags)) ∧
  (∀ (k n : Nat) (s : State) (g : Group) (u : Team) (a : Entry) (next : Word64) (d : Nat) (ex : BitVec 5),
     Tbl.find? s.groups k = some g → Tbl.find? s.teams g.team = some u → Tbl.find? g.entries n = some a →
     a.wait = .join next (some d) ex → d < clockAt s (dieOf (keyCore k)) →
     ∃ t h, exec (.joinTimeout k n) s = .next t ∧ TeamStep s t k h ∧ h.jto = true ∧ h.live = g.live ∧ h.flags = g.flags ∧
       SameS g h ∧ SameV g h ∧ SameP g h ∧
       (g.entries = [(n, a)] → g.depth = 0 → g.hnd = false →
         h.entries = [(n, { a with join := 0, jseq := 0, wait := .run })]))

/-- yield, yield.c, sleep and its end (R328 to R330). -/
def Obligations.Waiting : Prop :=
  ∀ (m : Option Mod) (q : Fin 8) (j : BitVec 22) (x : BitVec 16) (k n : Nat) (s : State) (c : Ctx),
    let now := clockAt s (dieOf (keyCore c.k))
    (Executes (.yield m) never s c → GuardPasses c → Moved s c c.f.next .yield (exec (.yield m) s)) ∧
    (Executes (.sleep m x) never s c → GuardPasses c →
      Moved s c c.f.next (if x = 0 then .run else .sleep (now + x.toNat)) (exec (.sleep m x) s)) ∧
    (Executes (.yieldC m q j) never s c → GuardPasses c → (c.g.qreg q.val).port ≠ 0 → (c.g.qreg q.val).port ≠ 1 →
      (c.g.qreg q.val).port ≠ 3 →
      let target := (payloadTarget c.f j).1
      ∃ t g, exec (.yieldC m q j) s = .next t ∧ GroupStep s t c.k g ∧
        Stands c g target (if (c.g.qreg q.val).entries.isEmpty then .entry q else .run) ∧ g.rgnentry = target ∧
        SameS c.g g ∧ SameV c.g g ∧ SameP c.g g ∧ g.flags = c.g.flags) ∧
    (∀ g e till, Tbl.find? s.groups k = some g → Tbl.find? g.entries n = some e → e.wait = .sleep till →
      ∃ t h, exec (.sleepExpire k n) s = .next t ∧ GroupStep s t k h ∧
        h = if till ≤ clockAt s (dieOf (keyCore k)) then g.setEntry n { e with wait := .run } else g)

/-- exit (R176, R331): the active lanes leave the group for good, and the instruction commits; a group with no live lane
left and no record ends, and with its last group the team.
exit.save (R192, R193, R331): the group ends in its PREEMPT handler, its DEPTH and BSEQ are kept, and a team of which
it was the last group waits to be placed again. -/
def Obligations.ExitLanes : Prop :=
  (∀ (m : Option Mod) (s : State) (c : Ctx), Executes (.exit m) never s c → c.g.entries = [(c.n, c.e)] → c.g.depth = 0 →
     c.g.hnd = false →
     (c.e.mask &&& ~~~c.act ≠ 0 → c.g.live &&& ~~~c.act ≠ 0 →
       ∃ t g e, exec (.exit m) s = .next t ∧ TeamStep s t c.k g ∧ g.live = c.g.live &&& ~~~c.act ∧ g.entries = [(c.n, e)] ∧
         e.mask = c.e.mask &&& ~~~c.act ∧ e.pc = c.f.next ∧ g.rgnentry = c.f.next ∧ SameS c.g g ∧ SameV c.g g ∧
         SameP c.g g) ∧
     (c.e.mask &&& ~~~c.act = 0 → c.g.live &&& ~~~c.act = 0 → c.g.rr = [] → c.g.overflow = [] → c.g.suspended = [] →
       c.g.leases = [] → c.t.groups = [c.k] → c.t.clt = 0 → c.t.preempting = false →
       ∃ t, exec (.exit m) s = .next t ∧ Tbl.find? t.groups c.k = none ∧ Tbl.find? t.teams c.g.team = none)) ∧
  (∀ (m : Option Mod) (s : State) (c : Ctx) (p : Packet), ctxOf s m = some c → modIllegal m = false → c.g.hnd = true →
     c.g.xcause = cPreempt → c.g.entries = [(c.n, c.e)] → c.e.wait = .run → c.g.suspended = [] → c.g.leases = [] → c.t.groups = [c.k] →
     c.t.clt = 0 → c.t.preempting = true → packetAt s.dev c.t.queue c.t.packet = some p → p.phase = 1 →
     ∃ t u r, exec (.exitSave m) s = .next t ∧ Tbl.find? t.groups c.k = none ∧ Tbl.find? t.teams c.g.team = some u ∧
       u.placed = false ∧ u.restarting = true ∧ u.preempting = false ∧ Tbl.find? u.restart c.g.ident = some r ∧
       r.depth = c.g.depth ∧ r.bseq = c.g.bseq)

/-- rgn and the writes of MODE (R185, R332, R333, R310). -/
def Obligations.RegionAndMode : Prop :=
  ∀ (m : Option Mod) (v : BitVec 30) (sm : BitVec 8) (pm : BitVec 16) (x : BitVec 24) (a : SSrc) (s : State) (c : Ctx),
    let written := fun (w : Word64) (o : Out) => ∃ t g e, o = .next t ∧ GroupStep s t c.k g ∧
      Tbl.find? g.entries c.n = some e ∧ e.pc = c.f.next ∧ e.mode = w.setWidth 19 ∧ e.mask = c.e.mask ∧
      (∀ n, n ≠ c.n → Tbl.find? g.entries n = Tbl.find? c.g.entries n) ∧ Kept c.g g ∧ SameS c.g g ∧ SameV c.g g ∧
      SameP c.g g ∧ g.flags = c.g.flags
    (Executes (.rgn m v sm pm) never s c → GroupGuardPasses c → v.toNat < 2 ^ c.g.blocks →
      ∃ t g, exec (.rgn m v sm pm) s = .next t ∧ GroupStep s t c.k g ∧ At c g c.f.next ∧ g.rgnentry = c.f.pc ∧
        g.rgnmask = { all := false, pmask := pm, smask := sm, vmask := v } ∧ g.snap.depth = c.g.depth ∧
        g.snap.live = c.g.live ∧ (∃ e, Tbl.find? g.snap.entries c.n = some e ∧ e.pc = c.f.pc) ∧
        SameS c.g g ∧ SameV c.g g ∧ SameP c.g g) ∧
    (Executes (.modeImm m x) never s c → GuardPasses c → modeWritable (x.setWidth 64) = true →
      written (x.setWidth 64) (exec (.modeImm m x) s)) ∧
    (Executes (.modeScalar m a) never s c → GuardPasses c → modeWritable (c.g.ssrc a none) = true →
      written (c.g.ssrc a none) (exec (.modeScalar m a) s))

/-- wsplit and wfuse (R178, R179, R334, R335). wsplit makes two groups of half the width, whose D is 0 and 1; wfuse writes
5 without a partner, waits 4,096 cycles for one, and fuses two that agree; after that time the group goes on with 6. -/
def Obligations.WidthChange : Prop :=
  ∀ (m : Option Mod) (d : SDst) (sel : Bool) (n : Fin 64) (k : Nat) (s : State) (c : Ctx), GroupGuardPasses c →
    let w := c.g.width / 2
    let j := partnerKey c.k sel
    (Executes (.wsplit m (.s n)) never s c → splitRefused c.g = false → c.g.idle = true →
      c.g.live &&& allLanes w ≠ 0 → (c.g.live >>> w) &&& allLanes w ≠ 0 →
      ∃ t lo hi, exec (.wsplit m (.s n)) s = .next t ∧ Tbl.find? t.groups c.k = some lo ∧
        Tbl.find? t.groups (upperKey c.k w) = some hi ∧ lo.width = w ∧ hi.width = w ∧
        lo.sreg n.val = 0 ∧ hi.sreg n.val = 1 ∧ (∀ r, r ≠ n.val → lo.sreg r = c.g.sreg r ∧ hi.sreg r = c.g.sreg r) ∧
        (∀ r l, l < w → l + w < 64 → lane (lo.vreg r) l = lane (c.g.vreg r) l ∧ lane (hi.vreg r) l = lane (c.g.vreg r) (w + l)) ∧
        lo.live = c.g.live &&& allLanes w ∧ hi.live = (c.g.live >>> w) &&& allLanes w ∧
        lo.rgnentry = c.f.next ∧ hi.rgnentry = c.f.next ∧ ∀ a, t.mem.get a = s.mem.get a) ∧
    (Executes (.wfuse m d sel) never s c → c.g.width ≠ 64 → c.g.idle = true → partnerOf s c.k c.g sel = none →
      ScalarDone s c d 5 (exec (.wfuse m d sel) s)) ∧
    (∀ h, Executes (.wfuse m (.s n) sel) never s c → c.g.width ≠ 64 → c.g.idle = true → partnerOf s c.k c.g sel = some h →
      h.entries.find? (fun x => waitsFuse x.2) = none →
      Moved s c c.f.pc (.wfuse sel (some n) (clockAt s (dieOf (keyCore c.k)) + 4096) c.f.next)
        (exec (.wfuse m (.s n) sel) s)) ∧
    (∀ h i e, Executes (.wfuse m (.s n) sel) never s c → c.g.width ≠ 64 → c.g.idle = true →
      partnerOf s c.k c.g sel = some h → h.entries.find? (fun x => waitsFuse x.2) = some (i, e) →
      fuseCode c.g h c.f.pc e.pc c.e e = 0 → c.g.leases = [] → h.leases = [] → c.t.arrivals = [] → c.t.cluArrivals = [] →
      c.t.clt = 0 →
      ∃ t g, exec (.wfuse m (.s n) sel) s = .next t ∧ Tbl.find? t.groups (min c.k j) = some g ∧
        Tbl.find? t.groups (max c.k j) = none ∧ g.width = 2 * c.g.width ∧ g.sreg n.val = 0 ∧ g.rgnentry = c.f.next) ∧
    (∀ g i e dl next, Tbl.find? s.groups k = some g → g.entries.find? (fun x => waitsFuse x.2) = some (i, e) →
      e.wait = .wfuse sel (some n) dl next → dl ≤ clockAt s (dieOf (keyCore k)) →
      ∃ t h, exec (.wfuseTimeout k) s = .next t ∧ GroupStep s t k h ∧ h.sreg n.val = 6 ∧
        ∃ x, Tbl.find? h.entries i = some x ∧ x.pc = next ∧ x.wait = .run)

/-- lpc (R181, R336). The group waits until every group that the participant mask names has come; where a named one is not in
the team, it traps GANG_INVALID. When the last of two participants comes, both go on: in each lane position the participant of
the lower index takes the thread of the lower key, threads of equal keys stay, and registers outside the named blocks,
s-registers and predicates stay. In general, the threads of a lane position stand in order of their keys, none is lost, and
threads of equal keys keep the order of the participants. -/
def Obligations.LaneCompaction : Prop :=
  (∀ (m : Option Mod) (d : SSrc) (a : Fin 240) (b : BitVec 30) (s : State) (c : Ctx),
     Executes (.lpc m d a b) never s c → c.k ∈ c.t.groups → c.g.index < 64 →
     let pm := c.g.ssrc d none
     let o := exec (.lpc m d a b) s
     let alone := ∀ k g, k ∈ c.t.groups → k ≠ c.k → Tbl.find? s.groups k = some g →
       g.index ≠ c.g.index ∧ ∀ x ∈ g.entries, lpcKey x.2 = none
     let standing := fun (i : Nat) => ∃ k ∈ c.t.groups, ∃ g, Tbl.find? s.groups k = some g ∧ g.index = i
     (pm.getLsbD c.g.index = true → alone → (∀ i, i < 64 → pm.getLsbD i = true → standing i) →
       (∃ i, i < 64 ∧ i ≠ c.g.index ∧ pm.getLsbD i = true) → Moved s c c.f.pc (.lpc pm a.val b c.f.next) o) ∧
     (pm.getLsbD c.g.index = false ∨ (∃ i, i < 64 ∧ pm.getLsbD i = true ∧ ¬standing i) → alone → HandlerReady c.t c.g →
       NoLease s c.k c.g → ∃ t g, o = .next t ∧ TeamStep s t c.k g ∧ g.hnd = true ∧ g.xcause = cGang ∧
         SameS c.g g ∧ SameV c.g g ∧ SameP c.g g) ∧
     (∀ k h n e next, c.t.groups = [c.k, k] ∨ c.t.groups = [k, c.k] → k ≠ c.k → Tbl.find? s.groups k = some h →
       h.team = c.g.team → c.g.entries = [(c.n, c.e)] → h.entries = [(n, e)] → e.wait = .lpc pm a.val b next →
       h.index < 64 → h.index ≠ c.g.index → (∀ i, i < 64 → (pm.getLsbD i = true ↔ i = c.g.index ∨ i = h.index)) →
       c.g.halves = [] → h.halves = [] → h.width = c.g.width → b.toNat < 2 ^ c.g.blocks → b.toNat < 2 ^ h.blocks →
       a.val < 8 * h.blocks → 0 < c.g.width → c.g.width ≤ 64 → c.g.live = c.g.lanes → h.live = c.g.lanes →
       c.e.mask = c.g.lanes → e.mask = c.g.lanes →
       ∃ t g f, o = .next t ∧ Tbl.find? t.groups c.k = some g ∧ Tbl.find? t.groups k = some f ∧
         (∀ j, j ≠ c.k → j ≠ k → Tbl.find? t.groups j = Tbl.find? s.groups j) ∧ (∀ x, t.mem.get x = s.mem.get x) ∧
         At c g c.f.next ∧ (∃ y, f.entries = [(n, y)] ∧ y.pc = next ∧ y.wait = .run ∧ y.mask = e.mask) ∧
         SameS c.g g ∧ SameP c.g g ∧ SameS h f ∧ SameP h f ∧
         ∀ (r : Fin 240) (l : Nat), l < c.g.width →
           let x := (lane (c.g.vreg a.val) l).toNat
           let y := (lane (h.vreg a.val) l).toNat
           let moves := b.getLsbD (r.val / 8) = true ∧ (if c.g.index < h.index then y < x else x < y)
           lane (g.vreg r.val) l = (if moves then lane (h.vreg r.val) l else lane (c.g.vreg r.val) l) ∧
             lane (f.vreg r.val) l = if moves then lane (c.g.vreg r.val) l else lane (h.vreg r.val) l)) ∧
  (∀ (ps : List Participant) (key : Nat) (regs : List Nat) (l : Nat),
     let thread := fun (p : Participant) =>
       ({ key := if hasLane p.g.live l then (lane (p.g.vreg key) l).toNat else 0xFFFFFFFF, live := hasLane p.g.live l,
          regs := regs.map fun r => lane (p.g.vreg r) l } : Thread)
     (sortLane ps key regs l).Pairwise (fun x y => x.key ≤ y.key) ∧ (sortLane ps key regs l).Perm (ps.map thread) ∧
       ∀ k, (sortLane ps key regs l).filter (fun x => x.key == k) = (ps.map thread).filter fun x => x.key == k)

/-- Barriers and the block pool (R163, R184, R337, R338): alone in its team a group passes at once, and its region begins
behind the barrier; else it waits. Blocks that are free are granted at once, and given back they leave. -/
def Obligations.BarriersAndBlocks : Prop :=
  ∀ (m : Option Mod) (n : Fin 16) (x : Fin 30) (s : State) (c : Ctx), c.e.wait = .run →
    let passes := fun (o : Out) => ∃ t g, o = .next t ∧ Tbl.find? t.groups c.k = some g ∧ At c g c.f.next ∧
      g.rgnentry = c.f.next ∧ SameS c.g g ∧ SameV c.g g ∧ SameP c.g g ∧ g.flags = c.g.flags
    (Executes (.bar m n) never s c → GroupGuardPasses c → c.g.pathCParked = false → c.t.groups = [c.k] →
      c.t.arrivals = [] → passes (exec (.bar m n) s)) ∧
    (∀ j, Executes (.bar m n) never s c → GroupGuardPasses c → c.g.pathCParked = false → j ∈ c.t.groups → j ≠ c.k →
      c.t.arrivals = [] →
      ∃ t g u, exec (.bar m n) s = .next t ∧ TeamStep s t c.k g ∧ Stands c g c.f.pc (.bar n false c.f.next) ∧
        Tbl.find? t.teams c.g.team = some u ∧ Tbl.find? u.arrivals n.val = some [c.k] ∧
        SameS c.g g ∧ SameV c.g g ∧ SameP c.g g) ∧
    (Executes (.barClu m n) never s c → GroupGuardPasses c → c.g.pathCParked = false → c.t.clt ≠ 0 → c.t.groups = [c.k] →
      c.t.cluArrivals = [] → (∀ k u, (k, u) ∈ s.teams → k ≠ c.g.team → u.cluster ≠ c.t.cluster) →
      dirtyLines s (keyCore c.k) = [] → passes (exec (.barClu m n) s)) ∧
    (Executes (.racq m x) never s c → GuardPasses c → c.g.blocks + x.val ≤ 30 → c.t.racqFifo = [] →
      blockUnits c.g x.val ≤ 2 * c.t.kernel.extKib → c.t.hasRoom c.g x.val = true → (∀ y ∈ c.g.entries, waitsRacq x.val y.2 = false) →
      ∃ t g, exec (.racq m x) s = .next t ∧ TeamStep s t c.k g ∧ At c g c.f.next ∧ g.extBlk = c.g.extBlk + x.val ∧
        g.rgnentry = c.f.next ∧ SameS c.g g ∧ SameP c.g g ∧
        (∀ r l, r < 8 * c.g.blocks → l < 64 → lane (g.vreg r) l = lane (c.g.vreg r) l) ∧
        (∀ r l, 8 * c.g.blocks ≤ r → r < 8 * g.blocks → lane (g.vreg r) l = 0)) ∧
    (Executes (.rrel m x) never s c → GuardPasses c → x.val ≤ c.g.extBlk → c.t.racqFifo = [] →
      ∃ t g, exec (.rrel m x) s = .next t ∧ TeamStep s t c.k g ∧ At c g c.f.next ∧ g.extBlk = c.g.extBlk - x.val ∧
        g.rgnentry = c.f.next ∧ SameS c.g g ∧ SameV c.g g ∧ SameP c.g g)

/-- trap and brk (R339): the software trap with the next PC and CODE in XINFO. -/
def Obligations.SoftwareTraps : Prop :=
  ∀ (m : Option Mod) (code : BitVec 8) (s : State) (c : Ctx), GuardPasses c → HandlerReady c.t c.g → NoLease s c.k c.g →
    c.g.ending = false →
    let info := BitVec.ofNat 64 (c.f.next.toNat % 2 ^ 48 * 2 ^ 16 + code.toNat)
    (Executes (.trap m code) never s c → Trapped s c cSoftware info (exec (.trap m code) s)) ∧
    (Executes (.brk m code) never s c → Trapped s c cBreak info (exec (.brk m code) s))

/-- The checks at issue in their order (R321): MODE_INVALID, PARTIAL_COLLECTIVE, REG_RANGE, LATCH_STALE, each behind
ILLEGAL_WORD. An instruction that one of them refuses takes that trap and has no other effect. -/
def Obligations.IssueChecks : Prop :=
  ∀ (i : Instr) (s : State) (c : Ctx), i.hasWord = true → ctxOf s (instrMod i) = some c → HandlerReady c.t c.g →
    NoLease s c.k c.g → c.g.ending = false →
    let traps := fun (cause : Cause) => Trapped s c cause 0 (exec i s) ∨ Trapped s c cIllegal 0 (exec i s)
    let whole := wholeFor c.g i = true ∧ 1 < c.g.entries.length
    (modIllegal (instrMod i) = true → traps cMode) ∧
    (modIllegal (instrMod i) = false → whole → traps cPartial) ∧
    (modIllegal (instrMod i) = false → ¬whole → rangeBad c.g i = true → traps cRegRange) ∧
    (modIllegal (instrMod i) = false → ¬whole → rangeBad c.g i = false → latchBad c.e (regUse i) = true → traps cStale)

/-- Fatal traps (R190, R89): where TRAPBASE is 0, a handler runs, or the frame does not fit, a trap of any cause ends the team.
No group of it is left, nothing of it is saved, and its queue is aborted with TEAM_FAULT, unless it was aborted already. (That
a first abort keeps its code is the model's, DESIGN CHOICE, log 20.) -/
def Obligations.FatalTraps : Prop :=
  ∀ (k n : Nat) (cause : Cause) (info xpc : Word64) (s : State) (g : Group) (t : Team),
    Tbl.find? s.groups k = some g → Tbl.find? s.teams g.team = some t →
    let need := if cause = cPreempt then g.snap.depth + g.snap.entries.length else g.depth + g.entries.length
    g.trapbase = 0 ∨ g.hnd = true ∨ recFits (stkTop t.kernel.priv) need = false →
    let u := ((takeTrap k n cause info xpc).run s).2
    Tbl.find? u.teams g.team = none ∧ (∀ j ∈ t.groups, Tbl.find? u.groups j = none) ∧
    ((queueAt s.dev t.queue).stat ≠ qAborted →
      (queueAt u.dev t.queue).stat = qAborted ∧ (queueAt u.dev t.queue).abcode = abTeam ∧
      (queueAt u.dev t.queue).abidx = BitVec.ofNat 64 t.packet)

/-- xret (R191, R340): the frame is popped, HND is 0, and the entry that trapped goes on at XPC with XMODE in those of its
lanes that have not exited. Shown for a frame of one entry with no record below it. -/
def Obligations.TrapReturn : Prop :=
  ∀ (m : Option Mod) (s : State) (c : Ctx) (r : Rec),
    Executes (.xret m) (ifGuard fun c => !c.g.hnd) s c → GuardPasses c → c.g.hnd = true →
    readFrame c.t.priv c.g (stkTop c.t.kernel.priv) c.g.depth [] = some (0, [r]) →
    bits (BitVec.ofNat 64 (ofBytes (privBytes c.t.priv c.g 2 (stkTop c.t.kernel.priv - 8) 8))) 32 2 = r.entry →
    c.g.xcause ≠ cPreempt → c.g.preempt = false → emitWait c.g r.entry = .run → NoLease s c.k c.g → r.mask &&& c.g.live ≠ 0 →
    ∃ t g e, exec (.xret m) s = .next t ∧ TeamStep s t c.k g ∧ g.hnd = false ∧ g.depth = 0 ∧ g.entries = [(r.entry, e)] ∧
      e.pc = c.g.xpc ∧ e.mode = c.g.xmode ∧ e.mask = r.mask &&& c.g.live ∧ e.wait = .run ∧
      SameS c.g g ∧ SameV c.g g ∧ SameP c.g g ∧ g.flags = c.g.flags

/-- Special registers (R341 to R343): srd reads every one of them; swr writes those that may be written, and nothing else;
a value that a register refuses traps ILLEGAL_WORD. -/
def Obligations.SpecialRegisters : Prop :=
  ∀ (m : Option Mod) (d : SDst) (a : SSrc) (r : SpReg) (s : State) (c : Ctx), GuardPasses c →
    let v := c.g.ssrc a none
    let i : Instr := .swr m a r
    let only := fun (f : Group → Group) => ∃ t g, exec i s = .next t ∧ GroupStep s t c.k g ∧ At c g c.f.next ∧
      { g with entries := c.g.entries } = f c.g
    (Executes (.srd m d r) never s c → ScalarDone s c d (spValue s c r) (exec (.srd m d r) s)) ∧
    (Executes i never s c → writeRefused c.g.hnd r v = false →
      match r with
      | .flags => only fun g => { g with flags := v.setWidth 7 }
      | .xpc => only fun g => { g with xpc := v }
      | .xmode => modeWritable v = true → only fun g => { g with xmode := v.setWidth 19 }
      | .trapbase => only fun g => { g with trapbase := v }
      | .drawkey => only fun g => { g with drawkey := v }
      | .drawctr => only fun g => { g with drawctr := v }
      | .fusestat => only fun g => { g with fusestat := v.setWidth 32 }
      | .splits => only fun g => if v.getLsbD 24 then { g with jto := false } else g
      | .gang => gangRefused s c.g.team c.t v = false →
          ∃ t g u, exec i s = .next t ∧ TeamStep s t c.k g ∧ At c g c.f.next ∧ Tbl.find? t.teams c.g.team = some u ∧
            u.gang = v.setWidth 35
      | .mode => modeWritable v = true → ∃ t g e, exec i s = .next t ∧ GroupStep s t c.k g ∧
          Tbl.find? g.entries c.n = some e ∧ e.mode = v.setWidth 19 ∧ e.pc = c.f.next ∧ { g with entries := c.g.entries } = c.g
      | _ => False) ∧
    (ctxOf s m = some c → writeRefused c.g.hnd r v = true → HandlerReady c.t c.g → NoLease s c.k c.g → c.g.ending = false →
      Trapped s c cIllegal 0 (exec i s))

/-! ### Memory -/

/-- Loads in tile space (R380, R382, R387, R388, R390). Each active lane's register words are the bytes at its address,
sign- or zero-extended to the register; a probing load's predicate is 1 in those lanes. Shown past the return of the
load. -/
def Obligations.TileLoads : Prop :=
  ∀ (m : Option Mod) (im : Option Imm) (d : VDst) (sd : SDst) (a : MAddr) (sa : SSrc) (sz : MSize) (ord : Bool)
    (sc : Option Scope) (p : Fin 128) (s : State) (c : Ctx),
    let n := sizeBytes sz
    let bytes := fun (o : Nat) => (upTo o n).map fun x => tileByte s c.g.team x
    let word := fun (l r : Nat) => nthD (loadWords sz (bytes (laneAddr c.g a im n l).toNat)) r 0
    let ld : Instr := .ld m im d a sz ord .tile sc
    let nf : Instr := .ldNf m im d a sz .tile p
    let sld : Instr := .sld m im sd sa sz ord .tile sc
    (Performs ld s c → TileOpen c n (laneAddrs c.g a im n c.act) → Loaded s c d (sizeRegs sz) word none (exec ld s)) ∧
    (Performs nf s c → TileOpen c n (laneAddrs c.g a im n c.act) → Loaded s c d (sizeRegs sz) word (some p) (exec nf s)) ∧
    (Performs sld s c → GuardPasses c → c.act ≠ 0 → TileOpen c n [(0, scalarAddr c.g sa im)] →
      ScalarLoaded s c sd (loadScalar sz (bytes (scalarAddr c.g sa im).toNat)) (exec sld s))

/-- Stores in tile space (R381, R389, R390): the low bytes of each lane's value go to its address, in ascending lane order;
no other byte of a tile and no byte of memory differs. An ordered store is shown where nothing awaits its release. -/
def Obligations.TileStores : Prop :=
  ∀ (m : Option Mod) (im : Option Imm) (d : VSrc) (sd : SSrc) (a : MAddr) (sa : SSrc) (sz : MSize) (ord : Bool)
    (sc : Option Scope) (s : State) (c : Ctx), (ord = true → c.g.pathCParked = false ∧ CachesClean s (keyCore c.k)) →
    let n := sizeBytes sz
    let st : Instr := .st m im d a sz ord .tile sc
    let sst : Instr := .sst m im sd sa sz ord .tile sc
    let stored := fun (l : List (Nat × Word64)) (data : Nat → Nat) (o : Out) => ∃ t, Stored s c ord o t ∧
      StoredLast n (l.map fun x => (x.1, x.2.toNat)) data (tileByte s c.g.team) (tileByte t c.g.team) ∧
      (∀ j, j ≠ c.g.team → ∀ o, tileByte t j o = tileByte s j o) ∧ ∀ a, t.mem.get a = s.mem.get a
    (Performs st s c → TileOpen c n (laneAddrs c.g a im n c.act) →
      stored (laneAddrs c.g a im n c.act) (storeData c.g d sz) (exec st s)) ∧
    (Performs sst s c → GuardPasses c → c.act ≠ 0 → TileOpen c n [(0, scalarAddr c.g sa im)] →
      stored [(0, scalarAddr c.g sa im)] (fun _ => (c.g.ssrc sd none).toNat) (exec sst s))

/-- Atomics (R391 to R393, R208): lane by lane in ascending order, the new value is stored and the old one is the lane's result.
Shown in tile space, and at home in local storage; they commit (R386). -/
def Obligations.Atomics : Prop :=
  ∀ (m : Option Mod) (im : Option Imm) (d : VDst) (a : MAddr) (op : AtomOp) (w8 : Bool) (x : Option AtomExt) (e : AtomExt)
    (tl : Tlb) (s : State) (c : Ctx),
    let n := atomBytes w8
    let la := laneAddrs c.g a im n c.act
    let cls := c.g.pathCParked = false ∧ CachesClean s (keyCore c.k)
    let value := fun (l : Nat) => match x with
      | some e => atomOperand c.g e.c w8 l
      | none => oldOperand c.g d w8 l
    let swap := fun (l old : Nat) => some (atomNew op n old (value l))
    let cas := fun (l old : Nat) => if old = atomOperand c.g e.c w8 l then some (oldOperand c.g d w8 l) else none
    let tile := fun (f : Nat → Nat → Option Nat) (o : Out) =>
      let r := (la.map fun x => (x.1, x.2.toNat)).foldl (atomicAt n f) (tileByte s c.g.team, fun _ => 0)
      ∃ u, Exchanged s c d (atomRegs w8) r.2 o u ∧ (∀ o, tileByte u c.g.team o = r.1 o) ∧ ∀ a, u.mem.get a = s.mem.get a
    let home := fun (f : Nat → Nat → Option Nat) (o : Out) =>
      let r := (physicalAddrs tl la).foldl (atomicAt n f) (s.mem.get, fun _ => 0)
      ∃ u, Exchanged s c d (atomRegs w8) r.2 o u ∧ (∀ a, u.mem.get a = r.1 a) ∧ ∀ j o, tileByte u j o = tileByte s j o
    (Performs (.atom m im d a op w8 .tile x) s c → TileOpen c n la → ((atomOrder x).isSome = true → cls) →
      tile swap (exec (.atom m im d a op w8 .tile x) s)) ∧
    (Performs (.atomCas m im d a w8 .tile e) s c → TileOpen c n la → ((atomOrder (some e)).isSome = true → cls) →
      tile cas (exec (.atomCas m im d a w8 .tile e) s)) ∧
    (Performs (.atom m im d a op w8 .glob x) s c → Quiet s → Mapped s c .atomic tl n la → c.g.leases = [] → cls →
      home swap (exec (.atom m im d a op w8 .glob x) s)) ∧
    (Performs (.atomCas m im d a w8 .glob e) s c → Quiet s → Mapped s c .atomic tl n la → c.g.leases = [] → cls →
      home cas (exec (.atomCas m im d a w8 .glob e) s))

/-- Loads of global and constant space with caches that hold nothing (R205, R208, R210): each lane reads its bytes at home. -/
def Obligations.GlobalLoads : Prop :=
  ∀ (m : Option Mod) (im : Option Imm) (d : VDst) (sd : SDst) (a : MAddr) (sa : SSrc) (sz : MSize) (ord : Bool) (sp : Space)
    (sc : Option Scope) (p : Fin 128) (tl : Tlb) (s : State) (c : Ctx), sp = .glob ∨ sp = .const → Quiet s →
    CachesClean s (keyCore c.k) → HxFree c tl →
    let n := sizeBytes sz
    let at_ := fun (x : Word64) => (upTo (tl.pas x.toNat) n).map s.mem.get
    let word := fun (l r : Nat) => nthD (loadWords sz (at_ (laneAddr c.g a im n l))) r 0
    let ld : Instr := .ld m im d a sz ord sp sc
    let nf : Instr := .ldNf m im d a sz sp p
    let sld : Instr := .sld m im sd sa sz ord sp sc
    (Performs ld s c → Mapped s c .read tl n (laneAddrs c.g a im n c.act) → Loaded s c d (sizeRegs sz) word none (exec ld s)) ∧
    (Performs nf s c → Mapped s c .read tl n (laneAddrs c.g a im n c.act) →
      Loaded s c d (sizeRegs sz) word (some p) (exec nf s)) ∧
    (Performs sld s c → GuardPasses c → c.act ≠ 0 → Mapped s c .read tl n [(0, scalarAddr c.g sa im)] →
      ScalarLoaded s c sd (loadScalar sz (at_ (scalarAddr c.g sa im))) (exec sld s))

/-- Stores to global space (R196, R206, R208, R210, R389): of class HX, or ordered, to the bytes at home; else into the
core's L1 line, whose bytes become dirty while those at home keep their value. -/
def Obligations.GlobalStores : Prop :=
  ∀ (m : Option Mod) (im : Option Imm) (d : VSrc) (sd : SSrc) (a : MAddr) (sa : SSrc) (sz : MSize) (ord : Bool)
    (sc : Option Scope) (tl : Tlb) (s : State) (c : Ctx), Quiet s → c.g.leases = [] →
    let n := sizeBytes sz
    let st : Instr := .st m im d a sz ord .glob sc
    let sst : Instr := .sst m im sd sa sz ord .glob sc
    let core := keyCore c.k
    let home := fun (l : List (Nat × Word64)) (data : Nat → Nat) (o : Out) => ∃ t, Stored s c ord o t ∧
      StoredLast n (physicalAddrs tl l) data s.mem.get t.mem.get ∧ ∀ j o, tileByte t j o = tileByte s j o
    let near := fun (l : List (Nat × Word64)) (data : Nat → Nat) (o : Out) => ∃ t, Stored s c false o t ∧
      StoredLast n (physicalAddrs tl l) data (l1Byte s core) (l1Byte t core) ∧
      (∀ b, l1Dirty t core b = (l1Dirty s core b || (physicalAddrs tl l).any fun x => x.2 ≤ b && b < x.2 + n)) ∧
      (∀ a, t.mem.get a = s.mem.get a) ∧ (∀ n, n ≠ core → coreAt t n = coreAt s n) ∧ t.teams = s.teams
    let one := [(0, scalarAddr c.g sa im)]
    let la := laneAddrs c.g a im n c.act
    (ord = true ∨ tl.ac = 2 → c.g.pathCParked = false → CachesClean s core →
      (Performs st s c → Mapped s c .write tl n la → home la (storeData c.g d sz) (exec st s)) ∧
      (Performs sst s c → GuardPasses c → c.act ≠ 0 → Mapped s c .write tl n one →
        home one (fun _ => (c.g.ssrc sd none).toNat) (exec sst s))) ∧
    (ord = false → tl.ac ≠ 2 → L1Room s core →
      (Performs st s c → Mapped s c .write tl n la → near la (storeData c.g d sz) (exec st s)) ∧
      (Performs sst s c → GuardPasses c → c.act ≠ 0 → Mapped s c .write tl n one →
        near one (fun _ => (c.g.ssrc sd none).toNat) (exec sst s)))

/-- MX blocks in tile space (R401, R402): element i of block k lies behind the base, one byte or one nibble wide; with a
descriptor, the block's scale byte goes with it. -/
def Obligations.MxBlocks : Prop :=
  ∀ (m : Option Mod) (im : Option Imm) (d : Fin 240) (a : SSrc) (ord : Bool) (x : Option MxExt) (s : State) (c : Ctx),
    let sc := x.map fun e => c.g.ssrc e.c none
    let desc := sc.getD 0
    let ew := desc.getLsbD 48
    let base := scalarAddr c.g a im
    let ks := mxBlocks c.act
    let pieces := mxPieces base sc ew ks
    let at_ := fun (l : Nat) => (base + BitVec.ofNat 64 (l / 32 * mxBytes ew)).toNat + if ew then l % 32 / 2 else l % 32
    let scale := fun (k : Nat) => (BitVec.ofNat 64 (bits desc 0 48 + k)).toNat
    let read := fun (o : Nat) => (tileByte s c.g.team o).toNat
    let lo := fun (r l : Nat) => lane (c.g.vreg r) l
    let ld : Instr := .mxld m im d a ord .tile x
    let st : Instr := .mxst m im d a ord .tile x
    bits desc 49 15 = 0 → c.g.width ≠ 16 → c.t.zeroing = false →
    (∀ p ∈ pieces, p.2.1.toNat % p.2.2 = 0 ∧ p.2.1.toNat + p.2.2 ≤ c.t.tileSize) →
    (Performs ld s c → Loaded s c (.v d) (if x.isSome then 2 else 1)
      (fun l r => BitVec.ofNat 32 (if r = 1 then read (scale (l / 32))
        else if ew then read (at_ l) / 2 ^ (4 * (l % 2)) % 16 else read (at_ l))) none (exec ld s)) ∧
    (Performs st s c → (ord = true → c.g.pathCParked = false ∧ CachesClean s (keyCore c.k)) →
      (∀ k, k < 2 → c.act &&& blockLanes k = 0 ∨ c.act &&& blockLanes k = blockLanes k) →
      pieces.Pairwise (fun p q => p.2.1.toNat + p.2.2 ≤ q.2.1.toNat ∨ q.2.1.toNat + q.2.2 ≤ p.2.1.toNat) →
      ∃ t, Stored s c ord (exec st s) t ∧
        (∀ o, (∀ p ∈ pieces, ¬(p.2.1.toNat ≤ o ∧ o < p.2.1.toNat + p.2.2)) → tileByte t c.g.team o = tileByte s c.g.team o) ∧
        (∀ l, l < 64 → hasLane c.act l = true →
          if ew then (tileByte t c.g.team (at_ l)).toNat / 2 ^ (4 * (l % 2)) % 16 = (lo d.val l).toNat % 16
          else tileByte t c.g.team (at_ l) = (lo d.val l).extractLsb' 0 8) ∧
        (x.isSome = true → ∀ k ∈ ks, tileByte t c.g.team (scale k) = (lo (d.val + 1) (32 * k)).extractLsb' 0 8) ∧
        (∀ j, j ≠ c.g.team → ∀ o, tileByte t j o = tileByte s j o) ∧ ∀ a, t.mem.get a = s.mem.get a)

/-- Cache operations (R397, R398) on lanes of mapped pages. Write-back takes a line's dirty bytes home and keeps the line,
drop takes them home and the line goes; prefetch fills the line; a page request of a resident page has no effect;
residency is 1 in the lanes of resident pages. -/
def Obligations.CacheOperations : Prop :=
  ∀ (m : Option Mod) (im : Option Imm) (x : Bool) (a : MAddr) (wr mig : Bool) (d : Fin 128) (tl : Tlb) (line : Nat)
    (w : CLine) (s : State) (c : Ctx), Quiet s → c.g.leases = [] →
    let core := keyCore c.k
    let la := laneAddrs c.g a im 128 c.act
    let dirty := fun (t : State) (o : Out) => ∃ g, o = .next t ∧ Tbl.find? t.groups c.k = some g ∧ At c g c.f.next ∧
      Kept c.g g ∧ SameS c.g g ∧ SameV c.g g ∧ SameP c.g g ∧ t.teams = s.teams ∧
      (∀ b, t.mem.get b = if b / 128 = line ∧ w.dirty.getLsbD (b % 128) = true then lineByte w.data (b % 128) else s.mem.get b)
    (c.act ≠ 0 → Mapped s c .read tl 1 la → (∀ y ∈ physicalAddrs tl la, y.2 / 128 = line) → tl.ac ≠ 2 →
      homeOnDie s (128 * line) (dieOf core) = true → (dieAt s (dieOf core)).rdc = [] →
      (coreAt s core).l1 = [(2 * line, w)] →
      (Performs (.cacheWb m im x a .glob) s c → ∃ t, dirty t (exec (.cacheWb m im x a .glob) s) ∧
        (coreAt t core).l1 = [(2 * line, { w with dirty := 0 })]) ∧
      (Performs (.cacheDrop m im x a .glob) s c → ∃ t, dirty t (exec (.cacheDrop m im x a .glob) s) ∧
        (coreAt t core).l1 = [])) ∧
    (∀ y ∈ la, Performs (.cachePrefetch m im x a false .glob) s c → Mapped s c .read tl 1 la → tl.ac ≠ 2 →
      CachesClean s core →
      ∃ t g, exec (.cachePrefetch m im x a false .glob) s = .next t ∧ Tbl.find? t.groups c.k = some g ∧ At c g c.f.next ∧
        Kept c.g g ∧ SameS c.g g ∧ SameV c.g g ∧ SameP c.g g ∧ (∀ b, t.mem.get b = s.mem.get b) ∧
        ∃ f, Tbl.find? (coreAt t core).l1 (l1Key (tl.pas y.2.toNat) false) = some f ∧ f.data = homeLine s (lineOf (tl.pas y.2.toNat))) ∧
    (Performs (.cachePagereq m im x a wr mig) s c → Mapped s c (if wr then .write else .read) tl 1 la →
      Skipped s c (exec (.cachePagereq m im x a wr mig) s)) ∧
    (Performs (.cacheResq m im x a d) s c → Mapped s c .read tl 1 la →
      ∃ u g, InFlight s c (exec (.cacheResq m im x a d) s) u ∧ Tbl.find? u.groups c.k = some g ∧ At c g c.f.next ∧
        Kept c.g g ∧ SameS c.g g ∧ SameV c.g g ∧
        (∀ (n : Fin 128) (l : Nat), l < 64 → hasLane (g.preg n.val) l =
          if n = d ∧ d.val ≠ 0 ∧ hasLane c.act l = true then true else hasLane (c.g.preg n.val) l) ∧
        ∀ b, u.mem.get b = s.mem.get b)

/-- Leases (R213 to R217, R394, R395, R453). A begin on a free line is granted at once, commits, and gives the group an image of the
line; lease.end sets out to end the set; at its completion the image's written bytes are in memory, the predicate is 1 and
no line is held; an expired lease is lost. -/
def Obligations.Leases : Prop :=
  ∀ (m : Option Mod) (im : Option Imm) (x : Bool) (a : SSrc) (p : Fin 128) (tl : Tlb) (k line : Nat) (s : State) (c : Ctx)
    (g : Group) (h : LeaseHold),
    let pa := tl.pas (scalarAddr c.g a im).toNat
    let home := lineOf pa
    let i : Instr := .lease m im x a
    (Executes i never s c → GuardPasses c → c.act ≠ 0 → Quiet s → CachesClean s (keyCore c.k) → HxFree c tl → c.g.leases = [] →
      c.g.leaseCount = 0 → Mapped s c .write tl 1 [(0, scalarAddr c.g a im)] →
      ∃ t g, exec i s = .next t ∧ Tbl.find? t.groups c.k = some g ∧ At c g c.f.next ∧ g.rgnentry = c.f.next ∧
        g.leases = [{ line := home, pa, held := true }] ∧ SameS c.g g ∧ SameV c.g g ∧ SameP c.g g ∧ (∀ b, t.mem.get b = s.mem.get b) ∧
        ∃ h, t.dev.leases = [(home, h)] ∧ h.holder = some c.k ∧ h.image = homeLine s home ∧ h.written = 0) ∧
    (Performs (.leaseEnd m p) s c → GuardPasses c →
      ∃ t g, exec (.leaseEnd m p) s = .next t ∧ Tbl.find? t.groups c.k = some g ∧
        Stands c g c.e.pc (.leaseEnd p c.act c.f.next) ∧ g.ending = true ∧ g.rgnentry = c.f.next ∧
        .leaseEndComplete c.k ∈ t.pending ∧ SameS c.g g ∧ SameV c.g g ∧ SameP c.g g ∧ ∀ b, t.mem.get b = s.mem.get b) ∧
    (∀ n e lanes next, Tbl.find? s.groups k = some g → g.ending = true → g.preempt = false → g.entries = [(n, e)] →
      e.wait = .leaseEnd p lanes next → g.suspended = [] → g.leases = [{ line, pa, held := true }] → s.dev.frames = [] →
      s.dev.watches = [] → s.dev.leases = [(line, h)] → h.holder = some k → h.queue = [] → isLocal line = true → line % 128 = 0 →
      leaseExpired (clockAt s (homeOf s.dev line).1 % 2 ^ 32) h.deadline = false →
      ∃ t f, exec (.leaseEndComplete k) s = .next t ∧ Tbl.find? t.groups k = some f ∧ f.leases = [] ∧ f.endok = true ∧
        f.ending = false ∧ t.dev.leases = [] ∧
        (∀ b, t.mem.get b = if b / 128 * 128 = line ∧ h.written.getLsbD (b % 128) = true then lineByte h.image (b % 128)
          else s.mem.get b) ∧
        (∀ l, l < 64 → hasLane (f.preg p.val) l = if p.val ≠ 0 ∧ hasLane lanes l = true then true else hasLane (g.preg p.val) l) ∧
        ∃ y, f.entries = [(n, y)] ∧ y.pc = next ∧ y.wait = .run) ∧
    (Tbl.find? s.groups k = some g → g.leases = [{ line, pa, held := true }] → s.dev.leases = [(line, h)] → h.holder = some k → h.queue = [] →
      leaseExpired (clockAt s (homeOf s.dev line).1 % 2 ^ 32) h.deadline = true →
      ∃ t f, exec (.leaseExpire line) s = .next t ∧ Tbl.find? t.groups k = some f ∧ f.leases = [{ line, pa, held := false }] ∧
        f.lost.getLsbD 0 = true ∧ t.dev.leases = [] ∧ (predictor t.dev line).2 = true ∧ ∀ b, t.mem.get b = s.mem.get b)

/-- Fences (R207, R208, R222, R396): with no access of the group parked a fence passes, and changes no register and no memory. A
phase fence at device scope or wider discards the clean lines of the core's L1 that its scope covers. -/
def Obligations.Fences : Prop :=
  ∀ (m : Option Mod) (sc : Scope) (w r : BitVec 5) (s : State) (c : Ctx), GuardPasses c → c.g.pathCParked = false →
    let passed := fun (t : State) (o : Out) => ∃ g, o = .next t ∧ Tbl.find? t.groups c.k = some g ∧ At c g c.f.next ∧
      Kept c.g g ∧ SameS c.g g ∧ SameV c.g g ∧ SameP c.g g ∧ g.flags = c.g.flags ∧
      (∀ j, j ≠ c.k → Tbl.find? t.groups j = Tbl.find? s.groups j) ∧ ∀ b, t.mem.get b = s.mem.get b
    (Performs (.fence m sc) s c → Skipped s c (exec (.fence m sc) s)) ∧
    (Performs (.fencePhase m sc) s c → dirtyLines s (keyCore c.k) = [] → PrivClean s (keyCore c.k) →
      ∃ t, passed t (exec (.fencePhase m sc) s) ∧
        (coreAt t (keyCore c.k)).l1 = (if Scope.wide sc = true then discardClean (decide (sc = .sys)) (coreAt s (keyCore c.k)).l1
          else (coreAt s (keyCore c.k)).l1)) ∧
    (Performs (.xfence m sc w r) s c → w = 0 ∨ r = 0 → Skipped s c (exec (.xfence m sc w r) s)) ∧
    (Performs (.xfence m sc w r) s c → pathsBusy s c w = false → dirtyLines s (keyCore c.k) = [] → PrivClean s (keyCore c.k) →
      ∃ t, passed t (exec (.xfence m sc w r) s))

/-- Waiting on memory (R84, R399, R400). A condition that holds ends the wait at once, with the outcome 1 in the active
lanes and a commit; one that does not arms a watch on the word; a poll that finds it true ends the wait with 1, the deadline
with 0. -/
def Obligations.MemoryWait : Prop :=
  ∀ (m : Option Mod) (im : Option Imm) (d a : SSrc) (tmo : BitVec 4) (w8 : Bool) (cmp : Cmp) (x : Option WaitExt) (tl : Tlb)
    (s : State) (c : Ctx),
    let i : Instr := .wwait m im d a tmo w8 cmp x
    let pa := tl.pas (scalarAddr c.g a im).toNat
    let mask := x.elim (BitVec.allOnes 64) fun e => c.g.ssrc e.c none
    let comp := c.g.ssrc d none
    let word := ofBytes ((upTo pa (watchSize w8)).map s.mem.get)
    (Executes i never s c → GuardPasses c → c.act ≠ 0 → Quiet s → CachesClean s (keyCore c.k) → HxFree c tl →
      Mapped s c .read tl (watchSize w8) [(0, scalarAddr c.g a im)] → c.g.suspended = [] →
      (∀ e ∈ c.g.entries, waitsOn 0 e.2 = false) →
      (watchHolds w8 mask cmp comp word = true →
        ∃ t g, exec i s = .next t ∧ Tbl.find? t.groups c.k = some g ∧ At c g c.f.next ∧ g.rgnentry = c.f.next ∧
          SameS c.g g ∧ SameV c.g g ∧
          (∀ (n : Fin 128) (l : Nat), l < 64 → hasLane (g.preg n.val) l =
            if x.map (·.p) = some n ∧ n.val ≠ 0 ∧ hasLane c.act l = true then true else hasLane (c.g.preg n.val) l) ∧
          ∀ b, t.mem.get b = s.mem.get b) ∧
      (watchHolds w8 mask cmp comp word = false →
        ∃ t g e w, exec i s = .next t ∧ Tbl.find? t.groups c.k = some g ∧ Tbl.find? g.entries c.n = some e ∧ e.pc = c.e.pc ∧
          t.dev.watches = [w] ∧ w.pa = pa ∧ w.kind = 0 ∧ w.token = c.k ∧ w.mask = mask ∧ w.cmp = cmp ∧ w.comp = comp ∧
          waitsOn w.id e = true ∧ SameS c.g g ∧ SameV c.g g ∧ SameP c.g g ∧ ∀ b, t.mem.get b = s.mem.get b)) ∧
    (∀ k n g id at_ sc lanes p dl poll pa mask comp next e, Tbl.find? s.groups k = some g → g.entries = [(n, e)] → g.suspended = [] →
      e.wait = .watch id pa w8 mask cmp comp p lanes sc dl poll at_ next →
      let ended := fun (r : Bool) (o : Out) => ∃ t h, o = .next t ∧ Tbl.find? t.groups k = some h ∧
        (∃ y, h.entries = [(n, y)] ∧ y.pc = next ∧ y.wait = .run) ∧ h.rgnentry = next ∧ SameS g h ∧ SameV g h ∧
        (∀ q, p = some q → q.val ≠ 0 → ∀ l, l < 64 → hasLane (h.preg q.val) l = if hasLane lanes l = true then r else hasLane (g.preg q.val) l) ∧
        (∀ v ∈ t.dev.watches, v.id ≠ id) ∧ ∀ b, t.mem.get b = s.mem.get b
      (poll = true → at_ ≤ clockAt s (dieOf (keyCore k)) → Quiet { s with dev := { s.dev with watches := [] } } →
        isLocal pa = true → pa % watchSize w8 = 0 →
        watchHolds w8 mask cmp comp (ofBytes ((upTo pa (watchSize w8)).map s.mem.get)) = true →
        ended true (exec (.wwaitPoll k n) s)) ∧
      (∀ t, dl = some t → t ≤ clockAt s (dieOf (keyCore k)) → ended false (exec (.wwaitTimeout k n) s)))

/-! ### Queue registers, engines and rendering -/

/-- Queue registers (R225 to R230, R405 to R410). A command push hands its four words to the engine's intake and commits; a
pop removes the oldest entry and gives its value, which stays retained outside a handler; a peek gives it without removing it;
an empty queue makes the split wait; the state word holds port and count; a binding that R410 allows is made, one that it
refuses traps BINDING. Shown for a group of one split.
The delivery of an engine's result (R228): the first that is held for the port enters the queue bound to it, behind the
entries there. -/
def Obligations.QueueRegisters : Prop :=
  (∀ (m : Option Mod) (n : Fin 8) (port : Fin 16) (d : SDst) (v : Fin 240) (x : SSrc) (e : QEntry)
     (rest : List QEntry) (s : State) (c : Ctx), GuardPasses c → c.passing = false → c.g.entries = [(c.n, c.e)] →
     c.g.suspended = [] →
     let q := c.g.qreg n.val
     let die := dieOf (keyCore c.k)
     let near := fun (t : State) (g : Group) (o : Out) => o = .next t ∧ Tbl.find? t.groups c.k = some g ∧ At c g c.f.next ∧
       (∀ j, j ≠ c.k → Tbl.find? t.groups j = Tbl.find? s.groups j) ∧ (∀ b, t.mem.get b = s.mem.get b) ∧ t.teams = s.teams ∧
       SameP c.g g ∧ g.flags = c.g.flags
     let scalar := fun (g : Group) => (∀ k : Fin 64, g.sreg k.val = if d = .s k then e.word else c.g.sreg k.val) ∧ SameV c.g g
     let vector := fun (g : Group) => SameS c.g g ∧ (∀ (k : Fin 240) (l : Nat), l < 64 → lane (g.vreg k.val) l =
         if k = v ∧ hasLane c.g.lanes l = true then lane e.row l else lane (c.g.vreg k.val) l)
     let popped := fun (g : Group) => g.qreg n.val =
       { port := q.port, entries := rest, retained := if c.g.hnd then q.retained else q.retained ++ [{ e with counted := false }] }
     (∀ k : Fin 64, x = .s k → k.val % 4 = 0 → q.port = 1 ∨ q.port = 3 → Executes (.qPush m n (.s x)) never s c →
       untaken (intake s die q.port) c.g.team c.g.ident < 8 →
       ∃ t g y, near t g (exec (.qPush m n (.s x)) s) ∧ SameS c.g g ∧ SameV c.g g ∧ g.rgnentry = c.f.next ∧
         g.outstanding = c.g.outstanding + 1 ∧ intake t die q.port = intake s die q.port ++ [y] ∧ y.phase = 0 ∧
         y.words = (upTo k.val 4).map (fun r => c.g.sreg r) ∧ y.team = c.g.team ∧ y.ident = c.g.ident) ∧
     (scalarPop q.port = true → c.g.hnd = true → q.retained = [] → q.entries.length < 8 →
       Executes (.qPush m n (.s x)) never s c →
       ∃ t g, near t g (exec (.qPush m n (.s x)) s) ∧ SameS c.g g ∧ SameV c.g g ∧
         (g.qreg n.val).entries = q.entries ++ [{ word := c.g.ssrc x none, row := zeroRow, counted := false }]) ∧
     (scalarPop q.port = true → q.entries = e :: rest → Executes (.qPop m (.s d) n) never s c →
       ∃ t g, near t g (exec (.qPop m (.s d) n) s) ∧ scalar g ∧ popped g ∧
         g.outstanding = c.g.outstanding - (if e.counted then 1 else 0)) ∧
     (vectorPop q.port = true → failedFor (mxeAt s (keyCore c.k) (portCtx q.port)) c.g = false → q.entries = e :: rest →
       Executes (.qPop m (.v v) n) never s c → ∃ t g, near t g (exec (.qPop m (.v v) n) s) ∧ vector g ∧ popped g) ∧
     (scalarPop q.port = true → q.entries = [] → Executes (.qPop m (.s d) n) never s c →
       Moved s c c.e.pc (.pop n) (exec (.qPop m (.s d) n) s)) ∧
     (scalarPop q.port = true → q.entries = e :: rest → Executes (.qPeek m (.s d) n) never s c →
       ∃ t g, near t g (exec (.qPeek m (.s d) n) s) ∧ scalar g ∧ g.qreg n.val = q) ∧
     (vectorPop q.port = true → q.entries = e :: rest → Executes (.qPeek m (.v v) n) never s c →
       ∃ t g, near t g (exec (.qPeek m (.v v) n) s) ∧ vector g ∧ g.qreg n.val = q) ∧
     (Executes (.qStat m d n) never s c →
       ScalarDone s c d (BitVec.ofNat 64 (q.port.toNat * 256 + queueCount s c.k c.g q)) (exec (.qStat m d n) s)) ∧
     (Executes (.qBind m n port) never s c → bindRefused s c n port = false →
       ∃ t g, near t g (exec (.qBind m n port) s) ∧ SameS c.g g ∧ SameV c.g g ∧
         g.qreg n.val = { port := BitVec.ofNat 4 port.val, entries := q.entries, retained := [] } ∧
         ∀ k, k ≠ n.val → g.qreg k = c.g.qreg k) ∧
     (Executes (.qBind m n port) never s c → bindRefused s c n port = true → HandlerReady c.t c.g → NoLease s c.k c.g →
       c.g.ending = false → Trapped s c cBinding 0 (exec (.qBind m n port) s))) ∧
  (∀ (k n : Nat) (port : BitVec 4) (h : HeldResult) (q : QReg) (s : State) (g : Group),
     Tbl.find? s.groups k = some g → s.dev.held = [h] → h.team = g.team → h.ident = g.ident → h.port = port →
     g.boundTo port = some (n, q) → g.takesResults = true → q.entries.length < 8 → q.retained = [] →
     ∃ t u, exec (.engineResultDelivery k port.toNat) s = .next t ∧ Tbl.find? t.groups k = some u ∧
       (u.qreg n).entries = q.entries ++ [h.entry] ∧ t.dev.held = [] ∧ SameS g u ∧ SameV g u ∧ SameP g u ∧
       ∀ b, t.mem.get b = s.mem.get b)

/-- Replay records (R113, R117, R131, R429 to R432). A read gives the slot's eight words, or those of a free slot; in a handler an
UNRESOLVED record is written whole into a free slot, a word of STATE 000 writes nothing, and a retired record leaves its
slot free. The replay of a fetch whose page is resident frees its slot; that of a matrix context sets it running again and
frees its slot; that of an engine command lets the command go on from the byte count of its record, which is REPLAYING. -/
def Obligations.ReplayRecords : Prop :=
  ∀ (m : Option Mod) (d : Fin 8) (n : RrSlot) (s : State) (c : Ctx), GuardPasses c →
    let slot := slotOf c.g n
    let ws := (upTo 0 8).map fun k => c.g.sreg (8 * d.val + k)
    (Executes (.rrRead m d n) never s c → (∀ r, Tbl.find? c.g.rr slot = some r → r.stat ≠ rrReplaying) →
      ∃ t g, exec (.rrRead m d n) s = .next t ∧ GroupStep s t c.k g ∧ At c g c.f.next ∧ Kept c.g g ∧ SameV c.g g ∧
        SameP c.g g ∧ g.flags = c.g.flags ∧
        (∀ k, k < 8 → g.sreg (8 * d.val + k) = nthD ((Tbl.find? c.g.rr slot).elim freeRecord (·.words)) k 0) ∧
        ∀ r, ¬(8 * d.val ≤ r ∧ r < 8 * d.val + 8) → g.sreg r = c.g.sreg r) ∧
    (Executes (.rrWrite m d n) never s c → c.g.hnd = true → Tbl.find? c.g.rr slot = none → recordBad ws = false →
      (bits (nthD ws 0 0) 8 3 = 0 → Skipped s c (exec (.rrWrite m d n) s)) ∧
      (bits (nthD ws 0 0) 8 3 = rrUnresolved →
        ∃ t g r, exec (.rrWrite m d n) s = .next t ∧ Tbl.find? t.groups c.k = some g ∧ At c g c.f.next ∧
          Tbl.find? g.rr slot = some r ∧ r.words = ws ∧ SameS c.g g ∧ SameV c.g g ∧ SameP c.g g ∧
          ∀ b, t.mem.get b = s.mem.get b)) ∧
    (Executes (.rrRetire m n) never s c → c.g.hnd = true →
      (Tbl.find? c.g.rr slot = none → Skipped s c (exec (.rrRetire m n) s)) ∧
      (∀ r, Tbl.find? c.g.rr slot = some r → r.stat ≠ rrReplaying → r.unit = 1 → c.g.overflow = [] → c.g.live ≠ 0 →
        ∃ t g, exec (.rrRetire m n) s = .next t ∧ Tbl.find? t.groups c.k = some g ∧
          (∃ e, Tbl.find? g.entries c.n = some e ∧ e.pc = c.f.next ∧ e.wait = .run) ∧ Tbl.find? g.rr slot = none ∧ (∀ j, j ≠ slot → Tbl.find? g.rr j = Tbl.find? c.g.rr j) ∧ SameS c.g g ∧ SameV c.g g ∧
          SameP c.g g ∧ ∀ b, t.mem.get b = s.mem.get b)) ∧
    (∀ k j r u t tl, oldestReady s (keyCore k) = some (k, j, r) → r.unit = 1 → Tbl.find? s.groups k = some u →
      Tbl.find? s.teams u.team = some t → u.rr = [(j, r)] → u.overflow = [] → u.live ≠ 0 → t.core = keyCore k →
      (nthD r.words 3 0).toNat < 2 ^ 48 →
      (coreAt s t.core).tlb.find? (fun e => e.covers (teamAgent t) (nthD r.words 3 0).toNat && e.serves .exec &&
        !movedAway s.dev (e.pas (nthD r.words 3 0).toNat) && paReachable s.dev (e.pas (nthD r.words 3 0).toNat)) = some tl →
      ∃ v g, exec (.recordReplay (keyCore k)) s = .next v ∧ Tbl.find? v.groups k = some g ∧ g.rr = [] ∧ SameS u g ∧
        SameV u g ∧ SameP u g ∧ ∀ b, v.mem.get b = s.mem.get b) ∧
    (∀ k j r u x, oldestReady s (keyCore k) = some (k, j, r) → Tbl.find? s.groups k = some u → u.rr = [(j, r)] →
      u.overflow = [] → r.unit = 3 → mxeAt s (keyCore k) r.cmd = x → x.state = 2 → x.fop ≠ 4 →
      ∃ v g, exec (.recordReplay (keyCore k)) s = .next v ∧ Tbl.find? v.groups k = some g ∧ g.rr = [] ∧
        mxeAt v (keyCore k) r.cmd = { x with state := 1, fop := 7, fault := none, staged := [] } ∧ SameS u g ∧
        SameV u g ∧ SameP u g ∧ ∀ b, v.mem.get b = s.mem.get b) ∧
    (∀ k j r u e, oldestReady s (keyCore k) = some (k, j, r) → Tbl.find? s.groups k = some u → r.unit = 2 ∨ r.unit = 4 →
      let copy := r.unit == 2
      let die := cmdDie s copy r.cmd
      findCmd s die copy r.cmd = some e →
      ∃ v g z, exec (.recordReplay (keyCore k)) s = .next v ∧ Tbl.find? v.groups k = some g ∧
        Tbl.find? g.rr j = some z ∧ z.stat = rrReplaying ∧
        findCmd v die copy r.cmd =
          some { e with phase := 1, fault := none, done := bits (nthD r.words 7 0) 0 40, elemMask := r.mask } ∧
        SameS u g ∧ SameV u g ∧ SameP u g ∧ ∀ b, v.mem.get b = s.mem.get b)

/-- mma and mma.acc of a group alone (R245, R246, R411, R412): the context the descriptor names starts, empty or with the held
accumulator, for this team and group; the instruction commits. -/
def Obligations.MatrixStart : Prop :=
  ∀ (m : Option Mod) (a : Fin 64) (acc : Bool) (tl : Tlb) (s : State) (c : Ctx),
    let i : Instr := if acc then .mmaAcc m a else .mma m a
    let va := c.g.sreg a.val
    let d := bytesWords ((upTo (tl.pas va.toNat) 64).map s.mem.get) 8
    let x := mxeAt s (keyCore c.k) (dCtx d)
    Executes i never s c → c.g.width ≠ 16 → c.g.entries = [(c.n, c.e)] → bits c.t.gang 32 3 = 0 → c.g.rr = [] →
    c.g.overflow = [] → Quiet s → CachesClean s (keyCore c.k) → Mapped s c .read tl 64 [(0, va)] →
    (coreAt s (keyCore c.k)).mxe.length = 2 →
    descOk d c.t.tileSize (!acc && dInitc d) = true → dInitc d = false →
    (if acc = true then heldOk x c.g.team d = true ∧ x.state = 4 else x.state = 0) →
    ∃ t g y, exec i s = .next t ∧ Tbl.find? t.groups c.k = some g ∧ At c g c.f.next ∧ g.rgnentry = c.f.next ∧
      SameS c.g g ∧ SameV c.g g ∧ SameP c.g g ∧ (∀ b, t.mem.get b = s.mem.get b) ∧
      mxeAt t (keyCore c.k) (dCtx d) = y ∧ y.state = 1 ∧ y.desc = d ∧ y.descVa = va ∧ y.owner = c.g.team ∧
      y.members = [c.g.ident] ∧ y.row = 0 ∧ y.col = 0 ∧ y.depth = 0 ∧ y.acc = if acc then x.acc else []

/-- eng (R413 to R417): the image of a context goes to memory, comes back from it, and a parked context runs again.
The image of a context holds everything of it that R249 names: reading it back gives the descriptor, the counters,
STATE, GANG and the accumulator. -/
def Obligations.ContextTransfer : Prop :=
  (∀ (m : Option Mod) (n : Fin 2) (a : Fin 64) (tl : Tlb) (s : State) (c : Ctx), GuardPasses c → c.act ≠ 0 →
     (coreAt s (keyCore c.k)).mxe.length = 2 →
     let va := c.g.sreg a.val
     let pa := tl.pas va.toNat
     let x := mxeAt s (keyCore c.k) n.val
     let lines := (upTo 0 129).map fun k => (k, va + BitVec.ofNat 64 (128 * k))
     let bs := (upTo pa 16512).map s.mem.get
     let y := imageCtx (bytesWords bs 16) (bs.drop 128)
     x.state = 0 ∨ x.owner = c.g.team → x.state ≠ 5 →
     (Performs (.engErd m n a) s c → x.state ≠ 1 → Quiet s → CachesClean s (keyCore c.k) → Mapped s c .write tl 128 lines →
       c.g.leases = [] →
       ∃ t, Stored s c false (exec (.engErd m n a) s) t ∧
         (∀ b, t.mem.get b = if pa ≤ b ∧ b < pa + 16512 then nthD x.image (b - pa) 0 else s.mem.get b) ∧
         mxeAt t (keyCore c.k) n.val = x) ∧
     (Performs (.engErd m n a) s c → va.toNat % 128 = 0 → x.state = 1 →
       Moved s c c.e.pc (.context n) (exec (.engErd m n a) s)) ∧
     (Performs (.engEwr m n a) s c → Quiet s → CachesClean s (keyCore c.k) → Mapped s c .read tl 128 lines →
       controlBad (bytesWords bs 16) = false → imageBad c.t c.g.width x y = false →
       ∃ t g, exec (.engEwr m n a) s = .next t ∧ Tbl.find? t.groups c.k = some g ∧ At c g c.f.next ∧ SameS c.g g ∧ SameV c.g g ∧
         SameP c.g g ∧ mxeAt t (keyCore c.k) n.val = writtenCtx s c n.val y ∧ ∀ b, t.mem.get b = s.mem.get b) ∧
     (Performs (.engEresume m n) s c → x.state = 2 → x.fop ≠ 4 →
       ∃ t g, exec (.engEresume m n) s = .next t ∧ Tbl.find? t.groups c.k = some g ∧ At c g c.f.next ∧ Kept c.g g ∧
         SameS c.g g ∧ SameV c.g g ∧ SameP c.g g ∧ (∀ b, t.mem.get b = s.mem.get b) ∧
         mxeAt t (keyCore c.k) n.val = { x with state := 1, fop := 7, fault := none, staged := [] }) ∧
     (Performs (.engEresume m n) s c → x.state ≠ 2 → x.state ≠ 3 → Skipped s c (exec (.engEresume m n) s))) ∧
  (∀ x : MxeCtx, x.desc.length = 8 → x.pops < 1024 → x.depth < 2 ^ 17 → x.row < 8 → x.col < 8 →
     let y := imageCtx (bytesWords x.image 16) (x.image.drop 128)
     x.image.length = 16512 ∧ y.desc = x.desc ∧ y.state = x.state ∧ y.pops = x.pops ∧ y.depth = x.depth ∧ y.row = x.row ∧
       y.col = x.col ∧ y.fop = x.fop ∧ y.gang = x.gang ∧ ∀ i j, i < 64 → j < 64 → y.accAt i j = x.accAt i j)

/-- The engine's own moves (R247, R248, R250). A fetch that faults is recorded with its context; the loop that reaches the chunk
parks the context, with a record of unit 3 in the first member's slots; the last chunk's end gives the members its flags
and leaves the context HELD or DRAIN.
One block of a chunk (R246, R292, R293): each accumulator element of the block takes one step, once, and no other element
changes. -/
def Obligations.MatrixMoves : Prop :=
  (∀ (core n k slot : Nat) (f : ChunkFault) (s u : State) (g : Group) (t : Team), n < 2 → (coreAt s core).mxe.length = 2 →
     let x := mxeAt s core n
     Tbl.find? s.teams x.owner = some t → x.members = [g.ident] → findGroup s x.owner g.ident = some (k, g) →
     Tbl.find? s.groups k = some g → g.team = x.owner →
     (∀ b, x.nextFetch = some b → (fetchOperand t n b 0 (dAtile x.desc) (aRanges x.desc b)).run s = (.bad f, u) →
       ∃ v, exec (.mxeFetchFault core n) s = .next v ∧ v.groups = u.groups ∧ v.mem = u.mem ∧
         ((coreAt u core).mxe = (coreAt s core).mxe → mxeAt v core n = { x with fault := some f })) ∧
     (x.fault = some f → x.state = 1 → x.row = 0 → x.col = 0 → f.depth = x.depth → f.trap = 0 →
       freeBelow 8 (Tbl.keys g.rr) = some slot → (coreAt s (keyCore k)).filter = [] →
       ∃ v h r, exec (.mxePark core n) s = .next v ∧ (mxeAt v core n).state = 2 ∧
         (mxeAt v core n).fop = BitVec.ofNat 3 f.operand ∧ Tbl.find? v.groups k = some h ∧ Tbl.find? h.rr slot = some r ∧
         r.unit = 3 ∧ r.stat = rrParked ∧ r.cls = f.cls % 8 ∧ ∀ b, v.mem.get b = s.mem.get b) ∧
     (x.state = 1 → dKchm1 x.desc < x.depth →
       ∃ v h, exec (.mxeComputeDone core n) s = .next v ∧ (mxeAt v core n).state = (if dHold x.desc then 4 else 3) ∧
         Tbl.find? v.groups k = some h ∧ h.flags = g.flags ||| x.flags ∧ SameS g h ∧ SameV g h ∧ SameP g h ∧
         ∀ b, v.mem.get b = s.mem.get b)) ∧
  (∀ (x : MxeCtx) (ch : Chunk), x.row < 8 → x.col ≤ dNbm1 x.desc → accCols x.desc ≤ 64 →
     let w := if dCplx x.desc then 16 else 8
     (x.block ch).desc = x.desc ∧
     ∀ i j, i < 64 → j < 64 →
       (x.block ch).accAt i j =
         if 8 * x.row ≤ i ∧ i < 8 * x.row + 8 ∧ w * x.col ≤ j ∧ j < w * (x.col + 1)
         then (accStep x.desc ch (x.accAt i j) i j).1 else x.accAt i j)

/-- Render instructions at issue (R418 to R425): when no lane faults, every lane's result is in flight for the destination's
registers, the split goes on, the chain shifts, and no register has changed yet. -/
def Obligations.RenderIssue : Prop :=
  ∀ (m : Option Mod) (im : Option Imm) (d a : Fin 240) (b : Fin 32) (i : Instr) (s u : State) (c : Ctx)
    (l : List (Nat × List Word32 × Bool)),
    i ∈ [.rndTex m im d a b, .rndTexq m im d a b, .rndTrace m im d a b, .rndTracec m im d a b, .rndVmarch m im d a b,
      .rndDraw m d a, .rndDrawTab m im d a b] →
    Performs i s c → c.act ≠ 0 →
    (∀ p n, rndSite c.g i = some (p, n) → p.toNat % n = 0 ∧ p.toNat < 2 ^ 48) →
    (rndLanes i (c.job c.act) fun _ => none).run s = (l.map (fun x => (x.1, LaneEnd.done x.2.1 x.2.2)), u) →
    Tbl.find? u.groups c.k = some c.g →
    ∃ t g p, exec i s = .next t ∧ Tbl.find? t.groups c.k = some g ∧ At c g c.f.next ∧ SameS c.g g ∧ SameV c.g g ∧
      SameP c.g g ∧ g.flags = c.g.flags ∧ Tbl.find? g.pend u.dev.nextId = some p ∧ p.lanes = c.act ∧ p.render = true ∧
      p.regs.map (·.reg) = (regUse i).vw ∧
      (∀ x ∈ l, ∀ r, r < (regUse i).vw.length →
        lane (nthD p.regs r { reg := 0, lanes := 0, row := zeroRow }).row x.1 = nthD x.2.1 r 0 ∧
        hasLane p.nv x.1 = x.2.2 ∧ .renderComplete c.k u.dev.nextId x.1 ∈ t.pending) ∧
      g.outstanding = c.g.outstanding + 1 ∧ t.mem = u.mem

/-- Draws (R267, R268, R425, R426). A draw's first word is the Philox value of its counter under DRAWKEY and DRAWCTR, its
second the counter plus 1; drawseed writes 0 and the lane's own stream number. -/
def Obligations.Draws : Prop :=
  ∀ (m : Option Mod) (im : Option Imm) (d a : Fin 240) (b : Fin 32) (s : State) (c : Ctx),
    (rndLanes (.rndDraw m d a) (c.job c.act) fun _ => none).run s = ((lanesOf c.act).map (fun l =>
      let w := lane (c.g.vreg a.val) l
      let stream := lane (c.g.vreg (a.val + 1)) l
      (l, LaneEnd.done [philoxDraw w stream c.g.drawkey c.g.drawctr, w + 1, stream] false)), s) ∧
    (Performs (.rndDrawseed m im d b) s c →
      let seed := (c.g.sreg b.val + immValue im).setWidth 32
      ∃ t g, exec (.rndDrawseed m im d b) s = .next t ∧ GroupStep s t c.k g ∧ At c g c.f.next ∧ Kept c.g g ∧ SameS c.g g ∧
        SameP c.g g ∧ g.flags = c.g.flags ∧
        ∀ (n l : Nat), l < 64 → lane (g.vreg n) l =
          if hasLane c.act l = true ∧ n = d.val then 0 else if hasLane c.act l = true ∧ n = d.val + 1 then seed + BitVec.ofNat 32 l
          else lane (c.g.vreg n) l)

/-- Completion and parking of render operations (R113, R420, R425): a lane's registers are written when it completes, the last
lane ends the operation, NV is set where the lane set it; a faulted operation takes the lowest free slot. -/
def Obligations.RenderCompletion : Prop :=
  ∀ (k id l slot : Nat) (p : Pend) (r : RrSlotState) (s : State) (g : Group) (t : Team), Tbl.find? s.groups k = some g →
    (Tbl.find? g.pend id = some p → p.render = true → p.lanes = laneBit l → p.parked = 0 → p.sdst = none → p.pdst = none →
      l < 64 → (p.regs.map (·.reg)).Nodup →
      ∃ v h, exec (.renderComplete k id l) s = .next v ∧ GroupStep s v k h ∧ Tbl.find? h.pend id = none ∧
        h.flags = (if hasLane p.nv l then g.flags ||| fNV else g.flags) ∧ SameS g h ∧ SameP g h ∧
        (∀ x ∈ p.regs, lane (h.vreg x.reg) l = if hasLane x.lanes l then lane x.row l else lane (g.vreg x.reg) l) ∧
        (∀ n j, j < 64 → (j ≠ l ∨ n ∉ p.regs.map (·.reg)) → lane (h.vreg n) j = lane (g.vreg n) j) ∧
        h.outstanding = g.outstanding - if p.counted then 1 else 0) ∧
    (Tbl.find? s.teams g.team = some t → g.overflow = [r] → r.pend = id → r.unit ≠ 0 → r.spill = [] → r.pages.length ≤ 1 →
      freeBelow 8 (Tbl.keys g.rr) = some slot → (coreAt s (keyCore k)).filter = [] → s.dev.fle.reqs = [] →
      ∃ v h, exec (.renderFaultPark k id) s = .next v ∧ Tbl.find? v.groups k = some h ∧ Tbl.find? h.rr slot = some r ∧
        h.overflow = [] ∧ SameS g h ∧ SameV g h ∧ SameP g h ∧ ∀ b, v.mem.get b = s.mem.get b)

/-- Mesh emission and pixels (R276 to R280, R427, R428). A count of 0 only commits, one above 256 raises NV as well; with its
meshlets read the split waits for the delivery of the quads; a quad that no depth test stops reaches the pixel queue of its
core. -/
def Obligations.MeshEmission : Prop :=
  ∀ (m : Option Mod) (im : Option Imm) (d a : Fin 64) (b : Fin 32) (s : State) (c : Ctx),
    let i : Instr := .rndMshemit m im d a b
    let n := (c.g.sreg a.val).toNat
    let start : RsuJob := { group := c.k, entry := c.n, state := c.g.sreg b.val + immValue im, meshlets := c.g.sreg d.val,
                            count := n, next := 0, raster := none, quads := [], read := false }
    (Performs i s c → GuardPasses c → n = 0 ∨ 256 < n →
      ∃ t g, exec i s = .next t ∧ GroupStep s t c.k g ∧ At c g c.f.next ∧ g.rgnentry = c.f.next ∧
        g.flags = (if n = 0 then c.g.flags else c.g.flags ||| fNV) ∧ SameS c.g g ∧ SameV c.g g ∧ SameP c.g g) ∧
    (∀ u j q, Performs i s c → GuardPasses c → 0 < n → n ≤ 256 → (c.g.sreg d.val).toNat % 32 = 0 →
      (c.g.sreg b.val + immValue im).toNat % 64 = 0 → (readJob c.t start).run s = (.done j false, u) → q ∈ j.quads →
      j.group = c.k → Tbl.find? u.groups c.k = some c.g →
      ∃ t g, exec i s = .next t ∧ Tbl.find? t.groups c.k = some g ∧ Stands c g c.e.pc (.mshemit c.f.next) ∧ g.mshemit = 1 ∧
        g.flags = c.g.flags ∧ j ∈ (coreAt t (keyCore c.k)).rsu ∧ .quadDelivery q.core ∈ t.pending ∧ SameS c.g g ∧ SameV c.g g ∧
        SameP c.g g ∧ t.mem = u.mem) ∧
    (∀ core j q w, s.cores = [(core, w)] → w.rsu = [j] → j.read = true → j.quads = [q, q] → q.core = core →
      w.depthFor = some q.raster → bits q.raster.zctl 0 2 = 0 → q.cover ≠ 0 → w.pixel.length < 256 →
      ∃ t, exec (.quadDelivery core) s = .next t ∧ (coreAt t core).pixel = w.pixel ++ [q] ∧
        ((coreAt t core).rsu.map (·.quads)) = [[q]] ∧ (coreAt t core).depth = w.depth ∧ t.mem = s.mem) ∧
    (∀ core q l k p f fs qu slot hi, (coreAt s core).pixel = q :: l → leadingQuads (q :: l) = q :: l →
      moreComing s core q.raster = false → q.raster.kernel = some k → packetAt s.dev q.raster.queue q.raster.packet = some p →
      p.phase = 1 → f.groups = [(qu, slot, hi)] →
      fitsOn s { queue := q.raster.queue, packet := q.raster.packet, part := q.raster.part, kernel := k, quota := p.quota,
                 prio := q.raster.prio } core 1 1 [] = some (f :: fs) →
      let lanes := pixelLanes (q :: l)
      ∃ t g e, exec (.pixelGroupStart core) s = .next t ∧ (coreAt t core).pixel = [] ∧
        Tbl.find? t.groups (groupKey core qu slot hi) = some g ∧ g.team = s.dev.nextId ∧ g.live = lanes ∧ g.entries = [(0, e)] ∧
        e.pc = k.entry ∧ e.mask = lanes ∧ (∀ r, r < 6 → ∀ n, n < 64 → hasLane lanes n = true →
          lane (g.vreg r) n = lane (nthD (pixelRows (q :: l)) r zeroRow) n) ∧ t.mem = s.mem)

/-! ### The whole machine -/

/-- A nop, and an instruction whose guard fails, advance the split and change nothing else (R182, R320): every instruction that
acts once for the split or once for the group. -/
def Obligations.GuardFailures : Prop :=
  ∀ (m : Option Mod) (i : Instr) (s : State) (c : Ctx),
    (Executes (.nop m) never s c → Skipped s c (exec (.nop m) s)) ∧
    (Executes i never s c → c.passing = false → splitGuarded c i = true → ¬GuardPasses c → Skipped s c (exec i s)) ∧
    (Executes i never s c → c.passing = false → groupGuardedForm c i = true → ¬GroupGuardPasses c →
      Skipped s c (exec i s))

/-- Every instruction answers a next state, in every state; nothing faults and nothing is refused. (That an instruction with a
word has no effect where no split stands to execute it is the model's, DESIGN CHOICE, log 3.) -/
def Obligations.EveryInstructionAnswers : Prop :=
  ∀ (i : Instr) (s : State),
    (∃ t, exec i s = .next t) ∧ (i.hasWord = true → ctxOf s (instrMod i) = none → exec i s = .next s) ∧
    ∃ t, step s = .next t

/-- What reset leaves, where the spec gives the value: PORTCTL and PORTSTAT (R29, R31), FLEPOL (R123), MIGTHRESH (R50), the
windows and directories of every function (R87, R125), disabled completion queues (R90), partition 0 with every queue, way and
watch entry and the whole of every core for its launches, the others with nothing (R99, R103), P-state 4 on every die (R104),
SSIDX (R107); and no team, group or queue. -/
def Obligations.ResetState : Prop :=
  let d := State.reset.dev
  (portAt d 0).ctl = 0x415 ∧ (∀ n, 0 < n → n < 8 → (portAt d n).ctl = 0x410) ∧ (∀ n, n < 8 → (portAt d n).stat = 0) ∧
  d.fle.pol = 0x1C008 ∧ d.migthresh = 0x20 ∧ d.qdtbase = 0 ∧ d.ssidx = 0 ∧
  (∀ f, (fnAt d f).winbase = 0 ∧ (fnAt d f).tmapdir = 0) ∧ (∀ f q, (cqAt d f q).ctl = 0 ∧ (cqAt d f q).base = 0) ∧
  (∀ q, (queueAt d q).en = false) ∧
  (partAt d 0).coreset = BitVec.allOnes 288 ∧ (partAt d 0).pqueue = 0x20000000 ∧ (partAt d 0).pways = 0xFFFFFFFF ∧
  (partAt d 0).pwatch = 128 ∧ (partAt d 0).pctl = 1 ∧
  (∀ p, 0 < p → (partAt d p).coreset = 0 ∧ (partAt d p).pqueue = 0 ∧ (partAt d p).pframes = 0 ∧ (partAt d p).pways = 0 ∧
    (partAt d p).pwatch = 0 ∧ (partAt d p).pctl = 0) ∧
  (∀ p, bits (partAt d p).quota 0 16 = 64 ∧ bits (partAt d p).quota 16 16 = 1024 ∧ bits (partAt d p).quota 32 16 = 384) ∧
  (∀ n, (dieAt State.reset n).pstate = 4 ∧ (dieAt State.reset n).clock = 0) ∧
  State.reset.groups = [] ∧ State.reset.teams = [] ∧ ∀ n, (coreAt State.reset n).mxe.all fun x => x.state == 0

/-- The state after reset is in canonical form. (The form is the model's.) -/
def Obligations.ResetCanonical : Prop := State.reset.canonical = true

/-- Every step keeps the canonical form: memory lists no byte that an unlisted address reads as and its addresses rise, and the
keys of the tables of groups, teams, cores and dies rise. (The form is the model's.) -/
def Obligations.StepKeepsCanonical : Prop :=
  ∀ s t : State, s.canonical = true → step s = .next t → t.canonical = true

/-- Decoding what the encoder writes for a well-formed instruction gives it back, with every operand, whatever words follow. -/
def Obligations.DecodeEncode : Prop :=
  ∀ (i : Instr) (rest : List Word32), i.wf = true → i.hasWord = true → decode (encode i ++ rest) = .ok (i, rest)

/-- Worked words of chapters 12 to 14 decode to what they stand for. -/
def Obligations.DecodeWords : Prop :=
  decode [0x310505FF] = .ok (.sadd none none (.s 5) (.s 5) (.byte 0xFF), []) ∧
  decode [0x4C030405] = .ok (.scmpLt none none 3 (.s 4) (.reg (.s 5)), []) ∧
  decode [0x56090311] = .ok (.vtos none (.s 9) (.v 3) (.num 17), []) ∧
  decode [0x60030102] = .ok (.iadd none none (.v 3) (.v 1) (.vec (.v 2)), []) ∧
  decode [0x77040406] = .ok (.shr none none (.v 4) (.v 4) (.sreg (.s 6)), []) ∧
  decode [0xFEE40000, 0xFE000005, 0x600301F7] =
    .ok (.iadd (some { ovr := true, ovt := false, ovg := false, sat := true, ftz := false, rm := 0, et := 0, ge := false,
                       gn := false, gp := 0 })
      (some (.i22 5)) (.v 3) (.v 1) (.vec .imm), []) ∧
  decode [0xFE800000, 0x56789ABC, 0x1234, 0x46090041] =
    .ok (.smov none (some (.i64 0x123456789ABC)) (.s 9) (.reg .imm), [])

/-- One step runs the instruction that stands at the PC (R153, R296, R299, R306). The fetch of a split whose line is translated
and cached answers the instruction that the words at its slot decode to; a split that is ready offers what its fetch answered;
and a step whose move is a selection that chose it executes it for that split, and then ends what the instruction has left. A
step whose move is a device event executes the event. -/
def Obligations.StepRunsDecoded : Prop :=
  (∀ (k n : Nat) (t : Team) (e : Entry) (s : State) (slot : Nat) (tl : Tlb) (x : Line) (i : Instr)
      (used rest : List Word32) (sc : Scan) (w : Word32),
    let pc := e.pc.toNat
    let ws := ((lineWords x).take (hUsed (lineHead x))).drop slot
    e.via ≠ .noSlot → slotOfPc pc = some slot → pc < 2 ^ 48 →
    (coreAt s t.core).tlb.find? (fun y => y.covers (teamAgent t) (pc / 128 * 128) && y.serves .exec &&
      !movedAway s.dev (y.pas (pc / 128 * 128)) && paReachable s.dev (y.pas (pc / 128 * 128))) = some tl →
    Tbl.find? (coreAt s t.core).icache (tl.pas (pc / 128 * 128) / 128) = some x → lineBad x = none →
    (hStart (lineHead x)).getLsbD slot = true → (e.via = .transfer → (hTarget (lineHead x)).getLsbD slot = true) →
    scanWords Scan.start ws = some (sc, w, rest) → decode (ws.take (ws.length - rest.length)) = .ok (i, used) →
    ∃ f cont follows, (fetchAt k n t e).run s = (.instr f i cont follows, s) ∧ f.group = k ∧ f.entry = n ∧
      f.pc = BitVec.ofNat 64 (pc / 128 * 128 + 16 + 4 * slot)) ∧
  (∀ (k n : Nat) (s u : State) (g : Group) (e : Entry) (t : Team) (f : Focus) (i : Instr) (cont follows : Bool),
    Tbl.find? s.groups k = some g → Tbl.find? g.entries n = some e → Tbl.find? s.teams g.team = some t → e.wait = .run →
    g.unresolved = none → (fetchAt k n t e).run s = (.instr f i cont follows, u) → Tbl.find? u.groups k = some g →
    g.ready e i = true → (tryEntry k n false).run s = (.issue f i cont follows, u)) ∧
  (∀ (s u v : State) (core q : Nat) (f : Focus) (i : Instr) (l : List Act),
    s.agenda = .cycle core q :: l → (select core q).run { s with agenda := l } = ([(f, i)], u) →
    exec i { u with focus := some f } = .next v → step s = .next ((afterIssue f).run v).2) ∧
  (∀ (s : State) (i : Instr) (l : List Act), s.agenda = .event i :: l →
    step s = exec i { s with agenda := l, focus := none })

/-! ### Device events -/

/-- Queues (R65 to R67, R72, R81, R85). A granted lane makes its queue ACTIVE and due to be served; a parse step completes a NOP
packet; a complete packet without a signal or a release retires; a polled watch whose condition holds fires and leaves, its
queue asks for a lane, one for a completion queue posts the word or stays until its firing can be posted (R94), and one whose
condition does not hold polls again; and at the end of a TLB_INVAL no TLB holds an entry of its range, its packet is complete
and other entries stand. -/
def Obligations.QueueService : Prop :=
  ∀ (e q idx id n : Nat) (p : Packet) (s : State),
    let x := queueAt s.dev q
    let f := fun (lo k : Nat) => packetBits p.words lo k
    let asid := if f 305 1 = 1 then none else some (f 288 16)
    (nthD s.dev.laneReqs e [] = [q] → x.en = true → x.stat ≠ qAborted → e < s.dev.lanes.length →
      nthD s.dev.lanes e [] = [] → (∀ y ∈ s.dev.packets, y.queue ≠ q) →
      Gives (exec (.laneGrant e) s) fun t => QueueOnly s t q ∧ nthD t.dev.lanes e [] = [(0, q)] ∧
        nthD t.dev.laneReqs e [] = [] ∧ t.pending = s.pending ++ [.parseStep e] ∧
        queueAt t.dev q = { x with asked := false, stat := qActive, faultva := 0, watch := 0, served := 0 }) ∧
    (nthD s.dev.lanes e [] = [(n, q)] → nthD s.dev.laneReqs e [] = [] → s.dev.packets = [p] → p.queue = q → p.phase = 0 →
      pType p = 0 → packetBad s.dev p = false → x.stat = qActive →
      Gives (exec (.parseStep e) s) fun t => QueueOnly s t q ∧
        t.dev.packets = [{ p with phase := 2, start := hubClock s }] ∧ nthD t.dev.lanes e [] = [(n, q)] ∧
        t.pending = s.pending ++ [.packetRetire q p.index, .parseStep e]) ∧
    (s.dev.packets = [p] → p.queue = q → p.index = idx → p.phase = 2 → p.pg = none → pRel p = 0 → pCsop p = 0 →
      x.stat ≠ qWaiting →
      Gives (exec (.packetRetire q idx) s) fun t => QueueOnly s t q ∧ t.dev.packets = [] ∧
        queueAt t.dev q = { x with inflight := 0 } ∧ t.pending = s.pending) ∧
    (∀ w, s.dev.watches.find? (fun w => w.id == id) = some w → w.polled = true → w.kind ≠ 0 → w.fired = none →
      let word := homeNat s w.pa (watchSize w.w8)
      (watchHolds w.w8 w.mask w.cmp w.comp word = false →
        exec (.watchPoll id) s = .next { s with pending := s.pending ++ [.watchPoll id] }) ∧
      (watchHolds w.w8 w.mask w.cmp w.comp word = true →
        (w.kind = 1 ∨ w.kind = 2 → Gives (exec (.watchPoll id) s) fun t => QueueOnly s t w.token ∧
          t.dev.watches = s.dev.watches.filter (fun y => y.id != id) ∧
          ((queueAt s.dev w.token).stat ≠ qAborted → (∀ y ∈ s.dev.packets, y.phase ≠ 3 ∧ y.phase ≠ 4) →
            laneOf s.dev w.token = none → (queueAt t.dev w.token).asked = true)) ∧
        (w.kind = 3 → Buffers s w.token 2 → Gives (exec (.watchPoll id) s) fun t => DevOnly s t ∧
          t.dev.watches = s.dev.watches.filter (fun y => y.id != id) ∧
          Posted s t w.token 2 (cqEntry (word % 2 ^ 52 * 4096 + w.token2 % 4096) 0 (w.token2 / 4096) 0xFFFF 1 7)) ∧
        (w.kind = 3 → cqTakes s.dev w.token 2 = false → Gives (exec (.watchPoll id) s) fun t => DevOnly s t ∧
          t.dev.watches = s.dev.watches.map fun y => if y.id == id then { y with fired := some word } else y))) ∧
    (s.dev.packets = [p] → p.queue = q → p.index = idx → p.phase = 1 → pType p = 8 → f 128 8 = 4 → f 304 1 = 0 →
      s.dev.fle.reqs = [] → s.dev.fle.sori = [] → s.dev.fle.queue = [] →
      Gives (exec (.tlbInvalDone q idx) s) fun t => BytesKept s t ∧ t.groups = s.groups ∧ t.teams = s.teams ∧
        t.dev.packets = [{ p with phase := 2 }] ∧ .packetRetire q idx ∈ t.pending ∧
        ∀ c, (∀ tl, tl ∈ (coreAt t c).tlb ↔
            tl ∈ (coreAt s c).tlb ∧ ¬inRange tl (f 312 4) asid (f 192 64) (f 256 32)) ∧
          ∀ tl, tl ∈ (dieAt t c).tlb ↔ tl ∈ (dieAt s c).tlb ∧ ¬inRange tl (f 312 4) asid (f 192 64) (f 256 32))

/-- Placement (R108, R139, R142, R145, R150, R151, R161, R194). The first launch that waits, where a core takes a team of it, has
the team placed there: its group starts with one split of its lanes at the kernel's entry, s0 to s3 set and every other
register 0, and the bytes of its private frames are 0. A cluster takes its patch and all its teams. A pre-empted team's group takes PREEMPT, at once or, in a handler, afterwards. A restarted group runs a
PREEMPT handler at RESTOREVA. Zeroing leaves zeros. -/
def Obligations.Placement : Prop :=
  ∀ (part team k core q slot w a : Nat) (hi : Bool) (p : Packet) (ps : List Packet) (o : Order) (fit : Fit)
    (r : Nat × Restart) (l : List (Nat × Nat × Fit)) (x y : Nat) (s : State) (u : Team) (g : Group),
    ((waitingLaunches s.dev part).filter (fun z => packetClt z == 0) = p :: ps → p.restarts = [] →
      orderOf s.dev p = some o → findCore s o (barredCores s p) 1 = some (core, fit) →
      fit.groups = [(q, slot, hi)] → packetAt s.dev p.queue p.index = some p →
      Gives (exec (.teamPlace part) s) fun t =>
        (∃ v, Tbl.find? t.teams s.dev.nextId = some v ∧ v.placed = true ∧ v.core = core ∧ v.index = p.nextTeam ∧
          v.kernel = o.kernel ∧ v.groups = [groupKey core q slot hi] ∧
          ∀ b, t.mem.get b = if b / 65536 ∈ v.frames then 0 else s.mem.get b) ∧
        (∃ h e, Tbl.find? t.groups (groupKey core q slot hi) = some h ∧ h.team = s.dev.nextId ∧ h.entries = [(0, e)] ∧
          e.pc = o.kernel.entry ∧ e.mask = allLanes o.kernel.width ∧ e.mode = 0 ∧ e.wait = .run ∧
          h.sreg 0 = packetArgs p ∧ h.sreg 1 = BitVec.ofNat 64 p.nextTeam ∧ h.sreg 2 = 0 ∧ h.sreg 3 = BitVec.allOnes 64 ∧
          (∀ j, 4 ≤ j → h.sreg j = 0) ∧ (∀ j n, lane (h.vreg j) n = 0) ∧ ∀ j, j ≠ 0 → h.preg j = 0) ∧
        (∀ j, j ≠ groupKey core q slot hi → Tbl.find? t.groups j = Tbl.find? s.groups j) ∧
        (packetAt t.dev p.queue p.index).map (fun z => (z.nextTeam, z.running)) = some (p.nextTeam + 1, p.running + 1)) ∧
    ((waitingLaunches s.dev part).filter (fun z => packetClt z != 0) = p :: ps → p.restarts = [] →
      orderOf s.dev p = some o →
      findPatch s o (barredCores s p) (upTo 0 (packetClt p)) true (packetClw p) (packetClh p) = some (w, x, y, l) →
      packetAt s.dev p.queue p.index = some p →
      Gives (exec (.clusterPlace part) s) fun t =>
        (∀ j, j < packetClw p * packetClh p →
          (coreAt t (coreXY w (x + j % packetClw p) (y + j / packetClw p))).patch = s.dev.nextId) ∧
        (∀ j z, l[j]? = some z → ∃ v, Tbl.find? t.teams (s.dev.nextId + 1 + j) = some v ∧ v.placed = true ∧
          v.rank = z.1 ∧ v.core = z.2.1 ∧ v.index = p.nextTeam + z.1 ∧ v.cluster = s.dev.nextId) ∧
        (packetAt t.dev p.queue p.index).map (fun z => (z.nextTeam, z.running)) =
          some (p.nextTeam + packetClt p, p.running + packetClt p)) ∧
    (Tbl.find? s.teams team = some u → u.placed = true → u.preempting = false → u.groups = [k] →
      Tbl.find? s.groups k = some g → g.team = team → g.ending = false → g.mshemit ≠ 2 → NoLease s k g →
      g.hnd = true ∨ g.trapbase ≠ 0 ∧ recFits (stkTop u.kernel.priv) (g.snap.depth + g.snap.entries.length) = true →
      Gives (exec (.preemptRequest team) s) fun t =>
        (Tbl.find? t.teams team).map (fun z => (z.preempting, z.saved)) = some (true, false) ∧
        (∀ j, j ≠ k → Tbl.find? t.groups j = Tbl.find? s.groups j) ∧
        (g.hnd = true → Tbl.find? t.groups k = some { g with preempt := true }) ∧
        (g.hnd = false →
          ∃ h e, Tbl.find? t.groups k = some h ∧ h.hnd = true ∧ h.xcause = cPreempt ∧ h.preempt = false ∧
            h.xpc = BitVec.ofNat 64 (g.rgnentry.toNat % 2 ^ 48) ∧ h.entries = [(0, e)] ∧ e.pc = g.trapbase ∧
            e.mask = g.snap.live ∧ e.mode = 0 ∧ e.wait = .run ∧ SameS g h ∧ SameV g h ∧ SameP g h)) ∧
    (s.dev.packets.find? (fun z => z.restarts.contains team) = some p → Tbl.find? s.teams team = some u → u.clt = 0 →
      orderOf s.dev p = some o → restartsFirst s p team = true →
      findCore s o (barredCores s p) 0 = some (core, fit) → u.restart = [r] →
      let z := savedPlace fit u.kernel.width r.2
      Gives (exec (.teamRestart team) s) fun t =>
        (∃ v, Tbl.find? t.teams team = some v ∧ v.placed = true ∧ v.core = core ∧ v.restart = [] ∧
          v.preempting = false) ∧
        ∃ h e, Tbl.find? t.groups (groupKey core z.1 z.2.1 z.2.2) = some h ∧ h.team = team ∧ h.hnd = true ∧
          h.xcause = cPreempt ∧ h.depth = r.2.depth ∧ h.entries = [(0, e)] ∧ e.pc = u.kernel.restoreVa ∧ e.mode = 0 ∧
          e.wait = .run) ∧
    (Tbl.find? s.teams team = some u → exec (.zeroingComplete (.tile team)) s =
      .next { s with teams := Tbl.put s.teams team { u with zeroing := false } }) ∧
    (s.dev.zeroingFrames.contains k = true → Gives (exec (.zeroingComplete (.frame k)) s) fun t =>
      CoresKept s t ∧ t.dev.zeroingFrames.contains k = false ∧
      t.mem.get a = if a / 65536 = k then 0 else s.mem.get a)

/-- Commands of the copy and collective engines (R113, R234 to R241). A command is taken from its intake, and one that breaks
its descriptor's rules ends MALFORMED; a faulted one parks in a record; one that has ended leaves and posts its completion; and
a collective whose members have all arrived and agree is matched. -/
def Obligations.EngineCommands : Prop :=
  ∀ (die id cls addr acc : Nat) (c : EngCmd) (p : Packet) (s : State),
    let parked := fun (copy : Bool) (i : Instr) =>
      findCmd s die copy id = some c → c.fault = some (cls, addr, acc) → findRecord s die id = none →
      c.packet.isSome = true ∨ findGroup s c.team c.ident = none → (dieAt s die).copyRr = [] →
      Gives (exec i s) fun t => CoresKept s t ∧ BytesKept s t ∧
        findCmd t die copy id = some { c with phase := 2, fault := none } ∧
        (dieAt t die).copyRr = [(0, cmdRecord c s.dev.nextId cls addr (BitVec.ofNat 5 acc))] ∧
        (dieAt t die).stage.any (fun z => z.key == faultKey c.part c.ctxidx cls (addr / 4096 * 4096)) = true
    let ended := fun (copy : Bool) (i : Instr) =>
      findCmd s die copy id = some c → c.phase = 3 → findRecord s die id = none →
      (∀ z ∈ s.groups, z.2.overflow = []) → c.packet = none → c.remote = false → (Tbl.find? s.teams c.team).isSome = true →
      (completionHeld s c = true → exec i s = .next { s with pending := s.pending ++ [i] }) ∧
      (completionHeld s c = false → Gives (exec i s) fun t => CoresKept s t ∧ BytesKept s t ∧ findCmd t die copy id = none ∧
        t.dev.held = s.dev.held ++ [{ team := c.team, ident := c.ident, port := if isCopy c then portCopyDone else portCollDone,
                                      entry := { word := completion c, row := zeroRow, counted := true } }])
    (findCmd s die true id = some c → c.phase = 0 → inProgress (dieAt s die).copy < 64 →
      behindOwn (dieAt s die).copy c = false →
      Gives (exec (.copyCommandStart die id) s) fun t => t.teams = s.teams ∧ t.cores = s.cores ∧ BytesKept s t ∧
        (copyBad c = true → findCmd t die true id = some { c with phase := 3, status := stMalformed, cls := 0, done := 0,
                                                                  fault := none } ∧ .copyComplete die id ∈ t.pending) ∧
        (copyBad c = false → peerBad s.dev c = none → findCmd t die true id = some { c with phase := 1 })) ∧
    parked true (.copyFaultPark die id) ∧ parked false (.collectiveFaultPark die id) ∧
    ended true (.copyComplete die id) ∧ ended false (.collectiveComplete die id) ∧
    (findCmd s die true id = some c → c.phase = 3 → findRecord s die id = none → (∀ z ∈ s.groups, z.2.overflow = []) →
      c.packet = some (p.queue, p.index) → packetAt s.dev p.queue p.index = some p → p.phase = 1 → c.status = stOk →
      Gives (exec (.copyComplete die id) s) fun t => CoresKept s t ∧ BytesKept s t ∧ findCmd t die true id = none ∧
        (packetAt t.dev p.queue p.index).map (·.phase) = some 2 ∧ .packetRetire p.queue p.index ∈ t.pending) ∧
    (findCmd s die false id = some c → c.phase = 0 → c.set = 0 → behindOwn (dieAt s die).coll c = false →
      collBad c = true → Gives (exec (.collectiveMatch die id) s) fun t => t.teams = s.teams ∧ t.cores = s.cores ∧
        BytesKept s t ∧
        findCmd t die false id = some { c with phase := 3, status := stMalformed, cls := 0, done := 0, fault := none }) ∧
    (findCmd s die false id = some c → c.phase = 1 → c.set = 0 → collBad c = false → collPeerBad s.dev c = none →
      unmatched s (collKey c) = [(die, c)] → collCount c = 1 → s.dev.mismatched = [] → disagree [(die, c)] = false →
      Gives (exec (.collectiveMatch die id) s) fun t => CoresKept s t ∧ BytesKept s t ∧
        findCmd t die false id = some { c with set := s.dev.nextId })

/-- The way of a page fault (R58, R118 to R124, R129, R130). A core's new page reaches its die's stage, and from there a sorus,
which opens; a hint opens one too; a sorus closes 5,000 cycles after it opened, and not before; a prediction that its walk
drops frees the slot; a malformed reply, or one to no request, is reported; a reply ends its request, a RESOLVED one whose walk
finds what the page needs makes the record that waits ready, a FAILED one makes it unresolved; and a filled table-frame ring
lets held pages go on, and says so where fewer than 8 entries are left. -/
def Obligations.FaultPath : Prop :=
  ∀ (core page die id fn part n : Nat) (v : Word64) (tail : BitVec 32) (e : FilterEntry) (z : StageEntry) (key : PageKey)
    (b : Bool) (x : Sorus) (p : FlePage) (s : State),
    let fle := s.dev.fle
    let replies := fun (i : Instr) =>
      hostDeaf s.dev = false →
      (replyOk fn v = false ∨ replyTo fle fn v = none → Buffers s fn 0 →
        Gives (exec i s) fun t => DevOnly s t ∧ t.dev.fle = fle ∧ Posted s t fn 0 (cqEntry v.toNat 0 0 0xFFFF 0x10 2)) ∧
      (∀ r, replyOk fn v = true → replyTo fle fn v = some r →
        bits v 24 2 ≠ 0 ∨ readCtx s r.page.key.part r.page.key.ctx = none →
        Gives (exec i s) fun t => ∀ y ∈ t.dev.fle.reqs, ¬(y.fn = r.fn ∧ y.vf = r.vf ∧ y.tag = r.tag)) ∧
      ∀ r w slot c0 z, replyOk fn v = true → replyTo fle fn v = some r →
        let left := fle.reqs.filter fun y => !(y.fn == r.fn && y.vf == r.vf && y.tag == r.tag)
        let s1 := ((tagRecords r.page.key 0xFFFF).run { s with dev := { s.dev with fle := { fle with reqs := left } } }).2
        (∀ site addr above u, bits v 24 2 = 0 → (probePage r.page.key).run s1 = (.leaf site addr above, u) →
          pageLack r.page.key r.page site.e above = .ok none → WaitsOn u c0 w slot z r.page.key →
          Gives (exec i s) fun t => (coreAt t c0).filter = [] ∧ .recordReplay c0 ∈ t.pending ∧
            ∃ g y, Tbl.find? t.groups w = some g ∧ Tbl.find? g.rr slot = some y ∧ y.stat = rrReady ∧ y.pages = []) ∧
        (bits v 24 2 = 1 → WaitsOn s c0 w slot z r.page.key → (z.unit = 0 ∨ z.unit = 1 ∨ 5 ≤ z.unit) →
          Gives (exec i s) fun t => (coreAt t c0).filter = [] ∧
            ∃ g y, Tbl.find? t.groups w = some g ∧ Tbl.find? g.rr slot = some y ∧ y.stat = rrUnresolved ∧ y.pages = [])
    ((coreAt s core).filter.find? (fun y => y.key.code == page && !y.sent) = some e → (dieAt s (dieOf core)).stage = [] →
      Gives (exec (.clusterStagePage core page) s) fun t => t.groups = s.groups ∧ BytesKept s t ∧
        (dieAt t (dieOf core)).stage =
          [{ key := e.key, cls := e.cls, acc := e.acc, count := min 255 e.waiters.length, pred := false, sent := false }] ∧
        (∀ y ∈ (coreAt t core).filter, y.key = e.key → y.sent = true) ∧
        t.pending = s.pending ++ [.flePageArrival (dieOf core) e.key.code]) ∧
    ((dieAt s die).stage = [z] → z.key.code = page → fle.sori = [] → fle.reqs = [] → fle.queue = [] → fle.pol.getLsbD 16 = false →
      fle.pol.getLsbD 15 = false →
      Gives (exec (.flePageArrival die page) s) fun t => t.groups = s.groups ∧ BytesKept s t ∧
        (dieAt t die).stage = [{ z with sent := true }] ∧
        ∃ q, t.dev.fle.sori = [(0, { state := 1, opened := hubClock s, order := 0, pages := [q] })] ∧ q.key = z.key ∧
          q.cls = z.cls ∧ q.acc = z.acc ∧ q.waits = setNth [0, 0, 0, 0] die z.count ∧ q.doneSt = 0) ∧
    (fle.hints = [(id, key, die, b)] → fle.sori = [] → fle.reqs = [] → fle.queue = [] →
      Gives (exec (.fleHintArrival id) s) fun t => DevOnly s t ∧ t.dev.fle.hints = [] ∧
        ∃ q, t.dev.fle.sori = [(0, { state := 1, opened := hubClock s, order := 0, pages := [q] })] ∧ q.key = key ∧
          q.hv = true ∧ q.hdie = die ∧ q.pred = true) ∧
    (fle.sori = [(n, x)] → x.state = 1 → x.pages.any (fun y => y.doneSt == 0) = true →
      (x.opened + 5000 ≤ hubClock s → Gives (exec .sorusCloseTimeout s) fun t => DevOnly s t ∧
        t.dev.fle.sori = [(n, { x with state := 2, order := fle.order })] ∧ .sorusProcess ∈ t.pending) ∧
      (hubClock s < x.opened + 5000 → exec .sorusCloseTimeout s = .next s)) ∧
    (fle.sori = [(n, x)] → x.state = 2 → x.pages = [p] → p.doneSt = 0 → p.held = false → p.pred = true → s.dev.moves = [] →
      fle.queue = [] → fle.reqs = [] → p.key.s2 = false → (readCtx s p.key.part p.key.ctx).isSome = true → 2 ^ 36 ≤ p.key.page →
      Gives (exec .sorusProcess s) fun t => DevOnly s t ∧ t.dev.fle.sori = []) ∧
    replies (.prreplyResolved fn v) ∧ replies (.prreplyFailed fn v) ∧
    (hostDeaf s.dev = false →
      let pt := { partAt s.dev part with tfrtail := tail }
      (8 ≤ ringLeft pt ∨ ringSize pt = 0 ∨ Buffers s part 0 → Gives (exec (.tfrtailWrite part tail) s) fun t => DevOnly s t ∧
        partAt t.dev part = pt ∧ .sorusProcess ∈ t.pending ∧
        (ringLeft pt < 8 → ringSize pt ≠ 0 → Posted s t part 0 (cqEntry (ringLeft pt) 0 part 0xFFFF 1 6))))

/-- The page cache and the caches (R50, R52, R54, R196, R197, R200, R223, R464). A block's lines are handed over once no lease on
them is held and its port carries traffic, no cache then holding one, and wait while not; a sector takes the pool's bytes and is
valid, once its frame is zeroed; at the end of the device's own invalidation no TLB holds an entry of its ranges and the frame
is in service; an evicted frame's dirty sectors are in the pool and the frame is free; counters halve every millisecond; an
evicted line's dirty bytes stand in the next cache, in the team's frames or at home, and a stale clean line leaves. -/
def Obligations.PageCacheEvents : Prop :=
  ∀ (id frame sector core die line page n : Nat) (m : Move) (f : Frame) (c : CLine) (s : State),
    (s.dev.moves = [m] → m.id = id → m.kind < 2 → m.step < 3 → Tbl.find? s.dev.frames m.frame = some f →
      let lo := if m.kind = 0 then blockPa f.blk 0 else m.frame * 65536
      let inside := fun (l : Nat) => lineIn lo 65536 l
      (leasedIn s.dev lo 65536 = false → awaitsPort s.dev lo = false → s.dev.watches = [] →
        Gives (exec (.pageHandoff id) s) fun t => t.groups = s.groups ∧ t.teams = s.teams ∧
          (∀ k x, x ∈ (coreAt t k).l1 → inside (x.1 / 2) = false) ∧
          (∀ k x, k < 4 → x ∈ (dieAt t k).rdc → inside (rdcLine x.1) = false) ∧
          ((∀ k x, x ∈ (coreAt s k).l1 → inside (x.1 / 2) = true → x.2.dirty = 0) →
            (∀ k x, x ∈ (dieAt s k).rdc → inside (rdcLine x.1) = true → x.2.dirty = 0) → BytesKept s t) ∧
          t.dev.moves = (if m.kind = 0 ∧ m.inval = true then [] else [{ m with handing := true, step := 3 }]) ∧
          (m.kind = 0 → ∀ k ∈ unfilled s.dev m.frame, .sectorFillComplete m.frame k ∈ t.pending) ∧
          (m.kind = 1 → .evictionWritebackDone m.frame ∈ t.pending)) ∧
      (leasedIn s.dev lo 65536 = true ∨ awaitsPort s.dev lo = true →
        exec (.pageHandoff id) s = .next { s with
          dev := { s.dev with moves := [{ m with handing := true }] }, pending := s.pending ++ [.pageHandoff id] })) ∧
    (Tbl.find? s.dev.frames frame = some f → f.state = 2 ∨ f.state = 3 → f.valid.getLsbD sector = false →
      blockServed s.dev frame = true → sector < 16 →
      (s.dev.zeroingFrames.contains frame = true →
        exec (.sectorFillComplete frame sector) s = .next { s with pending := s.pending ++ [.sectorFillComplete frame sector] }) ∧
      (s.dev.zeroingFrames.contains frame = false →
        Gives (exec (.sectorFillComplete frame sector) s) fun t => t.groups = s.groups ∧ t.teams = s.teams ∧
        BytesAre t (frame * 65536 + sector * 4096) 4096 (fun o => s.mem.get (blockPa f.blk sector + o)) ∧
        BytesOutside s t (frame * 65536 + sector * 4096) 4096 ∧
        (Tbl.find? t.dev.frames frame).map (·.valid) = some (setBit f.valid sector))) ∧
    (s.dev.moves = [m] → m.id = id → m.kind = 0 → m.step = 3 → m.inval = false → Tbl.find? s.dev.frames m.frame = some f →
      f.state = 2 →
      Gives (exec (.deviceTlbInvalDone id) s) fun t => t.dev.moves = [] ∧
        Tbl.find? t.dev.frames m.frame = some { f with state := 3 } ∧
        ∀ k tl r, tl ∈ (coreAt t k).tlb ∨ tl ∈ (dieAt t k).tlb → tl.part = m.part → r ∈ m.ranges →
          ¬(tl.pa < r.2 ∧ r.1 < tl.pa + tl.size)) ∧
    (Tbl.find? s.dev.frames frame = some f → s.dev.moves = [m] → m.kind = 1 → m.frame = frame → m.step = 3 →
      m.inval = true → s.dev.poolPorts ≠ 0 →
      Gives (exec (.evictionWritebackDone frame) s) fun t => t.groups = s.groups ∧ t.teams = s.teams ∧
        Tbl.find? t.dev.frames frame = none ∧ t.dev.moves = [] ∧
        (∀ k, k < 16 → f.dirty.getLsbD k = true →
          BytesAre t (blockPa f.blk k) 4096 fun o => s.mem.get (frame * 65536 + k * 4096 + o)) ∧
        ∀ a, (∀ k, k < 16 → f.dirty.getLsbD k = true → ¬(blockPa f.blk k ≤ a ∧ a < blockPa f.blk k + 4096)) →
          t.mem.get a = s.mem.get a) ∧
    (s.dev.decayed + 2500000 ≤ hubClock s → Tbl.wf s.dev.counters = true →
      Gives (exec .accessCounterDecay s) fun t => DevOnly s t ∧ t.dev.decayed = s.dev.decayed + 2500000 ∧
      nthD (Tbl.getD t.dev.counters page []) die 0 = nthD (Tbl.getD s.dev.counters page []) die 0 / 2) ∧
    (hubClock s < s.dev.decayed + 2500000 → exec .accessCounterDecay s = .next s) ∧
    (line < 2 ^ 48 → Tbl.find? (coreAt s core).l1 line = some c →
      (c.dirty = 0 → Gives (exec (.l1Eviction core line) s) fun t => BytesKept s t ∧ t.groups = s.groups ∧
        t.dies = s.dies ∧ Tbl.find? (coreAt t core).l1 line = none) ∧
      (c.dirty ≠ 0 → Quiet s → isLocal (line / 2 * 128) = true → homeOnDie s (line / 2 * 128) (dieOf core) = true →
        Gives (exec (.l1Eviction core line) s) fun t => t.groups = s.groups ∧ t.dies = s.dies ∧
          Tbl.find? (coreAt t core).l1 line = none ∧ BytesOutside s t (line / 2 * 128) 128 ∧
          BytesAre t (line / 2 * 128) 128 fun o =>
            if c.dirty.getLsbD o then lineByte c.data o else s.mem.get (line / 2 * 128 + o)) ∧
      (c.dirty ≠ 0 → homeOnDie s (line / 2 * 128) (dieOf core) = false →
        ((Tbl.find? (dieAt s (dieOf core)).rdc (rdcKey (line / 2) c.part)).isSome = true ∨
          ∃ w, (rdcRoom (dieOf core) c.part (line / 2)).run s = (some w, s)) →
        Gives (exec (.l1Eviction core line) s) fun t => BytesKept s t ∧ t.groups = s.groups ∧
          Tbl.find? (coreAt t core).l1 line = none ∧
          ∃ r, Tbl.find? (dieAt t (dieOf core)).rdc (rdcKey (line / 2) c.part) = some r ∧
            ∀ o, o < 128 → c.dirty.getLsbD o = true → r.dirty.getLsbD o = true ∧ lineByte r.data o = lineByte c.data o)) ∧
    (∀ u, n ≠ 0 → Tbl.find? s.teams n = some u → u.placed = true → u.core = core → line < 2 ^ 48 →
      let out := u.priv.dirty.filter fun x => x.1 / 128 == line
      Gives (exec (.l1Eviction core (n * 2 ^ 48 + line)) s) fun t => t.groups = s.groups ∧ t.cores = s.cores ∧
        t.dies = s.dies ∧ t.dev = s.dev ∧
        t.teams = Tbl.put s.teams n { u with priv := u.priv.writeBack fun o => o / 128 == line } ∧
        (∀ a, (∀ x ∈ out, u.privPa x.1 ≠ some a) → t.mem.get a = s.mem.get a) ∧
        ∀ x ∈ out, ∀ a, u.privPa x.1 = some a → (∀ y ∈ out, u.privPa y.1 = some a → y.2 = x.2) → t.mem.get a = x.2) ∧
    (Tbl.find? (dieAt s die).rdc line = some c →
      (c.dirty = 0 → Gives (exec (.rdcEviction die line) s) fun t => BytesKept s t ∧ CoresKept s t ∧
        Tbl.find? (dieAt t die).rdc line = none) ∧
      (c.dirty ≠ 0 → Quiet s → isLocal (128 * rdcLine line) = true →
        Gives (exec (.rdcEviction die line) s) fun t => CoresKept s t ∧ Tbl.find? (dieAt t die).rdc line = none ∧
          BytesOutside s t (128 * rdcLine line) 128 ∧
          BytesAre t (128 * rdcLine line) 128 fun o =>
            if c.dirty.getLsbD o then lineByte c.data o else s.mem.get (128 * rdcLine line + o)) ∧
      (rdcStale (clockAt s die) c = true → Gives (exec (.rdcStaleDrop die line) s) fun t => BytesKept s t ∧ CoresKept s t ∧
        t.dev = s.dev ∧ Tbl.find? (dieAt t die).rdc line = none) ∧
      (rdcStale (clockAt s die) c = false → exec (.rdcStaleDrop die line) s = .next s))

/-- Power, ports and faults of the package (R17, R21, R26, R28, R30, R32, R33, R104, R105, R109). -/
def Obligations.PackageEvents : Prop :=
  ∀ (die n link pa : Nat) (again flit68 : Bool) (v : BitVec 32) (proto : BitVec 2) (rate : BitVec 3) (width : BitVec 2)
    (tr : Training) (r : BootRun) (s : State),
    let d := dieAt s die
    let p := portAt s.dev n
    let est := Config.freeEstimate s.free
    let cap := bits (partAt s.dev 0).pcap 0 12
    let wh := (partAt s.dev 0).withheld
    (∀ k, d.changing = some k → Gives (exec (.pstateTransitionDone die) s) fun t => CoresKept s t ∧ BytesKept s t ∧
      t.dev = s.dev ∧ dieAt t die = { d with pstate := k, changing := none }) ∧
    (hubClock s < s.dev.estimated + 25000 → exec .powerEstimate s = .next s) ∧
    (s.dev.estimated + 25000 ≤ hubClock s →
      (∀ k, 0 < k → k < 9 → (partAt s.dev k).pctl.getLsbD 0 = false) → (partAt s.dev 0).pctl.getLsbD 0 = true →
      (queueAt s.dev (bits (partAt s.dev 0).pqueue 0 13)).en = false → wh < 63 →
      Gives (exec .powerEstimate s) fun t => DevOnly s t ∧ t.dev.estimated = s.dev.estimated + 25000 ∧
        partAt t.dev 0 = { partAt s.dev 0 with
          est, withheld := if cap ≠ 0 ∧ cap < est.toNat then wh + 1
                           else if cap = 0 ∨ 100 * est.toNat ≤ 98 * cap then wh - 1 else wh }) ∧
    (d.thermal = false → Buffers s 0 0 → Gives (exec (.thermalTrip die) s) fun t => CoresKept s t ∧ BytesKept s t ∧
      dieAt t die = { d with thermal := true } ∧
      ∃ info detail, Posted s t 0 0 (cqEntry info 0 detail 0xFFFF 2 4)) ∧
    (Gives (exec (.thermalRestore die) s) fun t => CoresKept s t ∧ BytesKept s t ∧ t.dev = s.dev ∧
      dieAt t die = { d with thermal := false }) ∧
    (n < s.dev.ports.length →
      (hostDeaf s.dev = false → Gives (exec (.portctlWrite n v) s) fun t => DevOnly s t ∧
        (portAt t.dev n).ctl = nextCtl n (s.dev.boot.portOut.getLsbD n) p.ctl v ∧
        (ctlRefused n v = true → (portAt t.dev n).stat.getLsbD 15 = true) ∧
        (p.enabled = false → (portAt t.dev n).enabled = true → bits (portAt t.dev n).stat 16 16 = 0 ∧
          ((portAt t.dev n).role ≠ 0 → (portAt t.dev n).state = 1)) ∧
        (p.enabled = true → (portAt t.dev n).enabled = false →
          (portAt t.dev n).state = 0 ∧ (n < 8 → t.dev.poolPorts.getLsbD n = false))) ∧
      (n < 8 → p.enabled = true → p.role = 2 → p.lost = false → p.state = 1 →
        (trainingGood s.dev.boot n p proto rate width flit68 = true →
          Gives (exec (.portTrainingDone n (.up proto rate width flit68)) s) fun t => DevOnly s t ∧
            (portAt t.dev n).state = 2 ∧ (portAt t.dev n).ctl = p.ctl ∧ t.dev.poolPorts.getLsbD n = true) ∧
        (tr = .failed ∨ tr = .up proto rate width flit68 ∧ trainingGood s.dev.boot n p proto rate width flit68 = false →
          (p.ran = false → Gives (exec (.portTrainingDone n tr) s) fun t => DevOnly s t ∧ (portAt t.dev n).state = 4) ∧
          (p.ran = true → s.dev.frames = [] → Buffers s 0 0 → Gives (exec (.portTrainingDone n tr) s) fun t =>
            DevOnly s t ∧ (portAt t.dev n).state = 4 ∧ (portAt t.dev n).lost = true ∧ t.dev.poolPorts.getLsbD n = false ∧
            Posted s t 0 0 (cqEntry (portAt t.dev n).stat.toNat 0 n 0xFFFF 1 5)))) ∧
      (p.state = 2 → Gives (exec (.portLinkDown n) s) fun t => DevOnly s t ∧ (portAt t.dev n).state = 3 ∧
        (portAt t.dev n).deadline = hubClock s + 250000000 ∧ (portAt t.dev n).ctl = p.ctl) ∧
      (p.state = 3 →
        (hubClock s ≤ p.deadline → Gives (exec (.portRecovered n) s) fun t => DevOnly s t ∧ (portAt t.dev n).state = 2 ∧
          (portAt t.dev n).ctl = p.ctl) ∧
        (p.deadline < hubClock s → exec (.portRecovered n) s = .next s)) ∧
      (p.state = 3 → p.role = 2 → n < 8 → s.dev.frames = [] → Buffers s 0 0 →
        (p.deadline ≤ hubClock s → Gives (exec (.portRecoveryTimeout n) s) fun t => DevOnly s t ∧
          (portAt t.dev n).state = 4 ∧ (portAt t.dev n).lost = true ∧ t.dev.poolPorts.getLsbD n = false ∧
          Posted s t 0 0 (cqEntry (portAt t.dev n).stat.toNat 0 n 0xFFFF 1 5)) ∧
        (hubClock s < p.deadline → exec (.portRecoveryTimeout n) s = .next s)) ∧
      (p.state = 2 → Gives (exec (.ideIntegrityFail n) s) fun t => DevOnly s t ∧ (portAt t.dev n).state = 1 ∧
        bits (portAt t.dev n).stat 16 16 = min 0xFFFF (bits p.stat 16 16 + 1) ∧ (portAt t.dev n).ctl = p.ctl ∧
        (portAt t.dev n).stat.getLsbD 14 = false)) ∧
    (∀ l, s.dev.links[link]? = some l → l.failed = false →
      (again = true → l.replays < 16 → Gives (exec (.flitCrcFail link again) s) fun t => DevOnly s t ∧
        t.dev.links[link]? = some { l with errors := l.errors + 1, replays := l.replays + 1 }) ∧
      (again = false → Gives (exec (.flitCrcFail link again) s) fun t => DevOnly s t ∧
        t.dev.links[link]? = some { l with errors := l.errors + 1, replays := 1 }) ∧
      (again = true → 16 ≤ l.replays → p = portAt s.dev 0 → p.state ≠ 2 →
        Gives (exec (.flitCrcFail link again) s) fun t => DevOnly s t ∧ t.dev.stopped = true ∧
          t.dev.links[link]? = some { l with failed := true })) ∧
    (isLocal pa = true → paExists s.dev pa = true → Gives (exec (.gddrUncorrectableError pa) s) fun t => DevOnly s t ∧
      (Tbl.find? t.dev.poison (pa / 4096)).isSome = true) ∧
    Gives (exec (.deviceReset r) s) fun t => t.groups = [] ∧ t.teams = [] ∧ t.cores = [] ∧ t.dies = [] ∧
      t.pending = [] ∧ (∀ a, t.mem.get a = if a < localLimit then 0 else s.mem.get a) ∧
      t.dev = { Dev.reset with boot := bootAll r s.dev.boot, ports := (upTo 0 8).map (bootPort (bootAll r s.dev.boot)) }

/-- Registers of the host (R28, R50, R90, R94, R95, R100, R101, R107, R109, R111, R125). What the host asks for has its effect
while the boot has not stopped and port 0 has not failed, and none otherwise. The tear-down of a partition ends its teams at
once, and clears EN and posts PART_DOWN when nothing of it is left and its ways are zero. -/
def Obligations.HostRegisters : Prop :=
  ∀ (fn q vec part w : Nat) (cxl : Bool) (v : BitVec 32) (x : Word64) (sp : RegSpace) (off : Nat) (s u : State),
    let c := cqAt s.dev fn q
    let f := fnAt s.dev fn
    let pt := partAt s.dev part
    let made := fun (t : State) => (queueAt t.dev pt.firstQueue).en = true ∧ (queueAt t.dev pt.firstQueue).part = part ∧
      (queueAt t.dev pt.firstQueue).prio = 3 ∧ (queueAt t.dev pt.firstQueue).ridx = BitVec.ofNat 64 w
    (hostDeaf s.dev = true → exec (.cqctlWrite fn q v) s = .next s ∧ exec (.cqheadWrite fn q v) s = .next s ∧
      exec (.registerWrite sp off x) s = .next s ∧ exec .ssdataRead s = .next s ∧ exec (.pctlEnable part) s = .next s ∧
      exec (.padmrWrite x) s = .next s ∧ exec (.vfFlr part) s = .next s) ∧
    (hostDeaf s.dev = false → hasCq fn q = true → c.buffer = [] → c.unann = 0 → (∀ w ∈ s.dev.watches, w.fired = none) →
      (c.enabled = false → v.getLsbD 31 = true → 4 ≤ bits v 0 5 → bits v 0 5 ≤ 16 →
        Gives (exec (.cqctlWrite fn q v) s) fun t => DevOnly s t ∧ (cqAt t.dev fn q).enabled = true ∧
          bits (cqAt t.dev fn q).ctl 0 5 = bits v 0 5 ∧ (cqAt t.dev fn q).tail = 0 ∧ (cqAt t.dev fn q).phase = true) ∧
      Gives (exec (.cqheadWrite fn q v) s) fun t => DevOnly s t ∧ cqAt t.dev fn q = { c with head := v }) ∧
    (c.unann ≠ 0 → c.since + 2500 * bits c.irq 8 10 ≤ hubClock s →
      Gives (exec (.msixTimerExpire fn q) s) fun t => DevOnly s t ∧
        cqAt t.dev fn q = { c with unann := 0, since := 0 } ∧
        (f.masked.getLsbD (bits c.irq 18 11) = true → (fnAt t.dev fn).pending = setBit f.pending (bits c.irq 18 11) ∧
          (fnAt t.dev fn).sent = f.sent) ∧
        (f.masked.getLsbD (bits c.irq 18 11) = false → (fnAt t.dev fn).sent = f.sent ++ [bits c.irq 18 11])) ∧
    (hostDeaf s.dev = false → fn ≤ 8 → vec < 2048 → Gives (exec (.msixVectorUnmask fn vec) s) fun t => DevOnly s t ∧
      (fnAt t.dev fn).masked.getLsbD vec = false ∧ (fnAt t.dev fn).pending.getLsbD vec = false ∧
      (fnAt t.dev fn).sent = f.sent ++ (if f.pending.getLsbD vec then [vec] else [])) ∧
    (off % 8 ≠ 0 → exec (.registerWrite sp off x) s = .next s) ∧
    (hostDeaf s.dev = false →
      (exec (.registerWrite .mgmt 0x20000 x) s = .next { s with dev := { s.dev with migthresh := BitVec.ofNat 32 (bits x 0 8) } }) ∧
      (exec (.registerWrite .mgmt 0x50000 x) s = .next { s with dev := { s.dev with ssidx := x } }) ∧
      (fn ≤ 8 → Gives (exec (.registerWrite (.bar0 fn) 0x1900 x) s) fun t => DevOnly s t ∧
        fnAt t.dev fn = { f with tmapdir := x })) ∧
    (hostDeaf s.dev = false → ∀ y, stateWord? s (bits s.dev.ssidx 56 8) (bits s.dev.ssidx 32 24) (bits s.dev.ssidx 0 32) = some y →
      exec .ssdataRead s = .next { s with dev := { s.dev with ssdata := y, ssidx := nextIndex s.dev.ssidx } }) ∧
    (hostDeaf s.dev = false → fn ≤ 8 → Gives (exec (.spdmRequest fn .measurements) s) fun t => DevOnly s t ∧ t.dev.spdm.length = 25 ∧
      ∀ k j, k < 6 → j < 4 → nthD t.dev.spdm (4 * k + j) 0 =
        (Config.digest k (measured s fn k)).extractLsb' (64 * j) 64) ∧
    (hostDeaf s.dev = false → vec < s.dev.ports.length → (portAt s.dev vec).state = 2 →
      let now := fun (t : State) (l : Tbl (Bool × Bool)) => DevOnly s t ∧ (portAt t.dev vec).streams = l ∧
        ((portAt t.dev vec).stat.getLsbD 14 = true ↔
          (portAt s.dev vec).flit68 = false ∧ l ≠ [] ∧ ∀ y ∈ l, y.2.2 = true)
      (q ≤ 4 → Gives (exec (.spdmRequest 0 (.ideConfig vec q cxl)) s) fun t =>
        now t (Tbl.put (portAt s.dev vec).streams q (cxl, false))) ∧
      ((portAt s.dev vec).flit68 = false → Gives (exec (.spdmRequest 0 (.ideKeys vec q)) s) fun t =>
        now t (Tbl.modify (portAt s.dev vec).streams q fun y => (y.1, true))) ∧
      ((portAt s.dev vec).flit68 = true → exec (.spdmRequest 0 (.ideKeys vec q)) s = .next s)) ∧
    (hostDeaf s.dev = false → 0 < part → part ≤ 8 → pt.enabled = false →
      (enableOk s part = false → Gives (exec (.pctlEnable part) s) fun t => DevOnly s t ∧
        partAt t.dev part = { pt with pctl := setBit pt.pctl 1 }) ∧
      (enableOk s part = true → (cdpRead (adminAgent s part) pt.padmw.toNat 8).run s = (.ok w, u) →
        Gives (exec (.pctlEnable part) s) fun t => (partAt t.dev part).enabled = true ∧ made t)) ∧
    (hostDeaf s.dev = false → 0 < part → pt.enabled = true → pt.tearing = false → Gives (exec (.pctlDisable part) s) fun t =>
      (partAt t.dev part).tearing = true ∧ .pctlDisable part ∈ t.pending ∧
      (∀ k t1, Tbl.find? t.teams k = some t1 → t1.part ≠ part ∨ ∃ t0, Tbl.find? s.teams k = some t0 ∧ t0.part ≠ part)) ∧
    (tornDown s part = true → s.dev.moves = [] →
      exec (.pctlDisable part) s = .next { s with pending := s.pending ++ [.zeroingComplete (.ways part)] }) ∧
    (tornDown s part = false → exec (.zeroingComplete (.ways part)) s = .next s) ∧
    (0 < part → tornDown s part = true → Buffers s 0 0 →
      Gives (exec (.zeroingComplete (.ways part)) s) fun t => t.groups = s.groups ∧ t.teams = s.teams ∧ BytesKept s t ∧
        (partAt t.dev part).enabled = false ∧ (partAt t.dev part).tearing = false ∧
        (∀ k z, z ∈ (coreAt t k).l1 → z.2.part ≠ part) ∧ (∀ k z, k < 4 → z ∈ (dieAt t k).rdc → z.2.part ≠ part) ∧
        Posted s t 0 0 (cqEntry part 0 0 0xFFFF 1 3)) ∧
    (hostDeaf s.dev = false → part = 0 → (queueAt s.dev pt.firstQueue).en = false → adminOk s 0 (BitVec.ofNat 64 (bits x 12 36 * 4096 + bits x 0 5)) = true →
      (cdpRead (adminAgent s 0) pt.padmw.toNat 8).run s = (.ok w, u) →
      Gives (exec (.padmrWrite x) s) fun t => made t ∧
        (partAt t.dev 0).padmr = BitVec.ofNat 64 (bits x 12 36 * 4096 + bits x 0 5)) ∧
    (hostDeaf s.dev = false → 0 < part → part ≤ 8 → pt.enabled = false → Gives (exec (.vfFlr part) s) fun t => DevOnly s t ∧
      fnAt t.dev part = Fn.reset ∧ partAt t.dev part = pt)

/-- Memory as the host, the pool and peers reach it (R59 to R61, R86, R87, R237, R239): shown where nothing at the homes moves or
holds a request. -/
def Obligations.HostMemory : Prop :=
  ∀ (off pa line q : Nat) (inv b : Bool) (k : Nat) (bytes : List Byte) (desc : BitVec 256) (p : Packet) (r : PeerReq)
    (s : State),
    let at_ := fun (o : Nat) => nthD bytes o 0
    (pcieMode s.dev = true → Quiet s → s.dev.window = [] → 0 < k → off % 64 + k ≤ 64 → off < 2 ^ 38 →
      off % dieSpan < directoryStart s.dev (off / dieSpan) →
      Gives (exec (.barWindowRead 0 off k) s) fun t => DevOnly s t ∧ t.dev.hostRead = some (homeBytes s off k) ∧
        t.dev.window = []) ∧
    (pcieMode s.dev = true → Quiet s → s.dev.window = [] → bytes ≠ [] → off % 64 + bytes.length ≤ 64 → off < 2 ^ 38 →
      off % dieSpan < directoryStart s.dev (off / dieSpan) → Tbl.find? s.dev.frameOwner (off / 65536) = none →
      Gives (exec (.barWindowWrite 0 off bytes) s) fun t => CoresKept s t ∧ t.dies = s.dies ∧ t.dev.window = [] ∧
        BytesAre t off bytes.length at_ ∧ BytesOutside s t off bytes.length) ∧
    (cxlMode s.dev = true → isHdm s.dev (lineOf pa) = true → hostWaits s (lineOf pa) = false → Quiet s →
      (Gives (exec (.hostHdmAccess pa .readShared) s) fun t => DevOnly s t ∧
        t.dev.hostRead = some (homeBytes s (lineOf pa) 128) ∧ t.dev.hostLines = [(lineOf pa, (false, s.dev.nextId))]) ∧
      (Gives (exec (.hostHdmAccess pa .readOwn) s) fun t => DevOnly s t ∧
        t.dev.hostRead = some (homeBytes s (lineOf pa) 128) ∧ t.dev.hostLines = [(lineOf pa, (true, s.dev.nextId))]) ∧
      (pa % 128 + bytes.length ≤ 128 → Tbl.find? s.dev.frameOwner (pa / 65536) = none →
        Gives (exec (.hostHdmAccess pa (.write bytes)) s) fun t => CoresKept s t ∧
        t.dies = s.dies ∧ BytesAre t pa bytes.length at_ ∧ BytesOutside s t pa bytes.length)) ∧
    (cxlMode s.dev = true → isHdm s.dev (lineOf pa) = true → hostWaits s (lineOf pa) = false →
      Gives (exec (.hostHdmAccess pa .evict) s) fun t => DevOnly s t ∧ Tbl.find? t.dev.hostLines (lineOf pa) = none) ∧
    (Tbl.find? s.dev.heldBirsp line = some inv → Gives (exec (.hostBirsp line) s) fun t => DevOnly s t ∧
      Tbl.find? t.dev.heldBirsp line = none ∧
      (inv = true → Tbl.find? t.dev.hostLines line = none) ∧
      (inv = false → Tbl.find? s.dev.hostLines line = some (b, k) → Tbl.find? t.dev.hostLines line = some (false, k))) ∧
    (isPool line = true → line % 128 = 0 → s.dev.poolPorts ≠ 0 → s.dev.frames = [] → s.dev.moves = [] → s.dev.leases = [] →
      s.dev.watches = [] → bytes.length = 128 →
      Gives (exec (.poolBisnp line inv bytes) s) fun t => CoresKept s t ∧ Tbl.find? t.dev.sharers (line / 128) = none ∧
        (inv = true → BytesAre t line 128 at_ ∧ BytesOutside s t line 128) ∧ (inv = false → BytesKept s t)) ∧
    (isHost line = true → line % 128 = 0 → s.dev.leases = [] → s.dev.watches = [] → bytes.length = 128 →
      Gives (exec (.hostSnoop line bytes) s) fun t => CoresKept s t ∧ BytesAre t line 128 at_ ∧ BytesOutside s t line 128 ∧
        (cxlMode s.dev = true → Tbl.find? t.dev.sharers (line / 128) = none) ∧
        (cxlMode s.dev = false → t.dies = s.dies ∧ t.dev = s.dev)) ∧
    (peerUp s.dev = false → exec (.peerRequest r) s = .next s) ∧
    (peerUp s.dev = true → s.dev.packets = [p] → p.queue = q → p.pg.isSome = true → 1 ≤ p.phase → p.phase < 5 →
      Gives (exec (.peerRequest (.member q desc bytes)) s) fun t => CoresKept s t ∧ BytesKept s t ∧
        .collectiveMatch (q % 4) s.dev.nextId ∈ t.pending ∧
        ∃ c, (dieAt t (q % 4)).coll = (dieAt s (q % 4)).coll ++ [c] ∧ c.id = s.dev.nextId ∧ c.data = bytes ∧
          c.remote = true ∧ c.launch = (q, p.index) ∧ c.words = (upTo 0 4).map fun j => desc.extractLsb' (64 * j) 64) ∧
    (∀ (va : Word64) (pa : Nat) (u : State), peerUp s.dev = true → bytes ≠ [] → va.toNat % 64 + bytes.length ≤ 64 →
      (cdpPlace (queueAgent s q) va.toNat .write).run s = (.ok pa, u) → Quiet u → isLocal pa = true →
      Gives (exec (.peerRequest (.write q va bytes)) s) fun t => CoresKept u t ∧ t.dies = u.dies ∧
        BytesAre t pa bytes.length at_ ∧ BytesOutside u t pa bytes.length)
end

