-- ==== Sys2Proof/Laws/Bits.lean ====
section
/-! SUPPORT. Laws of rows, lane masks and lists of numbers. -/

namespace Sys2Proof.Machine

theorem nthD_map {α β : Type} (f : α → β) (l : List α) (n : Nat) (d : β) (e : α) (h : n < l.length) :
    nthD (l.map f) n d = f (nthD l n e) := by
  induction l generalizing n with
  | nil => simp at h
  | cons x rest ih =>
    cases n with
    | zero => rfl
    | succ n => exact ih n (by simpa using h)

@[simp] theorem length_upTo (lo n : Nat) : (upTo lo n).length = n := by
  induction n generalizing lo with
  | zero => rfl
  | succ n ih => simp [upTo, ih]

theorem nthD_upTo (lo n k d : Nat) (h : k < n) : nthD (upTo lo n) k d = lo + k := by
  induction n generalizing lo k with
  | zero => omega
  | succ n ih =>
    cases k with
    | zero => rfl
    | succ k => simp [upTo, nthD, ih (lo + 1) k (by omega)]; omega

@[simp] theorem mem_upTo (lo n k : Nat) : k ∈ upTo lo n ↔ lo ≤ k ∧ k < lo + n := by
  induction n generalizing lo with
  | zero => simp [upTo]
  | succ n ih => simp [upTo, ih]; omega

/-- Lane l of a row made from a function. -/
theorem lane_rowOf (f : Nat → Word32) {l : Nat} (h : l < 64) : lane (rowOf f) l = f l := by
  rw [lane, rowOf, nthD_map f _ l 0 0 (by simpa using h), nthD_upTo 0 64 l 0 h]
  simp

theorem lane_blend (m : Mask) (a b : Row) {l : Nat} (h : l < 64) :
    lane (blend m a b) l = if hasLane m l then lane a l else lane b l := lane_rowOf _ h

theorem lane_maskRow (m : Mask) (r : Row) {l : Nat} (h : l < 64) :
    lane (maskRow m r) l = if hasLane m l then lane r l else 0 := lane_rowOf _ h

@[simp] theorem lane_zeroRow (l : Nat) : lane zeroRow l = 0 := by
  have : ∀ (n k : Nat), nthD (List.replicate n (0 : Word32)) k 0 = 0 := by
    intro n
    induction n with
    | zero => intro k; rfl
    | succ n ih =>
      intro k
      cases k with
      | zero => rfl
      | succ k => exact ih k
  exact this 64 l

@[simp] theorem hasLane_and (a b : Mask) (l : Nat) : hasLane (a &&& b) l = (hasLane a l && hasLane b l) := by
  simp [hasLane]

@[simp] theorem hasLane_or (a b : Mask) (l : Nat) : hasLane (a ||| b) l = (hasLane a l || hasLane b l) := by
  simp [hasLane]

theorem hasLane_not (a : Mask) {l : Nat} (h : l < 64) : hasLane (~~~a) l = !hasLane a l := by
  simp [hasLane, h]

theorem hasLane_lt {m : Mask} {l : Nat} (h : hasLane m l = true) : l < 64 := by
  by_cases hl : l < 64
  · exact hl
  · simp [hasLane, BitVec.getLsbD_of_ge m l (by omega)] at h

@[simp] theorem mem_lanesOf (m : Mask) (l : Nat) : l ∈ lanesOf m ↔ hasLane m l = true := by
  simp only [lanesOf, List.mem_filter, mem_upTo]
  exact ⟨fun h => h.2, fun h => ⟨⟨by omega, by have := hasLane_lt h; omega⟩, h⟩⟩

/-- The number that maskOf builds, over the lanes from lo on. -/
theorem foldMask_bits (f : Nat → Bool) (n : Nat) : ∀ (lo a : Nat), a < 2 ^ lo → ∀ l,
    ((upTo lo n).foldl (fun a l => if f l then a + 2 ^ l else a) a).testBit l =
      if l < lo then a.testBit l else if l < lo + n then f l else false := by
  induction n with
  | zero =>
    intro lo a ha l
    simp only [upTo, List.foldl_nil, Nat.add_zero]
    split
    · rfl
    · rename_i h
      have h1 : a < 2 ^ l := Nat.lt_of_lt_of_le ha (Nat.pow_le_pow_right (by omega) (by omega))
      rw [Nat.testBit_lt_two_pow h1]
  | succ n ih =>
    intro lo a ha l
    have hp : 2 ^ (lo + 1) = 2 ^ lo + 2 ^ lo := by rw [Nat.pow_succ]; omega
    have h2 : (if f lo then a + 2 ^ lo else a) < 2 ^ (lo + 1) := by split <;> omega
    simp only [upTo, List.foldl_cons]
    rw [ih (lo + 1) _ h2 l]
    by_cases hl : l < lo
    · have : l < lo + 1 := by omega
      simp only [hl, this, if_true]
      split
      · rw [Nat.add_comm, Nat.testBit_two_pow_add_gt hl]
      · rfl
    · by_cases he : l = lo
      · subst he
        simp only [Nat.lt_irrefl, if_false, Nat.lt_succ_self, if_true]
        have : l < l + (n + 1) := by omega
        simp only [this, if_true]
        split
        · rename_i hf
          rw [Nat.add_comm, Nat.testBit_two_pow_add_eq, Nat.testBit_lt_two_pow ha]; simp [hf]
        · rename_i hf
          rw [Nat.testBit_lt_two_pow ha]; simpa using hf
      · have h3 : ¬ l < lo + 1 := by omega
        have h4 : (l < lo + 1 + n) = (l < lo + (n + 1)) := by rw [Nat.add_right_comm, Nat.add_assoc]
        simp only [hl, h3, if_false, h4]

/-- Lane l of a mask made from a test. -/
theorem hasLane_maskOf (f : Nat → Bool) {l : Nat} (h : l < 64) : hasLane (maskOf f) l = f l := by
  have := foldMask_bits f 64 0 0 (by decide) l
  simp only [Nat.not_lt_zero, if_false, Nat.zero_add, h, if_true] at this
  simp only [hasLane, maskOf, BitVec.getLsbD_ofNat, h, decide_true, Bool.true_and]
  exact this

@[simp] theorem hasLane_allOnes {l : Nat} (h : l < 64) : hasLane (BitVec.allOnes 64) l = true := by
  rw [hasLane, BitVec.getLsbD_allOnes]; simp [h]

@[simp] theorem hasLane_zero (l : Nat) : hasLane (0 : Mask) l = false := by simp [hasLane]

end Sys2Proof.Machine
end

