-- ==== Sys2Proof/Laws/Tbl.lean ====
section
/-! SUPPORT. Laws of the tables: reading after writing and after removing, and the canonical form. The reading laws need
no canonical form, so statements hold in every state. -/

namespace Sys2Proof.Machine

@[simp] theorem find?_nil {α : Type} (k : Nat) : Tbl.find? ([] : Tbl α) k = none := rfl

@[simp] theorem find?_put_self {α : Type} (t : Tbl α) (k : Nat) (x : α) : Tbl.find? (Tbl.put t k x) k = some x := by
  induction t with
  | nil => simp [Tbl.put, Tbl.find?]
  | cons h rest ih =>
    obtain ⟨i, y⟩ := h
    simp only [Tbl.put]
    split
    · simp [Tbl.find?]
    · split
      · simp [Tbl.find?]
      · rename_i hne
        simp [Tbl.find?, hne, ih]

theorem find?_put_ne {α : Type} (t : Tbl α) {k j : Nat} (x : α) (h : j ≠ k) :
    Tbl.find? (Tbl.put t k x) j = Tbl.find? t j := by
  have h' : (k == j) = false := by simp; omega
  induction t with
  | nil => simp [Tbl.put, Tbl.find?, h']
  | cons hd rest ih =>
    obtain ⟨i, y⟩ := hd
    simp only [Tbl.put]
    split
    · simp [Tbl.find?, h']
    · split
      · rename_i he
        have : (i == j) = false := by simp at he ⊢; omega
        simp [Tbl.find?, h', this]
      · simp [Tbl.find?, ih]

/-- What a written table reads as at any key. -/
theorem find?_put {α : Type} (t : Tbl α) (k j : Nat) (x : α) :
    Tbl.find? (Tbl.put t k x) j = if j = k then some x else Tbl.find? t j := by
  split
  · rename_i h; subst h; simp
  · rename_i h; exact find?_put_ne t x h

@[simp] theorem find?_del_self {α : Type} (t : Tbl α) (k : Nat) : Tbl.find? (Tbl.del t k) k = none := by
  induction t with
  | nil => rfl
  | cons h rest ih =>
    obtain ⟨i, y⟩ := h
    simp only [Tbl.del]
    split
    · exact ih
    · rename_i hne
      simp [Tbl.find?, hne, ih]

theorem find?_del_ne {α : Type} (t : Tbl α) {k j : Nat} (h : j ≠ k) : Tbl.find? (Tbl.del t k) j = Tbl.find? t j := by
  induction t with
  | nil => rfl
  | cons hd rest ih =>
    obtain ⟨i, y⟩ := hd
    simp only [Tbl.del]
    split
    · rename_i he
      have : (i == j) = false := by simp at he ⊢; omega
      simp [Tbl.find?, ih, this]
    · simp [Tbl.find?, ih]

@[simp] theorem getD_put_self {α : Type} (t : Tbl α) (k : Nat) (d x : α) : Tbl.getD (Tbl.put t k x) k d = x := by
  simp [Tbl.getD]

theorem getD_put_ne {α : Type} (t : Tbl α) {k j : Nat} (d x : α) (h : j ≠ k) :
    Tbl.getD (Tbl.put t k x) j d = Tbl.getD t j d := by
  simp [Tbl.getD, find?_put_ne t x h]

@[simp] theorem getD_setD_self {α : Type} [DecidableEq α] (t : Tbl α) (k : Nat) (d x : α) :
    Tbl.getD (Tbl.setD t k d x) k d = x := by
  unfold Tbl.setD
  split
  · rename_i h; simp [Tbl.getD, h]
  · simp

theorem getD_setD_ne {α : Type} [DecidableEq α] (t : Tbl α) {k j : Nat} (d x : α) (h : j ≠ k) :
    Tbl.getD (Tbl.setD t k d x) j d = Tbl.getD t j d := by
  unfold Tbl.setD
  split
  · simp [Tbl.getD, find?_del_ne t h]
  · exact getD_put_ne t d x h

/-- What a written default table reads as at any key. -/
theorem getD_setD {α : Type} [DecidableEq α] (t : Tbl α) (k j : Nat) (d x : α) :
    Tbl.getD (Tbl.setD t k d x) j d = if j = k then x else Tbl.getD t j d := by
  split
  · rename_i h; subst h; simp
  · rename_i h; exact getD_setD_ne t d x h

theorem getD_of_not_mem {α : Type} {t : Tbl α} {k : Nat} {d : α} (h : k ∉ Tbl.keys t) : Tbl.getD t k d = d := by
  induction t with
  | nil => rfl
  | cons x rest ih =>
    obtain ⟨i, y⟩ := x
    simp only [Tbl.keys, List.map_cons, List.mem_cons, not_or] at h
    have hk : (i == k) = false := by simp; omega
    have : Tbl.find? rest k = Tbl.find? ((i, y) :: rest) k := by simp [Tbl.find?, hk]
    rw [Tbl.getD, ← this]
    exact ih h.2

/-- A packed table reads as before. -/
theorem getD_pack {α : Type} [DecidableEq α] (t : Tbl α) (k : Nat) (d : α) : Tbl.getD (Tbl.pack t d) k d = Tbl.getD t k d := by
  have : ∀ (ks : List Nat) (u : Tbl α),
      Tbl.getD (ks.foldl (fun u k => Tbl.setD u k d (Tbl.getD t k d)) u) k d =
        if k ∈ ks then Tbl.getD t k d else Tbl.getD u k d := by
    intro ks
    induction ks with
    | nil => intro u; simp
    | cons j rest ih =>
      intro u
      rw [List.foldl_cons, ih, getD_setD]
      by_cases h : k ∈ rest
      · simp [h]
      · by_cases hj : k = j
        · subst hj; simp
        · simp [h, hj]
  rw [Tbl.pack, this]
  split
  · rfl
  · rename_i h
    rw [getD_of_not_mem h]
    rfl

theorem find?_mapVals {α β : Type} (t : Tbl α) (f : Nat → α → β) (k : Nat) :
    Tbl.find? (Tbl.mapVals t f) k = (Tbl.find? t k).map (f k) := by
  induction t with
  | nil => rfl
  | cons x rest ih =>
    obtain ⟨i, y⟩ := x
    simp only [Tbl.mapVals, List.map_cons, Tbl.find?]
    by_cases h : i = k
    · subst h; simp
    · have : (i == k) = false := by simp [h]
      simp only [this]
      exact ih

/-! ### The canonical form -/

/-- Every key of a table lies above a number. -/
def Tbl.above {α : Type} (t : Tbl α) (n : Nat) : Prop := ∀ p ∈ t, n < p.1

theorem wf_cons {α : Type} {i : Nat} {y : α} {t : Tbl α} :
    Tbl.wf ((i, y) :: t) = true ↔ Tbl.above t i ∧ Tbl.wf t = true := by
  induction t generalizing i y with
  | nil => simp [Tbl.wf, Tbl.above]
  | cons h rest ih =>
    obtain ⟨j, z⟩ := h
    simp only [Tbl.wf, Bool.and_eq_true, decide_eq_true_eq, Tbl.above, List.mem_cons, forall_eq_or_imp]
    constructor
    · rintro ⟨hij, hw⟩
      refine ⟨⟨hij, fun p hp => ?_⟩, hw⟩
      exact Nat.lt_trans hij ((ih.1 hw).1 p hp)
    · rintro ⟨⟨hij, _⟩, hw⟩
      exact ⟨hij, hw⟩

theorem above_put {α : Type} {t : Tbl α} {n k : Nat} {x : α} (h : Tbl.above t n) (hk : n < k) :
    Tbl.above (Tbl.put t k x) n := by
  induction t with
  | nil => intro p hp; simp [Tbl.put] at hp; subst hp; exact hk
  | cons hd rest ih =>
    obtain ⟨i, y⟩ := hd
    have hi : n < i := h (i, y) (by simp)
    have hr : Tbl.above rest n := fun p hp => h p (by simp [hp])
    simp only [Tbl.put]
    split
    · intro p hp
      rcases List.mem_cons.1 hp with rfl | hp
      · exact hk
      · exact h p hp
    · split
      · intro p hp
        rcases List.mem_cons.1 hp with rfl | hp
        · exact hk
        · exact hr p hp
      · intro p hp
        rcases List.mem_cons.1 hp with rfl | hp
        · exact hi
        · exact ih hr p hp

theorem wf_put {α : Type} {t : Tbl α} {k : Nat} {x : α} (h : Tbl.wf t = true) : Tbl.wf (Tbl.put t k x) = true := by
  induction t with
  | nil => rfl
  | cons hd rest ih =>
    obtain ⟨i, y⟩ := hd
    have ⟨ha, hw⟩ := wf_cons.1 h
    simp only [Tbl.put]
    split
    · rename_i hlt
      refine wf_cons.2 ⟨fun p hp => ?_, h⟩
      rcases List.mem_cons.1 hp with rfl | hp
      · exact hlt
      · exact Nat.lt_trans hlt (ha p hp)
    · split
      · rename_i he
        have he : i = k := by simpa using he
        exact wf_cons.2 ⟨he ▸ ha, hw⟩
      · rename_i hn he
        have he : i ≠ k := by simpa using he
        exact wf_cons.2 ⟨above_put ha (by omega), ih hw⟩

theorem mem_del {α : Type} {t : Tbl α} {k : Nat} {p : Nat × α} (h : p ∈ Tbl.del t k) : p ∈ t := by
  induction t with
  | nil => exact h
  | cons hd rest ih =>
    obtain ⟨i, y⟩ := hd
    simp only [Tbl.del] at h
    split at h
    · exact List.mem_cons_of_mem _ (ih h)
    · rcases List.mem_cons.1 h with rfl | h
      · simp
      · exact List.mem_cons_of_mem _ (ih h)

theorem wf_del {α : Type} {t : Tbl α} {k : Nat} (h : Tbl.wf t = true) : Tbl.wf (Tbl.del t k) = true := by
  induction t with
  | nil => rfl
  | cons hd rest ih =>
    obtain ⟨i, y⟩ := hd
    have ⟨ha, hw⟩ := wf_cons.1 h
    simp only [Tbl.del]
    split
    · exact ih hw
    · exact wf_cons.2 ⟨fun p hp => ha p (mem_del hp), ih hw⟩

theorem wf_setD {α : Type} [DecidableEq α] {t : Tbl α} {k : Nat} {d x : α} (h : Tbl.wf t = true) :
    Tbl.wf (Tbl.setD t k d x) = true := by
  unfold Tbl.setD
  split
  · exact wf_del h
  · exact wf_put h

theorem mem_put {α : Type} {t : Tbl α} {k : Nat} {x : α} {p : Nat × α} (h : p ∈ Tbl.put t k x) : p = (k, x) ∨ p ∈ t := by
  induction t with
  | nil => simp [Tbl.put] at h; exact .inl h
  | cons hd rest ih =>
    obtain ⟨i, y⟩ := hd
    simp only [Tbl.put] at h
    split at h
    · rcases List.mem_cons.1 h with h | h
      · exact .inl h
      · exact .inr h
    · split at h
      · rcases List.mem_cons.1 h with h | h
        · exact .inl h
        · exact .inr (List.mem_cons_of_mem _ h)
      · rcases List.mem_cons.1 h with rfl | h
        · exact .inr (by simp)
        · exact (ih h).imp id (List.mem_cons_of_mem _)

end Sys2Proof.Machine
end

