-- ==== Sys2Proof/Laws/Group.lean ====
section
/-! SUPPORT. Laws of the operations on one group: registers after a write, and the fields each write touches. -/

namespace Sys2Proof.Machine

/-! ### s-registers -/

theorem sreg_setS (g : Group) (n j : Nat) (x : Word64) : (g.setS n x).sreg j = if j = n then x else g.sreg j := by
  simp [Group.sreg, Group.setS, getD_setD]

theorem sreg_writeS (g : Group) (n j : Nat) (x : Word64) : (g.writeS n x).sreg j = if j = n then x else g.sreg j := by
  unfold Group.writeS
  split <;> simp [← sreg_setS] <;> rfl

/-- A write of an s-register touches the s-registers and the results in flight. -/
theorem writeS_fields (g : Group) (n : Nat) (x : Word64) : ∃ s p, g.writeS n x = { g with s := s, pend := p } := by
  unfold Group.writeS
  split
  · exact ⟨_, g.pend, rfl⟩
  · exact ⟨_, _, rfl⟩

theorem resultS_fields (g : Group) (d : SDst) (x : Word64) : ∃ s p, g.resultS d x = { g with s := s, pend := p } := by
  cases d
  · exact writeS_fields _ _ _
  · exact ⟨g.s, g.pend, rfl⟩

theorem sreg_resultS (g : Group) (d : SDst) (n : Fin 64) (x : Word64) :
    (g.resultS d x).sreg n.val = if d = .s n then x else g.sreg n.val := by
  cases d with
  | s m =>
    show (g.writeS m.val x).sreg n.val = _
    rw [sreg_writeS]
    simp [Fin.ext_iff, eq_comm]
  | discard => simp [Group.resultS]

/-! ### Predicates -/

theorem hasLane_preg_setP (g : Group) (n j : Nat) (m x : Mask) (l : Nat) (h : l < 64) :
    hasLane ((g.setP n m x).preg j) l =
      if j = n ∧ n ≠ 0 ∧ hasLane m l = true then hasLane x l else hasLane (g.preg j) l := by
  unfold Group.setP
  by_cases hn : n = 0
  · simp [hn]
  · simp only [beq_iff_eq, hn, if_false, ne_eq, not_false_eq_true, true_and]
    by_cases hj : j = n
    · subst hj
      simp only [Group.preg, beq_iff_eq, hn, if_false, getD_setD_self, hasLane_or, hasLane_and, hasLane_not _ h, true_and]
      cases hasLane m l <;> simp
    · simp only [hj, false_and, if_false]
      unfold Group.preg
      by_cases hj0 : j = 0
      · simp [hj0]
      · simp [hj0, getD_setD_ne _ _ _ hj]

theorem setP_fields (g : Group) (n : Nat) (m x : Mask) : ∃ p, g.setP n m x = { g with p := p } := by
  unfold Group.setP
  split
  · exact ⟨g.p, rfl⟩
  · exact ⟨_, rfl⟩

/-! ### v-registers -/

theorem lane_vreg_setV (g : Group) (n j : Nat) (m : Mask) (r : Row) (l : Nat) (h : l < 64) :
    lane ((g.setV n m r).vreg j) l = if j = n ∧ hasLane m l = true then lane r l else lane (g.vreg j) l := by
  unfold Group.setV Group.vreg
  by_cases hj : j = n
  · subst hj
    simp only [getD_setD_self, lane_blend _ _ _ h, true_and]
  · simp [hj, getD_setD_ne _ _ _ hj]

theorem overtake_fields (g : Group) (n : Nat) (m : Mask) : ∃ p, g.overtake n m = { g with pend := p } := by
  unfold Group.overtake
  split
  · exact ⟨g.pend, rfl⟩
  · exact ⟨_, rfl⟩

theorem lane_vreg_writeV (g : Group) (n j : Nat) (m : Mask) (r : Row) (l : Nat) (h : l < 64) :
    lane ((g.writeV n m r).vreg j) l = if j = n ∧ hasLane m l = true then lane r l else lane (g.vreg j) l := by
  obtain ⟨p, hp⟩ := overtake_fields g n m
  rw [Group.writeV, lane_vreg_setV _ _ _ _ _ _ h, hp]
  rfl

/-- A write of v-register lanes touches the v-registers and the results in flight. -/
theorem writeV_fields (g : Group) (n : Nat) (m : Mask) (r : Row) : ∃ v p, g.writeV n m r = { g with v := v, pend := p } := by
  obtain ⟨p, hp⟩ := overtake_fields g n m
  exact ⟨_, p, by rw [Group.writeV, hp]; rfl⟩

theorem result_fields (g : Group) (d : VDst) (m : Mask) (r : Row) :
    ∃ v p, g.result d m r = { g with v := v, pend := p, latch := ((maskRow m r, 0) :: g.latch).take 4 } := by
  cases d with
  | v n =>
    obtain ⟨v, p, h⟩ := writeV_fields g n.val m r
    exact ⟨v, p, by simp only [Group.result, Group.shiftLatch, h]⟩
  | discard => exact ⟨g.v, g.pend, rfl⟩

theorem lane_vreg_result (g : Group) (d : VDst) (n : Fin 240) (m : Mask) (r : Row) (l : Nat) (h : l < 64) :
    lane ((g.result d m r).vreg n.val) l =
      if d = .v n ∧ hasLane m l = true then lane r l else lane (g.vreg n.val) l := by
  cases d with
  | v k =>
    show lane ((g.writeV k.val m r).vreg n.val) l = _
    have hk : n.val = k.val ↔ VDst.v k = VDst.v n :=
      ⟨fun h => congrArg VDst.v (Fin.ext h.symm), fun h => by injection h with h; rw [h]⟩
    rw [lane_vreg_writeV _ _ _ _ _ _ h]
    simp only [hk]
  | discard =>
    rw [if_neg (by rintro ⟨h, -⟩; exact VDst.noConfusion h)]
    rfl

theorem result64_fields (g : Group) (d : VDst) (m : Mask) (lo hi : Row) :
    ∃ v p, g.result64 d m lo hi = { g with v := v, pend := p, latch := ((maskRow m lo, 0) :: g.latch).take 4 } := by
  cases d with
  | v n =>
    obtain ⟨v, p, h⟩ := writeV_fields g n.val m lo
    obtain ⟨v2, p2, h2⟩ := writeV_fields { g with v := v, pend := p } (n.val + 1) m hi
    refine ⟨v2, p2, ?_⟩
    show ((g.writeV n.val m lo).writeV (n.val + 1) m hi).shiftLatch m lo 0 = _
    rw [h, h2]
    rfl
  | discard => exact ⟨g.v, g.pend, rfl⟩

theorem lane_vreg_result64 (g : Group) (n : Fin 240) (j : Nat) (m : Mask) (lo hi : Row) (l : Nat) (h : l < 64) :
    lane ((g.result64 (.v n) m lo hi).vreg j) l =
      if hasLane m l = true ∧ j = n.val then lane lo l
      else if hasLane m l = true ∧ j = n.val + 1 then lane hi l else lane (g.vreg j) l := by
  show lane (((g.writeV n.val m lo).writeV (n.val + 1) m hi).vreg j) l = _
  rw [lane_vreg_writeV _ _ _ _ _ _ h, lane_vreg_writeV _ _ _ _ _ _ h]
  by_cases h1 : j = n.val
  · have : j ≠ n.val + 1 := by omega
    simp only [h1, true_and, and_true]
    split
    · omega
    · split <;> simp_all
  · simp only [h1, false_and, and_false, if_false]
    by_cases h2 : j = n.val + 1 <;> simp [h2]

/-! ### The latch chain -/

theorem nthD_take {α : Type} (l : List α) (n k : Nat) (d : α) (h : k < n) : nthD (l.take n) k d = nthD l k d := by
  induction l generalizing n k with
  | nil => simp [nthD]
  | cons x rest ih =>
    cases n with
    | zero => omega
    | succ n =>
      cases k with
      | zero => rfl
      | succ k => exact ih n k (by omega)

theorem latchRow_shift (g : Group) (r : Row) (id k : Nat) (h : k < 3) (l : List (Row × Nat))
    (hl : l = ((r, id) :: g.latch).take 4) : ({ g with latch := l } : Group).latchRow (k + 1) = g.latchRow k := by
  subst hl
  simp only [Group.latchRow]
  rw [nthD_take _ _ _ _ (by omega)]
  rfl

/-! ### Flags -/

/-- A flag is raised when a lane raises it. -/
theorem orFlags_bit (l : List Flags) (k : Nat) : (orFlags l).getLsbD k = l.any fun f => f.getLsbD k := by
  have : ∀ (l : List Flags) (a : Flags), (l.foldl (· ||| ·) a).getLsbD k = (a.getLsbD k || l.any fun f => f.getLsbD k) := by
    intro l
    induction l with
    | nil => intro a; simp
    | cons x rest ih => intro a; simp [ih, Bool.or_assoc]
  simpa [orFlags] using this l 0

end Sys2Proof.Machine
end

