-- ==== Sys2Proof/Laws/Memory.lean ====
section
/-! SUPPORT. Laws of memory: reading after a write, and the canonical form. -/

namespace Sys2Proof.Machine

@[simp] theorem Memory.get_set_self (m : Memory) (a : Nat) (b : Byte) : (m.set a b).get a = b := by
  simp [Memory.get, Memory.set]

theorem Memory.get_set_ne (m : Memory) {a x : Nat} (b : Byte) (h : x ≠ a) : (m.set a b).get x = m.get x := by
  simp [Memory.get, Memory.set, getD_setD_ne _ _ _ h]

@[simp] theorem Memory.get_nil (a : Nat) : Memory.get [] a = memDefault := rfl

/-- A write keeps the canonical form. -/
theorem Memory.wf_set {m : Memory} {a : Nat} {b : Byte} (h : m.wf = true) : (m.set a b).wf = true := by
  simp only [Memory.wf, Bool.and_eq_true, List.all_eq_true] at h ⊢
  refine ⟨wf_setD h.1, fun p hp => ?_⟩
  unfold Memory.set Tbl.setD at hp
  split at hp
  · exact h.2 p (mem_del hp)
  · rename_i hb
    rcases mem_put hp with rfl | hp
    · simpa using hb
    · exact h.2 p hp

@[simp] theorem Memory.wf_nil : Memory.wf [] = true := rfl

end Sys2Proof.Machine
end

