-- ==== Sys2Proof/Laws/State.lean ====
section
/-! SUPPORT. One lemma for each field and each update of the state. -/

namespace Sys2Proof.Machine

@[simp] theorem apply_byte_focus (s : State) (a : Nat) (b : Byte) : ((Upd.byte a b).apply s).focus = s.focus := rfl
@[simp] theorem apply_byte_agenda (s : State) (a : Nat) (b : Byte) : ((Upd.byte a b).apply s).agenda = s.agenda := rfl
@[simp] theorem apply_byte_pending (s : State) (a : Nat) (b : Byte) : ((Upd.byte a b).apply s).pending = s.pending := rfl
@[simp] theorem apply_byte_free (s : State) (a : Nat) (b : Byte) : ((Upd.byte a b).apply s).free = s.free := rfl
@[simp] theorem apply_byte_mem (s : State) (a : Nat) (b : Byte) : ((Upd.byte a b).apply s).mem = s.mem.set a b := rfl
@[simp] theorem apply_byte_groups (s : State) (a : Nat) (b : Byte) : ((Upd.byte a b).apply s).groups = s.groups := rfl
@[simp] theorem apply_byte_teams (s : State) (a : Nat) (b : Byte) : ((Upd.byte a b).apply s).teams = s.teams := rfl
@[simp] theorem apply_byte_cores (s : State) (a : Nat) (b : Byte) : ((Upd.byte a b).apply s).cores = s.cores := rfl
@[simp] theorem apply_byte_dies (s : State) (a : Nat) (b : Byte) : ((Upd.byte a b).apply s).dies = s.dies := rfl
@[simp] theorem apply_byte_dev (s : State) (a : Nat) (b : Byte) : ((Upd.byte a b).apply s).dev = s.dev := rfl

@[simp] theorem apply_group_focus (s : State) (k : Nat) (g : Group) : ((Upd.group k g).apply s).focus = s.focus := rfl
@[simp] theorem apply_group_agenda (s : State) (k : Nat) (g : Group) : ((Upd.group k g).apply s).agenda = s.agenda := rfl
@[simp] theorem apply_group_pending (s : State) (k : Nat) (g : Group) : ((Upd.group k g).apply s).pending = s.pending := rfl
@[simp] theorem apply_group_free (s : State) (k : Nat) (g : Group) : ((Upd.group k g).apply s).free = s.free := rfl
@[simp] theorem apply_group_mem (s : State) (k : Nat) (g : Group) : ((Upd.group k g).apply s).mem = s.mem := rfl
@[simp] theorem apply_group_groups (s : State) (k : Nat) (g : Group) : ((Upd.group k g).apply s).groups = Tbl.put s.groups k g := rfl
@[simp] theorem apply_group_teams (s : State) (k : Nat) (g : Group) : ((Upd.group k g).apply s).teams = s.teams := rfl
@[simp] theorem apply_group_cores (s : State) (k : Nat) (g : Group) : ((Upd.group k g).apply s).cores = s.cores := rfl
@[simp] theorem apply_group_dies (s : State) (k : Nat) (g : Group) : ((Upd.group k g).apply s).dies = s.dies := rfl
@[simp] theorem apply_group_dev (s : State) (k : Nat) (g : Group) : ((Upd.group k g).apply s).dev = s.dev := rfl

@[simp] theorem apply_noGroup_focus (s : State) (k : Nat) : ((Upd.noGroup k).apply s).focus = s.focus := rfl
@[simp] theorem apply_noGroup_agenda (s : State) (k : Nat) : ((Upd.noGroup k).apply s).agenda = s.agenda := rfl
@[simp] theorem apply_noGroup_pending (s : State) (k : Nat) : ((Upd.noGroup k).apply s).pending = s.pending := rfl
@[simp] theorem apply_noGroup_free (s : State) (k : Nat) : ((Upd.noGroup k).apply s).free = s.free := rfl
@[simp] theorem apply_noGroup_mem (s : State) (k : Nat) : ((Upd.noGroup k).apply s).mem = s.mem := rfl
@[simp] theorem apply_noGroup_groups (s : State) (k : Nat) : ((Upd.noGroup k).apply s).groups = Tbl.del s.groups k := rfl
@[simp] theorem apply_noGroup_teams (s : State) (k : Nat) : ((Upd.noGroup k).apply s).teams = s.teams := rfl
@[simp] theorem apply_noGroup_cores (s : State) (k : Nat) : ((Upd.noGroup k).apply s).cores = s.cores := rfl
@[simp] theorem apply_noGroup_dies (s : State) (k : Nat) : ((Upd.noGroup k).apply s).dies = s.dies := rfl
@[simp] theorem apply_noGroup_dev (s : State) (k : Nat) : ((Upd.noGroup k).apply s).dev = s.dev := rfl

@[simp] theorem apply_team_focus (s : State) (k : Nat) (t : Team) : ((Upd.team k t).apply s).focus = s.focus := rfl
@[simp] theorem apply_team_agenda (s : State) (k : Nat) (t : Team) : ((Upd.team k t).apply s).agenda = s.agenda := rfl
@[simp] theorem apply_team_pending (s : State) (k : Nat) (t : Team) : ((Upd.team k t).apply s).pending = s.pending := rfl
@[simp] theorem apply_team_free (s : State) (k : Nat) (t : Team) : ((Upd.team k t).apply s).free = s.free := rfl
@[simp] theorem apply_team_mem (s : State) (k : Nat) (t : Team) : ((Upd.team k t).apply s).mem = s.mem := rfl
@[simp] theorem apply_team_groups (s : State) (k : Nat) (t : Team) : ((Upd.team k t).apply s).groups = s.groups := rfl
@[simp] theorem apply_team_teams (s : State) (k : Nat) (t : Team) : ((Upd.team k t).apply s).teams = Tbl.put s.teams k t := rfl
@[simp] theorem apply_team_cores (s : State) (k : Nat) (t : Team) : ((Upd.team k t).apply s).cores = s.cores := rfl
@[simp] theorem apply_team_dies (s : State) (k : Nat) (t : Team) : ((Upd.team k t).apply s).dies = s.dies := rfl
@[simp] theorem apply_team_dev (s : State) (k : Nat) (t : Team) : ((Upd.team k t).apply s).dev = s.dev := rfl

@[simp] theorem apply_noTeam_focus (s : State) (k : Nat) : ((Upd.noTeam k).apply s).focus = s.focus := rfl
@[simp] theorem apply_noTeam_agenda (s : State) (k : Nat) : ((Upd.noTeam k).apply s).agenda = s.agenda := rfl
@[simp] theorem apply_noTeam_pending (s : State) (k : Nat) : ((Upd.noTeam k).apply s).pending = s.pending := rfl
@[simp] theorem apply_noTeam_free (s : State) (k : Nat) : ((Upd.noTeam k).apply s).free = s.free := rfl
@[simp] theorem apply_noTeam_mem (s : State) (k : Nat) : ((Upd.noTeam k).apply s).mem = s.mem := rfl
@[simp] theorem apply_noTeam_groups (s : State) (k : Nat) : ((Upd.noTeam k).apply s).groups = s.groups := rfl
@[simp] theorem apply_noTeam_teams (s : State) (k : Nat) : ((Upd.noTeam k).apply s).teams = Tbl.del s.teams k := rfl
@[simp] theorem apply_noTeam_cores (s : State) (k : Nat) : ((Upd.noTeam k).apply s).cores = s.cores := rfl
@[simp] theorem apply_noTeam_dies (s : State) (k : Nat) : ((Upd.noTeam k).apply s).dies = s.dies := rfl
@[simp] theorem apply_noTeam_dev (s : State) (k : Nat) : ((Upd.noTeam k).apply s).dev = s.dev := rfl

@[simp] theorem apply_core_focus (s : State) (k : Nat) (c : Core) : ((Upd.core k c).apply s).focus = s.focus := rfl
@[simp] theorem apply_core_agenda (s : State) (k : Nat) (c : Core) : ((Upd.core k c).apply s).agenda = s.agenda := rfl
@[simp] theorem apply_core_pending (s : State) (k : Nat) (c : Core) : ((Upd.core k c).apply s).pending = s.pending := rfl
@[simp] theorem apply_core_free (s : State) (k : Nat) (c : Core) : ((Upd.core k c).apply s).free = s.free := rfl
@[simp] theorem apply_core_mem (s : State) (k : Nat) (c : Core) : ((Upd.core k c).apply s).mem = s.mem := rfl
@[simp] theorem apply_core_groups (s : State) (k : Nat) (c : Core) : ((Upd.core k c).apply s).groups = s.groups := rfl
@[simp] theorem apply_core_teams (s : State) (k : Nat) (c : Core) : ((Upd.core k c).apply s).teams = s.teams := rfl
@[simp] theorem apply_core_cores (s : State) (k : Nat) (c : Core) : ((Upd.core k c).apply s).cores = Tbl.put s.cores k c := rfl
@[simp] theorem apply_core_dies (s : State) (k : Nat) (c : Core) : ((Upd.core k c).apply s).dies = s.dies := rfl
@[simp] theorem apply_core_dev (s : State) (k : Nat) (c : Core) : ((Upd.core k c).apply s).dev = s.dev := rfl

@[simp] theorem apply_noCore_focus (s : State) (k : Nat) : ((Upd.noCore k).apply s).focus = s.focus := rfl
@[simp] theorem apply_noCore_agenda (s : State) (k : Nat) : ((Upd.noCore k).apply s).agenda = s.agenda := rfl
@[simp] theorem apply_noCore_pending (s : State) (k : Nat) : ((Upd.noCore k).apply s).pending = s.pending := rfl
@[simp] theorem apply_noCore_free (s : State) (k : Nat) : ((Upd.noCore k).apply s).free = s.free := rfl
@[simp] theorem apply_noCore_mem (s : State) (k : Nat) : ((Upd.noCore k).apply s).mem = s.mem := rfl
@[simp] theorem apply_noCore_groups (s : State) (k : Nat) : ((Upd.noCore k).apply s).groups = s.groups := rfl
@[simp] theorem apply_noCore_teams (s : State) (k : Nat) : ((Upd.noCore k).apply s).teams = s.teams := rfl
@[simp] theorem apply_noCore_cores (s : State) (k : Nat) : ((Upd.noCore k).apply s).cores = Tbl.del s.cores k := rfl
@[simp] theorem apply_noCore_dies (s : State) (k : Nat) : ((Upd.noCore k).apply s).dies = s.dies := rfl
@[simp] theorem apply_noCore_dev (s : State) (k : Nat) : ((Upd.noCore k).apply s).dev = s.dev := rfl

@[simp] theorem apply_die_focus (s : State) (k : Nat) (d : Die) : ((Upd.die k d).apply s).focus = s.focus := rfl
@[simp] theorem apply_die_agenda (s : State) (k : Nat) (d : Die) : ((Upd.die k d).apply s).agenda = s.agenda := rfl
@[simp] theorem apply_die_pending (s : State) (k : Nat) (d : Die) : ((Upd.die k d).apply s).pending = s.pending := rfl
@[simp] theorem apply_die_free (s : State) (k : Nat) (d : Die) : ((Upd.die k d).apply s).free = s.free := rfl
@[simp] theorem apply_die_mem (s : State) (k : Nat) (d : Die) : ((Upd.die k d).apply s).mem = s.mem := rfl
@[simp] theorem apply_die_groups (s : State) (k : Nat) (d : Die) : ((Upd.die k d).apply s).groups = s.groups := rfl
@[simp] theorem apply_die_teams (s : State) (k : Nat) (d : Die) : ((Upd.die k d).apply s).teams = s.teams := rfl
@[simp] theorem apply_die_cores (s : State) (k : Nat) (d : Die) : ((Upd.die k d).apply s).cores = s.cores := rfl
@[simp] theorem apply_die_dies (s : State) (k : Nat) (d : Die) : ((Upd.die k d).apply s).dies = Tbl.put s.dies k d := rfl
@[simp] theorem apply_die_dev (s : State) (k : Nat) (d : Die) : ((Upd.die k d).apply s).dev = s.dev := rfl

@[simp] theorem apply_noDie_focus (s : State) (k : Nat) : ((Upd.noDie k).apply s).focus = s.focus := rfl
@[simp] theorem apply_noDie_agenda (s : State) (k : Nat) : ((Upd.noDie k).apply s).agenda = s.agenda := rfl
@[simp] theorem apply_noDie_pending (s : State) (k : Nat) : ((Upd.noDie k).apply s).pending = s.pending := rfl
@[simp] theorem apply_noDie_free (s : State) (k : Nat) : ((Upd.noDie k).apply s).free = s.free := rfl
@[simp] theorem apply_noDie_mem (s : State) (k : Nat) : ((Upd.noDie k).apply s).mem = s.mem := rfl
@[simp] theorem apply_noDie_groups (s : State) (k : Nat) : ((Upd.noDie k).apply s).groups = s.groups := rfl
@[simp] theorem apply_noDie_teams (s : State) (k : Nat) : ((Upd.noDie k).apply s).teams = s.teams := rfl
@[simp] theorem apply_noDie_cores (s : State) (k : Nat) : ((Upd.noDie k).apply s).cores = s.cores := rfl
@[simp] theorem apply_noDie_dies (s : State) (k : Nat) : ((Upd.noDie k).apply s).dies = Tbl.del s.dies k := rfl
@[simp] theorem apply_noDie_dev (s : State) (k : Nat) : ((Upd.noDie k).apply s).dev = s.dev := rfl

@[simp] theorem apply_dev_focus (s : State) (d : Dev) : ((Upd.dev d).apply s).focus = s.focus := rfl
@[simp] theorem apply_dev_agenda (s : State) (d : Dev) : ((Upd.dev d).apply s).agenda = s.agenda := rfl
@[simp] theorem apply_dev_pending (s : State) (d : Dev) : ((Upd.dev d).apply s).pending = s.pending := rfl
@[simp] theorem apply_dev_free (s : State) (d : Dev) : ((Upd.dev d).apply s).free = s.free := rfl
@[simp] theorem apply_dev_mem (s : State) (d : Dev) : ((Upd.dev d).apply s).mem = s.mem := rfl
@[simp] theorem apply_dev_groups (s : State) (d : Dev) : ((Upd.dev d).apply s).groups = s.groups := rfl
@[simp] theorem apply_dev_teams (s : State) (d : Dev) : ((Upd.dev d).apply s).teams = s.teams := rfl
@[simp] theorem apply_dev_cores (s : State) (d : Dev) : ((Upd.dev d).apply s).cores = s.cores := rfl
@[simp] theorem apply_dev_dies (s : State) (d : Dev) : ((Upd.dev d).apply s).dies = s.dies := rfl
@[simp] theorem apply_dev_dev (s : State) (d : Dev) : ((Upd.dev d).apply s).dev = d := rfl

@[simp] theorem apply_focus_focus (s : State) (f : Option Focus) : ((Upd.focus f).apply s).focus = f := rfl
@[simp] theorem apply_focus_agenda (s : State) (f : Option Focus) : ((Upd.focus f).apply s).agenda = s.agenda := rfl
@[simp] theorem apply_focus_pending (s : State) (f : Option Focus) : ((Upd.focus f).apply s).pending = s.pending := rfl
@[simp] theorem apply_focus_free (s : State) (f : Option Focus) : ((Upd.focus f).apply s).free = s.free := rfl
@[simp] theorem apply_focus_mem (s : State) (f : Option Focus) : ((Upd.focus f).apply s).mem = s.mem := rfl
@[simp] theorem apply_focus_groups (s : State) (f : Option Focus) : ((Upd.focus f).apply s).groups = s.groups := rfl
@[simp] theorem apply_focus_teams (s : State) (f : Option Focus) : ((Upd.focus f).apply s).teams = s.teams := rfl
@[simp] theorem apply_focus_cores (s : State) (f : Option Focus) : ((Upd.focus f).apply s).cores = s.cores := rfl
@[simp] theorem apply_focus_dies (s : State) (f : Option Focus) : ((Upd.focus f).apply s).dies = s.dies := rfl
@[simp] theorem apply_focus_dev (s : State) (f : Option Focus) : ((Upd.focus f).apply s).dev = s.dev := rfl

@[simp] theorem apply_agenda_focus (s : State) (l : List Act) : ((Upd.agenda l).apply s).focus = s.focus := rfl
@[simp] theorem apply_agenda_agenda (s : State) (l : List Act) : ((Upd.agenda l).apply s).agenda = l := rfl
@[simp] theorem apply_agenda_pending (s : State) (l : List Act) : ((Upd.agenda l).apply s).pending = s.pending := rfl
@[simp] theorem apply_agenda_free (s : State) (l : List Act) : ((Upd.agenda l).apply s).free = s.free := rfl
@[simp] theorem apply_agenda_mem (s : State) (l : List Act) : ((Upd.agenda l).apply s).mem = s.mem := rfl
@[simp] theorem apply_agenda_groups (s : State) (l : List Act) : ((Upd.agenda l).apply s).groups = s.groups := rfl
@[simp] theorem apply_agenda_teams (s : State) (l : List Act) : ((Upd.agenda l).apply s).teams = s.teams := rfl
@[simp] theorem apply_agenda_cores (s : State) (l : List Act) : ((Upd.agenda l).apply s).cores = s.cores := rfl
@[simp] theorem apply_agenda_dies (s : State) (l : List Act) : ((Upd.agenda l).apply s).dies = s.dies := rfl
@[simp] theorem apply_agenda_dev (s : State) (l : List Act) : ((Upd.agenda l).apply s).dev = s.dev := rfl

@[simp] theorem apply_pending_focus (s : State) (l : List Instr) : ((Upd.pending l).apply s).focus = s.focus := rfl
@[simp] theorem apply_pending_agenda (s : State) (l : List Instr) : ((Upd.pending l).apply s).agenda = s.agenda := rfl
@[simp] theorem apply_pending_pending (s : State) (l : List Instr) : ((Upd.pending l).apply s).pending = l := rfl
@[simp] theorem apply_pending_free (s : State) (l : List Instr) : ((Upd.pending l).apply s).free = s.free := rfl
@[simp] theorem apply_pending_mem (s : State) (l : List Instr) : ((Upd.pending l).apply s).mem = s.mem := rfl
@[simp] theorem apply_pending_groups (s : State) (l : List Instr) : ((Upd.pending l).apply s).groups = s.groups := rfl
@[simp] theorem apply_pending_teams (s : State) (l : List Instr) : ((Upd.pending l).apply s).teams = s.teams := rfl
@[simp] theorem apply_pending_cores (s : State) (l : List Instr) : ((Upd.pending l).apply s).cores = s.cores := rfl
@[simp] theorem apply_pending_dies (s : State) (l : List Instr) : ((Upd.pending l).apply s).dies = s.dies := rfl
@[simp] theorem apply_pending_dev (s : State) (l : List Instr) : ((Upd.pending l).apply s).dev = s.dev := rfl

@[simp] theorem apply_free_focus (s : State) (n : Nat) : ((Upd.free n).apply s).focus = s.focus := rfl
@[simp] theorem apply_free_agenda (s : State) (n : Nat) : ((Upd.free n).apply s).agenda = s.agenda := rfl
@[simp] theorem apply_free_pending (s : State) (n : Nat) : ((Upd.free n).apply s).pending = s.pending := rfl
@[simp] theorem apply_free_free (s : State) (n : Nat) : ((Upd.free n).apply s).free = n := rfl
@[simp] theorem apply_free_mem (s : State) (n : Nat) : ((Upd.free n).apply s).mem = s.mem := rfl
@[simp] theorem apply_free_groups (s : State) (n : Nat) : ((Upd.free n).apply s).groups = s.groups := rfl
@[simp] theorem apply_free_teams (s : State) (n : Nat) : ((Upd.free n).apply s).teams = s.teams := rfl
@[simp] theorem apply_free_cores (s : State) (n : Nat) : ((Upd.free n).apply s).cores = s.cores := rfl
@[simp] theorem apply_free_dies (s : State) (n : Nat) : ((Upd.free n).apply s).dies = s.dies := rfl
@[simp] theorem apply_free_dev (s : State) (n : Nat) : ((Upd.free n).apply s).dev = s.dev := rfl

end Sys2Proof.Machine
end

