-- ==== Sys2Proof/Laws/Prog.lean ====
section
/-! SUPPORT. Laws of programs: how each form runs, that what every update keeps every program keeps, and the canonical
form of the state's own tables. -/

namespace Sys2Proof.Machine

@[simp] theorem run_pure {α : Type} (a : α) (s : State) : (Prog.pure a).run s = (a, s) := rfl

@[simp] theorem run_upd {α : Type} (u : Upd) (p : Prog α) (s : State) : (Prog.upd u p).run s = p.run (u.apply s) := rfl

@[simp] theorem run_get {α : Type} (k : State → Prog α) (s : State) : (Prog.get k).run s = (k s).run s := rfl

/-- A program after another runs in the state the first leaves. -/
@[simp] theorem run_bind {α β : Type} (p : Prog α) (f : α → Prog β) (s : State) :
    (Prog.bind p f).run s = (f (p.run s).1).run (p.run s).2 := by
  induction p generalizing s with
  | pure a => rfl
  | upd u k ih => exact ih (u.apply s)
  | get k ih => exact ih s s

/-- Sequencing in do notation is `Prog.bind`. -/
@[simp] theorem monad_bind {α β : Type} (p : Prog α) (f : α → Prog β) : @Bind.bind Prog Prog.monad.toBind α β p f = Prog.bind p f := rfl

@[simp] theorem monad_pure {α : Type} (a : α) : @Pure.pure Prog Prog.monad.toPure α a = Prog.pure a := rfl

@[simp] theorem run_look {α : Type} (f : State → α) (s : State) : (look f).run s = (f s, s) := rfl

@[simp] theorem run_emit (u : Upd) (s : State) : (emit u).run s = ((), u.apply s) := rfl

@[simp] theorem run_skip (s : State) : skip.run s = ((), s) := rfl

@[simp] theorem run_modDev (f : Dev → Dev) (s : State) : (modDev f).run s = ((), { s with dev := f s.dev }) := rfl

@[simp] theorem run_due (i : Instr) (s : State) : (due i).run s = ((), { s with pending := s.pending ++ [i] }) := rfl

@[simp] theorem run_fresh (s : State) : fresh.run s = (s.free, { s with free := s.free + 1 }) := rfl

@[simp] theorem run_newId (s : State) :
    newId.run s = (s.dev.nextId, { s with dev := { s.dev with nextId := s.dev.nextId + 1 } }) := rfl

@[simp] theorem run_each_nil {α : Type} (f : α → Prog Unit) (s : State) : (each [] f).run s = ((), s) := rfl

@[simp] theorem run_each_cons {α : Type} (x : α) (l : List α) (f : α → Prog Unit) (s : State) :
    (each (x :: l) f).run s = (each l f).run ((f x).run s).2 := by simp [each]

@[simp] theorem run_collect_nil {α β : Type} (f : α → Prog β) (s : State) : (collect [] f).run s = ([], s) := rfl

/-- A program ends in a next state. -/
@[simp] theorem outcome_eq {α : Type} (p : Prog α) (s : State) : p.outcome s = .next (p.run s).2 := rfl

/-- A conditional runs the branch its test chooses. -/
theorem run_ite {α : Type} (c : Prop) [Decidable c] (p q : Prog α) (s : State) :
    (if c then p else q).run s = if c then p.run s else q.run s := by split <;> rfl

/-- What every update keeps, every program keeps. -/
theorem run_keeps {P : State → Prop} (h : ∀ (u : Upd) (s : State), P s → P (u.apply s)) {α : Type} (p : Prog α) :
    ∀ s, P s → P (p.run s).2 := by
  induction p with
  | pure a => intro s hs; exact hs
  | upd u k ih => intro s hs; exact ih _ (h u s hs)
  | get k ih => intro s hs; exact ih s s hs

end Sys2Proof.Machine
end

