-- ==== Sys2Proof/Laws/Issue.lean ====
section
/-! SUPPORT. What issuing does: the outcome of an instruction that executes, of one that a check refuses, and what the
plain forms (scalar, compare, vector, pair) leave. -/

namespace Sys2Proof.Machine

/-- An instruction that passes the checks at issue does what its body does. -/
theorem issue_outcome {i : Instr} {ill : Ctx → Bool} {body : Ctx → Prog Unit} {s : State} {c : Ctx}
    (h : Executes i ill s c) : (issue i ill body).outcome s = .next ((body c).run s).2 := by
  simp [Meaning.outcome, issue, h.1, h.2]

/-- An instruction that fails a check at issue traps with its cause. -/
theorem issue_refused {i : Instr} {ill : Ctx → Bool} {body : Ctx → Prog Unit} {s : State} {c : Ctx} {cause : Cause}
    (h : ctxOf s (instrMod i) = some c) (hc : issueCheck i c (ill c) = some cause) :
    (issue i ill body).outcome s = .next ((raise c cause).run s).2 := by
  simp [Meaning.outcome, issue, h, hc]

/-- Without a split that executes it an instruction changes nothing (log 3). -/
theorem issue_noIssuer {i : Instr} {ill : Ctx → Bool} {body : Ctx → Prog Unit} {s : State}
    (h : ctxOf s (instrMod i) = none) : (issue i ill body).outcome s = .next s := by
  simp [Meaning.outcome, issue, h]

/-- What a context holds is what the state holds. -/
theorem ctx_holds {s : State} {m : Option Mod} {c : Ctx} (h : ctxOf s m = some c) :
    s.focus = some c.f ∧ c.k = c.f.group ∧ c.n = c.f.entry ∧ Tbl.find? s.groups c.k = some c.g ∧
      Tbl.find? c.g.entries c.n = some c.e ∧ Tbl.find? s.teams c.g.team = some c.t ∧ c.eff = effMode c.e.mode m ∧
      c.act = activeMask c.g c.eff c.e.mask := by
  unfold ctxOf at h
  split at h
  · contradiction
  · rename_i f hf
    split at h
    · contradiction
    · rename_i g hg
      split at h
      · rename_i e t he ht
        cases h
        exact ⟨hf, rfl, rfl, hg, he, ht, rfl, rfl⟩
      · contradiction

theorem Executes.entry {i : Instr} {ill : Ctx → Bool} {s : State} {c : Ctx} (h : Executes i ill s c) :
    Tbl.find? c.g.entries c.n = some c.e := (ctx_holds h.1).2.2.2.2.1

/-- Writing one group. -/
theorem emit_group_step (s : State) (k : Nat) (g : Group) : GroupStep s ((Upd.group k g).apply s) k g :=
  ⟨by simp, fun j hj => by simp [find?_put_ne _ _ hj], ⟨by simp, rfl, rfl, rfl, rfl, rfl, rfl, rfl, rfl⟩⟩

theorem retired_eq {c : Ctx} {g : Group} (h : Tbl.find? g.entries c.n = some c.e) (v : Bool) :
    g.retired c v = g.setEntry c.n { c.e.step c.f with run := bumpRun c.e.run v } := by simp [Group.retired, h]

theorem at_next {c : Ctx} {g : Group} (h : g.entries = c.g.entries) (r : Option Run) :
    At c (g.setEntry c.n { c.e.step c.f with run := r }) c.f.next := by
  constructor
  · exact ⟨{ c.e.step c.f with run := r }, find?_put_self _ _ _, rfl, rfl, rfl, rfl, rfl, rfl⟩
  · intro n hn
    simp [Group.setEntry, find?_put_ne _ _ hn, h]

/-- A split guard that fails makes the instruction a nop (R320). -/
theorem retire_skipped {s : State} {c : Ctx} (h : Tbl.find? c.g.entries c.n = some c.e) :
    Skipped s c (.next ((retire c c.g).run s).2) := by
  refine ⟨_, _, rfl, emit_group_step s _ _, ?_⟩
  rw [retired_eq h]
  exact ⟨at_next rfl _, rfl, fun _ => rfl, fun _ _ _ => rfl, fun _ => rfl, rfl, rfl⟩

/-- The scalar form (R349). -/
theorem scalarResult_done {i : Instr} {ill : Ctx → Bool} {d : SDst} {f : Group → Word64} {s : State} {c : Ctx}
    (h : Executes i ill s c) (hg : GuardPasses c) : ScalarDone s c d (f c.g) ((scalarResult i ill d f).outcome s) := by
  unfold GuardPasses at hg
  rw [scalarResult, issue_outcome h, guarded, if_pos hg, retire]
  refine ⟨_, _, rfl, emit_group_step s _ _, ?_⟩
  obtain ⟨x, p, hx⟩ := resultS_fields c.g d (f c.g)
  have he : (c.g.resultS d (f c.g)).entries = c.g.entries := by rw [hx]
  rw [retired_eq (by rw [he]; exact h.entry)]
  refine ⟨at_next he _, by rw [hx]; rfl, fun n => sreg_resultS _ _ _ _, ?_⟩
  rw [hx]
  exact ⟨fun _ _ _ => rfl, fun _ => rfl, rfl, rfl⟩

/-- The predicate forms (R351, R360, R366, R379). -/
theorem retireP_done {s : State} {c : Ctx} {d : Fin 128} {m x : Mask} {f : Nat → Bool} {fl : Nat → Flags}
    (h : Tbl.find? c.g.entries c.n = some c.e) (hx : ∀ l, l < 64 → hasLane x l = f l) :
    PredDone s c d m f fl
      (.next ((retire c ((c.g.raise (orFlags ((lanesOf c.act).map fl))).writeP d.val m x)).run s).2) := by
  refine ⟨_, _, rfl, emit_group_step s _ _, ?_⟩
  obtain ⟨p, hp⟩ := setP_fields (c.g.raise (orFlags ((lanesOf c.act).map fl))) d.val m x
  have he : ((c.g.raise (orFlags ((lanesOf c.act).map fl))).writeP d.val m x).entries = c.g.entries := by
    rw [Group.writeP, hp]; rfl
  rw [retired_eq (by rw [he]; exact h)]
  refine ⟨at_next he _, by rw [Group.writeP, hp]; rfl, ?_, ?_, ?_, ?_, ?_⟩
  · rw [Group.writeP, hp]; exact fun _ => rfl
  · rw [Group.writeP, hp]; exact fun _ _ _ => rfl
  · intro n l hl
    have := hasLane_preg_setP (c.g.raise (orFlags ((lanesOf c.act).map fl))) d.val n.val m x l hl
    rw [hx l hl] at this
    simp only [Fin.ext_iff]
    exact this
  · intro k
    rw [Group.writeP, hp]
    show (c.g.flags ||| orFlags ((lanesOf c.act).map fl)).getLsbD k = _
    simp [orFlags_bit, Function.comp_def]
  · rw [Group.writeP, hp]; rfl

/-- The vector form (R345). -/
theorem retireV_done {s : State} {c : Ctx} {d : VDst} {r : Row} {x : Nat → Word32} {fl : Nat → Flags}
    (h : Tbl.find? c.g.entries c.n = some c.e) (hr : ∀ l, l < 64 → lane r l = x l) :
    VectorDone s c d x fl
      (.next ((retireV c ((c.g.raise (orFlags ((lanesOf c.act).map fl))).result d c.act r)).run s).2) := by
  refine ⟨_, _, rfl, emit_group_step s _ _, ?_⟩
  obtain ⟨v, p, hp⟩ := result_fields (c.g.raise (orFlags ((lanesOf c.act).map fl))) d c.act r
  have he : ((c.g.raise (orFlags ((lanesOf c.act).map fl))).result d c.act r).entries = c.g.entries := by rw [hp]; rfl
  rw [retired_eq (by rw [he]; exact h)]
  refine ⟨at_next he _, by rw [hp]; rfl, ?_, ?_, ?_, ?_, ?_, ?_⟩
  · rw [hp]; exact fun _ => rfl
  · rw [hp]; exact fun _ => rfl
  · intro n l hl
    have := lane_vreg_result (c.g.raise (orFlags ((lanesOf c.act).map fl))) d n c.act r l hl
    rw [hr l hl] at this
    exact this
  · intro k
    rw [hp]
    show (c.g.flags ||| orFlags ((lanesOf c.act).map fl)).getLsbD k = _
    simp [orFlags_bit, Function.comp_def]
  · intro l hl
    rw [hp]
    show lane (maskRow c.act r) l = _
    rw [lane_maskRow _ _ hl, hr l hl]
  · intro k hk
    rw [hp]
    exact latchRow_shift c.g (maskRow c.act r) 0 k hk _ rfl

theorem vectorResult_done {i : Instr} {ill : Ctx → Bool} {d : VDst} {f : Ctx → Nat → Word32} {fl : Ctx → Nat → Flags}
    {s : State} {c : Ctx} (h : Executes i ill s c) :
    VectorDone s c d (f c) (fl c) ((vectorResult i ill d f fl).outcome s) := by
  rw [vectorResult, issue_outcome h]
  exact retireV_done h.entry fun l hl => lane_rowOf _ hl

theorem vectorCompare_done {i : Instr} {d : Fin 128} {f : Ctx → Nat → Bool} {fl : Ctx → Nat → Flags}
    {s : State} {c : Ctx} (h : Executes i never s c) :
    PredDone s c d c.act (f c) (fl c) ((vectorCompare i d f fl).outcome s) := by
  rw [vectorCompare, issue_outcome h]
  exact retireP_done h.entry fun l hl => hasLane_maskOf _ hl

/-- The pair form (R345, R358, R369). -/
theorem vectorResult64_done {i : Instr} {d : VDst} {f : Ctx → Nat → Word64} {fl : Ctx → Nat → Flags}
    {s : State} {c : Ctx} (h : Executes i never s c) :
    PairDone s c d (f c) (fl c) ((vectorResult64 i d f fl).outcome s) := by
  rw [vectorResult64, issue_outcome h]
  refine ⟨_, _, rfl, emit_group_step s _ _, ?_⟩
  generalize hlo : (rowOf fun l => (f c l).extractLsb' 0 32) = lo
  generalize hhi : (rowOf fun l => (f c l).extractLsb' 32 32) = hi
  have e1 : ∀ l, l < 64 → lane lo l = (f c l).extractLsb' 0 32 := fun l hl => by rw [← hlo, lane_rowOf _ hl]
  have e2 : ∀ l, l < 64 → lane hi l = (f c l).extractLsb' 32 32 := fun l hl => by rw [← hhi, lane_rowOf _ hl]
  obtain ⟨v, p, hp⟩ := result64_fields (c.g.raise (orFlags ((lanesOf c.act).map (fl c)))) d c.act lo hi
  have he : ((c.g.raise (orFlags ((lanesOf c.act).map (fl c)))).result64 d c.act lo hi).entries = c.g.entries := by
    rw [hp]; rfl
  rw [retired_eq (by rw [he]; exact h.entry)]
  refine ⟨at_next he _, by rw [hp]; rfl, ?_, ?_, ?_, ?_, ?_, ?_⟩
  · rw [hp]; exact fun _ => rfl
  · rw [hp]; exact fun _ => rfl
  · intro n l hl
    cases d with
    | v r =>
      have := lane_vreg_result64 (c.g.raise (orFlags ((lanesOf c.act).map (fl c)))) r n c.act lo hi l hl
      rw [e1 l hl, e2 l hl] at this
      exact this
    | discard => rfl
  · intro k
    rw [hp]
    show (c.g.flags ||| orFlags ((lanesOf c.act).map (fl c))).getLsbD k = _
    simp [orFlags_bit, Function.comp_def]
  · intro l hl
    rw [hp]
    show lane (maskRow c.act lo) l = _
    rw [lane_maskRow _ _ hl, e1 l hl]
  · intro k hk
    rw [hp]
    exact latchRow_shift c.g (maskRow c.act lo) 0 k hk _ rfl

end Sys2Proof.Machine
end

