-- ==== Sys2Proof/Tests/Slice0.lean ====
section
/-! SUPPORT. Tests: ill-formed terms, words of the spec's encodings, single steps with results of the spec, and for every
statement with hypotheses a state and operands that meet them. Expected results come from the spec, by rule. -/

namespace Sys2Proof.Tests

-- One theorem at a time: each waits for the kernel, and a thread for each would not fit in memory.
set_option Elab.async false
open Sys2Proof Sys2Proof.Machine

/-! ### Well-formedness: one ill-formed term or more for each check -/

/-- R307: a field of a group that the MOD word does not enable. -/
theorem test_wf_mod : [
    .nop (some ⟨false, false, false, true, false, 0, 0, false, false, 0⟩),
    .nop (some ⟨false, false, false, false, true, 0, 0, false, false, 0⟩),
    .nop (some ⟨false, false, false, false, false, 1, 0, false, false, 0⟩),
    .nop (some ⟨false, false, false, false, false, 0, 1, false, false, 0⟩),
    .nop (some ⟨false, false, false, false, false, 0, 0, true, false, 0⟩),
    .nop (some ⟨false, false, false, false, false, 0, 0, false, true, 0⟩),
    .nop (some ⟨false, false, false, false, false, 0, 0, false, false, 1⟩)].all (fun i : Instr => !i.wf) = true := by decide

/-- R306: an immediate that no operand reads, or an operand without its immediate. -/
theorem test_wf_immediate : [
    .sadd none (some (.i22 1)) (.s 1) (.s 2) (.byte 3), .sadd none none (.s 1) .imm (.byte 3),
    .iadd none none (.v 1) (.v 2) (.vec .imm), .iadd none (some (.i32 1)) (.v 1) (.v 2) (.sreg (.s 3)),
    .imad none none (.v 1) (.v 2) (.vec (.v 3)) (some .imm), .smov none (some (.i64 1)) (.s 1) (.reg (.s 2)),
    .mov none none (.v 1) (.vec .imm), .mxq none none (.v 1) (.v 2) .imm none,
    .shfl none none (.v 1) (.v 2) .imm, .shflXor none none (.v 1) (.v 2) .imm].all (fun i : Instr => !i.wf) = true := by decide

/-- R301, R302: forms that take no immediate. -/
theorem test_wf_plain : [
    .brx none .imm, .modeScalar none .imm, .lpc none .imm 0 0, .swr none .imm .flags, .vtos none (.s 1) .imm (.num 0),
    .vtos none (.s 1) (.v 2) (.sreg .imm), .sld none none (.s 1) .imm .b32 false .glob none,
    .sst none none .imm (.s 1) .b32 false .glob none, .iun none (.v 1) .imm .abs, .funop none (.v 1) .imm .abs,
    .fclass none (.v 1) .imm, .red none (.v 1) .imm .add, .lease none none false .imm,
    .wwait none none .imm (.s 1) 0 false .eq none, .wwait none none (.s 1) (.s 1) 0 false .eq (some ⟨.dev, 1, .imm⟩),
    .qPush none 0 (.s .imm), .mxld none none 2 .imm false .glob none,
    .shfl none none (.v 1) .zero (.v 2)].all (fun i : Instr => !i.wf) = true := by decide

/-- R301, R346, R370: register pairs at odd numbers, and a latch where a pair stands. -/
theorem test_wf_pairs : [
    .lea none none (.v 1) (.v 2) (.vec (.v 3)) none, .lea none none (.v 2) (.v 1) (.vec (.v 3)) none,
    .add64 none none (.v 2) (.v 4) (.vec (.v 1)), .add64 none none (.v 2) (.b 0) (.vec (.v 4)),
    .dadd none none (.v 2) (.v 4) (.vec (.v 5)), .dfma none none (.v 2) (.v 4) (.vec (.v 6)) (some (.v 1)),
    .dcmpLt none none 1 (.v 3) (.vec (.v 2)), .cvt none (.v 1) (.v 2) .f32ToF64, .cvt none (.v 2) (.v 1) .f64ToF32,
    .ld none none (.v 2) (.pair 1) .b32 false .glob none, .ld none none (.v 1) (.pair 2) .b64 false .glob none,
    .ld none none (.v 2) (.pair 4) .b128 false .glob none, .st none none (.v 2) (.pair 4) .b128 false .glob none,
    .st none none (.b 0) (.pair 4) .b64 false .glob none, .st none none .imm (.pair 4) .b32 false .glob none,
    .atom none none (.v 1) (.pair 4) .add true .glob none, .rndDraw none 4 1, .rndDrawseed none none 1 0,
    .rndVmarch none none 20 1 0].all (fun i : Instr => !i.wf) = true := by decide

/-- Ranges and spaces: shift and field widths (R358, R359), block counts (R338), spaces and sizes (R315), the operations of an
atomic (R391), scopes of a phase fence (R396), register ranges of the render units (R419). -/
theorem test_wf_ranges : [
    .lea none none (.v 2) (.v 4) (.vec (.v 3)) (some 33), .bfx none none (.v 2) (.v 4) (.vec (.v 3)) 0,
    .bfx none none (.v 2) (.v 4) (.vec (.v 3)) 33, .bfi none none (.v 2) (.v 4) (.vec (.v 3)) 0 (.v 5), .racq none 0,
    .rrel none 0, .sld none none (.s 1) (.s 2) .b128 false .glob none, .sst none none (.s 1) (.s 2) .b32 false .const none,
    .st none none (.v 2) (.pair 4) .b32 false .const none, .atom none none (.v 2) (.pair 4) .add false .priv none,
    .atom none none (.v 2) (.pair 4) .add false .const none, .atom none none (.v 2) (.pair 4) .fadd true .glob none,
    .atom none none .discard (.pair 4) .add false .glob none,
    .atomCas none none .discard (.pair 4) false .glob ⟨.v 1, false, .dev⟩,
    .fencePhase none .grp, .fencePhase none .team, .cachePrefetch none none false (.pair 4) false .tile,
    .cacheWb none none false (.pair 4) .const, .cacheDrop none none false (.pair 4) .win,
    .mxld none none 2 (.s 1) false .priv none, .mxst none none 239 (.s 1) false .glob (some ⟨.dev, .s 1⟩),
    .pop none .mov 1 2 3, .pop none .not 1 2 3, .rndTex none none 237 0 0, .rndTex none none 8 5 0,
    .rndTrace none none 0 4 0, .rndVmarch none none 8 0 0, .rndTexq none none 8 11 0].all (fun i : Instr => !i.wf) = true := by
  decide

/-! ### Words of the spec's encodings: every constructor that has a word, decoded and encoded -/

/-- The words decode to the instruction, with nothing left, and it encodes to the words. -/
def agree (ws : List Word32) (i : Instr) : Bool :=
  (match decode ws with
   | .ok (j, rest) => decide (j = i ∧ rest = [])
   | .error _ => false) && decide (encode i = ws) && i.wf


/-- Branches, calls, waits, exits (R304, R313, R328 to R331). -/
theorem test_words_control : [
    ([0x00000000], .nop none),
    ([0x02020023], .brU none 1 false (.near 1 3)),
    ([0x0313FFA7], .brUAny none 9 true (.near 0x7FD 7)),
    ([0xFE400000, 0xFFFFFF45, 0x030B0000], .brUAny none 5 true (.far 0xFFFFFF45)),
    ([0xFE000060, 0x04040040], .brD none 2 false 2 0 0x60),
    ([0x060000A0], .call none 0 false (.near 5 0)),
    ([0x08003E00], .brx none (.s 62)),
    ([0x09000500], .brxCall none (.s 5)),
    ([0x0A140000], .join none 20),
    ([0x0C000000], .yield none),
    ([0xFE000020, 0x0D000300], .yieldC none 3 32),
    ([0x2A0003E8], .sleep none 1000),
    ([0x0E000000], .exit none),
    ([0x0F000000], .exitSave none)].all (fun x => agree x.1 x.2) = true := by decide +kernel

/-- Regions, MODE, widths, barriers, traps and special registers (R332 to R342). -/
theorem test_words_groups : [
    ([0xFE400000, 0x00000003, 0x10010001], .rgn none 3 1 1),
    ([0x12000103], .modeImm none 0x103),
    ([0x13000700], .modeScalar none (.s 7)),
    ([0x14090000], .wsplit none (.s 9)),
    ([0x16090100], .wfuse none (.s 9) true),
    ([0xFE400000, 0x00000006, 0x18040A00], .lpc none (.s 4) 10 6),
    ([0x1A0F0000], .bar none 15),
    ([0x1B020000], .barClu none 2),
    ([0x1C00001D], .racq none 29),
    ([0x1E000001], .rrel none 1),
    ([0x200000FF], .trap none 0xFF),
    ([0x24000007], .brk none 7),
    ([0x22000000], .xret none),
    ([0x26050014], .srd none (.s 5) .clock),
    ([0x28070008], .swr none (.s 7) .xpc)].all (fun x => agree x.1 x.2) = true := by decide +kernel

/-- Scalar instructions (R313, R349 to R353); operand B is a register (F = 0) or a signed byte (F = 1). -/
theorem test_words_scalar : [
    ([0x30090405], .sadd none none (.s 9) (.s 4) (.reg (.s 5))),
    ([0x32090405], .ssub none none (.s 9) (.s 4) (.reg (.s 5))),
    ([0x34090405], .smul none none (.s 9) (.s 4) (.reg (.s 5))),
    ([0x36090405], .sand none none (.s 9) (.s 4) (.reg (.s 5))),
    ([0x38090405], .sor none none (.s 9) (.s 4) (.reg (.s 5))),
    ([0x3A090405], .sxor none none (.s 9) (.s 4) (.reg (.s 5))),
    ([0x3C090405], .sshl none none (.s 9) (.s 4) (.reg (.s 5))),
    ([0x3E090405], .sshr none none (.s 9) (.s 4) (.reg (.s 5))),
    ([0x40090405], .ssar none none (.s 9) (.s 4) (.reg (.s 5))),
    ([0x42090405], .smin none none (.s 9) (.s 4) (.reg (.s 5))),
    ([0x44090405], .smax none none (.s 9) (.s 4) (.reg (.s 5))),
    ([0x310505FF], .sadd none none (.s 5) (.s 5) (.byte 0xFF)),
    ([0xFE800000, 0x56789ABC, 0x00001234, 0x46090041], .smov none (some (.i64 0x123456789ABC)) (.s 9) (.reg .imm)),
    ([0x48030405], .scmpEq none none 3 (.s 4) (.reg (.s 5))),
    ([0x4A030405], .scmpNe none none 3 (.s 4) (.reg (.s 5))),
    ([0x4C030405], .scmpLt none none 3 (.s 4) (.reg (.s 5))),
    ([0x4E030405], .scmpLtu none none 3 (.s 4) (.reg (.s 5))),
    ([0x50030405], .scmpLe none none 3 (.s 4) (.reg (.s 5))),
    ([0x52030405], .scmpLeu none none 3 (.s 4) (.reg (.s 5))),
    ([0xFF080000, 0x55020728], .sbfx none none (.s 2) (.s 7) (.byte 40) 16),
    ([0x56090311], .vtos none (.s 9) (.v 3) (.num 17)),
    ([0x5740F506], .vtos none .discard .laneId (.sreg (.s 6)))].all (fun x => agree x.1 x.2) = true := by decide +kernel

/-- Vector integer instructions (R313, R354 to R361); operand B is a vector (F = 0) or a scalar broadcast (F = 1). -/
theorem test_words_vectorInteger : [
    ([0x60030102], .iadd none none (.v 3) (.v 1) (.vec (.v 2))),
    ([0x63030102], .isub none none (.v 3) (.v 1) (.sreg (.s 2))),
    ([0x64030102], .imul none none (.v 3) (.v 1) (.vec (.v 2))),
    ([0x67030102], .imulh none none (.v 3) (.v 1) (.sreg (.s 2))),
    ([0x68030102], .imulhu none none (.v 3) (.v 1) (.vec (.v 2))),
    ([0x6D030102], .vAnd none none (.v 3) (.v 1) (.sreg (.s 2))),
    ([0x6E030102], .vOr none none (.v 3) (.v 1) (.vec (.v 2))),
    ([0x71030102], .vXor none none (.v 3) (.v 1) (.sreg (.s 2))),
    ([0x72030102], .vAndn none none (.v 3) (.v 1) (.vec (.v 2))),
    ([0x75030102], .shl none none (.v 3) (.v 1) (.sreg (.s 2))),
    ([0x76030102], .shr none none (.v 3) (.v 1) (.vec (.v 2))),
    ([0x79030102], .sar none none (.v 3) (.v 1) (.sreg (.s 2))),
    ([0x7A030102], .rot none none (.v 3) (.v 1) (.vec (.v 2))),
    ([0x7D030102], .imin none none (.v 3) (.v 1) (.sreg (.s 2))),
    ([0x7E030102], .imax none none (.v 3) (.v 1) (.vec (.v 2))),
    ([0x81030102], .umin none none (.v 3) (.v 1) (.sreg (.s 2))),
    ([0x82030102], .umax none none (.v 3) (.v 1) (.vec (.v 2))),
    ([0xFEE40000, 0xFE000005, 0x600301F7], .iadd (some ⟨true, false, false, true, false, 0, 0, false, false, 0⟩) (some (.i22 5)) (.v 3) (.v 1) (.vec .imm)),
    ([0xFF000006, 0x6A080405], .imad none none (.v 8) (.v 4) (.vec (.v 5)) (some (.v 6))),
    ([0xFF000200, 0x84030102], .sel none none (.v 3) (.v 1) (.vec (.v 2)) 2),
    ([0xFF010000, 0x86040609], .lea none none (.v 4) (.v 6) (.vec (.v 9)) (some 2)),
    ([0x88FFF40A], .add64 none none .discard .zero (.vec (.v 10))),
    ([0xFF100000, 0x8B070203], .bfx none none (.v 7) (.v 2) (.sreg (.s 3)) 32),
    ([0xFF040005, 0xFE000008, 0x8C0702F7], .bfi none (some (.i22 8)) (.v 7) (.v 2) (.vec .imm) 8 (.v 5)),
    ([0x8EEF00F0], .mov none none (.v 239) (.vec (.b 0)))].all (fun x => agree x.1 x.2) = true := by decide +kernel

/-- Integer compares, iun, cross-lane, predicates, packing and MX quantisation (R360, R361, R371 to R379). -/
theorem test_words_vectorCompare : [
    ([0x90050102], .icmpEq none none 5 (.v 1) (.vec (.v 2))),
    ([0x92050102], .icmpNe none none 5 (.v 1) (.vec (.v 2))),
    ([0x94050102], .icmpLt none none 5 (.v 1) (.vec (.v 2))),
    ([0x96050102], .icmpLe none none 5 (.v 1) (.vec (.v 2))),
    ([0xFE000064, 0x980501F7], .icmpLtu none (some (.i22 100)) 5 (.v 1) (.vec .imm)),
    ([0x9B7F0102], .icmpLeu none none 127 (.v 1) (.sreg (.s 2))),
    ([0x9C05F602], .itest none none 5 .ones (.vec (.v 2))),
    ([0xA0020903], .iun none (.v 2) (.v 9) .clz),
    ([0xA002090A], .iun none (.v 2) (.v 9) .zext16),
    ([0xCA060203], .pack none none (.v 6) (.v 2) (.vec (.v 3))),
    ([0xCD060440], .unpack none none (.v 6) (.v 4) (.sreg .zero)),
    ([0xFF00000B, 0xFE000005, 0xCE0A02F7], .mxq none (some (.i22 5)) (.v 10) (.v 2) .imm (some 11)),
    ([0xFF00000B, 0xFE000005, 0xD00C0AF7], .mxdq none (some (.i22 5)) (.v 12) (.v 10) .imm (some 11)),
    ([0xD2070309], .shfl none none (.v 7) (.v 3) (.v 9)),
    ([0xD3070304], .shflXor none none (.v 7) (.v 3) (.s 4)),
    ([0xD4060402], .vote none (.ballot (.v 6)) 4),
    ([0xD4060401], .vote none (.all 6) 4),
    ([0xD6060408], .red none (.v 6) (.v 4) .fadd),
    ([0xD8060403], .scan none (.v 6) (.v 4) .umin),
    ([0xDA038102], .pop none .xor 3 1 2),
    ([0xDB070780], .pop none .not 7 7 0)].all (fun x => agree x.1 x.2) = true := by decide +kernel

/-- Floating point and conversion (R294, R362 to R370). -/
theorem test_words_float : [
    ([0xFE400000, 0x3F800000, 0xA20303F7], .fadd none (some (.i32 0x3F800000)) (.v 3) (.v 3) (.vec .imm)),
    ([0xA4030102], .fsub none none (.v 3) (.v 1) (.vec (.v 2))),
    ([0xA7030102], .fmul none none (.v 3) (.v 1) (.sreg (.s 2))),
    ([0xFED00400, 0xFF000006, 0xA8080405], .ffma (some ⟨false, true, false, false, false, 0, 2, false, false, 0⟩) none (.v 8) (.v 4) (.vec (.v 5)) (some (.v 6))),
    ([0xFEE84183, 0xAA030102], .fmin (some ⟨true, false, true, false, false, 1, 0, true, true, 3⟩) none (.v 3) (.v 1) (.vec (.v 2))),
    ([0xAC030102], .fmax none none (.v 3) (.v 1) (.vec (.v 2))),
    ([0xAE030102], .fdot2 none none (.v 3) (.v 1) (.vec (.v 2)) none),
    ([0xB0050102], .fcmpEq none none 5 (.v 1) (.vec (.v 2))),
    ([0xB2050102], .fcmpNe none none 5 (.v 1) (.vec (.v 2))),
    ([0xB4050102], .fcmpLt none none 5 (.v 1) (.vec (.v 2))),
    ([0xB6050102], .fcmpLe none none 5 (.v 1) (.vec (.v 2))),
    ([0xB8050102], .fcmpUn none none 5 (.v 1) (.vec (.v 2))),
    ([0xBA030100], .fclass none (.v 3) (.v 1)),
    ([0xBC040202], .funop none (.v 4) (.v 2) .rcp),
    ([0xBC04020C], .funop none (.v 4) (.v 2) .rint),
    ([0xBE040608], .dadd none none (.v 4) (.v 6) (.vec (.v 8))),
    ([0xC1040608], .dmul none none (.v 4) (.v 6) (.sreg (.s 8))),
    ([0xFF000006, 0xC20A0204], .dfma none none (.v 10) (.v 2) (.vec (.v 4)) (some (.v 6))),
    ([0xC4050608], .dcmpLt none none 5 (.v 6) (.vec (.v 8))),
    ([0xC6050608], .dcmpEq none none 5 (.v 6) (.vec (.v 8))),
    ([0xC8030410], .cvt none (.v 3) (.v 4) .f64ToF32),
    ([0xC803040A], .cvt none (.v 3) (.v 4) .e2m1ToF32)].all (fun x => agree x.1 x.2) = true := by decide +kernel

/-- Loads, stores, atomics, leases, fences, cache operations, waits and MX blocks (R315, R380 to R402). -/
theorem test_words_memory : [
    ([0x5A0600A0], .sld none none (.s 6) (.s 0) .b64 false .glob none),
    ([0x5C080680], .sst none none (.s 8) (.s 6) .b32 false .glob none),
    ([0xE1020680], .ld none none (.v 2) (.sreg 6) .b32 false .glob none),
    ([0xFF028000, 0xFE3FFFFC, 0xE00804C9], .ld none (some (.i22 0x3FFFFC)) (.v 8) (.pair 4) .b128 true .tile (some .sys)),
    ([0xFF000700, 0xE4080424], .ldNf none none (.v 8) (.pair 4) .s8 .const 7),
    ([0xE3030780], .st none none (.v 3) (.sreg 7) .b32 false .glob none),
    ([0xE2F4044B], .st none none .zero (.pair 4) .u16 true .priv none),
    ([0xE6080400], .atom none none (.v 8) (.pair 4) .add false .glob none),
    ([0xFF05800C, 0xE7FF0489], .atom none none .discard (.sreg 4) .exch true .tile (some ⟨.v 12, true, .die⟩)),
    ([0xFF00000C, 0xE808040A], .atomCas none none (.v 8) (.pair 4) true .win ⟨.v 12, false, .grp⟩),
    ([0xEA000400], .lease none none false (.s 4)),
    ([0xFF000600, 0xEB000000], .leaseEnd none 6),
    ([0xEC000008], .fence none .team),
    ([0xEC000021], .fencePhase none .dev),
    ([0xEC01040A], .xfence none .team 1 4),
    ([0xEC020122], .xfence none .dev 2 1),
    ([0xEE010604], .cachePrefetch none none false (.pair 6) true .const),
    ([0xEE010620], .cachePagereq none none false (.pair 6) true false),
    ([0xEF000643], .cacheWb none none false (.sreg 6) .priv),
    ([0xEE000660], .cacheDrop none none false (.pair 6) .glob),
    ([0xEE050680], .cacheResq none none false (.pair 6) 5),
    ([0xF0090700], .wwait none none (.s 9) (.s 7) 0 false .eq none),
    ([0xFF02830B, 0xF00908A0], .wwait none none (.s 9) (.s 8) 10 false .eq (some ⟨.sys, 3, .s 11⟩)),
    ([0xFF000007, 0xF31406C0], .mxld none none 20 (.s 6) false .glob (some ⟨.grp, .s 7⟩)),
    ([0xF50804C8], .mxst none none 8 (.s 4) true .glob none)].all (fun x => agree x.1 x.2) = true := by decide +kernel

/-- Queue registers, matrix, engines, render units and replay records (R405, R411, R413, R418, R429). -/
theorem test_words_engines : [
    ([0xF6080000], .qPush none 0 (.s (.s 8))),
    ([0xF7140007], .qPush none 7 (.v 20)),
    ([0xF60C0021], .qPop none (.s (.s 12)) 1),
    ([0xF7140027], .qPop none (.v 20) 7),
    ([0xF60C0041], .qPeek none (.s (.s 12)) 1),
    ([0xF60D0061], .qStat none (.s 13) 1),
    ([0xF6060085], .qBind none 5 6),
    ([0xF8000400], .mma none 4),
    ([0xF9000400], .mmaAcc none 4),
    ([0xFA001400], .engErd none 0 20),
    ([0xFA011420], .engEwr none 1 20),
    ([0xFA000040], .engEresume none 0),
    ([0xFC080406], .rndTex none none 8 4 6),
    ([0xFC080226], .rndTexq none none 8 2 6),
    ([0xFC100045], .rndTrace none none 16 0 5),
    ([0xFC100065], .rndTracec none none 16 0 5),
    ([0xFC180087], .rndVmarch none none 24 0 7),
    ([0xFC0A0BAC], .rndMshemit none none 10 11 12),
    ([0xFC0308C0], .rndDraw none 3 8),
    ([0xFD0308C7], .rndDrawTab none none 3 8 7),
    ([0xFC0800E2], .rndDrawseed none none 8 2),
    ([0xDC100003], .rrRead none 2 (.num 3)),
    ([0xDD100900], .rrRead none 2 (.sreg 9)),
    ([0xDC100023], .rrWrite none 2 (.num 3)),
    ([0xDC000042], .rrRetire none (.num 2)),
    ([0xDD000940], .rrRetire none (.sreg 9))].all (fun x => agree x.1 x.2) = true := by decide +kernel

/-! ### Small states and how a test speaks of them -/

/-- The split of the one group of `probe` stands at slot 0 of its line. -/
def focus0 : Focus := { group := 0, entry := 0, pc := 0x10010, word := 0x10010, next := 0x10014, nextFall := false }

/-- One team of one group of 32 lanes on core 0, every register 0. -/
def probe : State := { State.reset.withFetchWord 32 0 with focus := some focus0 }

def onGroup (f : Group → Group) (s : State) : State := { s with groups := s.groups.map fun x => (x.1, f x.2) }
def onTeam (f : Team → Team) (s : State) : State := { s with teams := s.teams.map fun x => (x.1, f x.2) }
def onCore (f : Core → Core) (s : State) : State := { s with cores := s.cores.map fun x => (x.1, f x.2) }
def onDev (f : Dev → Dev) (s : State) : State := { s with dev := f s.dev }
def onEntries (f : Entry → Entry) (s : State) : State :=
  onGroup (fun g => { g with entries := g.entries.map fun x => (x.1, f x.2) }) s
def atClock (n : Nat) (s : State) : State := { s with dies := [(0, { dieAt s 0 with clock := n })] }
def sregs (l : Tbl Word64) (s : State) : State := onGroup (fun g => { g with s := l }) s
def pregs (l : Tbl Mask) (s : State) : State := onGroup (fun g => { g with p := l }) s

/-- Lanes 0 to 31 or 0 to 63 hold f of their number. -/
def rowOf (f : Nat → Nat) : Row := (upTo 0 64).map fun l => BitVec.ofNat 32 (f l)

/-- The group at another width, with every lane live. -/
def wide (w : Nat) (s : State) : State :=
  onGroup (fun g => { g with width := w, live := allLanes w, entries := g.entries.map fun x => (x.1, { x.2 with mask := allLanes w }) }) s

def groupOf (s : State) : Group := Tbl.getD s.groups 0 (Group.start 0 0 32 0 0 0 0 (probeTeam 1) 0)
def teamOf (s : State) : Team := Tbl.getD s.teams (groupOf s).team (probeTeam 1)
def entryOf (s : State) : Entry :=
  Tbl.getD (groupOf s).entries 0 { pc := 0, via := .seq, src := 0, mask := 0, mode := 0, join := 0, jseq := 0, wait := .run, run := none }

/-- The state after an instruction, or the state itself where it answers none. -/
def after (i : Instr) (s : State) : State :=
  match exec i s with
  | .next t => t
  | _ => s

/-- A split stands to execute the instruction, past every check at issue, and its context passes p. -/
def meets (i : Instr) (s : State) (p : Ctx → Bool) : Bool :=
  match ctxOf s (instrMod i) with
  | some c => (issueCheck i c (never c)).isNone && p c
  | none => false

/-- Every instruction of the list stands to execute in a context of which P holds. -/
def Meets (l : List Instr) (s : State) (P : Ctx → Prop) : Prop := ∀ i ∈ l, ∃ c, Executes i never s c ∧ P c

theorem meets_of {l : List Instr} {s : State} {P : Ctx → Prop} (p : Ctx → Bool)
    (h : (l.all fun i => meets i s p) = true) (hp : ∀ c, p c = true → P c) : Meets l s P := by
  intro i hi
  have h := List.all_eq_true.mp h i hi
  unfold meets at h
  split at h
  · rename_i c hc
    simp only [Bool.and_eq_true, Option.isNone_iff_eq_none] at h
    exact ⟨c, ⟨hc, h.1⟩, hp c h.2⟩
  · cases h

theorem meets_dec {l : List Instr} {s : State} {P : Ctx → Prop} [DecidablePred P]
    (h : (l.all fun i => meets i s fun c => decide (P c)) = true) : Meets l s P :=
  meets_of _ h fun _ => of_decide_eq_true

/-! ### Witnesses: scalar and vector instructions -/

theorem witness_ScalarArithmetic : Meets [
    .sadd none none (.s 63) (.s 0) (.byte 0xFF), .ssub none none .discard .zero (.reg (.s 63)),
    .smul none (some (.i22 1)) (.s 1) .imm (.reg (.s 2)), .sand none none (.s 1) (.s 2) (.byte 1),
    .sor none none (.s 1) (.s 2) (.byte 1), .sxor none none (.s 1) (.s 2) (.byte 1), .sshl none none (.s 1) (.s 2) (.byte 64),
    .sshr none none (.s 1) (.s 2) (.byte 64), .ssar none none (.s 1) (.s 2) (.byte 64), .smin none none (.s 1) (.s 2) (.byte 1),
    .smax none none (.s 1) (.s 2) (.byte 1), .smov none none (.s 1) (.byte 1), .sbfx none none (.s 1) (.s 2) (.byte 1) 0,
    .sbfx none none (.s 1) (.s 2) (.byte 1) 63, .vtos none (.s 1) (.v 2) (.sreg (.s 3))] probe GuardPasses :=
  meets_dec (by decide +kernel)

/-- The last lane that vtos may name, in the widest group and the narrowest. -/
theorem witness_ScalarArithmetic_vtos :
    Meets [.vtos none (.s 1) (.v 2) (.num 63)] (wide 64 probe) (fun c => GuardPasses c ∧ (63 : BitVec 8).toNat < c.g.width) ∧
    Meets [.vtos none (.s 1) (.v 2) (.num 15)] (wide 16 probe) (fun c => GuardPasses c ∧ (15 : BitVec 8).toNat < c.g.width) :=
  ⟨meets_dec (by decide +kernel), meets_dec (by decide +kernel)⟩

theorem witness_ScalarCompare : Meets [
    .scmpEq none none 0 (.s 1) (.byte 0), .scmpNe none none 127 (.s 1) (.byte 0), .scmpLt none none 1 (.s 1) (.byte 0),
    .scmpLtu none none 1 (.s 1) (.byte 0), .scmpLe none none 1 (.s 1) (.byte 0), .scmpLeu none none 1 (.s 1) (.byte 0)]
    probe GuardPasses := meets_dec (by decide +kernel)

theorem witness_VectorInteger : Meets [
    .iadd (some ⟨true, false, false, true, false, 0, 0, false, false, 0⟩) none (.v 239) (.v 0) (.sreg (.s 1)),
    .isub none none .discard .ones (.vec .laneId), .imul none none (.v 1) (.v 2) (.vec (.v 3)),
    .imulh none none (.v 1) (.v 2) (.vec (.v 3)), .imulhu none none (.v 1) (.v 2) (.vec (.v 3)),
    .vAnd none none (.v 1) (.v 2) (.vec (.v 3)), .vOr none none (.v 1) (.v 2) (.vec (.v 3)),
    .vXor none none (.v 1) (.v 2) (.vec (.v 3)), .vAndn none none (.v 1) (.v 2) (.vec (.v 3)),
    .shl none none (.v 1) (.v 2) (.vec (.v 3)), .shr none none (.v 1) (.v 2) (.vec (.v 3)),
    .sar none none (.v 1) (.v 2) (.vec (.v 3)), .rot none none (.v 1) (.v 2) (.vec (.v 3)),
    .imin none none (.v 1) (.v 2) (.vec (.v 3)), .imax none none (.v 1) (.v 2) (.vec (.v 3)),
    .umin none none (.v 1) (.v 2) (.vec (.v 3)), .umax none none (.v 1) (.v 2) (.vec (.v 3)),
    .mov none none (.v 1) (.vec (.v 3)), .imad none none (.v 1) (.v 2) (.vec (.v 3)) none,
    .sel none none (.v 1) (.v 2) (.vec (.v 3)) 0, .pack none none (.v 1) (.v 2) (.vec (.v 3)),
    .unpack none none (.v 1) (.v 2) (.vec (.v 3))] (onGroup (fun g => { g with extBlk := 14 }) probe) (fun _ => True) := meets_dec (by decide +kernel)

theorem witness_IntegerUnary : Meets
    (([.abs, .neg, .not, .clz, .ctz, .popc, .brev, .sext8, .sext16, .zext8, .zext16] : List IunOp).map fun op => Instr.iun none (.v 1) (.v 2) op)
    probe (fun _ => True) := meets_dec (by decide +kernel)

theorem witness_PairsAndFields : (1 ≤ (1 : BitVec 6).toNat ∧ (32 : BitVec 6).toNat ≤ 32) ∧ Meets [
    .lea none none (.v 2) (.v 4) (.vec (.v 7)) (some 32), .lea none none .discard .ones (.vec (.v 7)) none,
    .add64 none none (.v 238) (.v 4) (.sreg (.s 3)), .bfx none none (.v 1) (.v 2) (.vec (.v 3)) 1,
    .bfx none none (.v 1) (.v 2) (.vec (.v 3)) 32, .bfi none none (.v 1) (.v 2) (.vec (.v 3)) 32 (.v 4),
    .bfi none none (.v 1) (.v 2) (.vec (.v 3)) 1 (.v 4)] (onGroup (fun g => { g with extBlk := 14 }) probe) (fun _ => True) := ⟨by decide, meets_dec (by decide +kernel)⟩

theorem witness_CompareAndPredicate : Meets
    (([.icmpEq none none 0 (.v 1) (.vec (.v 2)), .icmpNe none none 127 (.v 1) (.vec (.v 2)),
      .icmpLt none none 1 (.v 1) (.vec (.v 2)), .icmpLe none none 1 (.v 1) (.vec (.v 2)),
      .icmpLtu none none 1 (.v 1) (.vec (.v 2)), .icmpLeu none none 1 (.v 1) (.vec (.v 2)),
      .itest none none 1 (.v 1) (.vec (.v 2))] : List Instr) ++
     ([.and, .or, .xor, .andn, .orn, .nand, .nor, .xnor] : List PopOp).map (fun op => Instr.pop none op 1 2 3) ++
     ([.mov, .not] : List PopOp).map fun op => Instr.pop none op 1 2 0) probe (fun _ => True) := meets_dec (by decide +kernel)

theorem witness_FloatArithmetic : Meets
    (([.fadd none none (.v 1) (.v 2) (.vec (.v 3)), .fsub none none (.v 1) (.v 2) (.vec (.v 3)),
      .fmul none none (.v 1) (.v 2) (.vec (.v 3)), .fmin none none (.v 1) (.v 2) (.vec (.v 3)),
      .fmax none none (.v 1) (.v 2) (.vec (.v 3)), .ffma none none (.v 1) (.v 2) (.vec (.v 3)) none,
      .fclass none (.v 1) (.v 2)] : List Instr) ++
     ([.abs, .neg, .rcp, .rsq, .sqrt, .exp2, .log2, .sinpi, .cospi, .floor, .ceil, .trunc, .rint] : List FunOp).map
       fun op => Instr.funop none (.v 1) (.v 2) op) probe (fun c => c.eff.et = 0) := meets_dec (by decide +kernel)

/-- fdot2, and the minors of fun that every element type has, for two elements a lane. -/
theorem witness_FloatArithmetic_pairs : Meets
    (([.fdot2 (some ⟨false, true, false, false, false, 0, 1, false, false, 0⟩) none (.v 1) (.v 2) (.vec (.v 3)) none] : List Instr) ++
     ([.abs, .neg, .floor, .ceil, .trunc, .rint] : List FunOp).map
       fun op => Instr.funop (some ⟨false, true, false, false, false, 0, 2, false, false, 0⟩) (.v 1) (.v 2) op)
    probe (fun c => c.eff.et ≠ 0) := meets_dec (by decide +kernel)

theorem witness_DoubleArithmetic : Meets [
    .dadd none none (.v 2) (.v 4) (.vec (.v 6)), .dmul none none .discard (.v 4) (.sreg (.s 6)),
    .dfma none none (.v 2) (.v 4) (.vec (.v 6)) (some (.v 8)), .dfma none none (.v 2) (.v 4) (.vec (.v 6)) none]
    probe (fun _ => True) := meets_dec (by decide +kernel)

theorem witness_FloatCompare : Meets [
    .fcmpEq none none 1 (.v 1) (.vec (.v 2)), .fcmpNe none none 1 (.v 1) (.vec (.v 2)), .fcmpLt none none 1 (.v 1) (.vec (.v 2)),
    .fcmpLe none none 1 (.v 1) (.vec (.v 2)), .fcmpUn none none 1 (.v 1) (.vec (.v 2)), .dcmpLt none none 1 (.v 2) (.vec (.v 4)),
    .dcmpEq none none 1 (.v 2) (.vec (.v 4))] probe (fun _ => True) := meets_dec (by decide +kernel)

/-- Every conversion code, and each format of mxq and mxdq; then an illegal format, and width 16. -/
theorem witness_Conversions :
    Meets (([.f32ToF16, .f32ToBf16, .f32ToE4m3, .f32ToE5m2, .f32ToE2m1, .f16ToF32, .bf16ToF32, .e4m3ToF32, .e5m2ToF32, .e2m1ToF32,
      .f32ToI32, .f32ToU32, .i32ToF32, .u32ToF32, .f32ToF64, .f64ToF32, .i32ToF64, .f64ToI32, .f32ToI32Trunc, .i32ToI16, .i32ToI8,
      .u32ToU16, .u32ToU8, .i64ToI32] : List CvtOp).map fun op => Instr.cvt none (.v 2) (.v 4) op) probe (fun _ => True) ∧
    (cvtWide .f32ToF64 = true ∧ cvtWide .f64ToF32 = false) ∧
    (∀ f ∈ [2, 3, 5], Meets [.mxq none (some (.i22 f)) (.v 1) (.v 2) .imm none, .mxq none (some (.i22 f)) (.v 1) (.v 2) .imm (some 3),
      .mxdq none (some (.i22 f)) (.v 1) (.v 2) .imm none, .mxdq none (some (.i22 f)) (.v 1) (.v 2) .imm (some 3)] probe
      (fun c => (mxFormat (fmtValue c.g .imm (some (.i22 f)))).isSome = true ∧ c.g.width ≠ 16)) ∧
    Meets [.mxq none (some (.i22 1)) (.v 1) (.v 2) .imm none, .mxdq none (some (.i22 1)) (.v 1) (.v 2) .imm none] probe
      (fun c => (HandlerReady c.t c.g ∧ NoLease probe c.k c.g ∧ c.g.ending = false) ∧ c.g.width ≠ 16 ∧
        mxFormat (fmtValue c.g .imm (some (.i22 1))) = none) ∧
    Meets [.mxq none (some (.i22 2)) (.v 1) (.v 2) .imm none] (wide 16 probe)
      (fun c => (HandlerReady c.t c.g ∧ NoLease (wide 16 probe) c.k c.g ∧ c.g.ending = false) ∧ c.g.width = 16) ∧
    (hasLane 0xFF 7 = true ∧ (readOperand fp32 ⟨0, false, false⟩ 0x7FC00000).isNan = true ∧
      (readOperand fp32 ⟨0, false, false⟩ 0x7F800000).isInf = true ∧
      ∃ sg e, readOperand fp32 ⟨0, false, false⟩ 0 = .fin sg 0 e) := by
  refine ⟨meets_dec (by decide +kernel), by decide, fun f hf => ?_, meets_dec (by decide +kernel), meets_dec (by decide +kernel),
    by decide, by decide, by decide, _, _, rfl⟩
  simp only [List.mem_cons, List.not_mem_nil, or_false] at hf
  rcases hf with rfl | rfl | rfl <;> exact meets_dec (by decide +kernel)

theorem witness_CrossLane : Meets
    (([.shfl none none (.v 1) (.v 2) (.v 3), .shfl none (some (.i22 5)) (.v 1) .laneId .imm, .shflXor none none (.v 1) (.v 2) (.s 3),
      .vote none (.any 1) 2, .vote none (.all 1) 0, .vote none (.ballot (.v 1)) 2, .vote none (.count (.v 1)) 2] : List Instr) ++
     ([.add, .min, .max, .umin, .umax, .and, .or, .xor, .fadd] : List RedOp).flatMap fun op => [Instr.red none (.v 1) (.v 2) op, .scan none (.v 1) (.v 2) op])
    probe (fun c => c.g.width ≠ 64) ∧
    Meets [.vote none (.ballot (.v 6)) 2] (wide 64 probe)
      (fun c => c.g.width = 64 ∧ (6 : Fin 240).val % 2 = 0 ∧ (6 : Fin 240).val + 1 < 8 * c.g.blocks) ∧
    (lanesOf 4 = [2] ∧ lanesOf 7 = [0, 1] ++ [2] ∧ lanesOf 3 = [0, 1]) :=
  ⟨meets_dec (by decide +kernel), meets_dec (by decide +kernel), by decide +kernel⟩

/-! ### Witnesses: control flow, traps and special registers -/

theorem witness_Branches : Meets [
    .brU none 0 false (.near 0x7FF 27), .brU none 1 true (.far 0xFFFFFF45), .brUAny none 127 false (.near 0 31),
    .call none 0 false (.near 5 0), .call none 1 false (.far 0x12345), .brx none (.s 62), .brxCall none .zero] probe GuardPasses :=
  meets_dec (by decide +kernel)

/-- No lane taken, every lane taken, and some: a free entry and a fresh number stand ready. -/
theorem witness_Divergence :
    Meets [.brD none 0 true 3 7 0x20] probe (fun c => c.act &&& testMask c.g 0 true = 0) ∧
    Meets [.brD none 0 false 3 7 0x20] probe
      (fun c => c.act &&& testMask c.g 0 false ≠ 0 ∧ c.act &&& testMask c.g 0 false = c.act) ∧
    Meets [.brD none 5 false 3 7 0x20] (pregs [(5, 0x80000001)] probe) (fun c => c.e.join = 0 ∧
      c.act &&& testMask c.g 5 false ≠ 0 ∧ c.act &&& testMask c.g 5 false ≠ c.act ∧ c.g.firstFree = some 1 ∧
      (freshSeq (stackOf c.t c.g) ((payloadTarget c.f 0x20).1.setWidth 48) c.g.bseq 64).isSome = true) :=
  ⟨meets_dec (by decide +kernel), meets_dec (by decide +kernel), meets_dec (by decide +kernel)⟩

/-- Two splits of one binding: the one in entry 0 has arrived and waits till cycle 5, the one in entry 1 stands at the join. -/
def joining : State :=
  { onGroup (fun g =>
      let e : Entry := { entryOf probe with pc := 0x10010, join := 0x10010, jseq := 3 }
      { g with entries := [(0, { e with mask := 0xFFFF0000, wait := .join 0x10014 (some 5) 0 }), (1, { e with mask := 0xFFFF })] })
      probe with focus := some { focus0 with entry := 1 } }

/-- The other entry of the binding has not come. -/
def comingLater : State := onEntries (fun e => { e with wait := .run }) joining

theorem witness_Joining :
    Meets [.join none 20] probe (fun c => GuardPasses c ∧ c.e.join = 0) ∧
    Meets [.join none 0] (onEntries (fun e => { e with join := 0x20000 }) joining) (fun c => GuardPasses c ∧
      ∀ b ∈ chain (stackOf c.t c.g).recs c.e.binding 8, b.1 ≠ c.f.pc.setWidth 48) ∧
    (∀ s ∈ [joining, comingLater], Meets [.join none 0] s (fun c => GuardPasses c ∧
      (arrivesAt (stackOf c.t c.g) c.e (c.f.pc.setWidth 48)).isSome = true ∧ recFits (stackOf c.t c.g).top c.g.depth = true)) ∧
    Meets [.join none 0] joining (fun c => GuardPasses c ∧ c.e.join = c.f.pc.setWidth 48 ∧ c.f.pc.setWidth 48 ≠ (0 : BitVec 48) ∧
      c.g.depth = 0 ∧ c.g.hnd = false ∧ Tbl.wf c.g.entries = true ∧
      (∀ y ∈ c.g.entries, y.1 ≠ c.n → y.2.binding = c.e.binding ∧ y.2.wait.estate = 1) ∧ c.g.entries.head?.isSome = true) ∧
    Meets [.join none 7] comingLater (fun c => GuardPasses c ∧ c.e.join = c.f.pc.setWidth 48 ∧
      c.f.pc.setWidth 48 ≠ (0 : BitVec 48) ∧ c.g.depth = 0 ∧ c.g.hnd = false ∧
      (∀ y ∈ c.g.entries, y.1 ≠ c.n → y.2.wait.estate ≠ 1) ∧ ∃ y ∈ c.g.entries, y.1 ≠ c.n ∧ y.2.binding = c.e.binding) ∧
    (let s := atClock 6 (onGroup (fun g => { g with entries := [(2, entryOf joining)] }) joining)
     let g := groupOf s
     Tbl.find? s.groups 0 = some g ∧ Tbl.find? s.teams g.team = some (teamOf s) ∧ g.entries = [(2, entryOf joining)] ∧
       (entryOf joining).wait = .join 0x10014 (some 5) 0 ∧ 5 < clockAt s (dieOf (keyCore 0)) ∧ g.depth = 0 ∧ g.hnd = false) := by
  refine ⟨meets_dec (by decide +kernel), meets_of
      (fun c => decide (GuardPasses c) && (chain (stackOf c.t c.g).recs c.e.binding 8).all (·.1 != c.f.pc.setWidth 48))
      (by decide +kernel) (fun c h => by simpa using h), fun s h => ?_, meets_dec (by decide +kernel),
    meets_dec (by decide +kernel), by decide +kernel⟩
  simp only [List.mem_cons, List.not_mem_nil, or_false] at h
  rcases h with rfl | rfl <;> exact meets_dec (by decide +kernel)

theorem witness_Waiting :
    Meets [.yield none, .sleep none 0, .sleep none 0xFFFF] probe GuardPasses ∧
    Meets [.yieldC none 2 0x20] (onGroup (fun g => { g with q := [(2, { port := 6, entries := [], retained := [] })] }) probe)
      (fun c => GuardPasses c ∧ (c.g.qreg 2).port ≠ 0 ∧ (c.g.qreg 2).port ≠ 1 ∧ (c.g.qreg 2).port ≠ 3) ∧
    (let s := onEntries (fun e => { e with wait := .sleep 0 }) probe
     Tbl.find? s.groups 0 = some (groupOf s) ∧ Tbl.find? (groupOf s).entries 0 = some (entryOf s) ∧ (entryOf s).wait = .sleep 0) :=
  ⟨meets_dec (by decide +kernel), meets_dec (by decide +kernel), by decide +kernel⟩

/-- A packet that launches, of queue 0. -/
def packet0 : Packet :=
  { queue := 0, index := 0, words := [], phase := 1, start := 0, kernel := none, asid := 0, nextTeam := 1,
    endTeam := 1, running := 1, restarts := [], watches := [], latched := [], cmds := [], quota := 0, pg := none }

theorem witness_ExitLanes :
    Meets [.exit (some ⟨false, false, true, false, false, 0, 0, true, false, 5⟩)] (pregs [(5, 1)] probe)
      (fun c => c.g.entries = [(c.n, c.e)] ∧ c.g.depth = 0 ∧ c.g.hnd = false ∧ c.e.mask &&& ~~~c.act ≠ 0 ∧
        c.g.live &&& ~~~c.act ≠ 0) ∧
    Meets [.exit none] probe (fun c => c.g.entries = [(c.n, c.e)] ∧ c.g.depth = 0 ∧ c.g.hnd = false ∧ c.e.mask &&& ~~~c.act = 0 ∧
      c.g.live &&& ~~~c.act = 0 ∧ c.g.rr = [] ∧ c.g.overflow = [] ∧ c.g.suspended = [] ∧ c.g.leases = [] ∧ c.t.groups = [c.k] ∧
      c.t.clt = 0 ∧ c.t.preempting = false) ∧
    (let s := onDev (fun d => { d with packets := [packet0] }) (onTeam (fun t => { t with preempting := true })
       (onGroup (fun g => { g with hnd := true, xcause := cPreempt }) probe))
     modIllegal none = false ∧ Meets [.exitSave none] s (fun c => c.g.hnd = true ∧ c.g.xcause = cPreempt ∧
       c.g.entries = [(c.n, c.e)] ∧ c.e.wait = .run ∧ c.g.suspended = [] ∧ c.g.leases = [] ∧ c.t.groups = [c.k] ∧ c.t.clt = 0 ∧
       c.t.preempting = true ∧ packetAt s.dev c.t.queue c.t.packet = some packet0 ∧ packet0.phase = 1)) :=
  ⟨meets_dec (by decide +kernel), meets_dec (by decide +kernel), by decide, meets_dec (by decide +kernel)⟩

theorem witness_RegionAndMode :
    Meets [.rgn none 0 0 0, .rgn none 0x3FFFFFFF 0xFF 0xFFFF] (onGroup (fun g => { g with extBlk := 14 }) probe) (fun c => GroupGuardPasses c ∧ 0x3FFFFFFF < 2 ^ c.g.blocks) ∧
    Meets [.modeImm none 0x60000] probe (fun c => GuardPasses c ∧ modeWritable ((0x60000 : BitVec 24).setWidth 64) = true) ∧
    Meets [.modeScalar none (.s 4)] (sregs [(4, 0x7C3FF)] probe)
      (fun c => GuardPasses c ∧ modeWritable (c.g.ssrc (.s 4) none) = false) ∧
    Meets [.modeScalar none (.s 4)] (sregs [(4, 0x6C1FF)] probe)
      (fun c => GuardPasses c ∧ modeWritable (c.g.ssrc (.s 4) none) = true) :=
  ⟨meets_dec (by decide +kernel), meets_dec (by decide +kernel), meets_dec (by decide +kernel), meets_dec (by decide +kernel)⟩

/-- Two groups of width w in one team, keys 0 and j; the second has the state f gives it. -/
def halves (w j : Nat) (f : Group → Group) : State :=
  let s := wide w (onTeam (fun t => { t with groups := [0, j] }) probe)
  { s with groups := [(0, groupOf s), (j, f { groupOf s with index := 1 })] }

/-- The group waits to be fused from the same place, till cycle 100. -/
def fusing (g : Group) : Group :=
  { g with entries := g.entries.map fun x => (x.1, { x.2 with pc := 0x10010, wait := .wfuse false (some 5) 100 0x10014 }) }

theorem witness_WidthChange_split : Meets [.wsplit none (.s 9)] probe (fun c => GroupGuardPasses c ∧ splitRefused c.g = false ∧
    c.g.idle = true ∧ c.g.live &&& allLanes (c.g.width / 2) ≠ 0 ∧
    (c.g.live >>> (c.g.width / 2)) &&& allLanes (c.g.width / 2) ≠ 0) := meets_dec (by decide +kernel)

theorem witness_WidthChange_fuse :
    Meets [.wfuse none (.s 9) false] (wide 16 probe) (fun c => GroupGuardPasses c ∧ c.g.width ≠ 64 ∧ c.g.idle = true ∧
      partnerOf (wide 16 probe) c.k c.g false = none) ∧
    Meets [.wfuse none (.s 9) false] (halves 16 1 id) (fun c => GroupGuardPasses c ∧ c.g.width ≠ 64 ∧ c.g.idle = true ∧
      (partnerOf (halves 16 1 id) c.k c.g false).any (fun h => (h.entries.find? fun x => waitsFuse x.2) = none) = true) ∧
    Meets [.wfuse none (.s 9) false] (halves 16 1 fusing) (fun c => GroupGuardPasses c ∧ c.g.width ≠ 64 ∧ c.g.idle = true ∧
      (partnerOf (halves 16 1 fusing) c.k c.g false).any (fun h => ((h.entries.find? fun x => waitsFuse x.2).any fun x =>
        fuseCode c.g h c.f.pc x.2.pc c.e x.2 == 0) && h.leases.isEmpty) = true ∧
      c.g.leases = [] ∧ c.t.arrivals = [] ∧ c.t.cluArrivals = [] ∧ c.t.clt = 0) ∧
    (let s := atClock 100 (onGroup fusing (wide 16 probe))
     Tbl.find? s.groups 0 = some (groupOf s) ∧ (groupOf s).entries.find? (fun x => waitsFuse x.2) = some (0, entryOf s) ∧
       (entryOf s).wait = .wfuse false (some 5) 100 0x10014 ∧ 100 ≤ clockAt s (dieOf (keyCore 0))) :=
  ⟨meets_dec (by decide +kernel), meets_dec (by decide +kernel), meets_dec (by decide +kernel), by decide +kernel⟩

/-- The group waits at an lpc with participant mask 3, key register 239 and the blocks given. -/
def compacting (b : BitVec 30) (g : Group) : Group :=
  { g with extBlk := 14, entries := g.entries.map fun x => (x.1, { x.2 with wait := .lpc 3 239 b 0x10014 }) }

/-- The first of two participants; a mask without the group's own index, or with one that no group has; the last of two. -/
theorem witness_LaneCompaction :
    let s := sregs [(4, 3)] (onGroup (fun g => { g with extBlk := 14 }) (halves 16 1 id))
    let alone := fun (s : State) (c : Ctx) => ∀ k ∈ c.t.groups, k ≠ c.k → (Tbl.find? s.groups k).all (fun g =>
      g.index != c.g.index && g.entries.all fun x => (lpcKey x.2).isNone) = true
    let standing := fun (s : State) (c : Ctx) (i : Nat) =>
      ∃ k ∈ c.t.groups, (Tbl.find? s.groups k).any (fun g => g.index == i) = true
    let pm := fun (c : Ctx) => c.g.ssrc (.s 4) none
    let i : Instr := .lpc none (.s 4) 239 0x3FFFFFFF
    let bad := fun (x : Word64) => sregs [(4, x)] s
    let last := sregs [(4, 3)] (onGroup (fun g => { g with extBlk := 14 }) (halves 16 1 (compacting 0x3FFFFFFF)))
    Meets [i] s (fun c => (c.k ∈ c.t.groups ∧ c.g.index < 64) ∧ (pm c).getLsbD c.g.index = true ∧ alone s c ∧
      (∀ i < 64, (pm c).getLsbD i = true → standing s c i) ∧ ∃ i < 64, i ≠ c.g.index ∧ (pm c).getLsbD i = true) ∧
    Meets [i] (bad 2) (fun c => (c.k ∈ c.t.groups ∧ c.g.index < 64) ∧ (pm c).getLsbD c.g.index = false ∧ alone (bad 2) c ∧
      HandlerReady c.t c.g ∧ NoLease (bad 2) c.k c.g) ∧
    Meets [i] (bad 5) (fun c => (c.k ∈ c.t.groups ∧ c.g.index < 64) ∧ (∃ i < 64, (pm c).getLsbD i = true ∧ ¬standing (bad 5) c i) ∧
      alone (bad 5) c ∧ HandlerReady c.t c.g ∧ NoLease (bad 5) c.k c.g) ∧
    Meets [i] last (fun c => (c.k ∈ c.t.groups ∧ c.g.index < 64) ∧ c.t.groups = [c.k, 1] ∧ c.k ≠ 1 ∧
      c.g.entries = [(c.n, c.e)] ∧ c.g.halves = [] ∧ c.g.width = 16 ∧ 0x3FFFFFFF < 2 ^ c.g.blocks ∧ c.g.live = c.g.lanes ∧
      c.e.mask = c.g.lanes ∧ (∀ i < 64, ((pm c).getLsbD i = true ↔ i = c.g.index ∨ i = 1)) ∧
      (Tbl.find? last.groups 1).any (fun h => decide (h.team = c.g.team ∧ h.index = 1 ∧ h.index ≠ c.g.index ∧ h.halves = [] ∧
        h.width = c.g.width ∧ 0x3FFFFFFF < 2 ^ h.blocks ∧ 239 < 8 * h.blocks ∧ h.live = c.g.lanes ∧
        h.entries.all (fun x => x.2.wait == .lpc (pm c) 239 0x3FFFFFFF 0x10014 && x.2.mask == c.g.lanes) = true ∧
        h.entries.length = 1)) = true) :=
  ⟨meets_dec (by decide +kernel), meets_dec (by decide +kernel), meets_dec (by decide +kernel), meets_dec (by decide +kernel)⟩

theorem witness_BarriersAndBlocks :
    Meets [.bar none 15] probe (fun c => c.e.wait = .run ∧ GroupGuardPasses c ∧ c.g.pathCParked = false ∧ c.t.groups = [c.k] ∧
      c.t.arrivals = []) ∧
    Meets [.bar none 0] (halves 32 32 id) (fun c => c.e.wait = .run ∧ GroupGuardPasses c ∧ c.g.pathCParked = false ∧
      32 ∈ c.t.groups ∧ 32 ≠ c.k ∧ c.t.arrivals = []) ∧
    Meets [.barClu none 2] (onTeam (fun t => { t with clt := 2 }) probe) (fun c => c.e.wait = .run ∧ GroupGuardPasses c ∧
      c.g.pathCParked = false ∧ c.t.clt ≠ 0 ∧ c.t.groups = [c.k] ∧ c.t.cluArrivals = [] ∧
      (∀ x ∈ probe.teams, x.1 ≠ c.g.team → x.2.cluster ≠ c.t.cluster) ∧ dirtyLines probe (keyCore c.k) = []) ∧
    Meets [.racq none 29] (onTeam (fun t => { t with kernel := { t.kernel with baseBlk := 1, extKib := 240 } })
        (onGroup (fun g => { g with baseBlk := 1 }) probe))
      (fun c => c.e.wait = .run ∧ GuardPasses c ∧ c.g.blocks + 29 ≤ 30 ∧ c.t.racqFifo = [] ∧
        blockUnits c.g 29 ≤ 2 * c.t.kernel.extKib ∧ c.t.hasRoom c.g 29 = true ∧ ∀ y ∈ c.g.entries, waitsRacq 29 y.2 = false) ∧
    Meets [.rrel none 2] (onGroup (fun g => { g with baseBlk := 4, extBlk := 2 }) probe)
      (fun c => c.e.wait = .run ∧ GuardPasses c ∧ 2 ≤ c.g.extBlk ∧ c.t.racqFifo = []) :=
  ⟨meets_dec (by decide +kernel), meets_dec (by decide +kernel), meets_dec (by decide +kernel), meets_dec (by decide +kernel),
    meets_dec (by decide +kernel)⟩

theorem witness_SoftwareTraps : Meets [.trap none 0xFF, .brk none 0] probe
    (fun c => GuardPasses c ∧ HandlerReady c.t c.g ∧ NoLease probe c.k c.g ∧ c.g.ending = false) := meets_dec (by decide +kernel)

/-- One state for each check: a reserved RM in MOD, a whole-group form with two splits, a register out of range, a latch that is
not there. -/
theorem witness_IssueChecks :
    let ok := fun (i : Instr) (s : State) (p : Ctx → Bool) => (ctxOf s (instrMod i)).any (fun c =>
      i.hasWord && decide (HandlerReady c.t c.g ∧ NoLease s c.k c.g ∧ c.g.ending = false) && p c) = true
    let small := onGroup (fun g => { g with baseBlk := 4 }) probe
    let whole := fun (c : Ctx) (i : Instr) => wholeFor c.g i && decide (1 < c.g.entries.length)
    ok (.nop (some ⟨true, false, false, false, false, 7, 0, false, false, 0⟩)) probe
      (fun _ => modIllegal (some ⟨true, false, false, false, false, 7, 0, false, false, 0⟩)) ∧
    ok (.bar none 3) joining (fun c => whole c (.bar none 3)) ∧
    ok (.iadd none none (.v 32) (.v 3) (.vec (.v 4))) small
      (fun c => !whole c (.iadd none none (.v 32) (.v 3) (.vec (.v 4))) && rangeBad c.g (.iadd none none (.v 32) (.v 3) (.vec (.v 4)))) ∧
    ok (.iadd none none (.v 31) (.b 0) (.vec (.v 4))) small (fun c =>
      !whole c (.iadd none none (.v 31) (.b 0) (.vec (.v 4))) && !rangeBad c.g (.iadd none none (.v 31) (.b 0) (.vec (.v 4))) &&
      latchBad c.e (regUse (.iadd none none (.v 31) (.b 0) (.vec (.v 4))))) := by decide +kernel

/-- No handler set, a handler running, and no room for the frame; a queue that no abort has ended. -/
theorem witness_FatalTraps :
    let ok := fun (s : State) => Tbl.find? s.groups 0 = some (groupOf s) ∧ Tbl.find? s.teams (groupOf s).team = some (teamOf s) ∧
      (queueAt s.dev (teamOf s).queue).stat ≠ qAborted
    let s1 := onGroup (fun g => { g with trapbase := 0 }) probe
    let s2 := onGroup (fun g => { g with hnd := true }) probe
    let s3 := onTeam (fun t => { t with kernel := { t.kernel with priv := 0 } }) probe
    (ok s1 ∧ (groupOf s1).trapbase = 0) ∧ (ok s2 ∧ (groupOf s2).hnd = true) ∧
    (ok s3 ∧ recFits (stkTop (teamOf s3).kernel.priv) ((groupOf s3).depth + (groupOf s3).entries.length) = false ∧
      recFits (stkTop (teamOf s3).kernel.priv) ((groupOf s3).snap.depth + (groupOf s3).snap.entries.length) = false) := by
  decide +kernel

/-- The state in the handler of a software trap, the split at the handler's first instruction. -/
def inHandler : State := { after (.trap none 7) probe with focus := some focus0 }

theorem witness_TrapReturn : ∃ c r, Executes (.xret none) (ifGuard fun c => !c.g.hnd) inHandler c ∧ GuardPasses c ∧ c.g.hnd = true ∧
    readFrame c.t.priv c.g (stkTop c.t.kernel.priv) c.g.depth [] = some (0, [r]) ∧
    bits (BitVec.ofNat 64 (ofBytes (privBytes c.t.priv c.g 2 (stkTop c.t.kernel.priv - 8) 8))) 32 2 = r.entry ∧
    c.g.xcause ≠ cPreempt ∧ c.g.preempt = false ∧ emitWait c.g r.entry = .run ∧ NoLease inHandler c.k c.g ∧ r.mask &&& c.g.live ≠ 0 := by
  have h : (match ctxOf inHandler none with
      | some c => match readFrame c.t.priv c.g (stkTop c.t.kernel.priv) c.g.depth [] with
        | some (0, [r]) => decide (issueCheck (.xret none) c (ifGuard (fun c => !c.g.hnd) c) = none ∧ GuardPasses c ∧ c.g.hnd = true ∧
            bits (BitVec.ofNat 64 (ofBytes (privBytes c.t.priv c.g 2 (stkTop c.t.kernel.priv - 8) 8))) 32 2 = r.entry ∧
            c.g.xcause ≠ cPreempt ∧ c.g.preempt = false ∧ emitWait c.g r.entry = .run ∧ NoLease inHandler c.k c.g ∧ r.mask &&& c.g.live ≠ 0)
        | _ => false
      | none => false) = true := by decide +kernel
  split at h
  · rename_i c hc
    split at h
    · rename_i r hr
      obtain ⟨h1, h2, h3, h4⟩ := of_decide_eq_true h
      exact ⟨c, r, ⟨hc, h1⟩, h2, h3, hr, h4⟩
    · cases h
  · cases h

/-- Reading every register; writing each writable one; a value that a register refuses. -/
theorem witness_SpecialRegisters :
    Meets ([.mode, .flags, .gang, .width, .gid, .tid, .cid, .core, .xpc, .xcause, .xmode, .xinfo, .trapbase, .csabase, .rgnentry, .rgnmask,
      .drawkey, .drawctr, .rrcount, .splits, .clock, .leasestat, .extregs, .fusestat].map fun r => .srd none (.s 5) r)
      probe GuardPasses ∧
    (∀ r ∈ [.flags, .trapbase, .drawkey, .drawctr, .fusestat, .splits, .gang, .mode], Meets [.swr none (.s 4) r] probe
      (fun c => GuardPasses c ∧ writeRefused c.g.hnd r (c.g.ssrc (.s 4) none) = false ∧
        (gangRefused probe c.g.team c.t (c.g.ssrc (.s 4) none) = false) ∧ modeWritable (c.g.ssrc (.s 4) none) = true)) ∧
    (∀ r ∈ [.xpc, .xmode], Meets [.swr none (.s 4) r] inHandler (fun c => GuardPasses c ∧
      writeRefused c.g.hnd r (c.g.ssrc (.s 4) none) = false ∧ modeWritable (c.g.ssrc (.s 4) none) = true)) ∧
    (∀ r ∈ [.flags, .width, .xpc, .trapbase], Meets [.swr none (.s 4) r] (sregs [(4, 0x81)] probe) (fun c => GuardPasses c ∧
      writeRefused c.g.hnd r (c.g.ssrc (.s 4) none) = true ∧ HandlerReady c.t c.g ∧ NoLease (sregs [(4, 0x81)] probe) c.k c.g ∧
      c.g.ending = false)) := by
  refine ⟨meets_dec (by decide +kernel), ?_, ?_, ?_⟩ <;> intro r hr <;>
    simp only [List.mem_cons, List.not_mem_nil, or_false] at hr <;> rcases hr with rfl | rfl | rfl | rfl | rfl | rfl | rfl | rfl <;>
    exact meets_dec (by decide +kernel)


/-! ### Witnesses: memory -/

/-- A page of 256 KiB at 0x40000 in local storage at 0x800000, writable, of a class. -/
def page (ac : BitVec 2) : Tlb :=
  { part := 0, asid := 0, va := 0x40000, size := 0x40000, pa := 0x800000, w := true, x := false, xr := true, d := true, ac := ac,
    mig := false, leaf2 := 0, two := false, gpa := 0, gpas := [] }

/-- The group addresses `base` by s4, and base + n × lane by the pair v4. -/
def addressing (base n : Nat) (ac : BitVec 2) : State :=
  onCore (fun c => { c with tlb := [page ac] }) (onGroup (fun g =>
    { g with s := [(4, BitVec.ofNat 64 base), (9, 0x2000)], v := [(4, rowOf fun l => base + n * l)] }) probe)

/-- The hypotheses of `Mapped`, as a test. -/
def mapped (s : State) (c : Ctx) (acc : Acc) (tl : Tlb) (n : Nat) (l : List (Nat × Word64)) : Bool :=
  decide (c.t.core = keyCore c.k ∧
    (∀ x ∈ l, x.2.toNat < 2 ^ 48 ∧ x.2.toNat % n = 0 ∧
      (coreAt s c.t.core).tlb.find? (fun t => t.covers (teamAgent c.t) x.2.toNat && t.serves acc) = some tl) ∧
    ∀ x ∈ l, tl.pas x.2.toNat % n = 0 ∧ isLocal (tl.pas x.2.toNat) = true ∧ paReachable s.dev (tl.pas x.2.toNat) = true)

theorem mapped_of {s c acc tl n l} (h : mapped s c acc tl n l = true) : Mapped s c acc tl n l :=
  let h := of_decide_eq_true h
  ⟨h.1, h.2.1, h.2.2⟩

def quiet (s : State) : Bool :=
  decide (s.dev.frames = [] ∧ s.dev.watches = [] ∧ s.dev.leases = [] ∧ s.dev.hostLines = [] ∧ s.dev.zeroingFrames = [] ∧
    s.dev.poison = [])

theorem quiet_of {s} (h : quiet s = true) : Quiet s :=
  let h := of_decide_eq_true h
  ⟨h.1, h.2.1, h.2.2.1, h.2.2.2.1, h.2.2.2.2.1, h.2.2.2.2.2⟩

/-- `meets_of` where P is a mapping and a decidable rest. -/
theorem meets_mapped {l : List Instr} {s : State} {acc tl n} {f : Ctx → List (Nat × Word64)} {R : Ctx → Prop} [DecidablePred R]
    (h : (l.all fun i => meets i s fun c => mapped s c acc tl n (f c) && decide (R c)) = true) :
    Meets l s (fun c => Mapped s c acc tl n (f c) ∧ R c) :=
  meets_of _ h fun _ h => ⟨mapped_of (Bool.and_eq_true_iff.mp h).1, of_decide_eq_true (Bool.and_eq_true_iff.mp h).2⟩

/-- Every lane at the last place of a tile of its kernel, and a scalar address; 64 KiB is the tile's size. -/
theorem witness_TileLoads : ∀ x ∈ [(MSize.u8, 1), (.s16, 2), (.b32, 4), (.b64, 8), (.b128, 16)],
    let s := addressing (0x10000 - 32 * x.2) x.2 0
    Meets [.ld none none (.v 8) (.pair 4) x.1 false .tile none, .ld none none (.v 8) (.sreg 4) x.1 true .tile (some .sys),
        .ldNf none none (.v 8) (.pair 4) x.1 .tile 5] s
      (fun c => c.passing = false ∧ TileOpen c x.2 (laneAddrs c.g (.pair 4) none x.2 c.act) ∧
        TileOpen c x.2 (laneAddrs c.g (.sreg 4) none x.2 c.act)) ∧
    (x.1 ≠ .b128 → Meets [.sld none none (.s 9) (.s 4) x.1 false .tile none] s
      (fun c => c.passing = false ∧ GuardPasses c ∧ c.act ≠ 0 ∧ TileOpen c x.2 [(0, scalarAddr c.g (.s 4) none)])) := by
  intro x hx
  simp only [List.mem_cons, List.not_mem_nil, or_false] at hx
  rcases hx with rfl | rfl | rfl | rfl | rfl <;>
    exact ⟨meets_dec (by decide +kernel), fun _ => meets_dec (by decide +kernel)⟩

theorem witness_TileStores : ∀ x ∈ [(MSize.u8, 1), (.s16, 2), (.b32, 4), (.b64, 8), (.b128, 16)],
    let s := addressing (0x10000 - 32 * x.2) x.2 0
    Meets [.st none none (.v 8) (.pair 4) x.1 false .tile none, .st none none .laneId (.sreg 4) x.1 true .tile (some .grp)] s
      (fun c => c.passing = false ∧ TileOpen c x.2 (laneAddrs c.g (.pair 4) none x.2 c.act) ∧
        TileOpen c x.2 (laneAddrs c.g (.sreg 4) none x.2 c.act) ∧ c.g.pathCParked = false ∧ CachesClean s (keyCore c.k)) ∧
    (x.1 ≠ .b128 → Meets [.sst none none (.s 9) (.s 4) x.1 false .tile none] s
      (fun c => c.passing = false ∧ GuardPasses c ∧ c.act ≠ 0 ∧ TileOpen c x.2 [(0, scalarAddr c.g (.s 4) none)])) := by
  intro x hx
  simp only [List.mem_cons, List.not_mem_nil, or_false] at hx
  rcases hx with rfl | rfl | rfl | rfl | rfl <;>
    exact ⟨meets_dec (by decide +kernel), fun _ => meets_dec (by decide +kernel)⟩

/-- Tile and global space, both sizes, with and without an EXT word, ordered and not. -/
theorem witness_Atomics :
    (∀ w8 ∈ [false, true], Meets [.atom none none (.v 8) (.pair 4) .add w8 .tile none,
        .atom none none .discard (.pair 4) .umax w8 .tile (some ⟨.v 12, true, .dev⟩),
        .atomCas none none (.v 8) (.pair 4) w8 .tile ⟨.v 12, true, .sys⟩] (addressing 0 8 0)
      (fun c => c.passing = false ∧ TileOpen c (atomBytes w8) (laneAddrs c.g (.pair 4) none (atomBytes w8) c.act) ∧
        c.g.pathCParked = false ∧ CachesClean (addressing 0 8 0) (keyCore c.k))) ∧
    Quiet (addressing 0x40000 8 2) ∧
    ∀ w8 ∈ [false, true], Meets [.atom none none (.v 8) (.pair 4) .exch w8 .glob none,
        .atom none none .discard (.pair 4) .min w8 .glob (some ⟨.v 12, true, .dev⟩),
        .atomCas none none (.v 8) (.pair 4) w8 .glob ⟨.v 12, true, .sys⟩] (addressing 0x40000 8 2)
      (fun c => Mapped (addressing 0x40000 8 2) c .atomic (page 2) (atomBytes w8) (laneAddrs c.g (.pair 4) none (atomBytes w8) c.act) ∧
        c.passing = false ∧ c.g.leases = [] ∧ c.g.pathCParked = false ∧ CachesClean (addressing 0x40000 8 2) (keyCore c.k)) := by
  refine ⟨?_, quiet_of (by decide +kernel), ?_⟩ <;> intro w8 h <;> simp only [List.mem_cons, List.not_mem_nil, or_false] at h <;>
    rcases h with rfl | rfl <;> first | exact meets_dec (by decide +kernel) | exact meets_mapped (by decide +kernel)

theorem witness_GlobalLoads : Quiet (addressing 0x7FE00 16 1) ∧ CachesClean (addressing 0x7FE00 16 1) 0 ∧
    ∀ sp ∈ [Space.glob, .const],
    Meets [.ld none none (.v 8) (.pair 4) .b128 true sp none, .ld none none (.v 8) (.pair 4) .b128 false sp (some .dev),
        .ldNf none none (.v 8) (.pair 4) .b128 sp 0] (addressing 0x7FE00 16 1)
      (fun c => Mapped (addressing 0x7FE00 16 1) c .read (page 1) 16 (laneAddrs c.g (.pair 4) none 16 c.act) ∧
        c.passing = false ∧ keyCore c.k = 0 ∧ HxFree c (page 1)) ∧
    Meets [.sld none none (.s 9) (.s 4) .b64 false sp none] (addressing 0x7FE00 16 1)
      (fun c => Mapped (addressing 0x7FE00 16 1) c .read (page 1) 8 [(0, scalarAddr c.g (.s 4) none)] ∧
        c.passing = false ∧ GuardPasses c ∧ c.act ≠ 0 ∧ HxFree c (page 1)) := by
  refine ⟨quiet_of (by decide +kernel), by decide +kernel, fun sp h => ?_⟩
  simp only [List.mem_cons, List.not_mem_nil, or_false] at h
  rcases h with rfl | rfl <;> exact ⟨meets_mapped (by decide +kernel), meets_mapped (by decide +kernel)⟩

/-- Home: ordered, or a page of class HX. Near: the other classes. -/
theorem witness_GlobalStores : ∀ x ∈ [(true, (0 : BitVec 2)), (false, 2), (false, 0)],
    let s := addressing 0x40000 4 x.2
    Quiet s ∧ CachesClean s 0 ∧ L1Room s 0 ∧
    Meets [.st none none (.v 8) (.pair 4) .b32 x.1 .glob none] s
      (fun c => Mapped s c .write (page x.2) 4 (laneAddrs c.g (.pair 4) none 4 c.act) ∧ c.passing = false ∧
        c.g.pathCParked = false ∧ c.g.leases = [] ∧ keyCore c.k = 0) ∧
    Meets [.sst none none (.s 9) (.s 4) .b32 x.1 .glob none] s
      (fun c => Mapped s c .write (page x.2) 4 [(0, scalarAddr c.g (.s 4) none)] ∧ c.passing = false ∧ GuardPasses c ∧
        c.act ≠ 0 ∧ c.g.pathCParked = false ∧ c.g.leases = []) := by
  intro x h
  simp only [List.mem_cons, List.not_mem_nil, or_false] at h
  rcases h with rfl | rfl | rfl <;>
    exact ⟨quiet_of (by decide +kernel), by decide +kernel, by decide +kernel, meets_mapped (by decide +kernel),
      meets_mapped (by decide +kernel)⟩

/-- Elements of eight bits without a descriptor, and of four bits with one. -/
theorem witness_MxBlocks : ∀ x ∈ [(0, none), (0x1000000000400, some (⟨.dev, .s 9⟩ : MxExt))],
    let s := wide 64 (onGroup (fun g => { g with s := [(4, 0x100), (9, x.1)] }) (addressing 0x100 0 0))
    Meets [.mxld none none 8 (.s 4) false .tile x.2, .mxst none none 8 (.s 4) true .tile x.2] s (fun c =>
      let sc := x.2.map fun e => c.g.ssrc e.c none
      let desc := sc.getD 0
      let pieces := mxPieces (scalarAddr c.g (.s 4) none) sc (desc.getLsbD 48) (mxBlocks c.act)
      bits desc 49 15 = 0 ∧ c.g.width ≠ 16 ∧ c.t.zeroing = false ∧ c.passing = false ∧
      (∀ p ∈ pieces, p.2.1.toNat % p.2.2 = 0 ∧ p.2.1.toNat + p.2.2 ≤ c.t.tileSize) ∧
      c.g.pathCParked = false ∧ CachesClean s (keyCore c.k) ∧
      (∀ k < 2, c.act &&& blockLanes k = 0 ∨ c.act &&& blockLanes k = blockLanes k) ∧
      pieces.Pairwise (fun p q => p.2.1.toNat + p.2.2 ≤ q.2.1.toNat ∨ q.2.1.toNat + q.2.2 ≤ p.2.1.toNat)) := by
  intro x h
  simp only [List.mem_cons, List.not_mem_nil, or_false] at h
  rcases h with rfl | rfl <;> exact meets_dec (by decide +kernel)

/-- A line with two dirty bytes. -/
def dirtyLine : CLine :=
  { data := 0x123456, valid := BitVec.allOnes 128, dirty := 5, ro := false, const := false, part := 0, writers := 0, stamp := 0,
    xstale := 0, way := 0, hint := none }

theorem witness_CacheOperations :
    let s := onCore (fun c => { c with l1 := [(2 * (0x800000 / 128), dirtyLine)] }) (addressing 0x40000 0 0)
    let t := addressing 0x40000 0 0
    Quiet s ∧ Quiet t ∧
    Meets [.cacheWb none none false (.pair 4) .glob, .cacheDrop none none false (.pair 4) .glob] s
      (fun c => Mapped s c .read (page 0) 1 (laneAddrs c.g (.pair 4) none 128 c.act) ∧ c.act ≠ 0 ∧ c.passing = false ∧
        c.g.leases = [] ∧ (∀ y ∈ physicalAddrs (page 0) (laneAddrs c.g (.pair 4) none 128 c.act), y.2 / 128 = 0x800000 / 128) ∧
        (page 0).ac ≠ 2 ∧ homeOnDie s (128 * (0x800000 / 128)) (dieOf (keyCore c.k)) = true ∧
        (dieAt s (dieOf (keyCore c.k))).rdc = [] ∧ (coreAt s (keyCore c.k)).l1 = [(2 * (0x800000 / 128), dirtyLine)]) ∧
    Meets [.cachePrefetch none none false (.pair 4) false .glob, .cachePagereq none none false (.pair 4) false true,
        .cacheResq none none false (.pair 4) 127] t
      (fun c => Mapped t c .read (page 0) 1 (laneAddrs c.g (.pair 4) none 128 c.act) ∧ c.passing = false ∧ c.g.leases = [] ∧
        (laneAddrs c.g (.pair 4) none 128 c.act).isEmpty = false ∧ CachesClean t (keyCore c.k)) ∧
    Meets [.cachePagereq none none false (.pair 4) true false] t
      (fun c => Mapped t c .write (page 0) 1 (laneAddrs c.g (.pair 4) none 128 c.act) ∧ c.passing = false) :=
  ⟨quiet_of (by decide +kernel), quiet_of (by decide +kernel), meets_mapped (by decide +kernel), meets_mapped (by decide +kernel),
    meets_mapped (by decide +kernel)⟩

/-- Group 0 holds the line 0x800000 till cycle 99, two bytes of it written. -/
def hold0 : LeaseHold := { holder := some 0, deadline := 99, image := 0x123456, written := 5, queue := [] }

/-- The group's own side of it. -/
def held0 : HeldLease := { line := 0x800000, pa := 0x800040, held := true }

theorem witness_Leases :
    let s := addressing 0x40000 0 0
    let ended := onDev (fun d => { d with leases := [(0x800000, hold0)] }) (onEntries (fun e => { e with wait := .leaseEnd 5 0xFF 0x10014 })
      (onGroup (fun g => { g with ending := true, leases := [held0] }) s))
    let late := atClock 100 (onDev (fun d => { d with leases := [(0x800000, hold0)] })
      (onGroup (fun g => { g with leases := [held0] }) s))
    Quiet s ∧
    Meets [.lease none none false (.s 4)] s (fun c => Mapped s c .write (page 0) 1 [(0, scalarAddr c.g (.s 4) none)] ∧ GuardPasses c ∧
      c.act ≠ 0 ∧ CachesClean s (keyCore c.k) ∧ HxFree c (page 0) ∧ c.g.leases = [] ∧ c.g.leaseCount = 0) ∧
    Meets [.leaseEnd none 0, .leaseEnd none 127] s (fun c => c.passing = false ∧ GuardPasses c) ∧
    ((groupOf ended).ending = true ∧ (groupOf ended).preempt = false ∧ (groupOf ended).entries = [(0, entryOf ended)] ∧
      (entryOf ended).wait = .leaseEnd 5 0xFF 0x10014 ∧ (groupOf ended).suspended = [] ∧ ended.dev.frames = [] ∧ ended.dev.watches = [] ∧
      (groupOf ended).leases = [held0] ∧ ended.dev.leases = [(0x800000, hold0)] ∧ isLocal 0x800000 = true ∧
      leaseExpired (clockAt ended (homeOf ended.dev 0x800000).1 % 2 ^ 32) hold0.deadline = false) ∧
    (Tbl.find? late.groups 0 = some (groupOf late) ∧ (groupOf late).leases = [held0] ∧
      late.dev.leases = [(0x800000, hold0)] ∧
      leaseExpired (clockAt late (homeOf late.dev 0x800000).1 % 2 ^ 32) hold0.deadline = true) :=
  ⟨quiet_of (by decide +kernel), meets_mapped (by decide +kernel), meets_dec (by decide +kernel), by decide +kernel, by decide +kernel⟩

theorem witness_Fences : Meets [.fence none .grp, .fence none .sys, .fencePhase none .clu, .fencePhase none .sys, .xfence none .dev 0 31,
    .xfence none .dev 31 0, .xfence none .sys 31 31] (addressing 0x40000 0 0) (fun c => GuardPasses c ∧ c.g.pathCParked = false ∧
      c.passing = false ∧ dirtyLines (addressing 0x40000 0 0) (keyCore c.k) = [] ∧
      PrivClean (addressing 0x40000 0 0) (keyCore c.k) ∧ pathsBusy (addressing 0x40000 0 0) c 31 = false) :=
  meets_dec (by decide +kernel)

/-- A word of zeros: eq 0 holds, ne 0 does not; the poll at cycle 50 with a deadline at 100. -/
theorem witness_MemoryWait :
    let s := addressing 0x40000 0 0
    let ready := fun (c : Ctx) => Mapped s c .read (page 0) 4 [(0, scalarAddr c.g (.s 4) none)] ∧ GuardPasses c ∧ c.act ≠ 0 ∧
      CachesClean s (keyCore c.k) ∧ HxFree c (page 0) ∧ c.g.suspended = [] ∧ ∀ e ∈ c.g.entries, waitsOn 0 e.2 = false
    let word := ofBytes ((upTo 0x800000 4).map s.mem.get)
    let w : Wait := .watch 9 0x800000 false 0xFFFF .eq 0 (some 5) 0xFF0F .dev (some 100) true 50 0x10014
    let waiting := atClock 100 (onEntries (fun e => { e with wait := w }) s)
    Quiet s ∧ Meets [.wwait none none .zero (.s 4) 0 false .eq none, .wwait none none .zero (.s 4) 15 false .ne (some ⟨.sys, 5, .s 9⟩)] s ready ∧
    watchHolds false (BitVec.allOnes 64) .eq 0 word = true ∧ watchHolds false 0x2000 .ne 0 word = false ∧
    ((groupOf waiting).entries = [(0, entryOf waiting)] ∧ (groupOf waiting).suspended = [] ∧
      (entryOf waiting).wait = w ∧
      50 ≤ clockAt waiting (dieOf (keyCore 0)) ∧ 100 ≤ clockAt waiting (dieOf (keyCore 0)) ∧ isLocal 0x800000 = true ∧
      watchHolds false 0xFFFF .eq 0 (ofBytes ((upTo 0x800000 4).map waiting.mem.get)) = true) ∧
    Quiet { waiting with dev := { waiting.dev with watches := [] } } :=
  ⟨quiet_of (by decide +kernel), meets_mapped (by decide +kernel), by decide +kernel, by decide +kernel, by decide +kernel,
    quiet_of (by decide +kernel)⟩


/-! ### Witnesses: queue registers, engines and rendering -/

def result0 : QEntry := { word := 0x55, row := rowOf id, counted := true }

/-- q-register 2 bound to a port, with its entries, in a handler or not. -/
def bound (h : Bool) (port : BitVec 4) (l : List QEntry) : State :=
  onGroup (fun g => { g with hnd := h, q := [(2, { port := port, entries := l, retained := [] })] }) (addressing 0x40000 0 0)

theorem witness_QueueRegisters :
    let base := fun (c : Ctx) => GuardPasses c ∧ c.passing = false ∧ c.g.entries = [(c.n, c.e)] ∧ c.g.suspended = []
    Meets [.qPush none 2 (.s (.s 4))] (bound false 1 []) (fun c => base c ∧ (c.g.qreg 2).port = 1 ∧
      untaken (intake (bound false 1 []) 0 1) c.g.team c.g.ident < 8) ∧
    Meets [.qPush none 2 (.s (.s 60))] (bound false 3 []) (fun c => base c ∧ (c.g.qreg 2).port = 3 ∧
      untaken (intake (bound false 3 []) 0 3) c.g.team c.g.ident < 8) ∧
    Meets [.qPush none 2 (.s .zero)] (bound true 2 []) (fun c => base c ∧ scalarPop (c.g.qreg 2).port = true ∧ c.g.hnd = true ∧
      (c.g.qreg 2).retained = [] ∧ (c.g.qreg 2).entries.length < 8) ∧
    Meets [.qPop none (.s (.s 9)) 2, .qPeek none (.s .discard) 2] (bound false 2 [result0])
      (fun c => base c ∧ scalarPop (c.g.qreg 2).port = true ∧ (c.g.qreg 2).entries = result0 :: []) ∧
    Meets [.qPop none (.v 127) 2, .qPeek none (.v 0) 2] (bound false 5 [result0, result0])
      (fun c => base c ∧ vectorPop (c.g.qreg 2).port = true ∧ (c.g.qreg 2).entries = result0 :: [result0] ∧
        failedFor (mxeAt (bound false 5 [result0, result0]) 0 (portCtx 5)) c.g = false) ∧
    Meets [.qPop none (.s (.s 9)) 2] (bound false 4 []) (fun c => base c ∧ scalarPop (c.g.qreg 2).port = true ∧ (c.g.qreg 2).entries = []) ∧
    Meets [.qStat none (.s 9) 2, .qBind none 2 6] (bound false 2 [])
      (fun c => base c ∧ bindRefused (bound false 2 []) c 2 6 = false) ∧
    Meets [.qBind none 2 15] (bound false 2 []) (fun c => base c ∧ bindRefused (bound false 2 []) c 2 15 = true ∧
      HandlerReady c.t c.g ∧ NoLease (bound false 2 []) c.k c.g ∧ c.g.ending = false) :=
  ⟨meets_dec (by decide +kernel), meets_dec (by decide +kernel), meets_dec (by decide +kernel), meets_dec (by decide +kernel),
    meets_dec (by decide +kernel), meets_dec (by decide +kernel), meets_dec (by decide +kernel), meets_dec (by decide +kernel)⟩

theorem witness_QueueRegisters_delivery :
    let g := groupOf (bound false 6 [])
    let h : HeldResult := { team := g.team, ident := g.ident, port := 6, entry := result0 }
    let s := onDev (fun d => { d with held := [h] }) (bound false 6 [])
    Tbl.find? s.groups 0 = some g ∧ s.dev.held = [h] ∧ g.boundTo h.port = some (2, g.qreg 2) ∧ g.takesResults = true ∧
      (g.qreg 2).entries.length < 8 ∧ (g.qreg 2).retained = [] := by decide +kernel

/-- A record of unit u with its first and fourth words. -/
def record (w0 w3 : Word64) : RrSlotState :=
  { words := [w0, 0xFF, 0, w3, 0, 0, 0, 0], pend := 0, entry := 0, pages := [], region := false, stamp := 5, cmd := 0, why := 0 }

def withRecords (h : Bool) (l : Tbl RrSlotState) (s : State) : State := onGroup (fun g => { g with hnd := h, rr := l }) s

theorem witness_ReplayRecords :
    let full := withRecords true [(5, record 0x104 0x40000)] (addressing 0x40000 0 0)
    Meets [.rrRead none 7 (.num 5), .rrRead none 0 (.sreg 63)] full (fun c => GuardPasses c ∧
      (Tbl.find? c.g.rr 5).all (fun r => r.stat ≠ rrReplaying) = true ∧ Tbl.find? c.g.rr (Machine.slotOf c.g (.sreg 63)) = none) ∧
    Meets [.rrWrite none 0 (.num 2)] (sregs [] full) (fun c => GuardPasses c ∧ c.g.hnd = true ∧ Tbl.find? c.g.rr 2 = none ∧
      recordBad ((upTo 0 8).map fun k => c.g.sreg k) = false ∧ bits (c.g.sreg 0) 8 3 = 0) ∧
    Meets [.rrWrite none 0 (.num 2)] (sregs [(0, 0x400), (1, 0xFF), (3, 0x40010)] full) (fun c => GuardPasses c ∧ c.g.hnd = true ∧
      Tbl.find? c.g.rr 2 = none ∧ recordBad ((upTo 0 8).map fun k => c.g.sreg k) = false ∧ bits (c.g.sreg 0) 8 3 = rrUnresolved) ∧
    Meets [.rrRetire none (.num 2), .rrRetire none (.num 5)] (withRecords true [(5, record 0x101 0x40000)] (addressing 0x40000 0 0))
      (fun c => GuardPasses c ∧ c.g.hnd = true ∧ Tbl.find? c.g.rr 2 = none ∧ c.g.overflow = [] ∧ c.g.live ≠ 0 ∧
        (Tbl.find? c.g.rr 5).any (fun r => r.stat ≠ rrReplaying && r.unit == 1) = true) ∧
    (let s := onCore (fun c => { c with tlb := [{ page 0 with x := true }] })
       (withRecords false [(5, record 0x201 0x40010)] (addressing 0x40000 0 0))
     let r := record 0x201 0x40010
     oldestReady s (keyCore 0) = some (0, 5, r) ∧ r.unit = 1 ∧ Tbl.find? s.teams (groupOf s).team = some (teamOf s) ∧
       (groupOf s).rr = [(5, r)] ∧ (groupOf s).overflow = [] ∧ (groupOf s).live ≠ 0 ∧ (teamOf s).core = keyCore 0 ∧
       (nthD r.words 3 0).toNat < 2 ^ 48 ∧
       ((coreAt s (teamOf s).core).tlb.find? fun e => e.covers (teamAgent (teamOf s)) (nthD r.words 3 0).toNat && e.serves .exec &&
         !movedAway s.dev (e.pas (nthD r.words 3 0).toNat) && paReachable s.dev (e.pas (nthD r.words 3 0).toNat)) =
         some { page 0 with x := true }) :=
  ⟨meets_dec (by decide +kernel), meets_dec (by decide +kernel), meets_dec (by decide +kernel), meets_dec (by decide +kernel),
    by decide +kernel⟩

/-- Eight words with values at bit places. -/
def packed (l : List (Nat × Nat)) : List Word64 :=
  let n := (l.map fun x => x.2 * 2 ^ x.1).sum
  (upTo 0 8).map fun k => BitVec.ofNat 64 (n / 2 ^ (64 * k))

/-- A copy of 256 bytes within the test's team, in phase 0. -/
def copy0 : EngCmd :=
  { id := 3, packet := none, team := 1, ident := 0, part := 0, ctxidx := 0, asid := 0, port := portCopy,
    words := (packed [(0, 4), (48, 0x1234), (64, 5), (160, 256), (208, 0x40100)]).take 4, phase := 0, done := 0, status := 0, cls := 0,
    elemMask := 0, record := none, set := 0, fault := none, launch := (0, 0) }

def engines (copy coll : List EngCmd) (s : State) : State := { s with dies := [(0, { dieAt s 0 with copy := copy, coll := coll }) ] }

/-- Replays of a matrix context, which is PARKED at its fetch of A, of a copy and of a collective. -/
theorem witness_ReplayRecords_engines :
    let r := fun (u : Word64) (n : Nat) => { record (0x200 + u) 0x40000 with cmd := n }
    let x := { MxeCtx.idle with state := 2, fop := 1 }
    let m := withRecords false [(5, r 3 1)] (onCore (fun c => { c with mxe := [MxeCtx.idle, x] }) probe)
    let e := fun (copy : Bool) => withRecords false [(5, r (if copy then 2 else 4) 3)]
      (if copy then engines [{ copy0 with phase := 2 }] [] probe else engines [] [{ copy0 with phase := 2 }] probe)
    (oldestReady m (keyCore 0) = some (0, 5, r 3 1) ∧ (r 3 1).unit = 3 ∧ Tbl.find? m.groups 0 = some (groupOf m) ∧
      (groupOf m).rr = [(5, r 3 1)] ∧ (groupOf m).overflow = [] ∧ mxeAt m (keyCore 0) (r 3 1).cmd = x ∧ x.state = 2 ∧ x.fop ≠ 4) ∧
    ∀ copy : Bool, oldestReady (e copy) (keyCore 0) = some (0, 5, r (if copy then 2 else 4) 3) ∧
      Tbl.find? (e copy).groups 0 = some (groupOf (e copy)) ∧ (r 2 3).unit = 2 ∧ (r 4 3).unit = 4 ∧
      findCmd (e copy) (cmdDie (e copy) copy 3) copy 3 = some { copy0 with phase := 2 } := by decide +kernel

/-- Memory with bytes stored from an address. -/
def stored (a : Nat) (l : List Byte) (m : Memory) : Memory :=
  ((upTo 0 l.length).zip l).foldl (fun m x => m.set (a + x.1) x.2) m

def withMem (m : Memory) (s : State) : State := { s with mem := m }

/-- A descriptor (R242): FP16, B row by row, 8 by 8, one chunk, B in tile space, A there as well or in global space. -/
def descriptor (aTile : Bool) : List Word64 :=
  packed [(272, 0x40000), (248, 128), (200, 0x1000), (176, 128), (125, 7), (121, 7), (119, 1), (117, if aTile then 1 else 0), (116, 1)]

/-- A context of the test's team that runs the descriptor, one group its gang. -/
def context (d : List Word64) : MxeCtx :=
  { MxeCtx.idle with state := 1, desc := d, owner := (groupOf probe).team, members := [(groupOf probe).ident] }

def withContexts (x y : MxeCtx) (s : State) : State := onCore (fun c => { c with mxe := [x, y] }) s

theorem witness_MatrixStart :
    let d := packed [(248, 128), (200, 0x1000), (176, 128), (125, 7), (121, 7), (119, 1), (117, 1), (116, 1)]
    let s := withMem (stored 0x800000 (wordsBytes d) []) (addressing 0x40000 0 0)
    let held := withContexts { context d with state := 4, members := [] } MxeCtx.idle s
    let ready := fun (s : State) (acc : Bool) (c : Ctx) => Mapped s c .read (page 0) 64 [(0, c.g.sreg 4)] ∧ c.g.width ≠ 16 ∧
      c.g.entries = [(c.n, c.e)] ∧ bits c.t.gang 32 3 = 0 ∧ c.g.rr = [] ∧ c.g.overflow = [] ∧ CachesClean s (keyCore c.k) ∧
      (coreAt s (keyCore c.k)).mxe.length = 2 ∧
      bytesWords ((upTo ((page 0).pas (c.g.sreg 4).toNat) 64).map s.mem.get) 8 = d ∧ descOk d c.t.tileSize (!acc && dInitc d) = true ∧
      dInitc d = false ∧
      (if acc = true then heldOk (mxeAt s (keyCore c.k) (dCtx d)) c.g.team d = true ∧ (mxeAt s (keyCore c.k) (dCtx d)).state = 4
        else (mxeAt s (keyCore c.k) (dCtx d)).state = 0)
    Quiet s ∧ Meets [.mma none 4] s (ready s false) ∧ Meets [.mmaAcc none 4] held (ready held true) :=
  ⟨quiet_of (by decide +kernel), meets_mapped (by decide +kernel), meets_mapped (by decide +kernel)⟩

theorem witness_ContextTransfer :
    let x := { context (descriptor true) with state := 2, fop := 2, acc := [(5, 7), (4095, 0xFFFFFFFF)], pops := 1023, depth := 2 ^ 17 - 1,
                                              row := 7, col := 7 }
    let s := addressing 0x40000 0 0
    let parked := withContexts x MxeCtx.idle s
    let lines := fun (c : Ctx) => (upTo 0 129).map fun k => (k, c.g.sreg 4 + BitVec.ofNat 64 (128 * k))
    let base := fun (s : State) (c : Ctx) (n : Nat) => GuardPasses c ∧ c.act ≠ 0 ∧ c.passing = false ∧
      (coreAt s (keyCore c.k)).mxe.length = 2 ∧
      ((mxeAt s (keyCore c.k) n).state = 0 ∨ (mxeAt s (keyCore c.k) n).owner = c.g.team) ∧ (mxeAt s (keyCore c.k) n).state ≠ 5
    Meets [.engErd none 0 4] parked (fun c => Mapped parked c .write (page 0) 128 (lines c) ∧ base parked c 0 ∧
      (mxeAt parked (keyCore c.k) 0).state ≠ 1 ∧ CachesClean parked (keyCore c.k) ∧ c.g.leases = []) ∧
    Meets [.engErd none 1 4] (withContexts x (context (descriptor true)) s)
      (fun c => base (withContexts x (context (descriptor true)) s) c 1 ∧ (c.g.sreg 4).toNat % 128 = 0 ∧
        (mxeAt (withContexts x (context (descriptor true)) s) (keyCore c.k) 1).state = 1) ∧
    Meets [.engEresume none 0] parked (fun c => base parked c 0 ∧ (mxeAt parked (keyCore c.k) 0).state = 2 ∧
      (mxeAt parked (keyCore c.k) 0).fop ≠ 4) ∧
    Meets [.engEresume none 1] parked (fun c => base parked c 1 ∧ (mxeAt parked (keyCore c.k) 1).state ≠ 2 ∧
      (mxeAt parked (keyCore c.k) 1).state ≠ 3) ∧
    (x.desc.length = 8 ∧ x.pops < 1024 ∧ x.depth < 2 ^ 17 ∧ x.row < 8 ∧ x.col < 8) :=
  ⟨meets_mapped (by decide +kernel), meets_dec (by decide +kernel), meets_dec (by decide +kernel), meets_dec (by decide +kernel),
    by decide +kernel⟩

/-- The image of an idle context is all zeros but for its descriptor, so the zeros of memory are one. -/
theorem witness_ContextTransfer_write :
    let s := addressing 0x40000 0 0
    let y := imageCtx ((upTo 0 16).map fun _ => 0) ((upTo 0 16384).map fun _ => 0)
    Quiet s ∧ Meets [.engEwr none 0 4, .engEwr none 1 4] s (fun c =>
      Mapped s c .read (page 0) 128 ((upTo 0 129).map fun k => (k, c.g.sreg 4 + BitVec.ofNat 64 (128 * k))) ∧ GuardPasses c ∧ c.act ≠ 0 ∧
      c.passing = false ∧ (mxeAt s (keyCore c.k) 0).state = 0 ∧ CachesClean s (keyCore c.k) ∧ controlBad ((upTo 0 16).map fun _ => 0) = false ∧
      imageBad c.t c.g.width (mxeAt s (keyCore c.k) 0) y = false) :=
  ⟨quiet_of (by decide +kernel), meets_mapped (by decide +kernel)⟩

theorem witness_MatrixMoves :
    let s := fun (x : MxeCtx) => withContexts x MxeCtx.idle (onCore (fun c => { c with tlb := [] }) (addressing 0x40000 0 0))
    let x := context (descriptor false)
    let f : ChunkFault := { depth := 0, operand := 1, cls := 1, addr := 0x40000, trap := 0 }
    let parks := { x with fault := some f }
    let ends := { x with depth := 1, desc := descriptor true }
    let base := fun (s : State) (x : MxeCtx) => (coreAt s 0).mxe.length = 2 ∧ mxeAt s 0 0 = x ∧
      Tbl.find? s.teams x.owner = some (teamOf s) ∧ x.members = [(groupOf s).ident] ∧
      findGroup s x.owner (groupOf s).ident = some (0, groupOf s) ∧ Tbl.find? s.groups 0 = some (groupOf s) ∧
      (groupOf s).team = x.owner
    (base (s x) x ∧ x.nextFetch = some 0 ∧
      (match (fetchOperand (teamOf (s x)) 0 0 0 (dAtile x.desc) (aRanges x.desc 0)).run (s x) with
       | (.bad _, _) => true
       | _ => false) = true) ∧
    (base (s parks) parks ∧ parks.fault = some f ∧ parks.state = 1 ∧ parks.row = 0 ∧ parks.col = 0 ∧ f.depth = parks.depth ∧ f.trap = 0 ∧
      freeBelow 8 (Tbl.keys (groupOf (s parks)).rr) = some 0 ∧ (coreAt (s parks) 0).filter = []) ∧
    (base (s ends) ends ∧ ends.state = 1 ∧ dKchm1 ends.desc < ends.depth) ∧
    (x.row < 8 ∧ x.col ≤ dNbm1 x.desc ∧ accCols x.desc ≤ 64) := by decide +kernel

/-- One lane; structures and texels of zeros in two pages of class HX, which path X may read. -/
def rendering : State :=
  onCore (fun c => { c with tlb := [page 2, { page 2 with va := 0 }] }) (onEntries (fun e => { e with mask := 1 }) (addressing 0x40000 0 2))

/-- Every per-lane render instruction whose lanes all end, at an aligned address. -/
theorem witness_RenderIssue : Meets [.rndTex none none 8 12 4, .rndTexq none none 8 12 4, .rndTrace none none 8 16 4,
    .rndTracec none none 8 16 4, .rndVmarch none none 8 16 4, .rndDraw none 8 12, .rndDrawTab none none 8 12 4] rendering
    (fun c => c.passing = false ∧ c.act ≠ 0) ∧
    (∀ i ∈ [.rndTex none none 8 12 4, .rndTexq none none 8 12 4, .rndTrace none none 8 16 4, .rndTracec none none 8 16 4,
        .rndVmarch none none 8 16 4, .rndDraw none 8 12, .rndDrawTab none none 8 12 4],
      (ctxOf rendering none).any (fun c => (rndSite c.g i).all (fun x => x.1.toNat % x.2 == 0 && decide (x.1.toNat < 2 ^ 48)) &&
        (Tbl.find? ((rndLanes i (c.job c.act) fun _ => none).run rendering).2.groups c.k == some c.g) &&
        ((rndLanes i (c.job c.act) fun _ => none).run rendering).1.all fun x => match x.2 with
          | .done _ _ => true
          | _ => false) = true) := ⟨meets_dec (by decide +kernel), by decide +kernel⟩

theorem witness_Draws : Meets [.rndDrawseed none (some (.i22 7)) 126 31] rendering (fun c => c.passing = false) :=
  meets_dec (by decide +kernel)

/-- A draw of lane 4 in flight, and a faulted lane with a free slot. -/
theorem witness_RenderCompletion :
    let p : Pend := { pc := 0, entry := 0, lanes := laneBit 4, parked := 0, regs := [⟨8, laneBit 4, rowOf id⟩, ⟨9, laneBit 4, rowOf id⟩],
                      sdst := none, sval := 0, pdst := none, pval := 0, counted := true, acquire := none, srcV := [], srcS := [],
                      render := true, region := true, noResult := false, nv := laneBit 4 }
    let s := onGroup (fun g => { g with pend := [(7, p)], outstanding := 1 }) rendering
    let r := { record 0x705 0x10010 with pend := 7, pages := [(5, 1)] }
    let u := onGroup (fun g => { g with overflow := [r] }) rendering
    (Tbl.find? s.groups 0 = some (groupOf s) ∧ Tbl.find? (groupOf s).pend 7 = some p ∧ p.render = true ∧ p.lanes = laneBit 4 ∧
      p.parked = 0 ∧ p.sdst = none ∧ p.pdst = none ∧ (p.regs.map (·.reg)).Nodup) ∧
    (Tbl.find? u.groups 0 = some (groupOf u) ∧ Tbl.find? u.teams (groupOf u).team = some (teamOf u) ∧ (groupOf u).overflow = [r] ∧
      r.pend = 7 ∧ r.unit ≠ 0 ∧ r.spill = [] ∧ r.pages.length ≤ 1 ∧ freeBelow 8 (Tbl.keys (groupOf u).rr) = some 0 ∧
      (coreAt u (keyCore 0)).filter = [] ∧ u.dev.fle.reqs = []) := by decide +kernel


/-- Bytes of a number, least significant first. -/
def le (n v : Nat) : List Byte := (upTo 0 n).map fun k => BitVec.ofNat 8 (v / 256 ^ k)

/-- A raster state (R277) at 0x1000 for 32 by 32 pixels, its pixel kernel at 0x2000, and one meshlet (R276) at 0x4000 of one
triangle over the origin. -/
def meshMem : Memory :=
  stored 0x801000 (le 8 0x2000 ++ le 8 0x3000 ++ le 8 0x77 ++ le 2 32 ++ le 2 32 ++ le 8 0) <|
  stored 0x802000 (le 64 (2 ^ 342 + 2 ^ 336 + 4 * 2 ^ 328 + 0x10000)) <|
  stored 0x804000 (le 8 0x5000 ++ le 8 0x6000 ++ [2, 0, 0, 0] ++ le 4 9) <|
  stored 0x805000 (le 8 0 ++ le 4 0x3F800000 ++ le 4 700 ++ le 4 0 ++ le 4 0x3F800000 ++ le 4 0 ++ le 4 700 ++ le 4 0x3F800000) <|
  stored 0x806000 [0, 1, 2] []

/-- s3 meshlets of that array. -/
def emitting (n : Word64) : State :=
  sregs [(3, n), (4, 0x4000), (5, 0x1000)] (onEntries (fun e => { e with mask := allLanes 32 }) (withMem meshMem rendering))

def job0 : RsuJob :=
  { group := 0, entry := 0, state := 0x1000, meshlets := 0x4000, count := 1, next := 0, raster := none, quads := [], read := false }

/-- The job once its meshlets are read. -/
def jobRead : RsuJob :=
  match (readJob (teamOf (emitting 1)) job0).run (emitting 1) with
  | (.done j _, _) => j
  | _ => job0

/-- The quads of the job. -/
theorem test_mesh_quads : jobRead.quads ≠ [] ∧ jobRead.read = true ∧ jobRead.group = 0 := by decide +kernel

theorem witness_MeshEmission :
    Meets [.rndMshemit none none 4 3 5] (emitting 0) (fun c => c.passing = false ∧ GuardPasses c ∧ (c.g.sreg 3).toNat = 0) ∧
    Meets [.rndMshemit none none 4 3 5] (emitting 257) (fun c => c.passing = false ∧ GuardPasses c ∧ 256 < (c.g.sreg 3).toNat) ∧
    Meets [.rndMshemit none none 4 3 5] (emitting 1) (fun c => c.passing = false ∧ GuardPasses c ∧ 0 < (c.g.sreg 3).toNat ∧
      (c.g.sreg 3).toNat ≤ 256 ∧ (c.g.sreg 4).toNat % 32 = 0 ∧ (c.g.sreg 5 + immValue none).toNat % 64 = 0 ∧
      (match (readJob c.t { job0 with group := c.k, entry := c.n }).run (emitting 1) with
       | (.done j false, u) => !j.quads.isEmpty && j.group == c.k && Tbl.find? u.groups c.k == some c.g
       | _ => false) = true) :=
  ⟨meets_dec (by decide +kernel), meets_dec (by decide +kernel), meets_dec (by decide +kernel)⟩

/-- A quota that lets a core's whole resources be used (R99). -/
def openQuota : BitVec 64 := BitVec.ofNat 64 (64 + 1024 * 2 ^ 16 + 384 * 2 ^ 32)

/-- One quad to deliver twice, without a depth test; and quads that start a group of their pixel kernel. -/
theorem witness_MeshEmission_quads :
    (match jobRead.quads with
     | q :: _ =>
       let s := onCore (fun c => { c with rsu := [{ jobRead with quads := [q, q] }], depthFor := some q.raster }) (emitting 1)
       let w := coreAt s 0
       let u := onDev (fun d => { d with packets := [{ packet0 with quota := openQuota }], nextId := 5 })
         (onCore (fun c => { c with pixel := [q, q] }) (emitting 1))
       decide (s.cores = [(0, w)] ∧ w.rsu = [{ jobRead with quads := [q, q] }] ∧ q.core = 0 ∧ w.depthFor = some q.raster ∧
         bits q.raster.zctl 0 2 = 0 ∧ q.cover ≠ 0 ∧ w.pixel.length < 256) &&
       decide ((coreAt u 0).pixel = [q, q] ∧ leadingQuads [q, q] = [q, q] ∧ moreComing u 0 q.raster = false) &&
       q.raster.kernel.any fun k => (packetAt u.dev q.raster.queue q.raster.packet).any fun p => p.phase == 1 &&
         (fitsOn u { queue := q.raster.queue, packet := q.raster.packet, part := q.raster.part, kernel := k, quota := p.quota,
                     prio := q.raster.prio } 0 1 1 []).any fun l => l.head?.any fun f => f.groups.length == 1
     | [] => false) = true := by decide +kernel

/-! ### Witnesses: the whole machine -/

/-- The guard fails in every lane. -/
theorem witness_GuardFailures :
    let no : Option Mod := some ⟨false, false, true, false, false, 0, 0, true, false, 1⟩
    Meets [.nop no, .sadd no none (.s 1) (.s 2) (.byte 1), .scmpEq no none 1 (.s 2) (.byte 1), .call no 0 false (.near 0 0), .join no 0,
        .srd no (.s 1) .clock, .sld no none (.s 1) (.s 2) .b32 false .glob none, .fence no .dev, .rrRead no 0 (.num 0),
        .engEresume no 0, .rndMshemit no none 0 0 0, .lease no none false (.s 1), .qStat no (.s 1) 0] probe
      (fun c => c.passing = false ∧ ¬GuardPasses c) ∧
    Meets [.bar no 0, .wsplit no (.s 1), .wfuse no (.s 1) false, .rgn no 1 1 1] probe
      (fun c => c.passing = false ∧ ¬GroupGuardPasses c) ∧
    (ctxOf probe no).any (fun c => splitGuarded c (.sadd no none (.s 1) (.s 2) (.byte 1)) && splitGuarded c (.join no 0) &&
      groupGuardedForm c (.bar no 0) && groupGuardedForm c (.rgn no 1 1 1)) = true :=
  ⟨meets_dec (by decide +kernel), meets_dec (by decide +kernel), by decide +kernel⟩

theorem witness_EveryInstructionAnswers :
    (Instr.hasWord (.nop none) = true ∧ (ctxOf probe (instrMod (.nop none))).isSome = true) ∧
    (Instr.hasWord (.nop none) = true ∧ ctxOf State.reset (instrMod (.nop none)) = none) ∧
    Instr.hasWord (.laneGrant 0) = false := by decide +kernel

theorem witness_StepKeepsCanonical : ∃ t, State.reset.canonical = true ∧ (State.reset.withFetchWord 32 0x60030102).canonical = true ∧
    step (State.reset.withFetchWord 32 0x60030102) = .next t := by
  have h : (State.reset.canonical && (State.reset.withFetchWord 32 0x60030102).canonical && (match step (State.reset.withFetchWord 32 0x60030102) with
      | .next _ => true
      | _ => false)) = true := by decide +kernel
  simp only [Bool.and_eq_true] at h
  obtain ⟨⟨h1, h2⟩, h3⟩ := h
  split at h3
  · rename_i t ht
    exact ⟨t, h1, h2, ht⟩
  · cases h3

theorem witness_DecodeEncode : ∃ i : Instr, i.wf = true ∧ i.hasWord = true ∧ i = .dfma none none (.v 10) (.v 2) (.vec (.v 4)) (some (.v 6)) :=
  ⟨_, by decide, by decide, rfl⟩

/-- iadd at slot 0 of a line that is translated and cached: the fetch, the offer, the selection and the execution. -/
theorem witness_StepRunsDecoded :
    let s := State.reset.withFetchWord 32 0x60030102
    let g := groupOf s
    let e := entryOf s
    let t := teamOf s
    let pc := e.pc.toNat
    (e.via ≠ .noSlot ∧ slotOfPc pc = some 0 ∧ pc < 2 ^ 48 ∧ Tbl.find? s.groups 0 = some g ∧ Tbl.find? g.entries 0 = some e ∧
      Tbl.find? s.teams g.team = some t ∧ e.wait = .run ∧ g.unresolved = none ∧
      g.ready e (.iadd none none (.v 3) (.v 1) (.vec (.v 2))) = true ∧ s.agenda = [.cycle 0 0]) ∧
    ((coreAt s t.core).tlb.find? (fun y => y.covers (teamAgent t) (pc / 128 * 128) && y.serves .exec &&
        !movedAway s.dev (y.pas (pc / 128 * 128)) && paReachable s.dev (y.pas (pc / 128 * 128)))).any (fun tl =>
      (Tbl.find? (coreAt s t.core).icache (tl.pas (pc / 128 * 128) / 128)).any fun x =>
        (lineBad x).isNone && (hStart (lineHead x)).getLsbD 0 && (hTarget (lineHead x)).getLsbD 0 &&
        (match scanWords Scan.start (((lineWords x).take (hUsed (lineHead x))).drop 0) with
         | some (_, w, rest) => w == 0x60030102 && rest.isEmpty
         | none => false)) = true ∧
    (match (fetchAt 0 0 t e).run s with
     | (.instr _ i _ _, u) => decide (i = .iadd none none (.v 3) (.v 1) (.vec (.v 2)) ∧ Tbl.find? u.groups 0 = some g)
     | _ => false) = true ∧
    (match (select 0 0).run { s with agenda := [] } with
     | ([(f, i)], u) => (match exec i { u with focus := some f } with
       | .next _ => true
       | _ => false)
     | _ => false) = true := by decide +kernel

/-! ### Witnesses: device events -/

/-- Queue 0 is enabled and active. -/
def queue0 : Queue := { Queue.reset with en := true, stat := qActive, size := 8 }

def withQueue (q : Nat) (x : Queue) (s : State) : State := onDev (fun d => { d with queues := Tbl.put d.queues q x, qdtbase := 0x900000 }) s

theorem witness_QueueService :
    let asking := onDev (fun d => { d with laneReqs := [0] :: d.laneReqs.drop 1 }) (withQueue 0 { queue0 with stat := qIdle, asked := true } probe)
    let p : Packet := { packet0 with words := packed [], phase := 0, running := 0 }
    let parsing := onDev (fun d => { d with lanes := [(0, 0)] :: d.lanes.drop 1, packets := [p] }) (withQueue 0 queue0 probe)
    let done := onDev (fun d => { d with packets := [{ p with phase := 2 }] }) (withQueue 0 { queue0 with inflight := 1 } probe)
    let w : Watch := { id := 5, slice := 0, entry := 0, part := 0, pa := 0x800000, w8 := true, mask := BitVec.allOnes 64, cmp := .eq,
                       comp := 77, kind := 1, token := 0, token2 := 0, polled := true, fired := none }
    let polling := fun (w : Watch) => onDev (fun d => { d with watches := [w] }) (withQueue 0 { queue0 with stat := qWaiting } probe)
    let holding := { w with comp := 0, mask := 0 }
    let full := onDev (fun d => { d with fns := [(0, { fnAt d 0 with cqs := [(2, { Cq.reset with buffer := (upTo 0 256).map fun _ => 0 })] })] })
      (polling { holding with kind := 3 })
    let inval : Packet := { packet0 with queue := 0x1000, words := packed [(0, 8), (128, 4), (305, 1)] }
    let invals := onDev (fun d => { d with packets := [inval] }) (withQueue 0x1000 queue0 probe)
    (nthD asking.dev.laneReqs 0 [] = [0] ∧ (queueAt asking.dev 0).en = true ∧ (queueAt asking.dev 0).stat ≠ qAborted ∧
      0 < asking.dev.lanes.length ∧ nthD asking.dev.lanes 0 [] = [] ∧ ∀ y ∈ asking.dev.packets, y.queue ≠ 0) ∧
    (nthD parsing.dev.lanes 0 [] = [(0, 0)] ∧ nthD parsing.dev.laneReqs 0 [] = [] ∧ parsing.dev.packets = [p] ∧ p.queue = 0 ∧
      p.phase = 0 ∧ pType p = 0 ∧ packetBad parsing.dev p = false ∧ (queueAt parsing.dev 0).stat = qActive) ∧
    (done.dev.packets = [{ p with phase := 2 }] ∧ p.index = 0 ∧ p.pg = none ∧ pRel p = 0 ∧ pCsop p = 0 ∧
      (queueAt done.dev 0).stat ≠ qWaiting) ∧
    ((polling w).dev.watches.find? (fun w => w.id == 5) = some w ∧ w.polled = true ∧ w.kind ≠ 0 ∧ w.fired = none ∧
      watchHolds w.w8 w.mask w.cmp w.comp (homeNat (polling w) w.pa (watchSize w.w8)) = false) ∧
    (∀ kind ∈ [1, 2, 3], let w := { holding with kind }
      (polling w).dev.watches.find? (fun w => w.id == 5) = some w ∧ w.polled = true ∧ w.kind ≠ 0 ∧ w.fired = none ∧
      watchHolds w.w8 w.mask w.cmp w.comp (homeNat (polling w) w.pa (watchSize w.w8)) = true ∧
      (queueAt (polling w).dev w.token).stat ≠ qAborted ∧ (polling w).dev.packets = [] ∧ laneOf (polling w).dev w.token = none ∧
      Buffers (polling w) w.token 2) ∧
    (full.dev.watches.find? (fun w => w.id == 5) = some { holding with kind := 3 } ∧ cqTakes full.dev 0 2 = false ∧
      watchHolds true 0 .eq 0 (homeNat full holding.pa 8) = true) ∧
    (invals.dev.packets = [inval] ∧ inval.phase = 1 ∧ pType inval = 8 ∧ packetBits inval.words 128 8 = 4 ∧
      packetBits inval.words 304 1 = 0 ∧ invals.dev.fle.reqs = [] ∧ invals.dev.fle.sori = [] ∧
      invals.dev.fle.queue = []) := by decide +kernel

/-- A launch of six teams with the kernel of the probe's team, alone in its partition. -/
def launching (clusters : Nat) (w : Nat) : State :=
  let k := { probeKernel with width := 32, groups := 1, baseBlk := 4 }
  let p := { packet0 with words := packed [(0, 1), (192, 0x7777), (352, w), (360, 1), (368, clusters)], kernel := some k, nextTeam := 3,
                          endTeam := 9, quota := openQuota }
  onDev (fun d => { d with packets := [p], nextId := 20 }) (withQueue 0 queue0 probe)

/-- A launch of single teams, one of clusters, each first of its kind; two teams to pre-empt, one in a handler; a restart. -/
theorem witness_Placement :
    let s := launching 0 0
    let c := launching 4 2
    ((waitingLaunches s.dev 0).filter (fun z => packetClt z == 0)).head?.any (fun p =>
      p.restarts.isEmpty && (packetAt s.dev p.queue p.index == some p) &&
      (orderOf s.dev p).any fun o => (findCore s o (barredCores s p) 1).any fun f => f.2.groups.length == 1) = true ∧
    ((waitingLaunches c.dev 0).filter (fun z => packetClt z != 0)).head?.any (fun p =>
      p.restarts.isEmpty && (packetAt c.dev p.queue p.index == some p) &&
      (orderOf c.dev p).any fun o =>
        (findPatch c o (barredCores c p) (upTo 0 (packetClt p)) true (packetClw p) (packetClh p)).isSome) = true ∧
    (∀ h : Bool, let s := onGroup (fun g => { g with hnd := h }) probe
     let g := groupOf s
     let u := teamOf s
     Tbl.find? s.teams g.team = some u ∧ Tbl.find? s.groups 0 = some g ∧ u.placed = true ∧ u.preempting = false ∧ u.groups = [0] ∧
       g.ending = false ∧ g.mshemit ≠ 2 ∧ NoLease s 0 g ∧ g.trapbase ≠ 0 ∧ g.hnd = h ∧
       recFits (stkTop u.kernel.priv) (g.snap.depth + g.snap.entries.length) = true) ∧
    (let r : Nat × Restart := (0, { index := 0, width := 32, halves := [], home := [], depth := 3, bseq := 2, arms := [], joins := [] })
     let team := (groupOf probe).team
     let again := onTeam (fun t => { t with placed := false, groups := [], restart := [r], preempting := true }) (launching 0 0)
     let t := onDev (fun d => { d with packets := d.packets.map fun p => { p with restarts := [team] } }) again
     (t.dev.packets.find? fun z => z.restarts.contains team).any (fun p => restartsFirst t p team &&
       (orderOf t.dev p).any fun o => (findCore t o (barredCores t p) 0).isSome) = true ∧
     (Tbl.find? t.teams team).any (fun u => u.clt == 0 && u.restart == [r]) = true) ∧
    (onDev (fun d => { d with zeroingFrames := [0x80] }) probe).dev.zeroingFrames.contains 0x80 = true := by decide +kernel

theorem witness_EngineCommands :
    let bad := { copy0 with words := (packed [(0, 5)]).take 4 }
    let faulted := { copy0 with phase := 1, team := 99, fault := some (1, 0x45000, 2) }
    let ended := { copy0 with phase := 3, team := (groupOf probe).team }
    let served := { copy0 with phase := 3, status := stOk, packet := some (0, 0) }
    let coll := { copy0 with port := portColl, words := (packed [(4, 1), (96, 1), (128, 64), (160, 0x40200), (208, 0x40100)]).take 4 }
    let badColl := { coll with words := (packed [(0, 7)]).take 4 }
    let here := fun (c : EngCmd) (copy : Bool) => findCmd (if copy then engines [c] [] probe else engines [] [c] probe) 0 copy 3 = some c
    (here copy0 true ∧ inProgress (dieAt (engines [copy0] [] probe) 0).copy < 64 ∧ behindOwn [copy0] copy0 = false ∧ copyBad copy0 = false ∧
      peerBad probe.dev copy0 = none ∧ copyBad bad = true) ∧
    (here faulted true ∧ here faulted false ∧ findRecord (engines [faulted] [] probe) 0 3 = none ∧
      findGroup probe faulted.team faulted.ident = none ∧ (dieAt (engines [faulted] [] probe) 0).copyRr = []) ∧
    (here ended true ∧ here ended false ∧ findRecord (engines [ended] [] probe) 0 3 = none ∧ (∀ z ∈ probe.groups, z.2.overflow = []) ∧
      ended.packet = none ∧ ended.remote = false ∧ (Tbl.find? probe.teams ended.team).isSome = true ∧
      completionHeld (engines [ended] [] probe) ended = false) ∧
    (let s := onDev (fun d => { d with held := [{ team := ended.team, ident := ended.ident, port := portCopyDone, entry := result0 }] })
       (engines [ended] [] probe)
     findCmd s 0 true 3 = some ended ∧ findRecord s 0 3 = none ∧ completionHeld s ended = true) ∧
    (here served true ∧ packetAt (onDev (fun d => { d with packets := [packet0] }) probe).dev 0 0 = some packet0 ∧ packet0.phase = 1) ∧
    (here badColl false ∧ badColl.set = 0 ∧ behindOwn [badColl] badColl = false ∧ collBad badColl = true) ∧
    (let c := { coll with phase := 1 }
     let s := engines [] [c] probe
     here c false ∧ c.set = 0 ∧ collBad c = false ∧ collPeerBad s.dev c = none ∧ unmatched s (collKey c) = [(0, c)] ∧ collCount c = 1 ∧
       s.dev.mismatched = [] ∧ disagree [(0, c)] = false) := by decide +kernel

/-- The hub's clock (R16) at n. -/
def atHub (n : Nat) (s : State) : State := onDev (fun d => { d with hub := n }) s

def key0 : PageKey := ⟨0, 0, 0x77, false⟩

def withFle (f : Fle) (s : State) : State := onDev (fun d => { d with fle := f }) s

theorem witness_FaultPath :
    let e : FilterEntry := { key := key0, cls := 1, acc := 3, waiters := [(0, 0)], sent := false, pred := false, hint := false }
    let s := onCore (fun c => { c with filter := [e] }) probe
    let z : StageEntry := { key := key0, cls := 1, acc := 3, count := 2, pred := false, sent := false }
    let a := withFle { Fle.reset with pol := 0 } (onDev id { probe with dies := [(1, { dieAt probe 1 with stage := [z] })] })
    let h := withFle { Fle.reset with hints := [(5, key0, 1, true)] } probe
    let x : Sorus := { state := 1, opened := 100, order := 0, pages := [FlePage.bare key0] }
    let closing := fun n => withFle { Fle.reset with sori := [(4, x)] } (atHub n probe)
    ((coreAt s 0).filter.find? (fun y => y.key.code == key0.code && !y.sent) = some e ∧ (dieAt s (dieOf 0)).stage = []) ∧
    ((dieAt a 1).stage = [z] ∧ z.key.code = key0.code ∧ a.dev.fle.sori = [] ∧ a.dev.fle.reqs = [] ∧ a.dev.fle.queue = [] ∧ a.dev.fle.pol.getLsbD 16 = false ∧
      a.dev.fle.pol.getLsbD 15 = false) ∧
    (h.dev.fle.hints = [(5, key0, 1, true)] ∧ h.dev.fle.sori = [] ∧ h.dev.fle.reqs = [] ∧ h.dev.fle.queue = []) ∧
    (x.state = 1 ∧ x.pages.any (fun y => y.doneSt == 0) = true ∧ x.opened + 5000 ≤ hubClock (closing 5100) ∧
      hubClock (closing 5099) < x.opened + 5000) := by decide +kernel

/-- A context entry (R39) of context 0 of partition 0 at 0x900000. -/
def withContext (s : State) : State :=
  onDev (fun d => { d with parts := [(0, { Part.reset 0 d with ctxtcount := 4, ctxtbase := 0x900000 })] })
    (withMem (stored 0x900000 (le 32 (1 + 0x901000)) []) s)

theorem witness_FaultPath_replies :
    let p := { FlePage.bare key0 with key := { key0 with page := 2 ^ 36 + 5 } }
    let x : Sorus := { state := 2, opened := 100, order := 0, pages := [p] }
    let s := withFle { Fle.reset with sori := [(4, x)] } (withContext probe)
    let r : PageReq := { fn := 0, vf := 0, tag := 9, page := { FlePage.bare key0 with pred := false, doneSt := 2 } }
    let u := withFle { Fle.reset with reqs := [r] } probe
    (s.dev.fle.sori = [(4, x)] ∧ p.doneSt = 0 ∧ p.held = false ∧ p.pred = true ∧ s.dev.moves = [] ∧ s.dev.fle.queue = [] ∧
      s.dev.fle.reqs = [] ∧ p.key.s2 = false ∧ (readCtx s p.key.part p.key.ctx).isSome = true ∧ 2 ^ 36 ≤ p.key.page) ∧
    hostDeaf u.dev = false ∧
    (replyOk 0 (9 + 2 ^ 26) = false ∧ replyTo u.dev.fle 0 8 = none ∧ Buffers u 0 0) ∧
    (replyOk 0 9 = true ∧ replyTo u.dev.fle 0 9 = some r ∧ readCtx u r.page.key.part r.page.key.ctx = none ∧
      replyOk 0 (9 + 2 ^ 24) = true ∧ bits (9 + 2 ^ 24 : Word64) 24 2 ≠ 0) := by decide +kernel

/-- An admin page of a partition: a context entry, two levels of tables and the word they lead to (R39 to R42, R100). Partition 0
keeps a few resources for itself. -/
def adminOf (part : Nat) (f : Part → Part) : State :=
  let entry := 1 + 0x901000 + part * 2 ^ 192 + (if part = 0 then 0 else 2 ^ 64 + 0x901 * 2 ^ 76)
  let pf := { Part.reset 0 probe.dev with ctxtcount := 4, ctxtbase := 0x900000, coreset := 1, pqueue := 0x00010000, pframes := 0,
                                          pways := 1, pwatch := 1 }
  let own := { Part.reset part probe.dev with ctxtcount := 4, ctxtbase := 0x900000, padmw := 0x800100, padmr := 8 }
  onDev (fun d => { d with qdtbase := 0xA00000, parts := Tbl.put [(0, pf)] part (f own) })
    (withMem (stored 0x900000 (le 32 entry) <| stored 0x901000 (le 8 (1 + 0x902000)) <| stored 0x902000 (le 8 0x1F3) <|
      stored 0x800100 [7] []) probe)

/-- The admin read of a partition answers. -/
def readsAdmin (s : State) (part : Nat) : Bool :=
  match (cdpRead (adminAgent s part) (partAt s.dev part).padmw.toNat 8).run s with
  | (.ok _, _) => true
  | _ => false

/-- A record in slot 5 waits on the page of key0, whose request 9 is out. -/
def awaiting : State :=
  let z := { record 0x100 0x77000 with pages := [(0x77, 1)] }
  let e : FilterEntry := { key := key0, cls := 1, acc := 3, waiters := [(0, 5)], sent := true, pred := false, hint := false }
  let req : PageReq := { fn := 0, vf := 0, tag := 9, page := { FlePage.bare key0 with pred := false, doneSt := 2 } }
  onCore (fun c => { c with filter := [e] }) (withRecords false [(5, z)] (withFle { Fle.reset with reqs := [req] } (adminOf 0 id)))

/-- What a table gives is its default or stands in it. -/
theorem getD_cases {α : Type} (l : Tbl α) (k : Nat) (d : α) : Tbl.getD l k d = d ∨ (k, Tbl.getD l k d) ∈ l := by
  induction l with
  | nil => exact .inl rfl
  | cons x l ih =>
    by_cases h : x.1 = k
    · subst h; exact .inr (by simp [Tbl.getD, Tbl.find?])
    · rcases ih with ih | ih
      · exact .inl (by simpa [Tbl.getD, Tbl.find?, h] using ih)
      · exact .inr (by simpa [Tbl.getD, Tbl.find?, h] using .inr ih)

/-- The hypotheses of `WaitsOn`, as a test. -/
def waits (s : State) (core w slot : Nat) (z : RrSlotState) (key : PageKey) : Bool :=
  ((coreAt s core).filter.length == 1 && (coreAt s core).filter.all fun e => e.key == key && e.waiters == [(w, slot)]) &&
  s.cores.all (fun x => x.1 == core || x.2.filter.isEmpty) && (Tbl.find? s.groups w).any (fun g => Tbl.find? g.rr slot == some z) &&
  decide (z.stat = rrParked ∧ ∀ p ∈ z.pages, isPage key p = true) && s.groups.all (fun y => y.2.overflow.isEmpty) &&
  s.dies.all (fun d => d.2.copyRr.isEmpty) && (parkedOn s.dev key).isEmpty && s.dev.peerWaits.isEmpty

theorem waitsOn_of {s core w slot z key} (h : waits s core w slot z key = true) : WaitsOn s core w slot z key := by
  unfold waits at h
  simp only [Bool.and_eq_true, beq_iff_eq, List.all_eq_true, decide_eq_true_eq, List.isEmpty_iff, Bool.or_eq_true, Option.any_eq_true] at h
  obtain ⟨⟨⟨⟨⟨⟨⟨⟨h1, h2⟩, h3⟩, g, h4, h5⟩, h6⟩, h7⟩, h8⟩, h9⟩, h10⟩ := h
  refine ⟨?_, fun k hk => ?_, ⟨g, h4, h5⟩, h6, h7, fun k => ?_, h9, h10⟩
  · match hl : (coreAt s core).filter, h1 with
    | [e], _ => exact ⟨e, rfl, by simpa [hl] using h2⟩
  · rcases getD_cases s.cores k Core.reset with h | h
    · unfold coreAt; rw [h]; rfl
    · exact (h3 _ h).resolve_left hk
  · rcases getD_cases s.dies k Die.reset with h | h
    · unfold dieAt; rw [h]; rfl
    · exact h8 _ h

theorem witness_FaultPath_outcomes :
    let z := { record 0x100 0x77000 with pages := [(0x77, 1)] }
    let req : PageReq := { fn := 0, vf := 0, tag := 9, page := { FlePage.bare key0 with pred := false, doneSt := 2 } }
    let s1 := ((tagRecords key0 0xFFFF).run (withFle Fle.reset awaiting)).2
    (hostDeaf awaiting.dev = false ∧ replyOk 0 9 = true ∧ replyOk 0 (9 + 2 ^ 24) = true ∧ replyTo awaiting.dev.fle 0 9 = some req ∧
      bits (9 : Word64) 24 2 = 0 ∧ bits (9 + 2 ^ 24 : Word64) 24 2 = 1 ∧ z.unit = 0 ∧
      (match (probePage key0).run s1 with
       | (.leaf site _ above, u) => (match pageLack key0 req.page site.e above with
         | .ok none => waits u 0 0 5 z key0
         | _ => false)
       | _ => false) = true) ∧
    WaitsOn awaiting 0 0 5 z key0 :=
  ⟨by decide +kernel, waitsOn_of (by decide +kernel)⟩

/-- A ring of 16 with 8 entries left, with 7, and none. -/
theorem witness_FaultPath_tables :
    let pt := fun (size tail : Nat) => { Part.reset 1 probe.dev with tfrsize := size, tfrtail := BitVec.ofNat 32 tail }
    hostDeaf probe.dev = false ∧ 8 ≤ ringLeft (pt 16 8) ∧ ringLeft (pt 16 7) < 8 ∧ ringSize (pt 16 7) ≠ 0 ∧ Buffers probe 1 0 ∧
      ringSize (pt 0 0) = 0 := by decide +kernel

/-- A page that is handed over, and a frame that hands back; one held back by a lease; a sector filled, and one whose frame is being
zeroed; a frame taken into service, and written back; counters that are due and not. -/
theorem witness_PageCacheEvents_moves :
    let f := { Frame.new 1 0 2 with leaf := [(3, 0x900000)] }
    let m : Move := { id := 6, part := 0, kind := 0, frame := 0x80, sector := 3, step := 2, handing := false,
                      ranges := [(0x800000, 0x801000)], tables := [], leaves := [0x900000], inval := false, key := some key0 }
    let at_ := fun (f : Frame) (m : Move) => onDev (fun d => { d with moves := [m], frames := [(0x80, f)], poolPorts := 1 }) probe
    let s := at_ f m
    let back := at_ { f with state := 4 } { m with kind := 1 }
    let leased := fun (s : State) (lo : Nat) => onDev (fun d => { d with leases := [(lo, hold0)] }) s
    let keyed := onDev (fun d => { d with ports := modNth d.ports 0 fun p =>
      ({ p with ctl := setBit (setBits (setBit p.ctl 0) 2 2 2) 10, stat := setBits p.stat 12 2 1 } : Port).withState 2 }) s
    let filling := at_ f { m with step := 3 }
    let zeroing := onDev (fun d => { d with zeroingFrames := [0x80] }) filling
    let e := { f with state := 4, dirty := 9, valid := 0xFFFF }
    let w := { m with kind := 1, step := 3, inval := true, key := none }
    (s.dev.moves = [m] ∧ m.kind = 0 ∧ m.kind < 2 ∧ m.step < 3 ∧ Tbl.find? s.dev.frames m.frame = some f ∧
      leasedIn s.dev (blockPa f.blk 0) 65536 = false ∧ awaitsPort s.dev (blockPa f.blk 0) = false ∧ s.dev.watches = [] ∧
      leasedIn (leased s (blockPa f.blk 0)).dev (blockPa f.blk 0) 65536 = true ∧ awaitsPort keyed.dev (blockPa f.blk 0) = true ∧
      Tbl.find? back.dev.frames 0x80 = some { f with state := 4 } ∧ leasedIn back.dev 0x800000 65536 = false ∧
      awaitsPort back.dev 0x800000 = false ∧ leasedIn (leased back 0x800000).dev 0x800000 65536 = true) ∧
    (Tbl.find? filling.dev.frames 0x80 = some f ∧ f.state = 2 ∧ f.valid.getLsbD 15 = false ∧ blockServed filling.dev 0x80 = true ∧
      filling.dev.moves = [{ m with step := 3 }] ∧ zeroing.dev.zeroingFrames.contains 0x80 = true ∧
      blockServed zeroing.dev 0x80 = true ∧ filling.dev.zeroingFrames.contains 0x80 = false) ∧
    (Tbl.find? (at_ e w).dev.frames 0x80 = some e ∧ (at_ e w).dev.moves = [w] ∧ w.kind = 1 ∧ w.frame = 0x80 ∧ w.step = 3 ∧
      w.inval = true ∧ (at_ e w).dev.poolPorts ≠ 0) ∧
    (Tbl.wf probe.dev.counters = true ∧ (atHub 2500000 probe).dev.decayed + 2500000 ≤ hubClock (atHub 2500000 probe) ∧
      hubClock (atHub 2499999 probe) < (atHub 2499999 probe).dev.decayed + 2500000) := by decide +kernel

/-- Clean and dirty lines of a core near their home and far from it, of the RDC, stale and not, and of a team's frames. -/
theorem witness_PageCacheEvents_lines :
    let n := 0x800000 / 128
    let s := fun (c : CLine) => onCore (fun x => { x with l1 := [(2 * n, c)] }) probe
    let far := { probe with cores := [(100, { coreAt probe 0 with l1 := [(2 * n, dirtyLine)] })] }
    let rdc := fun (c : CLine) => { probe with dies := [(1, { dieAt probe 1 with rdc := [(rdcKey n 0, c)] })] }
    let clean := { dirtyLine with dirty := 0 }
    let stale := { clean with stamp := 6 }
    let team := (groupOf probe).team
    (2 * n < 2 ^ 48 ∧ Tbl.find? (coreAt (s clean) 0).l1 (2 * n) = some clean ∧ clean.dirty = 0) ∧
    (Tbl.find? (coreAt (s dirtyLine) 0).l1 (2 * n) = some dirtyLine ∧ dirtyLine.dirty ≠ 0 ∧ isLocal (2 * n / 2 * 128) = true ∧
      homeOnDie (s dirtyLine) (2 * n / 2 * 128) (dieOf 0) = true) ∧
    (Tbl.find? (coreAt far 100).l1 (2 * n) = some dirtyLine ∧ homeOnDie far (2 * n / 2 * 128) (dieOf 100) = false ∧
      (match (rdcRoom (dieOf 100) dirtyLine.part (2 * n / 2)).run far with
       | (some _, t) => decide (t = far)
       | _ => false) = true) ∧
    (team ≠ 0 ∧ Tbl.find? probe.teams team = some (teamOf probe) ∧ (teamOf probe).placed = true ∧ (teamOf probe).core = 0) ∧
    (Tbl.find? (dieAt (rdc clean) 1).rdc (rdcKey n 0) = some clean ∧ Tbl.find? (dieAt (rdc dirtyLine) 1).rdc (rdcKey n 0) = some dirtyLine ∧
      isLocal (128 * rdcLine (rdcKey n 0)) = true ∧ rdcStale (clockAt (rdc stale) 1) stale = true ∧
      rdcStale (clockAt (rdc clean) 1) clean = false) := by
  decide +kernel

theorem witness_quiet : Quiet probe := quiet_of (by decide +kernel)

/-- A port with its STATE, enabled, in a role. -/
def portAs (n state role : Nat) : State :=
  onDev (fun d => { d with poolPorts := 0xFF, ports := modNth d.ports n fun p =>
    ({ p with ctl := setBits (setBit p.ctl 0) 2 2 role } : Port).withState state }) probe

/-- The port has run before. -/
def ranBefore (n : Nat) (s : State) : State := onDev (fun d => { d with ports := modNth d.ports n fun p => { p with ran := true } }) s

/-- The port's deadline. -/
def due5000 (n : Nat) (s : State) : State := onDev (fun d => { d with ports := modNth d.ports n fun p => { p with deadline := 5000 } }) s

theorem witness_PackageEvents :
    let changing := { probe with dies := [(1, { dieAt probe 1 with changing := some 2 })] }
    let training := portAs 2 1 2
    let recovering := fun n => atHub n (due5000 7 (portAs 7 3 2))
    ((dieAt changing 1).changing = some 2) ∧
    ((∀ k < 9, 0 < k → (partAt probe.dev k).pctl.getLsbD 0 = false) ∧ (partAt probe.dev 0).pctl.getLsbD 0 = true ∧
      (queueAt probe.dev (bits (partAt probe.dev 0).pqueue 0 13)).en = false ∧ (partAt probe.dev 0).withheld < 63 ∧
      (atHub 25000 probe).dev.estimated + 25000 ≤ hubClock (atHub 25000 probe) ∧
      hubClock (atHub 24999 probe) < (atHub 24999 probe).dev.estimated + 25000) ∧
    ((dieAt probe 1).thermal = false ∧ Buffers probe 0 0) ∧
    (hostDeaf probe.dev = false ∧ (portAt probe.dev 1).enabled = false ∧ (nextCtl 1 false (portAt probe.dev 1).ctl 0x415).getLsbD 0 = true ∧
      (nextCtl 2 false (portAt training.dev 2).ctl 0x410).getLsbD 0 = false) ∧
    (2 < training.dev.ports.length ∧ (portAt training.dev 2).enabled = true ∧ (portAt training.dev 2).role = 2 ∧
      (portAt training.dev 2).lost = false ∧ (portAt training.dev 2).state = 1 ∧ (portAt training.dev 2).ran = false ∧
      trainingGood training.dev.boot 2 (portAt training.dev 2) 1 2 1 false = true ∧
      trainingGood training.dev.boot 2 (portAt training.dev 2) 0 2 1 false = false) ∧
    ((portAt (ranBefore 2 training).dev 2).ran = true ∧ (portAt (ranBefore 2 training).dev 2).state = 1 ∧
      (ranBefore 2 training).dev.frames = [] ∧ Buffers (ranBefore 2 training) 0 0) ∧
    ((portAt (portAs 7 2 2).dev 7).state = 2 ∧ (portAt (recovering 5000).dev 7).state = 3 ∧ (portAt (recovering 5000).dev 7).role = 2 ∧
      (recovering 5000).dev.frames = [] ∧ Buffers (recovering 5000) 0 0 ∧
      (portAt (recovering 5000).dev 7).deadline ≤ hubClock (recovering 5000) ∧
      hubClock (recovering 5000) ≤ (portAt (recovering 5000).dev 7).deadline ∧
      (portAt (recovering 5001).dev 7).deadline < hubClock (recovering 5001) ∧
      hubClock (recovering 4999) < (portAt (recovering 4999).dev 7).deadline) ∧
    (probe.dev.links.any (fun l => !l.failed && decide (l.replays < 16)) = true ∧ (portAt probe.dev 0).state ≠ 2) ∧
    (isLocal 0x800100 = true ∧ paExists probe.dev 0x800100 = true ∧ ctlRefused 0 0x615 = true ∧ ctlRefused 0 0x415 = false) := by
  decide +kernel

/-- A link that has replayed 16 times already. -/
theorem witness_PackageEvents_link :
    let s := onDev (fun d => { d with links := modNth d.links 3 fun l => { l with replays := 16 } }) probe
    (s.dev.links[3]?).any (fun l => !l.failed && decide (16 ≤ l.replays)) = true ∧ (portAt s.dev 0).state ≠ 2 := by decide +kernel

/-- Completion queue 0 of a function. -/
def withCq (fn : Nat) (c : Cq) : State := onDev (fun d => { d with fns := Tbl.put d.fns fn { fnAt d fn with cqs := [(0, c)] } }) probe

theorem witness_HostRegisters :
    let due := { Cq.reset with ctl := 0x80000008, unann := 3, irq := BitVec.ofNat 32 (5 * 2 ^ 18) }
    let deaf := onDev (fun d => { d with boot := { d.boot with stopped := true } }) probe
    let narrow := onDev (fun d => { d with ports := modNth d.ports 2 fun p => { p with flit68 := true } }) (portAs 2 2 2)
    (hostDeaf probe.dev = false ∧ hostDeaf deaf.dev = true ∧ hostDeaf (portAs 0 4 1).dev = true) ∧
    (hasCq 1 0 = true ∧ (cqAt (withCq 1 Cq.reset).dev 1 0).buffer = [] ∧ (cqAt (withCq 1 Cq.reset).dev 1 0).unann = 0 ∧
      (cqAt (withCq 1 Cq.reset).dev 1 0).enabled = false ∧ (withCq 1 Cq.reset).dev.watches = [] ∧ hostDeaf (withCq 1 Cq.reset).dev = false ∧
      (0x80000004 : BitVec 32).getLsbD 31 = true ∧
      4 ≤ bits (0x80000004 : BitVec 32) 0 5 ∧ bits (0x80000010 : BitVec 32) 0 5 ≤ 16) ∧
    ((cqAt (withCq 1 due).dev 1 0).unann ≠ 0 ∧ due.since + 2500 * bits due.irq 8 10 ≤ hubClock (withCq 1 due) ∧
      (fnAt (withCq 1 due).dev 1).masked.getLsbD (bits due.irq 18 11) = true) ∧
    (stateWord? probe 0 0 0).isSome = true ∧
    (hostDeaf (portAs 2 2 2).dev = false ∧ (portAt (portAs 2 2 2).dev 2).state = 2 ∧ 2 < (portAs 2 2 2).dev.ports.length ∧
      (portAt (portAs 2 2 2).dev 2).flit68 = false ∧ (portAt narrow.dev 2).state = 2 ∧ (portAt narrow.dev 2).flit68 = true) ∧
    ((partAt probe.dev 8).enabled = false ∧ (partAt probe.dev 1).enabled = false ∧ enableOk probe 1 = false) := by decide +kernel

theorem witness_HostRegisters_partitions :
    let s := adminOf 1 fun p => { p with coreset := 2, pqueue := 0x00020005, pframes := 0, pways := 2, pwatch := 2 }
    let on := adminOf 1 fun p => { p with pctl := 1 }
    let torn := { adminOf 1 (fun p => { p with pctl := 1, tearing := true }) with teams := [], groups := [] }
    let z := adminOf 0 id
    ((partAt s.dev 1).enabled = false ∧ enableOk s 1 = true ∧ readsAdmin s 1 = true) ∧
    ((partAt on.dev 1).enabled = true ∧ (partAt on.dev 1).tearing = false) ∧
    (tornDown torn 1 = true ∧ torn.dev.moves = [] ∧ Buffers torn 0 0 ∧ tornDown on 1 = false) ∧
    ((queueAt z.dev (partAt z.dev 0).firstQueue).en = false ∧ readsAdmin z 0 = true ∧
      adminOk z 0 (BitVec.ofNat 64 (bits (0x45008 : Word64) 12 36 * 4096 + bits (0x45008 : Word64) 0 5)) = true) := by decide +kernel

/-- Port 0 up in a protocol (R31: 1 CXL, 2 PCIe), its traffic keyed. -/
def hostPort (proto : Nat) : State :=
  onDev (fun d => { d with poolPorts := 1, ports := modNth d.ports 0 fun p =>
    ({ p with stat := setBit (setBits p.stat 12 2 proto) 14, streams := [(0, (proto == 1, true))] } : Port).withState 2 }) probe

/-- Port 3 up for peers. -/
def peerPort (s : State) : State :=
  onDev (fun d => { d with ports := modNth d.ports 3 fun p => ({ p with ctl := setBits p.ctl 2 2 3 } : Port).withState 2 }) s

theorem witness_HostMemory :
    (pcieMode (hostPort 2).dev = true ∧ (hostPort 2).dev.window = [] ∧ 0x800100 % dieSpan < directoryStart (hostPort 2).dev (0x800100 / dieSpan) ∧
      Tbl.find? (hostPort 2).dev.frameOwner (0x800100 / 65536) = none) ∧
    (cxlMode (hostPort 1).dev = true ∧ isHdm (hostPort 1).dev (lineOf 0x800100) = true ∧ hostWaits (hostPort 1) (lineOf 0x800100) = false ∧
      Tbl.find? (hostPort 1).dev.frameOwner (0x800100 / 65536) = none) ∧
    (isPool (poolBase + 0x100) = true ∧ (poolBase + 0x100) % 128 = 0 ∧ (hostPort 1).dev.poolPorts ≠ 0 ∧ (hostPort 1).dev.frames = [] ∧
      (hostPort 1).dev.moves = [] ∧ (hostPort 1).dev.leases = [] ∧ (hostPort 1).dev.watches = []) ∧
    (isHost (hostBase + 0x100) = true ∧ (hostBase + 0x100) % 128 = 0 ∧ cxlMode (hostPort 1).dev = true ∧
      cxlMode (hostPort 2).dev = false) ∧
    peerUp probe.dev = false ∧
    (let p := { packet0 with queue := 6, pg := some ⟨[], 0⟩ }
     let s := peerPort (onDev (fun d => { d with packets := [p] }) probe)
     peerUp s.dev = true ∧ s.dev.packets = [p] ∧ p.pg.isSome = true ∧ 1 ≤ p.phase ∧ p.phase < 5) := by decide +kernel

/-- A queue of context 0 whose words a peer writes. -/
theorem witness_HostMemory_peer :
    let s := peerPort (adminOf 0 id)
    peerUp s.dev = true ∧ (0x800100 : Word64).toNat % 64 + 4 ≤ 64 ∧
      (match (cdpPlace (queueAgent s 0) (0x800100 : Word64).toNat .write).run s with
       | (.ok pa, u) => quiet u && isLocal pa
       | _ => false) = true := by decide +kernel

theorem witness_HostMemory_held :
    let s := onDev (fun d => { d with heldBirsp := [(0x800100, false)], hostLines := [(0x800100, (true, 3))] }) probe
    Quiet (hostPort 1) ∧ Quiet (hostPort 2) ∧ Tbl.find? s.dev.heldBirsp 0x800100 = some false ∧
      Tbl.find? s.dev.hostLines 0x800100 = some (true, 3) :=
  ⟨quiet_of (by decide +kernel), quiet_of (by decide +kernel), by decide +kernel, by decide +kernel⟩

/-! ### Single steps with results that the spec gives -/

/-- A lane of a register after an instruction. -/
def vAfter (i : Instr) (s : State) (n l : Nat) : Word32 := lane ((groupOf (after i s)).vreg n) l

def vregs (l : Tbl Row) (s : State) : State := onGroup (fun g => { g with v := l }) s

/-- R354, R355: −1 + 2 wraps to 1; under SAT −2³¹ − 1 stays −2³¹ and sets ISAT. -/
theorem test_iadd_wraps_isub_clamps :
    let s := vregs [(1, rowOf fun _ => 0xFFFFFFFF), (2, rowOf fun _ => 2), (3, rowOf fun _ => 0x80000000), (4, rowOf fun _ => 1)] probe
    let sub : Instr := .isub (some ⟨true, false, false, true, false, 0, 0, false, false, 0⟩) none (.v 5) (.v 3) (.vec (.v 4))
    vAfter (.iadd none none (.v 5) (.v 1) (.vec (.v 2))) s 5 31 = 1 ∧ vAfter sub s 5 0 = 0x80000000 ∧
      (groupOf (after sub s)).flags = fISAT := by decide +kernel

/-- R354: shift amounts of 32 and above; a high product of negative numbers. -/
theorem test_shifts_and_high_product :
    let s := vregs [(1, rowOf fun _ => 0x80000000), (2, rowOf fun _ => 32), (3, rowOf fun _ => 33), (4, rowOf fun _ => 0xFFFFFFFE)] probe
    vAfter (.shl none none (.v 5) (.v 1) (.vec (.v 2))) s 5 0 = 0 ∧ vAfter (.shr none none (.v 5) (.v 1) (.vec (.v 2))) s 5 0 = 0 ∧
      vAfter (.sar none none (.v 5) (.v 1) (.vec (.v 2))) s 5 0 = 0xFFFFFFFF ∧
      vAfter (.rot none none (.v 5) (.v 1) (.vec (.v 3))) s 5 0 = 1 ∧
      vAfter (.imulh none none (.v 5) (.v 4) (.vec (.v 3))) s 5 0 = 0xFFFFFFFF ∧
      vAfter (.imulhu none none (.v 5) (.v 4) (.vec (.v 3))) s 5 0 = 32 := by decide +kernel

/-- R350: the byte operand is signed; R352: a width of 0 means 64. R302: zero reads 0 and a discarded result goes nowhere. -/
theorem test_scalar_operands :
    let s := sregs [(5, 5), (7, 0xFFFFFFFF00000000)] probe
    (groupOf (after (.sadd none none (.s 5) (.s 5) (.byte 0xFF)) s)).sreg 5 = 4 ∧
      (groupOf (after (.sbfx none none (.s 2) (.s 7) (.byte 32) 0) s)).sreg 2 = 0xFFFFFFFF ∧
      (groupOf (after (.sbfx none none (.s 2) (.s 7) (.byte 40) 16) s)).sreg 2 = 0xFFFF ∧
      (groupOf (after (.sadd none none .discard .zero (.byte 1)) s)).s = [(5, 5), (7, 0xFFFFFFFF00000000)] := by decide +kernel

/-- R302: a write to p0 is ignored, and p0 reads 1. -/
theorem test_p0 :
    (groupOf (after (.scmpNe none none 0 .zero (.byte 0)) probe)).preg 0 = BitVec.allOnes 64 ∧
      (groupOf (after (.pop none .mov 5 0 0) probe)).preg 5 = allLanes 32 := by decide +kernel

/-- R373, the example: 20, about 1.1 and −5 quantised to MXFP4 and back. -/
theorem test_mxq_mxdq :
    let row : Row := [0x41A00000, 0x3F8CCCCD, 0xC0A00000] ++ (upTo 3 61).map fun _ => 0
    let s := after (.mxq none (some (.i22 5)) (.v 10) (.v 2) .imm (some 11)) (vregs [(2, row)] probe)
    let t := after (.mxdq none (some (.i22 5)) (.v 12) (.v 10) .imm (some 11)) { s with focus := some focus0 }
    ((upTo 0 4).map (lane ((groupOf s).vreg 10)) = [7, 1, 0xB, 0]) ∧ lane ((groupOf s).vreg 11) 31 = 0x81 ∧ (groupOf s).flags = fNX ∧
      (upTo 0 4).map (lane ((groupOf t).vreg 12)) = [0x41C00000, 0x40000000, 0xC0C00000, 0] := by decide +kernel

/-- R378, the example: 2²⁴ and thirty-one ones, added in lane order to nearest and upwards. -/
theorem test_red_order :
    let s := vregs [(2, (0x4B800000 : Word32) :: (upTo 1 63).map fun _ => 0x3F800000)] probe
    let up : Option Mod := some ⟨true, false, false, false, false, 2, 0, false, false, 0⟩
    vAfter (.red none (.v 5) (.v 2) .fadd) s 5 9 = 0x4B800000 ∧ vAfter (.red up (.v 5) (.v 2) .fadd) s 5 9 = 0x4B80001F ∧
      vAfter (.scan up (.v 5) (.v 2) .fadd) s 5 9 = 0x4B800009 ∧ (groupOf (after (.red none (.v 5) (.v 2) .fadd) s)).flags = fNX := by
  decide +kernel

/-- R287, R363, R366: 1 + 2⁻²⁴ to nearest and upwards; −0 = +0; a quiet NaN sets NV in lt, not in eq. -/
theorem test_float :
    let s := vregs [(1, rowOf fun _ => 0x3F800000), (2, rowOf fun _ => 0x33800000), (3, rowOf fun _ => 0x80000000),
      (4, rowOf fun _ => 0x7FC00000)] probe
    let up : Option Mod := some ⟨true, false, false, false, false, 2, 0, false, false, 0⟩
    vAfter (.fadd none none (.v 5) (.v 1) (.vec (.v 2))) s 5 0 = 0x3F800000 ∧
      vAfter (.fadd up none (.v 5) (.v 1) (.vec (.v 2))) s 5 0 = 0x3F800001 ∧
      (groupOf (after (.fcmpEq none none 1 (.v 3) (.vec (.v 9))) s)).preg 1 = allLanes 32 ∧
      (groupOf (after (.fcmpEq none none 1 (.v 4) (.vec (.v 1))) s)).flags = 0 ∧
      (groupOf (after (.fcmpLt none none 1 (.v 4) (.vec (.v 1))) s)).flags = fNV := by decide +kernel

/-- R187, R339: a software trap saves the next PC and the code, and the handler runs at TRAPBASE with MODE 0. -/
theorem test_trap :
    let g := groupOf (after (.trap none 0x2A) probe)
    g.xinfo = 0x10014 * 65536 + 0x2A ∧ g.xpc = 0x10010 ∧ g.hnd = true ∧ (entryOf (after (.trap none 0x2A) probe)).pc = g.trapbase ∧
      g.depth = 2 := by decide +kernel

/-- R340: the return goes to XPC, which the handler has set. -/
theorem test_xret :
    let s := { after (.swr none (.s 4) .xpc) (sregs [(4, 0x10014)] inHandler) with focus := some focus0 }
    (entryOf (after (.xret none) s)).pc = 0x10014 ∧ (groupOf (after (.xret none) s)).hnd = false := by decide +kernel

/-- R324: lanes 0 and 31 go to slot 7 of the third line on, in the lowest free entry; the join lies a line on. -/
theorem test_diverge :
    let t := after (.brD none 5 false 3 7 0x20) (pregs [(5, 0x80000001)] probe)
    (groupOf t).entries.map (fun x => (x.1, x.2.pc, x.2.mask, x.2.join)) =
      [(0, 0x10014, 0x7FFFFFFE, 0x10090), (1, 0x10000 + 384 + 16 + 28, 0x80000001, 0x10090)] := by decide +kernel

/-- R389, R387: bytes lie least significant first; of lanes on one word the highest wins. -/
theorem test_tile_order :
    let s := onGroup (fun g => { g with v := [(4, rowOf fun _ => 0x100), (8, rowOf fun l => 0x01020300 + l)] }) (addressing 0 0 0)
    let t := after (.st none none (.v 8) (.pair 4) .b32 false .tile none) s
    (upTo 0x100 4).map (tileByte t (groupOf s).team) = [0x1F, 3, 2, 1] := by decide +kernel

/-- R391, the example of three lanes on one word: 10 becomes 11, 13 and 16, and the old values come back in lane order. -/
theorem test_atomic_order :
    let s := onEntries (fun e => { e with mask := 7 })
      (onGroup (fun g => { g with v := [(4, rowOf fun _ => 0x40000), (10, rowOf fun l => l + 1)] }) (addressing 0 0 2))
    let t := after (.atom none none (.v 9) (.pair 4) .add false .glob (some ⟨.v 10, false, .dev⟩)) (withMem (stored 0x800000 [10] s.mem) s)
    let u := after (.loadComplete 0 s.dev.nextId) t
    t.mem.get 0x800000 = 16 ∧ (upTo 0 3).map (lane ((groupOf u).vreg 9)) = [10, 11, 13] := by decide +kernel

/-- R334: the halves of a group of 32 lanes, D 0 and 1. -/
theorem test_wsplit :
    let t := after (.wsplit none (.s 9)) (vregs [(1, rowOf id)] probe)
    let hi := Tbl.getD t.groups (upperKey 0 16) (groupOf t)
    (groupOf t).width = 16 ∧ (groupOf t).sreg 9 = 0 ∧ hi.sreg 9 = 1 ∧ lane (hi.vreg 1) 15 = 31 ∧ lane ((groupOf t).vreg 1) 15 = 15 := by
  decide +kernel

/-- R292, the example of two roundings in one chunk: 2³³ + 512 ties to even, the sum being rounded first. -/
theorem test_two_roundings :
    let d := packed [(125, 0), (121, 0), (119, 1)]
    let ch : Chunk := { depth := 0, a := [(0x58 : Byte) :: 1 :: (upTo 2 126).map fun _ => 0], b := [(0x60 : Byte) :: 1 :: (upTo 2 126).map fun _ => 0],
                        sa := [], sb := [] }
    (accStep d ch 0x50000000 0 0).1 = 0x50000000 := by decide +kernel

/-- R267: the first word of the published algorithm for counter and key 0 is 0x6627E8D5, so ξ = 0x6627E8 × 2⁻²⁴. -/
theorem test_philox : philoxDraw 0 0 0 0 = 0x3ECC4FD0 := by decide +kernel

/-- Chapter 10, the example of a null collision and a scatter: medium, table and ray as it gives them. -/
theorem test_vmarch :
    let medium := le 8 0x2000 ++ le 8 0x3000 ++ le 8 0x4000 ++ le 4 5 ++ le 2 4 ++ le 2 1 ++ le 2 1 ++ le 2 4 ++ le 2 1 ++ le 2 1 ++
      le 12 0 ++ le 4 0x3F800000 ++ le 4 0x3F800000 ++ le 4 0x3F800000 ++ le 4 0x3F4CCCCD ++ le 4 0x3F800000 ++ [4]
    let m := stored 0x801000 medium <| stored 0x802000 (le 4 0 ++ le 4 0x40000000 ++ le 4 0x40000000 ++ le 4 0x40000000) <|
      stored 0x803000 (le 2 0 ++ le 2 0x3C00 ++ le 2 0x3C00 ++ le 2 0x3C00) <|
      stored 0x804000 (le 4 0x3F000000 ++ le 4 0x3F400000 ++ le 4 0x3F000000 ++ le 4 0x3E800000 ++ le 4 0x3F400000) []
    let s := sregs [(7, 0x1000)] (vregs [(1, rowOf fun _ => 0x3F000000), (2, rowOf fun _ => 0x3F000000), (3, rowOf fun _ => 0x3F800000),
      (7, rowOf fun _ => 0x41200000)] (withMem m rendering))
    (ctxOf s none).map (fun c => ((rndLanes (.rndVmarch none none 24 0 7) (c.job c.act) fun _ => none).run s).1.map fun x => match x.2 with
      | .done ws _ => ws
      | _ => []) = some [[1, 0x3FD8B90C, 0x3FD8B90C, 0x3F000000, 0x3F000000, 1, 0, 5, 0]] := by decide +kernel


end Sys2Proof.Tests
end

section
/-! SUPPORT. What every step keeps: an instruction, a selection and a move change the state by the updates of `Upd` alone,
so what every update keeps, every step keeps; and the canonical form is such a thing. -/

namespace Sys2Proof.Machine

/-! ### Every instruction is a program -/

/-- An outcome is that of some program run in the state. -/
def Ran (s : State) (o : Out) : Prop := ∃ p : Prog Unit, o = p.outcome s

theorem ran_prog (p : Prog Unit) (s : State) : Ran s (p.outcome s) := ⟨p, rfl⟩

/-- Without a split that executes it an instruction is the program that does nothing (log 3). -/
theorem ran_meaning (m : Meaning) (s : State) : Ran s (m.outcome s) := by
  cases h : m.prog s with
  | some p => exact ⟨p, by simp [Meaning.outcome, h]⟩
  | none => exact ⟨skip, by simp [Meaning.outcome, h]⟩

/-- A device event is a program outright; an instruction word is one by the meaning it has for its split. -/
theorem exec_ran (i : Instr) (s : State) : Ran s (exec i s) := by
  cases i with
  | joinTimeout | sleepExpire | wfuseTimeout | loadComplete | leaseEndComplete | leaseExpire | wwaitPoll | wwaitTimeout
  | renderComplete | renderFaultPark | quadDelivery | pixelGroupStart | laneGrant | parseStep | tlbInvalDone
  | pstateTransitionDone | packetRetire | watchPoll | teamPlace | clusterPlace | preemptRequest | teamRestart
  | copyCommandStart | copyFaultPark | copyComplete | collectiveMatch | collectiveComplete | engineResultDelivery
  | mxeFetchFault | mxePark | mxeComputeDone | clusterStagePage | flePageArrival | fleHintArrival | sorusCloseTimeout
  | sorusProcess | pageHandoff | sectorFillComplete | deviceTlbInvalDone | evictionWritebackDone | recordReplay
  | accessCounterDecay | l1Eviction | rdcEviction | rdcStaleDrop | powerEstimate | thermalTrip | thermalRestore
  | cqctlWrite | cqheadWrite | msixTimerExpire | msixVectorUnmask | prreplyResolved | prreplyFailed | portctlWrite
  | portTrainingDone | portLinkDown | portRecovered | portRecoveryTimeout | flitCrcFail | ideIntegrityFail
  | gddrUncorrectableError | deviceReset | vfFlr | pctlEnable | pctlDisable | padmrWrite | ssdataRead | tfrtailWrite
  | registerWrite | barWindowRead | barWindowWrite | hostHdmAccess | hostBirsp | poolBisnp | spdmRequest | hostSnoop
  | peerRequest | collectiveFaultPark | zeroingComplete => exact ran_prog _ s
  | _ => exact ran_meaning _ s

/-! ### What every update keeps, every step keeps -/

section
variable {P : State → Prop} (keeps : ∀ (u : Upd) (s : State), P s → P (u.apply s))
include keeps

theorem outcome_keeps {α : Type} (p : Prog α) {s t : State} (hs : P s) (h : p.outcome s = .next t) : P t := by
  cases h
  exact run_keeps keeps p s hs

theorem exec_keeps (i : Instr) {s t : State} (hs : P s) (h : exec i s = .next t) : P t := by
  obtain ⟨p, hp⟩ := exec_ran i s
  exact outcome_keeps keeps p hs (hp ▸ h)

theorem issueAll_keeps (l : List (Focus × Instr)) {s t : State} (hs : P s) (h : issueAll l s = .next t) : P t := by
  induction l generalizing s with
  | nil => cases h; exact hs
  | cons x rest ih =>
    obtain ⟨f, i⟩ := x
    rw [issueAll] at h
    split at h
    next u hu =>
      have hu : P u := exec_keeps keeps i (keeps (.focus (some f)) s hs) hu
      exact ih (run_keeps keeps (afterIssue f) u hu) h
    · cases h
    · cases h

theorem perform_keeps (a : Act) {s t : State} (hs : P s) (h : perform a s = .next t) : P t := by
  cases a with
  | cycle c q => exact issueAll_keeps keeps _ (run_keeps keeps (select c q) s hs) h
  | event i => exact exec_keeps keeps i (keeps (.focus none) s hs) h
  | _ => exact outcome_keeps keeps _ hs h

/-- Taking the next move changes the agenda, or the count of free values and the pending events. -/
theorem nextMove_keeps {s : State} (hs : P s) : P (nextMove s).2 := by
  unfold nextMove
  split
  next rest _ => exact keeps (.agenda rest) s hs
  · have hfree : P ((Upd.free (s.free + 1)).apply s) := keeps _ s hs
    dsimp only
    split
    next i _ => exact keeps (.pending (s.pending.erase i)) _ hfree
    · exact hfree

theorem step_keeps {s t : State} (hs : P s) (h : step s = .next t) : P t :=
  perform_keeps keeps _ (nextMove_keeps keeps hs) h

end

/-! ### The canonical form -/

theorem canonical_iff (s : State) : s.canonical = true ↔
    s.mem.wf = true ∧ Tbl.wf s.groups = true ∧ Tbl.wf s.teams = true ∧ Tbl.wf s.cores = true ∧ Tbl.wf s.dies = true := by
  simp [State.canonical, and_assoc]

/-- An update writes or removes an element of one table, by the operations that keep it in order, or touches no table. -/
theorem apply_canonical (u : Upd) (s : State) (h : s.canonical = true) : (u.apply s).canonical = true := by
  obtain ⟨hmem, hgroups, hteams, hcores, hdies⟩ := (canonical_iff s).1 h
  rw [canonical_iff]
  cases u with
  | byte a b => exact ⟨Memory.wf_set hmem, hgroups, hteams, hcores, hdies⟩
  | group k g => exact ⟨hmem, wf_put hgroups, hteams, hcores, hdies⟩
  | noGroup k => exact ⟨hmem, wf_del hgroups, hteams, hcores, hdies⟩
  | team k t => exact ⟨hmem, hgroups, wf_put hteams, hcores, hdies⟩
  | noTeam k => exact ⟨hmem, hgroups, wf_del hteams, hcores, hdies⟩
  | core k c => exact ⟨hmem, hgroups, hteams, wf_put hcores, hdies⟩
  | noCore k => exact ⟨hmem, hgroups, hteams, wf_del hcores, hdies⟩
  | die k d => exact ⟨hmem, hgroups, hteams, hcores, wf_put hdies⟩
  | noDie k => exact ⟨hmem, hgroups, hteams, hcores, wf_del hdies⟩
  | dev | focus | agenda | pending | free => exact ⟨hmem, hgroups, hteams, hcores, hdies⟩

/-- Settles O49: every update keeps the canonical form, and a step is made of updates. -/
theorem stepKeepsCanonical : Obligations.StepKeepsCanonical :=
  fun _ _ hs h => step_keeps apply_canonical hs h

/-- Settles O48: after reset every table is empty. -/
theorem resetCanonical : Obligations.ResetCanonical :=
  (canonical_iff State.reset).2 ⟨Memory.wf_nil, rfl, rfl, rfl, rfl⟩

end Sys2Proof.Machine
end

section
/-! SUPPORT. Pre-emption reaches beyond the group it takes: a group that waits for a lease withdraws its begin from the line's
home (R150, R386), and the home then serves the next in its queue (R214), which may be a begin of another group. -/

namespace Sys2Proof.Machine

/-! ### Two groups that wait for one line -/

/-- The line that both groups ask for. -/
def raceLine : Nat := 0x800000

/-- The key of the group that asks second: the one of a team on core 1. -/
def rivalKey : Nat := groupKey 1 0 0 false

/-- The launch of both teams, which run. -/
def raceLaunch : Packet :=
  { queue := 0, index := 0, words := [], phase := 1, start := 0, kernel := some probeKernel, asid := 0, nextTeam := 2,
    endTeam := 2, running := 2, restarts := [], watches := [], latched := [], cmds := [], quota := 0, pg := none }

/-- The one group of a team, whose split waits at its lease begin, in slot 0 of its line, for the grant (R296, R394). -/
def leaseWaiter (team : Nat) : Group :=
  let g := Group.start team 0 32 0 0 (allLanes 32) (BitVec.ofNat 64 probeVa) (probeTeam team) (BitVec.allOnes 64)
  { g with entries := Tbl.mapVals g.entries fun _ e => { e with wait := .lease raceLine (e.pc + 20) } }

/-- What waits at the line, which no group holds, in order of arrival: the tile fetch of team 1's matrix context, whose turn it
is, then the begins of the two groups. -/
def raceHold : LeaseHold :=
  { holder := none, deadline := 0, image := 0, written := 0,
    queue := [.access (.mxe 0 0), .lease 0 raceLine, .lease rivalKey raceLine] }

/-- Team 1 on core 0, where its matrix context runs; team 2 on core 1; their groups wait for the line. -/
def leaseRace : State :=
  { State.reset with
    groups := [(0, leaseWaiter 1), (rivalKey, leaseWaiter 2)]
    teams := [(1, probeTeam 1), (2, { probeTeam 2 with core := 1, groups := [rivalKey] })]
    cores := [(0, { Core.reset with mxe := [{ MxeCtx.idle with state := 1, owner := 1 }, MxeCtx.idle] })]
    dev := { Dev.reset with nextId := 3, packets := [raceLaunch], leases := [(raceLine, raceHold)] } }

/-- Team 1's group may take PREEMPT: it holds no lease, no access of its own waits, and the frame fits its stack. -/
theorem leaseRace_handlerReady :
    NoLease leaseRace 0 (leaseWaiter 1) ∧ (leaseWaiter 1).trapbase ≠ 0 ∧
      recFits (stkTop (probeTeam 1).kernel.priv)
        ((leaseWaiter 1).snap.depth + (leaseWaiter 1).snap.entries.length) = true := by decide

/-- Before the pre-emption the rival holds nothing. -/
theorem leaseRace_rival_waits : Tbl.find? leaseRace.groups rivalKey = some (leaseWaiter 2) ∧ (leaseWaiter 2).leases = [] :=
  ⟨rfl, rfl⟩

/-- The pre-emption of team 1 stops its matrix context, so that no one comes for the access at the head of the queue, and
withdraws its group's begin: the line is granted to the rival. -/
theorem preempt_grants_rival : Gives (exec (.preemptRequest 1) leaseRace) fun t =>
    (Tbl.find? t.groups rivalKey).map (·.leases) = some [{ line := raceLine, pa := raceLine, held := true }] :=
  ⟨_, rfl, rfl⟩

/-- Refutes O54: a pre-emption may change a group other than the one it takes, by the lease that it lets the next begin have. -/
theorem not_placement : ¬ Obligations.Placement := by
  intro h
  obtain ⟨-, -, preempted, -⟩ := h 0 1 0 0 0 0 0 0 false raceLaunch [] ⟨0, 0, 0, probeKernel, 0, 0⟩ ⟨[], [], []⟩
    (0, ⟨0, 32, [], [], [], 0, 0, []⟩) [] 0 0 leaseRace (probeTeam 1) (leaseWaiter 1)
  obtain ⟨noLease, ready⟩ := leaseRace_handlerReady
  obtain ⟨t, ht, -, others, -⟩ := preempted rfl rfl rfl rfl rfl rfl rfl (by decide) noLease (.inr ready)
  obtain ⟨t', ht', granted⟩ := preempt_grants_rival
  obtain ⟨waits, holdsNone⟩ := leaseRace_rival_waits
  obtain rfl : t = t' := Host.Outcome.next.inj (ht.symm.trans ht')
  rw [others rivalKey (by decide), waits, Option.map_some, holdsNone] at granted
  cases granted

end Sys2Proof.Machine
end

section
/-! SUPPORT. The replay of a matrix context frees a slot; where that slot alone keeps a group with no live lane, the group ends
(R176). -/

namespace Sys2Proof.Machine

/-! ### A group that its record alone keeps -/

/-- The record of the fetch of A of a matrix context (R115): UNIT 0x3, STATE READY, context 0. -/
def fetchRecord : RrSlotState :=
  { words := [0x203, 0, 0, 0, 0, 0, 0, 0], pend := 0, entry := 0, pages := [], region := false, stamp := 1, cmd := 0, why := 0 }

/-- A group with no live lane, and so no entry, whose slot 5 holds the record. -/
def recordKept : Group :=
  { Group.start 1 0 32 0 0 0 (BitVec.ofNat 64 probeVa) (probeTeam 1) (BitVec.allOnes 64) with
    entries := [], rr := [(5, fetchRecord)] }

/-- The context, PARKED at its fetch of A (R249). -/
def parkedContext : MxeCtx := { MxeCtx.idle with state := 2, fop := 1, owner := 1, members := [recordKept.ident] }

/-- The group and its context on core 0. -/
def lastRecord : State :=
  { State.reset with
    groups := [(0, recordKept)]
    teams := [(1, probeTeam 1)]
    cores := [(0, { Core.reset with mxe := [parkedContext, MxeCtx.idle] })]
    dev := { Dev.reset with nextId := 2 } }

/-- The context runs again and its record is freed: nothing keeps the group any more. -/
theorem replay_ends_group : Gives (exec (.recordReplay 0) lastRecord) fun t => Tbl.find? t.groups 0 = none :=
  ⟨_, rfl, rfl⟩

/-- A split of lane 0 whose MODE sets no guard. -/
def unguarded : Ctx :=
  { k := 0, f := { group := 0, entry := 0, pc := 0, word := 0, next := 0, nextFall := false }, n := 0, t := probeTeam 1,
    g := recordKept, eff := effMode 0 none, act := 1,
    e := { pc := 0, via := .seq, src := 0, mask := 1, mode := 0, join := 0, jseq := 0, wait := .run, run := none } }

theorem unguarded_passes : GuardPasses unguarded := by decide

/-- Refutes O37: the replay of a matrix context may end the group of its record, where no lane of it is live. -/
theorem not_replayRecords : ¬ Obligations.ReplayRecords := by
  intro h
  obtain ⟨-, -, -, -, context, -⟩ := h none 0 (.num 5) lastRecord unguarded unguarded_passes
  obtain ⟨t, g, ht, hg, -⟩ := context 0 5 fetchRecord recordKept parkedContext rfl rfl rfl rfl rfl rfl rfl (by decide)
  obtain ⟨t', ht', gone⟩ := replay_ends_group
  obtain rfl : t = t' := Host.Outcome.next.inj (ht.symm.trans ht')
  cases hg.symm.trans gone

end Sys2Proof.Machine
end

section
/-! SUPPORT. Laws of the programs that change one element of a table, and of the fault filter: what raising a page leaves
unchanged. -/

namespace Sys2Proof.Machine

/-! ### Changing one element -/

@[simp] theorem run_modCore (c : Nat) (f : Core → Core) (s : State) :
    (modCore c f).run s = ((), { s with cores := Tbl.put s.cores c (f (coreAt s c)) }) := rfl

@[simp] theorem run_modDie (d : Nat) (f : Die → Die) (s : State) :
    (modDie d f).run s = ((), { s with dies := Tbl.put s.dies d (f (dieAt s d)) }) := rfl

theorem run_modGroup {s : State} {k : Nat} {g : Group} (h : Tbl.find? s.groups k = some g) (f : Group → Group) :
    (modGroup k f).run s = ((), (Upd.group k (f g)).apply s) := by simp [modGroup, h]

theorem modTeam_fields (k : Nat) (f : Team → Team) (s : State) : ∃ ts, ((modTeam k f).run s).2 = { s with teams := ts } := by
  simp only [modTeam, run_get]
  split
  · exact ⟨_, rfl⟩
  · exact ⟨s.teams, rfl⟩

/-- A conditional whose test fails runs its second branch. -/
theorem outcome_ite_false {b : Bool} (h : b = false) (p q : Prog Unit) (s : State) :
    Prog.outcome (if b then p else q) s = q.outcome s := by rw [h]; rfl

/-- What each element's program keeps, all of them keep. -/
theorem each_keeps {α : Type} {P : State → Prop} {f : α → Prog Unit} (h : ∀ x s, P s → P ((f x).run s).2) (l : List α)
    {s : State} (hs : P s) : P ((each l f).run s).2 := by
  induction l generalizing s with
  | nil => exact hs
  | cons x rest ih =>
    rw [run_each_cons]
    exact ih (h x s hs)

/-! ### Raising a page -/

/-- A page enters a die's cluster stage (R119): it stands there now, and nothing else differs but what is due. -/
theorem stagePage_die (die : Nat) (key : PageKey) (cls : Nat) (acc : BitVec 5) (count : Nat) (pred : Bool) (s : State) :
    ∃ l ps, ((stagePage die key cls acc count pred).run s).2 =
        { s with dies := Tbl.put s.dies die { dieAt s die with stage := l }, pending := ps } ∧
      l.any (fun z => z.key == key) = true := by
  simp only [stagePage, monad_bind, run_bind, run_look]
  split
  next e he =>
    have hmem := List.mem_of_find?_eq_some he
    have hkey : e.key = key := by simpa using List.find?_some he
    have hany : ((dieAt s die).stage.map fun x => if x.key == key then
        { e with acc := e.acc ||| acc, count := min 255 (e.count + count) } else x).any (fun z => z.key == key) = true := by
      rw [List.any_map, List.any_eq_true]
      exact ⟨e, hmem, by simp [hkey]⟩
    simp only [run_bind, run_modDie]
    split
    · exact ⟨_, _, rfl, hany⟩
    · exact ⟨_, _, rfl, hany⟩
  · exact ⟨_, _, rfl, by simp⟩

/-- A record that waits on a page with no request out (R118) changes the core's filter, a die's stage and what is due. -/
theorem fileFault_fields {s : State} {key : PageKey} (h : awaitedTag s.dev key = none) (core cls : Nat) (acc : BitVec 5)
    (w : Nat × Nat) :
    ∃ cs ds ps, ((fileFault core key cls acc w).run s).2 = { s with cores := cs, dies := ds, pending := ps } := by
  simp only [fileFault, monad_bind, monad_pure, run_bind, run_look, run_pure, h]
  split
  next e _ =>
    simp only [run_bind, run_modCore]
    split
    · obtain ⟨l, ps, hst, -⟩ := stagePage_die (dieOf core) key cls acc 1 false
        { s with cores := Tbl.put s.cores core { coreAt s core with
          filter := (coreAt s core).filter.map fun x => if x.key == key then
            { e with acc := e.acc ||| acc, waiters := e.waiters ++ [w] } else x } }
      exact ⟨_, _, ps, hst⟩
    · exact ⟨_, s.dies, s.pending, rfl⟩
  · exact ⟨_, s.dies, _, rfl⟩

theorem awaitedTag_noRequests {d : Dev} (h : d.fle.reqs = []) (key : PageKey) : awaitedTag d key = none := by
  simp [awaitedTag, h]

/-- An empty filter has room for one page (R118). -/
theorem filterRoom_empty {s : State} {core : Nat} {keys : List PageKey} (h : (coreAt s core).filter = [])
    (hk : keys.length ≤ 1) : filterRoom s core keys = true := by
  have := List.length_filter_le (fun k => !(coreAt s core).filter.any (·.key == k)) keys
  simp only [filterRoom, decide_eq_true_eq, h, List.length_nil] at this ⊢
  omega

/-- Raising some pages none of which has a request out changes no group, no byte of memory and nothing of the device. -/
theorem each_fileFault_keeps {α : Type} (core : Nat) (key : α → PageKey) (cls : α → Nat) (acc : BitVec 5) (w : Nat × Nat)
    (l : List α) {s : State} (h : s.dev.fle.reqs = []) :
    let u := ((each l fun p => fileFault core (key p) (cls p) acc w).run s).2
    u.groups = s.groups ∧ u.mem = s.mem ∧ u.dev = s.dev := by
  refine each_keeps (P := fun u => u.groups = s.groups ∧ u.mem = s.mem ∧ u.dev = s.dev) ?_ l ⟨rfl, rfl, rfl⟩
  rintro p u ⟨hgroups, hmem, hdev⟩
  have hno : awaitedTag u.dev (key p) = none := awaitedTag_noRequests (by rw [hdev]; exact h) _
  obtain ⟨cs, ds, ps, hu⟩ := fileFault_fields hno core (cls p) acc w
  rw [hu]
  exact ⟨hgroups, hmem, hdev⟩

/-- A record takes the lowest free slot of its group (R113); no other group changes, and no byte of memory. -/
theorem writeRecord_slot {s : State} {k slot : Nat} {g : Group} {t : Team} {r : RrSlotState}
    (hg : Tbl.find? s.groups k = some g) (ht : Tbl.find? s.teams g.team = some t)
    (hslot : freeBelow 8 (Tbl.keys g.rr) = some slot) (hroom : filterRoom s (keyCore k) (r.pages.map (pageKey t)) = true)
    (hreqs : s.dev.fle.reqs = []) :
    let u := ((writeRecord k r).run s).2
    u.groups = Tbl.put s.groups k { g with rr := Tbl.put g.rr slot { r with spill := [] } } ∧ u.mem = s.mem := by
  simp only [writeRecord, spillBlocks, monad_bind, run_bind, run_look, id, hg, ht, hslot, hroom, if_true, run_emit]
  generalize hu : ((modTeam g.team _).run _).2 = u
  obtain ⟨ts, hts⟩ := modTeam_fields g.team _ _
  rw [hts] at hu
  subst hu
  obtain ⟨hgroups, hmem, -⟩ := each_fileFault_keeps (keyCore k) (pageKey t) (·.2) ((nthD r.words 0 0).extractLsb' 16 5)
    (k, slot) r.pages (s := { (Upd.group k { g with rr := Tbl.put g.rr slot { r with spill := [] } }).apply s with teams := ts })
    hreqs
  exact ⟨hgroups, hmem⟩

end Sys2Proof.Machine
end

section
/-! SUPPORT. Render operations: a lane's results are written when it completes, the last one ends the operation (R420, R425);
faulted lanes take a slot (R113). -/

namespace Sys2Proof.Machine

/-! ### Results of one lane -/

theorem hasLane_laneBit {l : Nat} (h : l < 64) (j : Nat) : hasLane (laneBit l) j = decide (j = l) := by
  simp only [hasLane, laneBit, BitVec.getLsbD_ofNat, Nat.one_shiftLeft, Nat.testBit_two_pow]
  by_cases hj : j = l
  · simp [hj, h]
  · simp [hj, Ne.symm hj]

/-- Registers of some lanes written one after the other (R384). -/
def Group.landRegs (g : Group) (m : Mask) (l : List PendReg) : Group :=
  l.foldl (fun g x => g.setV x.reg (x.lanes &&& m) x.row) g

theorem land_eq_landRegs (g : Group) {p : Pend} (hs : p.sdst = none) (hp : p.pdst = none) :
    g.land p = g.landRegs p.lanes p.regs := by
  simp only [Group.land, hs, hp]; rfl

@[simp] theorem landRegs_cons (g : Group) (m : Mask) (x : PendReg) (l : List PendReg) :
    g.landRegs m (x :: l) = (g.setV x.reg (x.lanes &&& m) x.row).landRegs m l := rfl

theorem landRegs_fields (g : Group) (m : Mask) (l : List PendReg) : ∃ v, g.landRegs m l = { g with v := v } := by
  induction l generalizing g with
  | nil => exact ⟨g.v, rfl⟩
  | cons x rest ih =>
    obtain ⟨v, hv⟩ := ih (g.setV x.reg (x.lanes &&& m) x.row)
    exact ⟨v, hv⟩

/-- A lane outside the mask, or of a register that is not named, keeps its value. -/
theorem lane_landRegs_other (g : Group) (m : Mask) (l : List PendReg) {n j : Nat} (hj : j < 64)
    (h : hasLane m j = false ∨ n ∉ l.map (·.reg)) : lane ((g.landRegs m l).vreg n) j = lane (g.vreg n) j := by
  induction l generalizing g with
  | nil => rfl
  | cons x rest ih =>
    rw [landRegs_cons, ih _ (h.imp_right fun hn hmem => hn (by simp [hmem])), lane_vreg_setV _ _ _ _ _ _ hj]
    refine if_neg ?_
    rintro ⟨rfl, hlane⟩
    rcases h with h | h
    · simp [h] at hlane
    · simp at h

/-- A register that is named once takes its row in the lanes of the mask that are its own. -/
theorem lane_landRegs_mem (g : Group) (m : Mask) {l : List PendReg} {x : PendReg} {j : Nat} (hj : j < 64)
    (hm : hasLane m j = true) (hl : (l.map (·.reg)).Nodup) (hx : x ∈ l) :
    lane ((g.landRegs m l).vreg x.reg) j = if hasLane x.lanes j then lane x.row j else lane (g.vreg x.reg) j := by
  induction l generalizing g with
  | nil => cases hx
  | cons y rest ih =>
    rw [List.map_cons, List.nodup_cons] at hl
    obtain ⟨hy, hrest⟩ := hl
    rw [landRegs_cons]
    rcases List.mem_cons.1 hx with rfl | hx
    · rw [lane_landRegs_other _ _ _ hj (.inr hy), lane_vreg_setV _ _ _ _ _ _ hj]
      simp [hm]
    · have hne : x.reg ≠ y.reg := fun he => hy (he ▸ List.mem_map_of_mem hx)
      rw [ih _ hrest hx, lane_vreg_setV _ _ _ _ _ _ hj]
      simp [hne]

/-! ### The last lane of an operation -/

/-- The last lane writes its registers, raises NV where it set it, and takes the operation with it. -/
theorem landLane_last (g : Group) (id : Nat) {p : Pend} {l : Nat} (hlanes : p.lanes = laneBit l) (hparked : p.parked = 0)
    (hs : p.sdst = none) (hp : p.pdst = none) :
    ∃ latch, landLane g id p l = { g.landRegs (laneBit l) p.regs with
      flags := if hasLane p.nv l then g.flags ||| fNV else g.flags, latch, pend := Tbl.del g.pend id,
      outstanding := g.outstanding - if p.counted then 1 else 0 } := by
  obtain ⟨v, hv⟩ := landRegs_fields g (laneBit l) p.regs
  have hland : g.land { p with lanes := laneBit l } = { g with v := v } := by
    rw [← hv]; exact land_eq_landRegs g hs hp
  have hnone : (p.lanes &&& ~~~laneBit l == 0 && p.parked == 0) = true := by simp [hlanes, hparked]
  simp only [landLane, hland, hnone, if_true, hv]
  cases p.counted <;> cases hasLane p.nv l <;> exact ⟨_, rfl⟩

/-- RENDER_COMPLETE of a lane on its way (R420). -/
theorem renderComplete_eq {s : State} {k id l : Nat} {g : Group} {p : Pend} (hg : Tbl.find? s.groups k = some g)
    (hp : Tbl.find? g.pend id = some p) (hr : p.render = true) (hl : hasLane p.lanes l = true) :
    exec (.renderComplete k id l) s = .next ((Upd.group k (landLane g id p l)).apply s) := by
  show (modGroup k _).outcome s = _
  rw [outcome_eq, run_modGroup hg]
  simp only [hp, hr, hl, Bool.and_true, if_true]

/-- RENDER_FAULT_PARK of the one operation that the unit holds (R113). -/
theorem renderFaultPark_eq {s : State} {k id : Nat} {g : Group} {r : RrSlotState} (hg : Tbl.find? s.groups k = some g)
    (ho : g.overflow = [r]) (hid : r.pend = id) (hu : r.unit ≠ 0) :
    exec (.renderFaultPark k id) s =
      .next ((writeRecord k r).run ((Upd.group k { g with overflow := [] }).apply s)).2 := by
  show Prog.outcome _ s = _
  have hfind : g.overflow.find? (fun r => r.pend == id && r.unit != 0) = some r := by simp [ho, hid, hu]
  have herase : g.overflow.erase r = [] := by simp [ho]
  simp only [monad_bind, outcome_eq, run_bind, run_look, hg, Option.bind_some, hfind, run_modGroup hg, herase]

/-- Settles O43: the last lane's results are written register by register; a held record takes the slot that is free. -/
theorem renderCompletion : Obligations.RenderCompletion := by
  intro k id l slot p r s g t hg
  refine ⟨fun hp hr hlanes hparked hs hpd hl hnodup => ?_, fun ht ho hid hu hspill hpages hslot hfilter hreqs => ?_⟩
  · have hlane : hasLane (laneBit l) l = true := by simp [hasLane_laneBit hl]
    obtain ⟨latch, hlast⟩ := landLane_last g id hlanes hparked hs hpd
    obtain ⟨v, hv⟩ := landRegs_fields g (laneBit l) p.regs
    refine ⟨_, _, renderComplete_eq hg hp hr (hlanes ▸ hlane), emit_group_step s k _, ?_⟩
    rw [hlast]
    refine ⟨find?_del_self _ _, rfl, ?_, ?_, fun x hx => lane_landRegs_mem g _ hl hlane hnodup hx, fun n j hj h => ?_, rfl⟩
    · rw [hv]; exact fun _ => rfl
    · rw [hv]; exact fun _ => rfl
    · exact lane_landRegs_other g _ _ hj (h.imp_left fun hne => by simp [hasLane_laneBit hl, hne])
  · have hroom : filterRoom ((Upd.group k { g with overflow := [] }).apply s) (keyCore k) (r.pages.map (pageKey t)) = true :=
      filterRoom_empty hfilter (by simpa using hpages)
    obtain ⟨hgroups, hmem⟩ := writeRecord_slot (s := (Upd.group k { g with overflow := [] }).apply s)
      (find?_put_self s.groups k { g with overflow := [] }) ht hslot hroom hreqs
    have hr : { r with spill := [] } = r := by rw [← hspill]
    refine ⟨_, { g with rr := Tbl.put g.rr slot r, overflow := [] }, renderFaultPark_eq hg ho hid hu, ?_, find?_put_self _ _ _,
      rfl, fun _ => rfl, fun _ _ _ => rfl, fun _ => rfl, fun b => by rw [hmem]; rfl⟩
    rw [hgroups, hr]
    exact find?_put_self _ _ _

end Sys2Proof.Machine
end

section
/-! SUPPORT. Commands of the copy and collective engines (R231 to R241): a command in its die's list, taking it, parking it,
ending it and posting its completion. -/

namespace Sys2Proof.Machine

/-! ### A command in its die's list -/

/-- The first element of a property, after the elements of that property have changed and kept it. -/
theorem find?_changed {α : Type} {q : α → Bool} {f : α → α} (hf : ∀ x, q (f x) = q x) (l : List α) :
    (l.map fun x => if q x then f x else x).find? q = (l.find? q).map f := by
  have hkeep : (q ∘ fun x => if q x then f x else x) = q := by
    funext x
    by_cases hx : q x <;> simp [hx, hf]
  rw [List.find?_map, hkeep]
  cases h : l.find? q with
  | none => rfl
  | some x => simp [List.find?_some h]

/-- The command of an identifier. -/
def Die.cmd (d : Die) (copy : Bool) (id : Nat) : Option EngCmd := (engineList d copy).find? fun c => c.id == id

/-- The die with a command changed. -/
def Die.onCmd (d : Die) (copy : Bool) (id : Nat) (f : EngCmd → EngCmd) : Die :=
  let upd := fun (l : List EngCmd) => l.map fun c => if c.id == id then f c else c
  if copy then { d with copy := upd d.copy } else { d with coll := upd d.coll }

/-- The die without a command. -/
def Die.withoutCmd (d : Die) (copy : Bool) (id : Nat) : Die :=
  let del := fun (l : List EngCmd) => l.filter fun c => c.id != id
  if copy then { d with copy := del d.copy } else { d with coll := del d.coll }

theorem dieAt_put {t : State} {ds : Tbl Die} {die : Nat} {d : Die} (h : t.dies = Tbl.put ds die d) : dieAt t die = d := by
  rw [dieAt, h, getD_put_self]

theorem cmd_id {d : Die} {copy : Bool} {id : Nat} {c : EngCmd} (h : d.cmd copy id = some c) : c.id = id := by
  simpa using List.find?_some h

theorem engineList_onCmd (d : Die) (copy : Bool) (id : Nat) (f : EngCmd → EngCmd) :
    engineList (d.onCmd copy id f) copy = (engineList d copy).map fun c => if c.id == id then f c else c := by
  cases copy <;> rfl

theorem engineList_withoutCmd (d : Die) (copy : Bool) (id : Nat) :
    engineList (d.withoutCmd copy id) copy = (engineList d copy).filter fun c => c.id != id := by cases copy <;> rfl

/-- A change of a command leaves the engine's records. -/
theorem onCmd_copyRr (d : Die) (copy : Bool) (id : Nat) (f : EngCmd → EngCmd) : (d.onCmd copy id f).copyRr = d.copyRr := by
  cases copy <;> rfl

/-- A changed command is found as it has become. -/
theorem cmd_onCmd {d : Die} {copy : Bool} {id : Nat} {c : EngCmd} {f : EngCmd → EngCmd} (hf : ∀ c, (f c).id = c.id)
    (h : d.cmd copy id = some c) : (d.onCmd copy id f).cmd copy id = some (f c) := by
  rw [Die.cmd] at h
  rw [Die.cmd, engineList_onCmd, find?_changed (fun x => by rw [hf]), h, Option.map_some]

theorem cmd_withoutCmd (d : Die) (copy : Bool) (id : Nat) : (d.withoutCmd copy id).cmd copy id = none := by
  rw [Die.cmd, engineList_withoutCmd, List.find?_eq_none]
  intro c hc
  simpa using (List.mem_filter.1 hc).2

/-! ### A die's own steps -/

/-- The die has become d; no team, core or byte of memory differs. -/
structure DieStep (s t : State) (die : Nat) (d : Die) : Prop where
  die : dieAt t die = d
  teams : t.teams = s.teams
  cores : t.cores = s.cores
  mem : t.mem = s.mem

theorem DieStep.bytes {s t : State} {die : Nat} {d : Die} (h : DieStep s t die d) : BytesKept s t := fun _ => by rw [h.mem]

theorem DieStep.cmd {s t : State} {die : Nat} {d : Die} (h : DieStep s t die d) (copy : Bool) (id : Nat) :
    findCmd t die copy id = d.cmd copy id := by rw [← h.die]; rfl

theorem DieStep.modDie {s t : State} {die : Nat} {d : Die} (h : DieStep s t die d) (f : Die → Die) :
    DieStep s ((modDie die f).run t).2 die (f d) := ⟨by rw [← h.die]; exact dieAt_put rfl, h.teams, h.cores, h.mem⟩

theorem DieStep.modCmd {s t : State} {die : Nat} {d : Die} (h : DieStep s t die d) (copy : Bool) (id : Nat)
    (f : EngCmd → EngCmd) : DieStep s ((modCmd die copy id f).run t).2 die (d.onCmd copy id f) :=
  h.modDie (·.onCmd copy id f)

theorem DieStep.dropCmd {s t : State} {die : Nat} {d : Die} (h : DieStep s t die d) (copy : Bool) (id : Nat) :
    DieStep s ((dropCmd die copy id).run t).2 die (d.withoutCmd copy id) := h.modDie (·.withoutCmd copy id)

/-- What leaves teams, cores, dies and memory alone. -/
theorem DieStep.same {s t u : State} {die : Nat} {d : Die} (h : DieStep s t die d) (ht : u.teams = t.teams)
    (hc : u.cores = t.cores) (hd : u.dies = t.dies) (hm : u.mem = t.mem) : DieStep s u die d :=
  ⟨by rw [dieAt, hd]; exact h.die, ht.trans h.teams, hc.trans h.cores, hm.trans h.mem⟩

theorem DieStep.refl (s : State) (die : Nat) : DieStep s s die (dieAt s die) := ⟨rfl, rfl, rfl, rfl⟩

/-! ### What follows a change -/

/-- Events that become due, one for each element. -/
theorem run_each_due {α : Type} (l : List α) (f : α → Instr) (s : State) :
    (each l fun x => due (f x)).run s = ((), { s with pending := s.pending ++ l.map f }) := by
  induction l generalizing s with
  | nil => simp
  | cons x rest ih => rw [run_each_cons, ih]; simp

/-- Commands still in the intake of an engine are looked at again (R227). -/
def retake (die : Nat) (copy : Bool) : Prog Unit :=
  match copy with
  | true => retakeCopies die
  | false => retakeColl die

theorem retake_fields (die : Nat) (copy : Bool) (s : State) :
    ∃ ps, ((retake die copy).run s).2 = { s with pending := s.pending ++ ps } := by
  cases copy with
  | true =>
    simp only [retake, retakeCopies, monad_bind, run_bind, run_look, run_each_due]
    exact ⟨_, rfl⟩
  | false =>
    simp only [retake, retakeColl, monad_bind, run_bind, run_look, run_each_due]
    exact ⟨_, rfl⟩

/-- Waking the splits that wait to push changes groups alone. -/
theorem DieStep.wakePushers {s t : State} {die : Nat} {d : Die} (h : DieStep s t die d) (c : EngCmd) :
    DieStep s ((wakePushers c).run t).2 die d := by
  simp only [Machine.wakePushers, run_get]
  split
  next k g _ =>
    split
    · exact h.same rfl rfl rfl rfl
    · exact h
  · exact h

theorem DieStep.retake {s t : State} {die : Nat} {d : Die} (h : DieStep s t die d) (copy : Bool) :
    DieStep s ((retake die copy).run t).2 die d := by
  obtain ⟨ps, hps⟩ := retake_fields die copy t
  rw [hps]
  exact h.same rfl rfl rfl rfl

/-- A command that its engine has taken from the intake. -/
def EngCmd.taken (c : EngCmd) : EngCmd := { c with phase := 1 }

/-- The event that ends a command of an engine (R235, R241). -/
def completeEvent (die : Nat) (copy : Bool) (id : Nat) : Instr :=
  if copy then .copyComplete die id else .collectiveComplete die id

/-- An ended command, with its completion due (R235). -/
def EngCmd.ended (c : EngCmd) (status cls done : Nat) : EngCmd := { c with phase := 3, status, cls, done, fault := none }

theorem DieStep.endCmd {s t : State} {die : Nat} {d : Die} (h : DieStep s t die d) (copy : Bool) (id status cls done : Nat) :
    DieStep s ((endCmd die copy id status cls done).run t).2 die (d.onCmd copy id (·.ended status cls done)) :=
  (h.modCmd copy id (·.ended status cls done)).same rfl rfl rfl rfl

theorem endCmd_due (die : Nat) (copy : Bool) (id status cls done : Nat) (s : State) :
    completeEvent die copy id ∈ ((endCmd die copy id status cls done).run s).2.pending := List.mem_append_right _ (List.mem_singleton_self _)

/-! ### Parking (R113, R237, R241) -/

/-- A command that has parked. -/
def EngCmd.parked (c : EngCmd) : EngCmd := { c with phase := 2, fault := none }

theorem cmdRecord_pages (c : EngCmd) (stamp cls addr : Nat) (acc : BitVec 5) :
    (cmdRecord c stamp cls addr acc).pages = [(addr / 4096, cls)] := rfl

/-- A command parks in the engine's first slot: nothing of the cores differs, and its page has reached the die's stage. -/
theorem parkCmd_engine {s : State} {die id cls addr acc : Nat} {copy : Bool} {c : EngCmd} (h : findCmd s die copy id = some c)
    (hf : c.fault = some (cls, addr, acc)) (hr : findRecord s die id = none)
    (hg : c.packet.isSome = true ∨ findGroup s c.team c.ident = none) (hrr : (dieAt s die).copyRr = []) :
    Gives ((parkCmd die copy id).outcome s) fun t => CoresKept s t ∧ BytesKept s t ∧
      findCmd t die copy id = some c.parked ∧
      (dieAt t die).copyRr = [(0, cmdRecord c s.dev.nextId cls addr (BitVec.ofNat 5 acc))] ∧
      (dieAt t die).stage.any (fun z => z.key == faultKey c.part c.ctxidx cls (addr / 4096 * 4096)) = true := by
  have hnone : (if c.packet.isSome = true then none else findGroup s c.team c.ident) = none := by
    rcases hg with hg | hg <;> simp [hg]
  have hslot : freeBelow 64 (Tbl.keys (dieAt s die).copyRr) = some 0 := by rw [hrr]; rfl
  simp only [parkCmd, monad_bind, outcome_eq, run_bind, run_look, h, hf, hr, hnone, hslot, fileEngine, cmdRecord_pages,
    run_each_cons, run_each_nil]
  generalize hu : ((modDie die _).run _).2 = u
  have hrecord : DieStep s u die { (dieAt s die).onCmd copy id EngCmd.parked with
      copyRr := Tbl.put ((dieAt s die).onCmd copy id EngCmd.parked).copyRr 0
        (cmdRecord c s.dev.nextId cls addr (BitVec.ofNat 5 acc)) } := by
    subst hu
    exact (((DieStep.refl s die).same (u := (newId.run s).2) rfl rfl rfl rfl).modCmd copy id EngCmd.parked).modDie _
  have hgroups : u.groups = s.groups := by subst hu; rfl
  obtain ⟨l, ps, hst, hkey⟩ := stagePage_die die (faultKey c.part c.ctxidx cls (addr / 4096 * 4096)) _ _ _ _ u
  have hstaged := hrecord.modDie fun d => { d with stage := l }
  refine ⟨_, rfl, ?_⟩
  rw [hst]
  have hdone := hstaged.same (u := { u with dies := Tbl.put u.dies die { dieAt u die with stage := l }, pending := ps })
    rfl rfl rfl rfl
  refine ⟨⟨hgroups, hdone.teams, hdone.cores⟩, hdone.bytes, ?_, ?_, ?_⟩
  · exact (hdone.cmd copy id).trans (cmd_onCmd (f := EngCmd.parked) (fun _ => rfl) h)
  · rw [hdone.die]
    show Tbl.put _ 0 _ = _
    rw [onCmd_copyRr, hrr]
    rfl
  · rw [hdone.die]
    exact hkey

/-! ### Taking a command (R227, R234, R239) -/

/-- A copy is taken; then its descriptor and its peer are checked. -/
theorem copyCommandStart_run {s : State} {die id : Nat} {c : EngCmd} (h : findCmd s die true id = some c) (hp : c.phase = 0)
    (hroom : inProgress (dieAt s die).copy < 64) (hown : behindOwn (dieAt s die).copy c = false) :
    ∃ u, DieStep s u die ((dieAt s die).onCmd true id EngCmd.taken) ∧
      exec (.copyCommandStart die id) s = .next ((if copyBad c then endCmd die true id stMalformed 0 0
        else match peerBad s.dev c with
          | some st => endCmd die true id st 0 0
          | none => .pure ()).run u).2 := by
  have hfree : (c.phase != 0 || decide (64 ≤ inProgress (dieAt s die).copy) || behindOwn (dieAt s die).copy c) = false := by
    simp [hp, hown, hroom]
  have htaken := (DieStep.refl s die).modCmd true id EngCmd.taken
  have hwoken : DieStep s ((if c.packet.isNone then wakePushers c else .pure ()).run
      ((modCmd die true id EngCmd.taken).run s).2).2 die ((dieAt s die).onCmd true id EngCmd.taken) := by
    split
    · exact htaken.wakePushers c
    · exact htaken
  refine ⟨_, hwoken.retake true, ?_⟩
  show Prog.outcome _ s = _
  simp only [monad_bind, monad_pure, outcome_eq, run_bind, run_look, h]
  refine (outcome_ite_false hfree _ _ s).trans ?_
  simp only [outcome_eq, run_bind]
  rfl

/-- A member that nothing holds in the intake is taken, if that is where it stands; then its descriptor, its peer and the
members of its key are looked at. -/
theorem collectiveMatch_run {s : State} {die id : Nat} {c : EngCmd} (h : findCmd s die false id = some c) (hp : c.phase ≤ 1)
    (hset : c.set = 0) (hopen : c.phase = 0 → behindOwn (dieAt s die).coll c = false ∧ collBad c = true) :
    exec (.collectiveMatch die id) s = .next ((retake die false).run ((if collBad c then endCmd die false id stMalformed 0 0
        else match collPeerBad s.dev c with
          | some st => endCmd die false id st 0 0
          | none => matchKey (collKey c)).run ((if c.phase == 0 then Prog.bind (modCmd die false id EngCmd.taken) fun _ =>
            if c.remote then .pure () else wakePushers c else .pure ()).run s).2).2).2 := by
  have hfree : (decide (1 < c.phase) || c.set != 0 || (c.phase == 0 && (behindOwn (dieAt s die).coll c ||
      (decide (256 ≤ (keptKeys s die).length) && !(keptKeys s die).contains (collKey c) && !collBad c)))) = false := by
    by_cases h0 : c.phase = 0
    · simp [h0, hset, hopen h0]
    · simp [h0, hset, hp]
  show Prog.outcome _ s = _
  simp only [monad_bind, monad_pure, outcome_eq, run_bind, run_look, h]
  refine (outcome_ite_false hfree _ _ s).trans ?_
  simp only [outcome_eq, run_bind]
  rfl

/-- A malformed member is taken and ends (R239, R241). -/
theorem collectiveMatch_malformed {s : State} {die id : Nat} {c : EngCmd} (h : findCmd s die false id = some c)
    (hp : c.phase = 0) (hset : c.set = 0) (hown : behindOwn (dieAt s die).coll c = false) (hbad : collBad c = true) :
    Gives (exec (.collectiveMatch die id) s) fun t => DieStep s t die
      (((dieAt s die).onCmd false id EngCmd.taken).onCmd false id (·.ended stMalformed 0 0)) := by
  have htaken := (DieStep.refl s die).modCmd false id EngCmd.taken
  have hwoken : DieStep s ((if c.remote then .pure () else wakePushers c).run
      ((modCmd die false id EngCmd.taken).run s).2).2 die ((dieAt s die).onCmd false id EngCmd.taken) := by
    split
    · exact htaken
    · exact htaken.wakePushers c
  refine ⟨_, collectiveMatch_run h (by omega) hset fun _ => ⟨hown, hbad⟩, ?_⟩
  simp only [hp, hbad, beq_self_eq_true, if_true, run_bind]
  exact (hwoken.endCmd false id stMalformed 0 0).retake false

/-- A member that has arrived, alone of its set, is matched (R239). -/
theorem collectiveMatch_alone {s : State} {die id : Nat} {c : EngCmd} (h : findCmd s die false id = some c)
    (hp : c.phase = 1) (hset : c.set = 0) (hbad : collBad c = false) (hpeer : collPeerBad s.dev c = none)
    (hun : unmatched s (collKey c) = [(die, c)]) (hcount : collCount c = 1) (hmis : s.dev.mismatched = [])
    (hagree : disagree [(die, c)] = false) :
    Gives (exec (.collectiveMatch die id) s) fun t => t.groups = s.groups ∧
      DieStep s t die ((dieAt s die).onCmd false id fun c => { c with set := s.dev.nextId }) := by
  have hid : c.id = id := cmd_id h
  have hphase : (c.phase == 0) = false := by simp [hp]
  have hmatch : ((matchKey (collKey c)).run s).2 =
      ((modCmd die false id fun c => { c with set := s.dev.nextId }).run (newId.run s).2).2 := by
    simp only [matchKey, monad_bind, run_bind, run_look, hun, hmis, List.contains_nil, hagree, hcount, List.length_singleton,
      beq_self_eq_true, Bool.false_eq_true, if_false, if_true, run_each_cons, run_each_nil, hid]
    rfl
  have hmatched := ((DieStep.refl s die).same (u := (newId.run s).2) rfl rfl rfl rfl).modCmd false id
    fun c => { c with set := s.dev.nextId }
  refine ⟨_, collectiveMatch_run h (by omega) hset fun h0 => by omega, ?_⟩
  simp only [hphase, hbad, hpeer, Bool.false_eq_true, if_false, run_pure, hmatch]
  refine ⟨?_, hmatched.retake false⟩
  obtain ⟨ps, hps⟩ := retake_fields die false ((modCmd die false id fun c => { c with set := s.dev.nextId }).run (newId.run s).2).2
  rw [hps]
  rfl

/-! ### The end of a command (R234, R235, R241) -/

/-- With no record of the command in a slot or with a unit there is nothing to free. -/
theorem freeCmdRecord_none {s : State} {die id : Nat} (hr : findRecord s die id = none)
    (ho : ∀ z ∈ s.groups, z.2.overflow = []) : (freeCmdRecord die id).run s = ((), s) := by
  have hnone : s.groups.find? (fun x => x.2.overflow.any (ofCmd id)) = none := by
    rw [List.find?_eq_none]
    intro z hz
    simp [ho z hz]
  simp only [freeCmdRecord, run_get, hr, hnone, run_skip]

/-- A group's completion is held for its queue (R228). -/
theorem postCompletion_group {s : State} {c : EngCmd} (hp : c.packet = none) (hr : c.remote = false)
    (ht : (Tbl.find? s.teams c.team).isSome = true) :
    ∃ ps, ((postCompletion c).run s).2 = { s with
      dev := { s.dev with held := s.dev.held ++ [{
        team := c.team, ident := c.ident, port := if isCopy c then portCopyDone else portCollDone,
        entry := { word := completion c, row := zeroRow, counted := true } }] },
      pending := ps } := by
  simp only [postCompletion, offerResult, hp, monad_bind, monad_pure, run_bind, run_look, ht, hr, Bool.not_false, Bool.and_self,
    if_true, run_modDev]
  split
  · exact ⟨_, rfl⟩
  · exact ⟨s.pending, rfl⟩

theorem packetAt_changed {d : Dev} {q i : Nat} {p : Packet} {f : Packet → Packet}
    (hf : ∀ x, (f x).queue = x.queue ∧ (f x).index = x.index) (h : packetAt d q i = some p) :
    packetAt { d with packets := d.packets.map fun x => if x.queue == q && x.index == i then f x else x } q i = some (f p) := by
  rw [packetAt] at h
  refine (find?_changed (q := fun x => x.queue == q && x.index == i) (f := f) (fun x => ?_) d.packets).trans (by rw [h, Option.map_some])
  rw [(hf x).1, (hf x).2]

/-- A COPY packet's completion retires the packet (R234). -/
theorem postCompletion_packet {s : State} {c : EngCmd} {p : Packet} (hc : c.packet = some (p.queue, p.index))
    (hp : packetAt s.dev p.queue p.index = some p) (hph : p.phase = 1) (hok : c.status = stOk) :
    ∃ d, ((postCompletion c).run s).2 = { s with dev := d, pending := s.pending ++ [.packetRetire p.queue p.index] } ∧
      (packetAt d p.queue p.index).map (·.phase) = some 2 := by
  simp only [postCompletion, hc, monad_bind, run_bind, run_look, hp, hph, hok, beq_self_eq_true, if_true, bne_self_eq_false,
    Bool.false_eq_true, if_false, modPacket, run_modDev, run_due]
  exact ⟨_, rfl, congrArg (Option.map (·.phase)) (packetAt_changed
    (f := fun x => { x with phase := 2, cmds := x.cmds.filter (· != c.id) }) (fun _ => ⟨rfl, rfl⟩) hp)⟩

/-- What both engines do with a command that has ended. -/
def completeCmd (die : Nat) (copy : Bool) (id : Nat) : Prog Unit :=
  letI := Prog.monad
  do
    match ← look fun s => findCmd s die copy id with
    | none => pure ()
    | some c =>
      if c.phase != 3 then pure ()
      else if ← look fun s => completionHeld s c then due (completeEvent die copy id)
      else do
        freeCmdRecord die id
        dropCmd die copy id
        postCompletion c
        retake die copy

theorem exec_completeEvent (die : Nat) (copy : Bool) (id : Nat) (s : State) :
    exec (completeEvent die copy id) s = (completeCmd die copy id).outcome s := by cases copy <;> rfl

section
variable {s : State} {die id : Nat} {copy : Bool} {c : EngCmd} (h : findCmd s die copy id = some c) (hp : c.phase = 3)
include h hp

/-- A completion for a full queue that one result waits for already is tried again (R228). -/
theorem complete_held (hheld : completionHeld s c = true) :
    exec (completeEvent die copy id) s = .next { s with pending := s.pending ++ [completeEvent die copy id] } := by
  have hphase : (c.phase != 3) = false := by simp [hp]
  simp only [exec_completeEvent, completeCmd, monad_bind, monad_pure, outcome_eq, run_bind, run_look, h, hphase, hheld,
    Bool.false_eq_true, if_false, if_true, run_due]

/-- A command without a record leaves, and its completion is posted (R234, R235). -/
theorem complete_posts (hheld : completionHeld s c = false) (hr : findRecord s die id = none)
    (ho : ∀ z ∈ s.groups, z.2.overflow = []) : exec (completeEvent die copy id) s =
      .next ((retake die copy).run ((postCompletion c).run ((dropCmd die copy id).run s).2).2).2 := by
  have hphase : (c.phase != 3) = false := by simp [hp]
  simp only [exec_completeEvent, completeCmd, monad_bind, monad_pure, outcome_eq, run_bind, run_look, h, hphase, hheld,
    Bool.false_eq_true, if_false, freeCmdRecord_none hr ho]

/-- The completion of a group's command is held for the group (R228). -/
theorem complete_group (hheld : completionHeld s c = false) (hr : findRecord s die id = none)
    (ho : ∀ z ∈ s.groups, z.2.overflow = []) (hc : c.packet = none) (hrem : c.remote = false)
    (ht : (Tbl.find? s.teams c.team).isSome = true) :
    Gives (exec (completeEvent die copy id) s) fun t => CoresKept s t ∧ BytesKept s t ∧ findCmd t die copy id = none ∧
      t.dev.held = s.dev.held ++ [{
        team := c.team, ident := c.ident, port := if isCopy c then portCopyDone else portCollDone,
        entry := { word := completion c, row := zeroRow, counted := true } }] := by
  obtain ⟨ps, hpost⟩ := postCompletion_group (s := ((dropCmd die copy id).run s).2) hc hrem ht
  have hdrop := (DieStep.refl s die).dropCmd copy id
  obtain ⟨qs, hre⟩ := retake_fields die copy ((postCompletion c).run ((dropCmd die copy id).run s).2).2
  refine ⟨_, complete_posts h hp hheld hr ho, ?_⟩
  rw [hre, hpost]
  exact ⟨⟨rfl, rfl, rfl⟩, fun _ => rfl, (hdrop.cmd copy id).trans (cmd_withoutCmd _ _ _), rfl⟩

/-- The completion of a COPY packet's command ends the packet (R234). -/
theorem complete_packet {p : Packet} (hr : findRecord s die id = none) (ho : ∀ z ∈ s.groups, z.2.overflow = [])
    (hc : c.packet = some (p.queue, p.index)) (hpk : packetAt s.dev p.queue p.index = some p) (hph : p.phase = 1)
    (hok : c.status = stOk) :
    Gives (exec (completeEvent die copy id) s) fun t => CoresKept s t ∧ BytesKept s t ∧ findCmd t die copy id = none ∧
      (packetAt t.dev p.queue p.index).map (·.phase) = some 2 ∧ .packetRetire p.queue p.index ∈ t.pending := by
  have hheld : completionHeld s c = false := by simp [completionHeld, hc]
  obtain ⟨d, hpost, hphase⟩ := postCompletion_packet (s := ((dropCmd die copy id).run s).2) hc hpk hph hok
  have hdrop := (DieStep.refl s die).dropCmd copy id
  obtain ⟨qs, hre⟩ := retake_fields die copy ((postCompletion c).run ((dropCmd die copy id).run s).2).2
  refine ⟨_, complete_posts h hp hheld hr ho, ?_⟩
  rw [hre, hpost]
  exact ⟨⟨rfl, rfl, rfl⟩, fun _ => rfl, (hdrop.cmd copy id).trans (cmd_withoutCmd _ _ _), hphase, by simp⟩

end

/-! ### The statement -/

/-- A copy taken from the intake runs, or ends MALFORMED (R234, R236). -/
theorem copyCommandStart_takes {s : State} {die id : Nat} {c : EngCmd} (h : findCmd s die true id = some c) (hp : c.phase = 0)
    (hroom : inProgress (dieAt s die).copy < 64) (hown : behindOwn (dieAt s die).copy c = false) :
    Gives (exec (.copyCommandStart die id) s) fun t => t.teams = s.teams ∧ t.cores = s.cores ∧ BytesKept s t ∧
      (copyBad c = true → findCmd t die true id = some (c.taken.ended stMalformed 0 0) ∧ .copyComplete die id ∈ t.pending) ∧
      (copyBad c = false → peerBad s.dev c = none → findCmd t die true id = some c.taken) := by
  obtain ⟨u, htaken, hrun⟩ := copyCommandStart_run h hp hroom hown
  have hcmd : ((dieAt s die).onCmd true id EngCmd.taken).cmd true id = some c.taken := cmd_onCmd (fun _ => rfl) h
  cases hbad : copyBad c with
  | true =>
    rw [hbad] at hrun
    have hended := htaken.endCmd true id stMalformed 0 0
    exact ⟨_, hrun, hended.teams, hended.cores, hended.bytes,
      fun _ => ⟨(hended.cmd true id).trans (cmd_onCmd (fun _ => rfl) hcmd), endCmd_due die true id stMalformed 0 0 u⟩, nofun⟩
  | false =>
    rw [hbad] at hrun
    cases hpeer : peerBad s.dev c with
    | some st =>
      rw [hpeer] at hrun
      have hended := htaken.endCmd true id st 0 0
      exact ⟨_, hrun, hended.teams, hended.cores, hended.bytes, nofun, nofun⟩
    | none =>
      rw [hpeer] at hrun
      exact ⟨u, hrun, htaken.teams, htaken.cores, htaken.bytes, nofun, fun _ _ => (htaken.cmd true id).trans hcmd⟩

/-- Settles O55: each event changes the one command in its die's list, and posts what follows from that. -/
theorem engineCommands : Obligations.EngineCommands := by
  intro die id cls addr acc c p s
  refine ⟨copyCommandStart_takes, parkCmd_engine, parkCmd_engine, ?_, ?_, ?_, ?_, ?_⟩
  · intro h hp hr ho hc hrem ht
    exact ⟨complete_held (copy := true) h hp, fun hheld => complete_group (copy := true) h hp hheld hr ho hc hrem ht⟩
  · intro h hp hr ho hc hrem ht
    exact ⟨complete_held (copy := false) h hp, fun hheld => complete_group (copy := false) h hp hheld hr ho hc hrem ht⟩
  · intro h hp hr ho hc hpk hph hok
    exact complete_packet (copy := true) h hp hr ho hc hpk hph hok
  · intro h hp hset hown hbad
    obtain ⟨t, ht, hstep⟩ := collectiveMatch_malformed h hp hset hown hbad
    have htaken : ((dieAt s die).onCmd false id EngCmd.taken).cmd false id = some c.taken := cmd_onCmd (fun _ => rfl) h
    exact ⟨t, ht, hstep.teams, hstep.cores, hstep.bytes, (hstep.cmd false id).trans
      (cmd_onCmd (c := c.taken) (fun _ => rfl) htaken)⟩
  · intro h hp hset hbad hpeer hun hcount hmis hagree
    obtain ⟨t, ht, hgroups, hstep⟩ := collectiveMatch_alone h hp hset hbad hpeer hun hcount hmis hagree
    exact ⟨t, ht, ⟨hgroups, hstep.teams, hstep.cores⟩, hstep.bytes, (hstep.cmd false id).trans (cmd_onCmd (fun _ => rfl) h)⟩

end Sys2Proof.Machine
end

section
/-! SUPPORT. A failed guard makes an instruction a nop (R182, R320), whatever its body does. -/

namespace Sys2Proof.Machine

section
variable {i : Instr} {ill : Ctx → Bool} {body : Ctx → Prog Unit} {s : State} {c : Ctx}

theorem guarded_fails (hg : ¬GuardPasses c) (p : Prog Unit) : guarded c p = retire c c.g := if_neg hg

theorem groupGuarded_fails (hg : ¬GroupGuardPasses c) (p : Prog Unit) : groupGuarded c p = retire c c.g := if_neg hg

/-- A test of an instruction's operands that finds nothing to refuse is as good as none. -/
theorem Executes.refusing (h : Executes i never s c) (hill : ill c = false) : Executes i ill s c :=
  ⟨h.1, by rw [hill]; exact h.2⟩

theorem ifGuard_fails {p : Ctx → Bool} (hg : ¬GuardPasses c) : ifGuard p c = false := by
  simp only [ifGuard, Bool.and_eq_false_iff]
  exact .inl (Bool.eq_false_iff.2 hg)

/-- An instruction that has executed as a nop (R320). -/
theorem issue_skips (h : Executes i ill s c) (hb : body c = retire c c.g) : Skipped s c ((issue i ill body).outcome s) := by
  rw [issue_outcome h, hb]
  exact retire_skipped h.entry

/-- One that acts once for its split. -/
theorem issue_guarded_skips (h : Executes i ill s c) (hg : ¬GuardPasses c) :
    Skipped s c ((issue i ill fun c => guarded c (body c)).outcome s) := issue_skips h (guarded_fails hg _)

/-- One that a run does not pass again (R132). -/
theorem issueOnce_skips (h : Executes i ill s c) (hp : c.passing = false) (hb : body c = retire c c.g) :
    Skipped s c ((issueOnce i ill body).outcome s) := issue_skips h (by rw [if_neg (by simp [hp]), hb])

theorem issueOnce_guarded_skips (h : Executes i ill s c) (hp : c.passing = false) (hg : ¬GuardPasses c) :
    Skipped s c ((issueOnce i ill fun c => guarded c (body c)).outcome s) := issueOnce_skips h hp (guarded_fails hg _)

/-- One that acts once for its group. -/
theorem issue_groupGuarded_skips (h : Executes i ill s c) (hg : ¬GroupGuardPasses c) :
    Skipped s c ((issue i ill fun c => groupGuarded c (body c)).outcome s) := issue_skips h (groupGuarded_fails hg _)

end

/-- A push that is no command to an engine has the split guard (R182, R405). -/
theorem qPush_skips {m : Option Mod} {n : Fin 8} {a : QSrc} {s : State} {c : Ctx} (h : Executes (.qPush m n a) never s c)
    (hp : c.passing = false) (hpush : pushesCommand c.g (.qPush m n a) = false) (hg : ¬GuardPasses c) :
    Skipped s c (exec (.qPush m n a) s) :=
  issueOnce_skips (h.refusing (by simp [hpush])) hp (by simp only [hpush, Bool.false_eq_true, if_false, guarded_fails hg])

/-- rgn that names no block beyond the allocation (R332) has the group's guard. -/
theorem rgn_skips {m : Option Mod} {v : BitVec 30} {sm : BitVec 8} {pm : BitVec 16} {s : State} {c : Ctx}
    (h : Executes (.rgn m v sm pm) never s c) (hv : v.toNat < 2 ^ c.g.blocks) (hg : ¬GroupGuardPasses c) :
    Skipped s c (exec (.rgn m v sm pm) s) :=
  issue_skips h (by rw [if_neg (Nat.not_le.2 hv), groupGuarded_fails hg])

/-- Every instruction that acts once for its split is a nop where the split guard fails. -/
theorem splitGuarded_skips {i : Instr} {s : State} {c : Ctx} (h : Executes i never s c) (hp : c.passing = false)
    (hi : splitGuarded c i = true) (hg : ¬GuardPasses c) : Skipped s c (exec i s) := by
  cases i with
  | sadd | ssub | smul | sand | sor | sxor | sshl | sshr | ssar | smin | smax | smov | scmpEq | scmpNe | scmpLt | scmpLtu
  | scmpLe | scmpLeu | sbfx | call | brx | brxCall | join | yield | yieldC | sleep | modeImm | modeScalar | racq | rrel | trap
  | brk | srd | rrRead | lease | wwait => exact issue_guarded_skips h hg
  | xret | swr | rrWrite | rrRetire => exact issue_guarded_skips (h.refusing (ifGuard_fails hg)) hg
  | vtos _ _ _ b => exact issue_guarded_skips (h.refusing (by simpa [splitGuarded] using hi)) hg
  | sld | sst | qPop | qPeek | qStat | qBind | leaseEnd | fence | fencePhase | xfence | engErd | engEwr | engEresume
  | rndMshemit => exact issueOnce_guarded_skips h hp hg
  | qPush => exact qPush_skips h hp (by simpa [splitGuarded] using hi) hg
  | _ => cases hi

/-- Every instruction that acts once for its group is a nop where the guard fails at the group's lowest live lane. -/
theorem groupGuardedForm_skips {i : Instr} {s : State} {c : Ctx} (h : Executes i never s c)
    (hi : groupGuardedForm c i = true) (hg : ¬GroupGuardPasses c) : Skipped s c (exec i s) := by
  cases i with
  | bar | wsplit | wfuse => exact issue_groupGuarded_skips h hg
  | barClu => exact issue_groupGuarded_skips (h.refusing (by simpa [groupGuardedForm] using hi)) hg
  | rgn _ v => exact rgn_skips h (by simpa [groupGuardedForm] using hi) hg
  | _ => cases hi

/-- Settles O45: a guard that fails leaves what a nop leaves. -/
theorem guardFailures : Obligations.GuardFailures := fun _ _ _ _ =>
  ⟨fun h => issue_skips h rfl, splitGuarded_skips, fun h _ => groupGuardedForm_skips h⟩

end Sys2Proof.Machine
end

section
/-! SUPPORT. Instructions that change one entry of their group: the region's snapshot (R185, R332) and the writes of MODE
(R310, R333). -/

namespace Sys2Proof.Machine

/-! ### What setting an entry, freeing one and a commit leave of a group -/

section
variable (g : Group) (n : Nat) (e : Entry) (pc : Word64) (sus : Bool)

@[simp] theorem setEntry_live : (g.setEntry n e).live = g.live := rfl
@[simp] theorem setEntry_s : (g.setEntry n e).s = g.s := rfl
@[simp] theorem setEntry_v : (g.setEntry n e).v = g.v := rfl
@[simp] theorem setEntry_p : (g.setEntry n e).p = g.p := rfl

@[simp] theorem freeEntry_team : (g.freeEntry n).team = g.team := rfl
@[simp] theorem freeEntry_live : (g.freeEntry n).live = g.live := rfl
@[simp] theorem freeEntry_rr : (g.freeEntry n).rr = g.rr := rfl
@[simp] theorem freeEntry_overflow : (g.freeEntry n).overflow = g.overflow := rfl
@[simp] theorem freeEntry_suspended : (g.freeEntry n).suspended = g.suspended := rfl

@[simp] theorem commit_team : (g.commit pc sus).team = g.team := rfl
@[simp] theorem commit_width : (g.commit pc sus).width = g.width := rfl
@[simp] theorem commit_live : (g.commit pc sus).live = g.live := rfl
@[simp] theorem commit_s : (g.commit pc sus).s = g.s := rfl
@[simp] theorem commit_v : (g.commit pc sus).v = g.v := rfl
@[simp] theorem commit_p : (g.commit pc sus).p = g.p := rfl
@[simp] theorem commit_suspended : (g.commit pc sus).suspended = g.suspended := rfl
@[simp] theorem commit_entries : (g.commit pc sus).entries = g.entries := rfl
@[simp] theorem commit_rgnentry : (g.commit pc sus).rgnentry = pc := rfl

end

theorem sameS_of {g h : Group} (e : h.s = g.s) : SameS g h := fun n => by simp only [Group.sreg, e]

theorem sameV_of {g h : Group} (e : h.v = g.v) : SameV g h := fun n l _ => by simp only [Group.vreg, e]

theorem sameP_of {g h : Group} (e : h.p = g.p) : SameP g h := fun n => by simp only [Group.preg, e]

/-- An instruction whose body comes down to one program runs that. -/
theorem issue_runs {i : Instr} {ill : Ctx → Bool} {body : Ctx → Prog Unit} {s : State} {c : Ctx} {p : Prog Unit}
    (h : Executes i ill s c) (hb : body c = p) : (issue i ill body).outcome s = .next (p.run s).2 := by
  rw [issue_outcome h, hb]

/-- The entry of the context goes on from whatever it was set to. -/
theorem retired_at {c : Ctx} {g : Group} {e : Entry} (h : Tbl.find? g.entries c.n = some e) (v : Bool) :
    g.retired c v = g.setEntry c.n { e.step c.f with run := bumpRun e.run v } := by simp [Group.retired, h]

@[simp] theorem find?_setEntry_self (g : Group) (n : Nat) (e : Entry) : Tbl.find? (g.setEntry n e).entries n = some e :=
  find?_put_self _ _ _

theorem find?_setEntry_ne (g : Group) {n j : Nat} (e : Entry) (h : j ≠ n) :
    Tbl.find? (g.setEntry n e).entries j = Tbl.find? g.entries j := find?_put_ne _ _ h

/-- An entry that keeps its lanes, MODE and binding stands where it is set. -/
theorem stands_setEntry {c : Ctx} {g : Group} {e : Entry}
    (hg : ∀ n, n ≠ c.n → Tbl.find? g.entries n = Tbl.find? c.g.entries n) (hmask : e.mask = c.e.mask)
    (hmode : e.mode = c.e.mode) (hjoin : e.join = c.e.join) (hseq : e.jseq = c.e.jseq) :
    Stands c (g.setEntry c.n e) e.pc e.wait :=
  ⟨⟨e, find?_setEntry_self _ _ _, rfl, rfl, hmask, hmode, hjoin, hseq⟩,
    fun n hn => (find?_setEntry_ne g e hn).trans (hg n hn)⟩

/-- The group with its entry set, and no other. -/
theorem stands_set {c : Ctx} {e : Entry} (hmask : e.mask = c.e.mask) (hmode : e.mode = c.e.mode) (hjoin : e.join = c.e.join)
    (hseq : e.jseq = c.e.jseq) : Stands c (c.g.setEntry c.n e) e.pc e.wait :=
  stands_setEntry (fun _ _ => rfl) hmask hmode hjoin hseq

/-- A step that sets the entry of the context and nothing else. -/
theorem moved_setEntry (s : State) {c : Ctx} {e : Entry} (hmask : e.mask = c.e.mask) (hmode : e.mode = c.e.mode)
    (hjoin : e.join = c.e.join) (hseq : e.jseq = c.e.jseq) :
    Moved s c e.pc e.wait (.next ((emit (.group c.k (c.g.setEntry c.n e))).run s).2) :=
  ⟨_, _, rfl, emit_group_step s _ _, stands_set hmask hmode hjoin hseq, rfl, sameS_of rfl, sameV_of rfl, sameP_of rfl, rfl,
    rfl⟩

/-! ### rgn (R185, R332) -/

/-- The group as the snapshot takes it: at the instruction itself. -/
def Group.atRegion (g : Group) (c : Ctx) (r : RgnMask) : Group :=
  { (g.setEntry c.n { c.e with pc := c.f.pc, wait := .run }).commit c.f.pc with rgnmask := r }

section
variable (g : Group) (c : Ctx) (r : RgnMask)

@[simp] theorem atRegion_s : (g.atRegion c r).s = g.s := rfl
@[simp] theorem atRegion_v : (g.atRegion c r).v = g.v := rfl
@[simp] theorem atRegion_p : (g.atRegion c r).p = g.p := rfl

end

theorem rgn_takes {m : Option Mod} {v : BitVec 30} {sm : BitVec 8} {pm : BitVec 16} {s : State} {c : Ctx}
    (h : Executes (.rgn m v sm pm) never s c) (hg : GroupGuardPasses c) (hv : v.toNat < 2 ^ c.g.blocks) :
    ∃ t g, exec (.rgn m v sm pm) s = .next t ∧ GroupStep s t c.k g ∧ At c g c.f.next ∧ g.rgnentry = c.f.pc ∧
      g.rgnmask = { all := false, pmask := pm, smask := sm, vmask := v } ∧ g.snap.depth = c.g.depth ∧
      g.snap.live = c.g.live ∧ (∃ e, Tbl.find? g.snap.entries c.n = some e ∧ e.pc = c.f.pc) ∧
      SameS c.g g ∧ SameV c.g g ∧ SameP c.g g := by
  let r : RgnMask := { all := false, pmask := pm, smask := sm, vmask := v }
  have hrun : exec (.rgn m v sm pm) s = .next ((retire c (c.g.atRegion c r)).run s).2 := by
    show (issue _ _ _).outcome s = _
    rw [issue_outcome h, if_neg (Nat.not_le.2 hv), groupGuarded, if_pos hg]
    rfl
  have hentry : Tbl.find? (c.g.atRegion c r).entries c.n = some { c.e with pc := c.f.pc, wait := .run } :=
    find?_setEntry_self _ _ _
  refine ⟨_, _, hrun, emit_group_step s _ _, ?_⟩
  rw [retired_at hentry]
  exact ⟨stands_setEntry (fun n hn => find?_setEntry_ne c.g _ hn) rfl rfl rfl rfl, rfl, rfl, rfl, rfl, ⟨_, hentry, rfl⟩,
    sameS_of (by simp), sameV_of (by simp), sameP_of (by simp)⟩

/-! ### MODE (R310, R333) -/

/-- A legal value becomes the split's MODE, and the split goes on. -/
theorem writeMode_done {s : State} {c : Ctx} {w : Word64} (hw : modeWritable w = true) :
    ∃ t g e, (Host.Outcome.next ((writeMode c w).run s).2 : Out) = .next t ∧ GroupStep s t c.k g ∧
      Tbl.find? g.entries c.n = some e ∧ e.pc = c.f.next ∧ e.mode = w.setWidth 19 ∧ e.mask = c.e.mask ∧
      (∀ n, n ≠ c.n → Tbl.find? g.entries n = Tbl.find? c.g.entries n) ∧ Kept c.g g ∧ SameS c.g g ∧ SameV c.g g ∧
      SameP c.g g ∧ g.flags = c.g.flags := by
  have hentry : Tbl.find? (c.g.setEntry c.n { c.e with mode := w.setWidth 19 }).entries c.n =
      some { c.e with mode := w.setWidth 19 } := find?_setEntry_self _ _ _
  rw [writeMode, if_pos hw, retire, retired_at hentry]
  refine ⟨_, _, _, rfl, emit_group_step s _ _, find?_setEntry_self _ _ _, rfl, rfl, rfl, fun n hn => ?_, rfl, sameS_of rfl,
    sameV_of rfl, sameP_of rfl, rfl⟩
  rw [find?_setEntry_ne _ _ hn, find?_setEntry_ne _ _ hn]

/-- Settles O17: the snapshot is the group at the instruction, which then goes on; a legal MODE replaces the split's. -/
theorem regionAndMode : Obligations.RegionAndMode := by
  intro m v sm pm x a s c written
  refine ⟨rgn_takes, fun h hg hw => ?_, fun h hg hw => ?_⟩
  · have hrun : exec (.modeImm m x) s = .next ((writeMode c (x.setWidth 64)).run s).2 := issue_runs h (if_pos hg)
    rw [hrun]
    exact writeMode_done hw
  · have hrun : exec (.modeScalar m a) s = .next ((writeMode c (c.g.ssrc a none)).run s).2 := issue_runs h (if_pos hg)
    rw [hrun]
    exact writeMode_done hw

end Sys2Proof.Machine
end

section
/-! SUPPORT. The divergence stack where no record lies on it (R168 to R174): nothing merges or loads, and what is written back
changes one group and its team alone. -/

namespace Sys2Proof.Machine

/-! ### Steps of one group and its team -/

theorem GroupStep.teamStep {s t : State} {k : Nat} {g : Group} (h : GroupStep s t k g) : TeamStep s t k g :=
  ⟨h.here, h.others, h.rest.mem, fun n => by rw [coreAt, h.rest.cores]; rfl, h.rest.dies, h.rest.dev⟩

/-- A step of a group after another. -/
theorem TeamStep.trans {s t u : State} {k : Nat} {g h : Group} (h1 : TeamStep s t k g) (h2 : TeamStep t u k h) :
    TeamStep s u k h := by
  refine ⟨h2.here, fun j hj => (h2.others j hj).trans (h1.others j hj), fun a => (h2.mem a).trans (h1.mem a), fun n => ?_,
    h2.dies.trans h1.dies, h2.dev.trans h1.dev⟩
  have h := congrArg (fun x : Core => { x with quarters := (coreAt s n).quarters }) (h2.cores n)
  exact h.trans (h1.cores n)

/-- What is due besides does not count. -/
theorem TeamStep.due {s t : State} {k : Nat} {g : Group} (h : TeamStep s t k g) (l : List Instr) :
    TeamStep s { t with pending := l } k g := ⟨h.here, h.others, h.mem, h.cores, h.dies, h.dev⟩

theorem putStack_fields (k : Nat) (x : Stack) (s : State) :
    ∃ ts, ((putStack k x).run s).2 = { s with teams := ts, groups := Tbl.put s.groups k x.g } := by
  obtain ⟨ts, hts⟩ := modTeam_fields x.g.team (fun t => { t with priv := x.m }) s
  exact ⟨ts, by rw [putStack, run_bind, hts]; rfl⟩

theorem putStack_teamStep (k : Nat) (x : Stack) (s : State) : TeamStep s ((putStack k x).run s).2 k x.g := by
  obtain ⟨ts, hts⟩ := putStack_fields k x s
  rw [hts]
  exact ⟨find?_put_self _ _ _, fun j hj => find?_put_ne _ _ hj, fun _ => rfl, fun _ => rfl, rfl, rfl⟩

/-! ### A free entry -/

theorem find?_none_of_not_mem {α : Type} {t : Tbl α} {k : Nat} (h : k ∉ Tbl.keys t) : Tbl.find? t k = none := by
  induction t with
  | nil => rfl
  | cons x rest ih =>
    obtain ⟨i, y⟩ := x
    simp only [Tbl.keys, List.map_cons, List.mem_cons, not_or] at h
    obtain ⟨hi, hrest⟩ := h
    rw [Tbl.find?, if_neg (by simpa using Ne.symm hi)]
    exact ih hrest

/-- The lowest free entry is none that stands in the table. -/
theorem firstFree_ne {g : Group} {k n : Nat} {e : Entry} (hk : g.firstFree = some k) (he : Tbl.find? g.entries n = some e) :
    n ≠ k := by
  rintro rfl
  have hfree : n ∉ Tbl.keys g.entries := by simpa using List.find?_some hk
  rw [find?_none_of_not_mem hfree] at he
  cases he

/-! ### br.d (R171, R324) -/

/-- The part of a divided split that goes on behind the branch. -/
def Entry.fallen (e : Entry) (f : Focus) (taken : Mask) (b : Binding) : Entry :=
  { e.step f with mask := e.mask &&& ~~~taken, join := b.1, jseq := b.2, run := none }

/-- The part that goes to the target. -/
def Entry.branched (e : Entry) (f : Focus) (taken : Mask) (t : Word64 × Bool) (b : Binding) : Entry :=
  { pc := t.1, via := if t.2 then .noSlot else .transfer, src := f.pc, mask := taken, mode := e.mode, join := b.1, jseq := b.2,
    wait := .run, run := none }

/-- The group of a divided split that no binding held and that has a free entry. -/
def Group.divided (g : Group) (c : Ctx) (k : Nat) (taken : Mask) (t : Word64 × Bool) (b : Binding) : Group :=
  ({ g with bseq := b.2 + 1 }.setEntry c.n (c.e.fallen c.f taken b)).setEntry k (c.e.branched c.f taken t b)

/-- No record is needed where no binding is outside and an entry is free. -/
theorem diverge_eq {x : Stack} {c : Ctx} {taken : Mask} {t : Word64 × Bool} {j : BitVec 48} {k : Nat} {q : BitVec 6}
    (hj : c.e.join = 0) (hk : x.g.firstFree = some k) (hq : freshSeq x j x.g.bseq 64 = some q) :
    x.diverge c.n c.e c.f taken t.1 t.2 j = some { x with g := x.g.divided c k taken t (j, q) } := by
  simp [Stack.diverge, hj, hk, hq, Stack.pushAll, Group.divided, Entry.fallen, Entry.branched]

theorem divided_fallen (g : Group) (c : Ctx) {k : Nat} (taken : Mask) (t : Word64 × Bool) (b : Binding) (hk : c.n ≠ k) :
    Tbl.find? (g.divided c k taken t b).entries c.n = some (c.e.fallen c.f taken b) := by
  rw [Group.divided, find?_setEntry_ne _ _ hk, find?_setEntry_self]

theorem divided_branched (g : Group) (c : Ctx) (k : Nat) (taken : Mask) (t : Word64 × Bool) (b : Binding) :
    Tbl.find? (g.divided c k taken t b).entries k = some (c.e.branched c.f taken t b) := find?_setEntry_self _ _ _

theorem divided_others (g : Group) (c : Ctx) {k n : Nat} (taken : Mask) (t : Word64 × Bool) (b : Binding) (hn : n ≠ c.n)
    (hk : n ≠ k) : Tbl.find? (g.divided c k taken t b).entries n = Tbl.find? g.entries n := by
  rw [Group.divided, find?_setEntry_ne _ _ hk, find?_setEntry_ne _ _ hn]

/-- What br.d does, by how many of the active lanes are taken. -/
theorem brD_run {m : Option Mod} {p : Fin 128} {neg : Bool} {loff : BitVec 11} {slot : BitVec 5} {j : BitVec 22} {s : State}
    {c : Ctx} (h : Executes (.brD m p neg loff slot j) never s c) :
    let taken := c.act &&& testMask c.g p neg
    let t := branchTarget c.f (.near loff slot)
    exec (.brD m p neg loff slot j) s = .next ((if taken == 0 then retire c c.g
      else if c.act == taken then branchTo c true t
      else match (stackOf c.t c.g).diverge c.n c.e c.f taken t.1 t.2 ((payloadTarget c.f j).1.setWidth 48) with
        | none => raise c cStack
        | some x => putStack c.k x).run s).2 := issue_outcome h

/-- Settles O13: the three cases of the branch, by how many of the active lanes are taken. -/
theorem divergence : Obligations.Divergence := by
  intro m p neg loff slot j s c i target taken at_ h
  have hrun : exec i s = _ := brD_run h
  refine ⟨fun h0 => ?_, fun h0 hall => ?_, fun k q h0 hall hjoin hk hq => ?_⟩
  · rw [hrun, if_pos (by simpa using h0)]
    exact retire_skipped h.entry
  · rw [hrun, if_neg (by simpa using h0), if_pos (by simpa using hall.symm)]
    exact moved_setEntry s rfl rfl rfl rfl
  · have hne : c.n ≠ k := firstFree_ne hk h.entry
    let t := branchTarget c.f (.near loff slot)
    have hdiv : (stackOf c.t c.g).diverge c.n c.e c.f taken t.1 t.2 at_ =
        some { stackOf c.t c.g with g := c.g.divided c k taken t (at_, q) } := diverge_eq hjoin hk hq
    rw [hrun, if_neg (by simpa using h0), if_neg (by simpa using Ne.symm hall), hdiv]
    exact ⟨_, _, _, _, rfl, putStack_teamStep _ _ _, divided_fallen c.g c taken t _ hne, rfl, rfl, rfl, rfl, rfl,
      divided_branched c.g c k taken t _, rfl, rfl, rfl, rfl, rfl, fun n hn hnk => divided_others c.g c taken t _ hn hnk, rfl,
      rfl, sameS_of rfl, sameV_of rfl, sameP_of rfl⟩

end Sys2Proof.Machine
end

section
/-! SUPPORT. The return from a trap (R191, R340) where one entry lay in the frame and nothing below it. -/

namespace Sys2Proof.Machine

/-! ### A stack at rest -/

/-- No record lies on an empty stack outside a handler. -/
theorem recs_empty {x : Stack} (hd : x.g.depth = 0) (hh : x.g.hnd = false) : x.recs = [] := by
  simp [Stack.recs, hd, hh, upTo]

/-- Freeing no record of an empty stack changes nothing. -/
theorem release_nil {x : Stack} (hd : x.g.depth = 0) : x.release [] = x := by
  have harms : x.g.arms.filter (fun a => !([] : List Nat).contains a.1) = x.g.arms := by simp
  simp only [Stack.release, List.foldl_nil, hd, settleDepth, harms]
  rw [← hd]

/-- With no record and no entry at a join nothing merges (R174). -/
theorem merge_none {x : Stack} (hr : x.recs = []) (hw : ∀ y ∈ x.g.entries, y.2.wait.estate ≠ 1) : x.merge = none := by
  have hnone : ∀ b, waitingAt x.g b = [] := fun b => List.filter_eq_nil_iff.2 fun y hy => by
    simp only [beq_eq_false_iff_ne.2 (hw y hy), Bool.and_false, Bool.false_eq_true, not_false_eq_true]
  simp only [Stack.merge, List.findSome?_eq_none_iff]
  intro b _
  rw [if_neg]
  simp [mayMerge, hnone, hr]

theorem load_none {x : Stack} (hr : x.recs = []) : x.load = none := by
  cases h : x.g.firstFree <;> simp [Stack.load, hr, h]

theorem freeNests_self {x : Stack} (hr : x.recs = []) (hd : x.g.depth = 0) : x.freeNests = x := by
  simp only [Stack.freeNests, hr, List.filter_nil, List.map_nil]
  exact release_nil hd

/-- A stack at rest stays as it is. -/
theorem settled_self {x : Stack} (hd : x.g.depth = 0) (hh : x.g.hnd = false)
    (hw : ∀ y ∈ x.g.entries, y.2.wait.estate ≠ 1) : x.settled = x := by
  have hr := recs_empty hd hh
  rw [Stack.settled, hd]
  simp only [Stack.settle, merge_none hr hw, load_none hr, freeNests_self hr hd]

/-! ### Operations with nothing to do -/

/-- A group that holds no lease and no place at a home loses nothing (R217). -/
theorem dropLeases_none {s : State} {k : Nat} {g : Group} (hg : Tbl.find? s.groups k = some g) (h : NoLease s k g) :
    (dropLeases k).run s = ((), (Upd.group k g).apply s) := by
  obtain ⟨hheld, hqueue⟩ := h
  have hleases : g.leases.map (fun x => { x with held := false }) = g.leases := by
    conv => rhs; rw [← List.map_id g.leases]
    refine List.map_congr_left fun x hx => ?_
    rw [← hheld x hx]
    rfl
  have hnot : ∀ j : Nat, (g.leases[j]?).any (·.held) = false := fun j => by
    cases hj : g.leases[j]? with
    | none => rfl
    | some x => exact hheld x (List.mem_of_getElem? hj)
  have hfilter : g.leases.filter (·.held) = [] := List.filter_eq_nil_iff.2 fun x hx => by simp [hheld x hx]
  have hqueues : s.dev.leases.filter (fun x => x.2.queue.contains (.access (.group k))) = [] :=
    List.filter_eq_nil_iff.2 fun x hx => by simpa using hqueue x hx
  simp only [dropLeases, monad_bind, run_bind, run_look, hg, hnot, hfilter, run_modGroup hg, hleases, run_each_nil, upTo,
    List.foldl_cons, List.foldl_nil, Bool.false_eq_true, if_false, withdrawAccesses, withdrawAsker, run_get, apply_group_dev,
    hqueues, Tbl.keys, List.map_nil]

theorem servePreempt_none {s : State} {k : Nat} {g : Group} (hg : Tbl.find? s.groups k = some g) (hp : g.preempt = false) :
    (servePreempt k).run s = ((), s) := by
  simp [servePreempt, hg, hp]

/-- A group with a live lane does not end (R176). -/
theorem settleGroup_live {s : State} {k : Nat} {g : Group} (hg : Tbl.find? s.groups k = some g) (hl : g.live ≠ 0) :
    (settleGroup k).run s = ((), s) := by
  simp only [settleGroup, monad_bind, monad_pure, run_bind, run_look, hg, beq_eq_false_iff_ne.2 hl, Bool.false_and,
    Bool.false_eq_true, if_false, run_pure]

theorem putStack_team {s : State} {k : Nat} {x : Stack} {t : Team} (ht : Tbl.find? s.teams x.g.team = some t) :
    Tbl.find? ((putStack k x).run s).2.teams x.g.team = some { t with priv := x.m } := by
  simp [putStack, modTeam, ht]

/-- Merges and loads of a group whose stack is at rest. -/
theorem settleSplits_rest {s : State} {k : Nat} {g : Group} {t : Team} (hg : Tbl.find? s.groups k = some g)
    (ht : Tbl.find? s.teams g.team = some t) (hd : g.depth = 0) (hh : g.hnd = false)
    (hw : ∀ y ∈ g.entries, y.2.wait.estate ≠ 1) : TeamStep s ((settleSplits k).run s).2 k g := by
  simp only [settleSplits, run_get, hg, ht, settled_self (x := stackOf t g) hd hh hw]
  exact putStack_teamStep k (stackOf t g) s

/-! ### xret (R191, R340) -/

/-- The entry that trapped, as its record and the exception registers give it back. -/
def Group.resumed (g : Group) (r : Rec) (src : Word64) : Entry :=
  { pc := g.xpc, via := .xret, src, mask := r.mask &&& g.live, mode := g.xmode, join := r.join, jseq := r.jseq,
    wait := emitWait g r.entry, run := none }

/-- The group whose handler ends with that entry alone. -/
def Group.resumedGroup (g : Group) (r : Rec) (src : Word64) : Group :=
  { g with entries := [(r.entry, g.resumed r src)], suspended := [], depth := 0, sdepth := 0, hnd := false, latch := [] }

theorem returned_one {m : PrivMem} {g : Group} {top now : Nat} {src : Word64} {r : Rec}
    (hf : readFrame m g top g.depth [] = some (0, [r]))
    (ht : bits (BitVec.ofNat 64 (ofBytes (privBytes m g 2 (top - 8) 8))) 32 2 = r.entry) :
    g.returned m top now src = some { g with
      entries := [(r.entry, { g.resumed r src with mask := r.mask })], suspended := [], depth := 0, hnd := false,
      latch := [] } := by
  simp [Group.returned, hf, ht, Tbl.put, Group.resumed]

/-- The frame of one entry is popped (R191): no record is left. -/
theorem unwind_one {x : Stack} {now : Nat} {src : Word64} {r : Rec}
    (hf : readFrame x.m x.g x.top x.g.depth [] = some (0, [r]))
    (ht : bits (BitVec.ofNat 64 (ofBytes (privBytes x.m x.g 2 (x.top - 8) 8))) 32 2 = r.entry)
    (hc : x.g.xcause ≠ cPreempt) (hl : r.mask &&& x.g.live ≠ 0) :
    ∃ m, x.unwind now src = some { x with m := m, g := x.g.resumedGroup r src } := by
  have hkept : ((Tbl.mapVals [(r.entry, { x.g.resumed r src with mask := r.mask })] fun _ (e : Entry) =>
      { e with mask := e.mask &&& x.g.live }).filter fun y => y.2.mask != 0) = [(r.entry, x.g.resumed r src)] := by
    have hlive : (r.mask &&& x.g.live != 0) = true := bne_iff_ne.2 hl
    simp only [Tbl.mapVals, List.map_cons, List.map_nil, List.filter_cons, List.filter_nil, hlive, if_true, Group.resumed]
  have hcause : (x.g.xcause == cPreempt) = false := by simpa using hc
  simp only [Stack.unwind, returned_one hf ht, hkept, hcause, settleDepth, Bool.false_eq_true, if_false]
  exact ⟨_, rfl⟩

/-- What follows a restored split table (R191, R340) does nothing more to a group with a live lane, no lease, a stack at rest and
no held PREEMPT. -/
theorem returnTrap_rest {s : State} {c : Ctx} {x : Stack} {t : Team}
    (h : (stackOf c.t c.g).unwind (clockAt s (dieOf (keyCore c.k))) c.f.pc = some x)
    (ht : Tbl.find? s.teams x.g.team = some t) (hlease : NoLease s c.k x.g) (hd : x.g.depth = 0) (hh : x.g.hnd = false)
    (hw : ∀ y ∈ x.g.entries, y.2.wait.estate ≠ 1) (hp : x.g.preempt = false) (hl : x.g.live ≠ 0) :
    TeamStep s ((returnTrap c).run s).2 c.k x.g := by
  obtain ⟨hheld, hqueue⟩ := hlease
  have hput := putStack_teamStep c.k x s
  have hteam := putStack_team (k := c.k) ht
  simp only [returnTrap, monad_bind, run_bind, run_look, h]
  generalize ((putStack c.k x).run s).2 = s1 at hput hteam
  have hsettled := settleSplits_rest (s := (Upd.group c.k x.g).apply s1) (find?_put_self _ _ _) hteam hd hh hw
  rw [dropLeases_none hput.here ⟨hheld, by rw [hput.dev]; exact hqueue⟩]
  generalize ((settleSplits c.k).run ((Upd.group c.k x.g).apply s1)).2 = s2 at hsettled
  rw [servePreempt_none hsettled.here hp, run_each_due]
  have hdone := ((hput.trans (emit_group_step s1 c.k x.g).teamStep).trans hsettled).due
  rw [settleGroup_live (hdone _).here hl]
  exact hdone _

/-- Settles O24: the frame is popped and the entry restored, and what follows a joined split table finds nothing to do. -/
theorem trapReturn : Obligations.TrapReturn := by
  intro m s c r h hg hhnd hf ht hcause hpre hwait hlease hmask
  obtain ⟨-, -, -, -, -, hteam, -⟩ := ctx_holds h.1
  obtain ⟨m1, hunwind⟩ := unwind_one (x := stackOf c.t c.g) (now := clockAt s (dieOf (keyCore c.k))) (src := c.f.pc) hf ht hcause
    hmask
  have hrun : exec (.xret m) s = .next ((returnTrap c).run s).2 := issue_runs h (if_pos hg)
  have hlive : c.g.live ≠ 0 := fun h0 => hmask (by rw [h0]; exact BitVec.and_zero)
  have hnowait : ∀ y ∈ (c.g.resumedGroup r c.f.pc).entries, y.2.wait.estate ≠ 1 := by
    simp [Group.resumedGroup, Group.resumed, hwait, Wait.estate]
  exact ⟨_, _, c.g.resumed r c.f.pc, hrun, returnTrap_rest (t := c.t) hunwind hteam hlease rfl rfl hnowait hpre hlive, rfl, rfl,
    rfl, rfl, rfl, rfl, hwait, sameS_of rfl, sameV_of rfl, sameP_of rfl, rfl⟩

end Sys2Proof.Machine
end

section
/-! SUPPORT. Leases given up (R213 to R217): homes serve what waits there, which changes the groups it reaches, but no team and
no group's width. -/

namespace Sys2Proof.Machine

/-- Nothing but leases, predictors and groups differs of the device and the teams, and of no group its width. -/
structure LeasesOnly (s t : State) : Prop where
  teams : t.teams = s.teams
  dev : ∃ l p, t.dev = { s.dev with leases := l, predict := p }
  width : ∀ k, (Tbl.find? t.groups k).map (·.width) = (Tbl.find? s.groups k).map (·.width)

theorem LeasesOnly.refl (s : State) : LeasesOnly s s := ⟨rfl, ⟨_, _, rfl⟩, fun _ => rfl⟩

theorem LeasesOnly.trans {s t u : State} (h1 : LeasesOnly s t) (h2 : LeasesOnly t u) : LeasesOnly s u := by
  obtain ⟨l1, p1, hd1⟩ := h1.dev
  obtain ⟨l2, p2, hd2⟩ := h2.dev
  exact ⟨h2.teams.trans h1.teams, ⟨l2, p2, by rw [hd2, hd1]⟩, fun k => (h2.width k).trans (h1.width k)⟩

theorem LeasesOnly.packets {s t : State} (h : LeasesOnly s t) : t.dev.packets = s.dev.packets := by
  obtain ⟨l, p, hd⟩ := h.dev
  rw [hd]

/-- A group is there still, of the width it had. -/
theorem LeasesOnly.group {s t : State} {k : Nat} {g : Group} (h : LeasesOnly s t) (hg : Tbl.find? s.groups k = some g) :
    ∃ g', Tbl.find? t.groups k = some g' ∧ g'.width = g.width := by
  have hw := h.width k
  rw [hg, Option.map_some, Option.map_eq_some_iff] at hw
  exact hw

theorem LeasesOnly.modGroup {s t : State} (h : LeasesOnly s t) (k : Nat) {f : Group → Group} (hf : ∀ g, (f g).width = g.width) :
    LeasesOnly s ((modGroup k f).run t).2 := by
  cases hg : Tbl.find? t.groups k with
  | none => simpa [Machine.modGroup, hg] using h
  | some g =>
    rw [run_modGroup hg]
    refine h.trans ⟨rfl, ⟨_, _, rfl⟩, fun j => ?_⟩
    rw [apply_group_groups, find?_put]
    split
    next hj => rw [hj, hg, Option.map_some, Option.map_some, hf]
    next => rfl

theorem LeasesOnly.leases {s t : State} (h : LeasesOnly s t) (f : Tbl LeaseHold → Tbl LeaseHold) :
    LeasesOnly s ((modDev fun d => { d with leases := f d.leases }).run t).2 := h.trans ⟨rfl, ⟨_, _, rfl⟩, fun _ => rfl⟩

theorem LeasesOnly.setPredictor {s t : State} (h : LeasesOnly s t) (line : Nat) (x : Nat × Bool) :
    LeasesOnly s ((setPredictor line x).run t).2 := h.trans ⟨rfl, ⟨_, _, rfl⟩, fun _ => rfl⟩

theorem setWait_width (g : Group) (sus : Bool) (n : Nat) (e : Entry) : (g.setWait sus n e).width = g.width := by
  cases sus <;> rfl

/-- A grant (R213) gives the group its lease, and moves the split that waits for it on. -/
theorem LeasesOnly.grantLease {s t : State} (h : LeasesOnly s t) (line k pa : Nat) :
    LeasesOnly s ((grantLease line k pa).run t).2 := by
  simp only [Machine.grantLease, run_get, run_bind]
  refine LeasesOnly.modGroup (LeasesOnly.setPredictor (h.leases fun l => Tbl.put l line _) _ _) _ fun g => ?_
  split
  · split
    · rw [commit_width, setWait_width]
    · rfl
  · rfl

theorem LeasesOnly.serveQueue {s t : State} (h : LeasesOnly s t) (line : Nat) : LeasesOnly s ((serveQueue line).run t).2 := by
  simp only [Machine.serveQueue, run_get]
  split
  · exact h
  next x _ =>
    split
    · exact h
    · split
      · exact h.leases fun l => Tbl.del l line
      · exact h.leases fun l => Tbl.put l line _
      next k pa rest _ =>
        rw [run_bind]
        exact (h.leases fun l => Tbl.put l line { x with queue := rest }).grantLease line k pa

theorem LeasesOnly.dropHold {s t : State} (h : LeasesOnly s t) (line : Nat) : LeasesOnly s ((dropHold line).run t).2 := by
  simp only [Machine.dropHold, run_get]
  split
  · exact h
  next x _ =>
    rw [run_bind]
    exact (h.leases fun l => Tbl.put l line { x with holder := none }).serveQueue line

theorem LeasesOnly.withdraw {s t : State} (h : LeasesOnly s t) (line : Nat) (out : LeaseReq → Bool) :
    LeasesOnly s ((withdraw line out).run t).2 := by
  rw [Machine.withdraw, run_bind]
  exact (h.leases fun l => Tbl.modify l line fun x => { x with queue := x.queue.filter fun r => !out r }).serveQueue line

theorem LeasesOnly.withdrawAccesses {s t : State} (h : LeasesOnly s t) (k : Nat) :
    LeasesOnly s ((withdrawAccesses k).run t).2 := by
  simp only [Machine.withdrawAccesses, withdrawAsker, run_get]
  exact each_keeps (P := LeasesOnly s) (fun line u hu => hu.withdraw line _) _ h

/-- What a group does as it drops its leases (R217). -/
theorem dropLeases_leasesOnly (k : Nat) (s : State) : LeasesOnly s ((dropLeases k).run s).2 := by
  simp only [dropLeases, monad_bind, run_bind, run_look]
  split
  · exact LeasesOnly.refl s
  next g _ =>
    simp only [run_bind]
    have hlost := (LeasesOnly.refl s).modGroup k (f := fun g' => { g' with
      leases := g'.leases.map (fun x => { x with held := false }),
      lost := (upTo 0 4).foldl (fun (a : BitVec 4) j => if (g.leases[j]?).any (·.held) then setBit a j else a) g.lost })
      fun _ => rfl
    exact LeasesOnly.withdrawAccesses
      (each_keeps (P := LeasesOnly s) (fun x u hu => hu.dropHold x.line) (g.leases.filter (·.held)) hlost) k

end Sys2Proof.Machine
end

section
/-! SUPPORT. The end of a group and of its team (R176, R192, R193, R331). -/

namespace Sys2Proof.Machine

/-! ### Programs that leave groups and teams alone -/

/-- A program that leaves groups and teams as they are. -/
def KeepsTables {α : Type} (p : Prog α) : Prop := ∀ s, (p.run s).2.groups = s.groups ∧ (p.run s).2.teams = s.teams

theorem KeepsTables.skip {α : Type} (a : α) : KeepsTables (.pure a) := fun _ => ⟨rfl, rfl⟩

theorem KeepsTables.bind {α β : Type} {p : Prog α} {f : α → Prog β} (hp : KeepsTables p) (hf : ∀ a, KeepsTables (f a)) :
    KeepsTables (Prog.bind p f) := fun s => by
  rw [run_bind]
  obtain ⟨hg1, ht1⟩ := hp s
  obtain ⟨hg2, ht2⟩ := hf (p.run s).1 (p.run s).2
  exact ⟨hg2.trans hg1, ht2.trans ht1⟩

theorem KeepsTables.get {α : Type} {f : State → Prog α} (h : ∀ s, KeepsTables (f s)) : KeepsTables (.get f) :=
  fun s => h s s

theorem KeepsTables.look {α : Type} (f : State → α) : KeepsTables (Machine.look f) := fun _ => ⟨rfl, rfl⟩

theorem KeepsTables.modDev (f : Dev → Dev) : KeepsTables (Machine.modDev f) := fun _ => ⟨rfl, rfl⟩

theorem KeepsTables.modDie (n : Nat) (f : Die → Die) : KeepsTables (Machine.modDie n f) := fun _ => ⟨rfl, rfl⟩

theorem KeepsTables.modCore (n : Nat) (f : Core → Core) : KeepsTables (Machine.modCore n f) := fun _ => ⟨rfl, rfl⟩

theorem KeepsTables.due (i : Instr) : KeepsTables (Machine.due i) := fun _ => ⟨rfl, rfl⟩

theorem KeepsTables.byte (a : Nat) (b : Byte) {α : Type} {p : Prog α} (h : KeepsTables p) : KeepsTables (.upd (.byte a b) p) :=
  fun s => h ((Upd.byte a b).apply s)

theorem KeepsTables.each {α : Type} {f : α → Prog Unit} (h : ∀ x, KeepsTables (f x)) (l : List α) :
    KeepsTables (Machine.each l f) := by
  induction l with
  | nil => exact .skip ()
  | cons x rest ih => exact (h x).bind fun _ => ih

theorem KeepsTables.healByte (a : Nat) : KeepsTables (Machine.healByte a) := .get fun s => by
  split
  · exact .skip ()
  · exact .modDev _

theorem KeepsTables.storeBytes (bs : List Byte) (pa : Nat) : KeepsTables (Machine.storeBytes pa bs) := by
  induction bs generalizing pa with
  | nil => exact .skip ()
  | cons b rest ih =>
    refine .get fun s => ?_
    dsimp only
    split
    · exact ih _
    · exact .byte _ _ ((KeepsTables.healByte _).bind fun _ => ih _)

theorem KeepsTables.modQueue (q : Nat) (f : Queue → Queue) : KeepsTables (Machine.modQueue q f) := by
  simp only [Machine.modQueue, monad_bind]
  exact (KeepsTables.modDev _).bind fun _ => (KeepsTables.look _).bind fun _ => (KeepsTables.look _).bind fun _ =>
    .storeBytes _ _

theorem KeepsTables.dropPacket (q i : Nat) : KeepsTables (Machine.dropPacket q i) := by
  simp only [Machine.dropPacket, countInflight, monad_bind]
  exact (KeepsTables.modDev _).bind fun _ => (KeepsTables.look _).bind fun _ => .modQueue _ _

theorem KeepsTables.recheckColl (q i : Nat) : KeepsTables (Machine.recheckColl q i) :=
  .get fun _ => .each (fun _ => .due _) _

theorem KeepsTables.launchCheck (q i : Nat) : KeepsTables (Machine.launchCheck q i) :=
  (KeepsTables.look _).bind fun o => by
    split
    next p =>
      split
      · split
        · exact .dropPacket _ _
        · exact .skip ()
      · refine (KeepsTables.look _).bind fun b => ?_
        split
        · exact (KeepsTables.modDev _).bind fun _ => .due _
        · exact .skip ()
    next => exact .skip ()

theorem KeepsTables.freeTeam (team : Nat) : KeepsTables (Machine.freeTeam team) :=
  (KeepsTables.look _).bind fun o => by
    split
    next => exact .skip ()
    next t =>
      refine (KeepsTables.modCore _ _).bind fun _ => (KeepsTables.look _).bind fun _ => ?_
      split
      · refine (KeepsTables.look _).bind fun _ => .each (fun n => ?_) _
        exact .modCore _ _
      · exact .skip ()

/-! ### Teams that end -/

/-- A team that is dropped is gone, and nothing of the groups differs (R73, R176). -/
theorem dropTeam_gone {s : State} {k : Nat} {t : Team} (ht : Tbl.find? s.teams k = some t) :
    let u := ((dropTeam k).run s).2
    Tbl.find? u.teams k = none ∧ u.groups = s.groups := by
  simp only [dropTeam, monad_bind, run_bind, run_look, ht, run_emit]
  have hfrees : KeepsTables (Prog.bind (freeTeam k) fun _ => freeFrames t) :=
    (KeepsTables.freeTeam k).bind fun _ => .modDev _
  have hfreed := hfrees s
  rw [run_bind] at hfreed
  generalize ((freeFrames t).run ((freeTeam k).run s).2).2 = s1 at hfreed
  obtain ⟨hgroups, -⟩ := hfreed
  have hgone : Tbl.find? ((Upd.noTeam k).apply ((modDev fun d =>
      { d with held := d.held.filter (·.team != k) }).run s1).2).teams k = none := find?_del_self _ _
  have hsame : ((Upd.noTeam k).apply ((modDev fun d =>
      { d with held := d.held.filter (·.team != k) }).run s1).2).groups = s.groups := hgroups
  generalize (Upd.noTeam k).apply ((modDev fun d => { d with held := d.held.filter (·.team != k) }).run s1).2 = s2
    at hgone hsame
  have hrest : KeepsTables (Prog.bind (modPacket t.queue t.packet fun p =>
      { p with running := p.running - 1, restarts := p.restarts.filter (· != k) }) fun _ =>
      Prog.bind (recheckColl t.queue t.packet) fun _ =>
      Prog.bind (launchCheck t.queue t.packet) fun _ => replace t.part) :=
    (KeepsTables.modDev _).bind fun _ => (KeepsTables.recheckColl _ _).bind fun _ =>
      (KeepsTables.launchCheck _ _).bind fun _ => (KeepsTables.due _).bind fun _ => .due _
  have hkept := hrest s2
  simp only [run_bind] at hkept
  obtain ⟨hg, hteams⟩ := hkept
  exact ⟨by rw [hteams]; exact hgone, hg.trans hsame⟩

theorem teamEnded_drops {s : State} {k : Nat} {t : Team} (ht : Tbl.find? s.teams k = some t) (hp : t.preempting = false) :
    (teamEnded k).run s = (dropTeam k).run s := by
  simp [teamEnded, ht, hp]

/-- A team whose groups have saved their state, as it waits to be placed again (R150). -/
def Team.toRestart (t : Team) : Team :=
  { t with placed := false, preempting := false, restarting := true, saved := false, tile := [], gang := 0,
           extUsed := [0, 0, 0, 0] }

/-- A pre-empted team whose last group has saved its state waits to be placed again (R150). -/
theorem teamEnded_saved {s : State} {k : Nat} {t : Team} {p : Packet} (ht : Tbl.find? s.teams k = some t)
    (hp : t.preempting = true) (hs : t.saved = true) (hpk : packetAt s.dev t.queue t.packet = some p) (hph : p.phase = 1) :
    let u := ((teamEnded k).run s).2
    Tbl.find? u.teams k = some t.toRestart ∧ u.groups = s.groups := by
  simp only [teamEnded, monad_bind, run_bind, run_look, ht, hp, hs, hpk, hph, Option.elim_some, beq_self_eq_true, Bool.and_self,
    if_true]
  have hfree := KeepsTables.freeTeam k s
  generalize ((freeTeam k).run s).2 = s1 at hfree
  obtain ⟨hgroups, hteams⟩ := hfree
  have ht1 : Tbl.find? s1.teams k = some t := by rw [hteams]; exact ht
  have hsaved : Tbl.find? ((modTeam k Team.toRestart).run s1).2.teams k = some t.toRestart ∧
      ((modTeam k Team.toRestart).run s1).2.groups = s.groups := by
    simp only [modTeam, run_get, ht1]
    exact ⟨find?_put_self _ _ _, hgroups⟩
  exact hsaved

/-! ### Groups that leave -/

/-- The team that a group has left: its blocks are back, it is counted nowhere, what it had written and not yet sent home is lost. -/
def Team.without (t : Team) (k : Nat) (g : Group) : Team :=
  { t.give g (blockUnits g g.extBlk) with
    groups := t.groups.filter (· != k), racqFifo := t.racqFifo.filter (·.1 != k),
    arrivals := Tbl.mapVals t.arrivals fun _ l => l.filter (· != k),
    cluArrivals := Tbl.mapVals t.cluArrivals fun _ l => l.filter (· != k),
    priv := { t.priv with dirty := t.priv.dirty.filter fun x => !g.ownsPriv x.1 } }

/-- Entries that wait for nothing have nothing to give up. -/
theorem each_cancelWait_run (k team : Nat) {l : List Entry} (h : ∀ e ∈ l, e.wait = .run) (s : State) :
    (each l (cancelWait k team)).run s = ((), s) := by
  induction l with
  | nil => rfl
  | cons e rest ih =>
    rw [run_each_cons, cancelWait, h e (by simp)]
    exact ih fun x hx => h x (by simp [hx])

/-- A group that waits for nothing leaves the core (R176, R217). -/
theorem removeGroup_gone {s : State} {k : Nat} {g : Group} {t : Team} (hg : Tbl.find? s.groups k = some g)
    (ht : Tbl.find? s.teams g.team = some t) (hw : ∀ e ∈ Tbl.vals g.entries ++ Tbl.vals g.suspended, e.wait = .run) :
    let u := ((removeGroup k).run s).2
    Tbl.find? u.groups k = none ∧ Tbl.find? u.teams g.team = some (t.without k g) ∧ u.dev.packets = s.dev.packets := by
  simp only [removeGroup, monad_bind, run_bind, run_look, hg, each_cancelWait_run k g.team hw]
  have hlease := dropLeases_leasesOnly k s
  generalize ((dropLeases k).run s).2 = s1 at hlease
  have ht1 : Tbl.find? s1.teams g.team = some t := by rw [hlease.teams]; exact ht
  simp only [dropWaiters, cutRuns, modTeam, run_modCore, run_emit, run_get, apply_noGroup_teams, ht1]
  exact ⟨find?_del_self _ _, find?_put_self _ _ _, hlease.packets⟩

/-- The last group of a team outside clusters leaves it, and the team ends (R176). -/
theorem leaveTeam_last {s : State} {k : Nat} {g : Group} {t : Team} (hg : Tbl.find? s.groups k = some g)
    (ht : Tbl.find? s.teams g.team = some t) (hw : ∀ e ∈ Tbl.vals g.entries ++ Tbl.vals g.suspended, e.wait = .run)
    (hk : t.groups = [k]) (hc : t.clt = 0) :
    ∃ u, Tbl.find? u.groups k = none ∧ Tbl.find? u.teams g.team = some (t.without k g) ∧ u.dev.packets = s.dev.packets ∧
      (leaveTeam k).run s = (teamEnded g.team).run u := by
  obtain ⟨hgroup, hteam, hpackets⟩ := removeGroup_gone hg ht hw
  refine ⟨_, hgroup, hteam, hpackets, ?_⟩
  have hempty : (t.without k g).groups.isEmpty = true := by simp [Team.without, hk]
  have hclt : (t.without k g).clt = 0 := hc
  simp only [leaveTeam, monad_bind, run_bind, run_look, hg]
  generalize ((removeGroup k).run s).2 = u at hteam
  simp [hteam, hempty, clusterTeams, hclt]

/-- A team of one group outside clusters is gone with that group (R176). -/
theorem groupEnded_gone {s : State} {k : Nat} {g : Group} {t : Team} (hg : Tbl.find? s.groups k = some g)
    (ht : Tbl.find? s.teams g.team = some t) (hw : ∀ e ∈ Tbl.vals g.entries ++ Tbl.vals g.suspended, e.wait = .run)
    (hk : t.groups = [k]) (hc : t.clt = 0) (hp : t.preempting = false) :
    let u := ((groupEnded k).run s).2
    Tbl.find? u.groups k = none ∧ Tbl.find? u.teams g.team = none := by
  simp only [groupEnded, monad_bind, run_bind, run_look, hg]
  have hg1 : Tbl.find? ((modDev fun d => { d with
      held := d.held.filter fun h => !(h.team == g.team && h.ident == g.ident) }).run s).2.groups k = some g := hg
  obtain ⟨u, hgroup, hteam, -, hrun⟩ := leaveTeam_last hg1 ht hw hk hc
  rw [hrun, teamEnded_drops hteam hp]
  obtain ⟨hgone, hgroups⟩ := dropTeam_gone hteam
  exact ⟨by rw [hgroups]; exact hgroup, hgone⟩

/-! ### exit (R176, R331) -/

/-- The entry behind an exit, with the lanes that stay. -/
def Entry.left (e : Entry) (f : Focus) (act : Mask) : Entry := { e.step f with mask := e.mask &&& ~~~act, run := none }

/-- The group without lanes that have left it. -/
def Group.loseLanes (g : Group) (m : Mask) : Group := { g with live := g.live &&& ~~~m }

/-- The group behind an exit: the active lanes have left it, and the instruction has committed. -/
def Group.afterExit (g : Group) (c : Ctx) : Group :=
  (if (c.e.left c.f c.act).mask == 0 then (g.loseLanes c.act).freeEntry c.n
   else (g.loseLanes c.act).setEntry c.n (c.e.left c.f c.act)).commit c.f.next

/-- A group of one split keeps its entry where lanes stay. -/
theorem afterExit_stays {c : Ctx} (hentries : c.g.entries = [(c.n, c.e)]) (hmask : c.e.mask &&& ~~~c.act ≠ 0) :
    c.g.afterExit c = ((c.g.loseLanes c.act).setEntry c.n (c.e.left c.f c.act)).commit c.f.next ∧
      (c.g.afterExit c).entries = [(c.n, c.e.left c.f c.act)] := by
  have heq : c.g.afterExit c =
      ((c.g.loseLanes c.act).setEntry c.n (c.e.left c.f c.act)).commit c.f.next := by
    rw [Group.afterExit, if_neg (by simpa [Entry.left] using hmask)]
  refine ⟨heq, ?_⟩
  rw [heq]
  simp [Group.setEntry, Group.loseLanes, hentries, Tbl.put]

/-- A group of one split has no entry left where no lane stays. -/
theorem afterExit_leaves {c : Ctx} (hentries : c.g.entries = [(c.n, c.e)]) (hmask : c.e.mask &&& ~~~c.act = 0) :
    c.g.afterExit c = ((c.g.loseLanes c.act).freeEntry c.n).commit c.f.next ∧
      (c.g.afterExit c).entries = [] := by
  have heq : c.g.afterExit c = ((c.g.loseLanes c.act).freeEntry c.n).commit c.f.next := by
    rw [Group.afterExit, if_pos (by simpa [Entry.left] using hmask)]
  refine ⟨heq, ?_⟩
  rw [heq]
  simp [Group.freeEntry, Group.loseLanes, hentries, Tbl.del]

/-- What exit does where no record lies on the group's stack. -/
theorem exit_run {m : Option Mod} {s : State} {c : Ctx} (h : Executes (.exit m) never s c)
    (hd : (c.g.afterExit c).depth = 0) (hh : (c.g.afterExit c).hnd = false)
    (hw : ∀ y ∈ (c.g.afterExit c).entries, y.2.wait.estate ≠ 1) :
    exec (.exit m) s =
      .next ((settleGroup c.k).run ((putStack c.k (stackOf c.t (c.g.afterExit c))).run s).2).2 := by
  have hbody : exec (.exit m) s =
      .next ((settleGroup c.k).run ((putStack c.k (stackOf c.t (c.g.afterExit c)).settled).run s).2).2 := by
    show (issue _ _ _).outcome s = _
    rw [issue_outcome h]
    simp only [monad_bind, run_bind]
    rfl
  rw [hbody, settled_self (x := stackOf c.t (c.g.afterExit c)) hd hh hw]

theorem exit_stays {m : Option Mod} {s : State} {c : Ctx} (h : Executes (.exit m) never s c)
    (hentries : c.g.entries = [(c.n, c.e)]) (hd : c.g.depth = 0) (hh : c.g.hnd = false) (hmask : c.e.mask &&& ~~~c.act ≠ 0)
    (hlive : c.g.live &&& ~~~c.act ≠ 0) :
    ∃ t g e, exec (.exit m) s = .next t ∧ TeamStep s t c.k g ∧ g.live = c.g.live &&& ~~~c.act ∧ g.entries = [(c.n, e)] ∧
      e.mask = c.e.mask &&& ~~~c.act ∧ e.pc = c.f.next ∧ g.rgnentry = c.f.next ∧ SameS c.g g ∧ SameV c.g g ∧ SameP c.g g := by
  obtain ⟨heq, hleft⟩ := afterExit_stays hentries hmask
  have hstep := putStack_teamStep c.k (stackOf c.t (c.g.afterExit c)) s
  have hrun := exit_run h (by rw [heq]; exact hd) (by rw [heq]; exact hh)
    (by simp [hleft, Entry.left, Entry.step, Wait.estate])
  rw [settleGroup_live hstep.here (by simpa [heq, Group.loseLanes, stackOf] using hlive)] at hrun
  refine ⟨_, _, _, hrun, hstep, ?_, hleft, rfl, rfl, ?_, sameS_of ?_, sameV_of ?_, sameP_of ?_⟩ <;> simp [heq, Group.loseLanes, stackOf]

theorem exit_ends {m : Option Mod} {s : State} {c : Ctx} (h : Executes (.exit m) never s c)
    (hentries : c.g.entries = [(c.n, c.e)]) (hd : c.g.depth = 0) (hh : c.g.hnd = false) (hmask : c.e.mask &&& ~~~c.act = 0)
    (hlive : c.g.live &&& ~~~c.act = 0) (hrr : c.g.rr = []) (hover : c.g.overflow = []) (hsus : c.g.suspended = [])
    (hk : c.t.groups = [c.k]) (hclt : c.t.clt = 0) (hp : c.t.preempting = false) :
    ∃ t, exec (.exit m) s = .next t ∧ Tbl.find? t.groups c.k = none ∧ Tbl.find? t.teams c.g.team = none := by
  obtain ⟨heq, hleft⟩ := afterExit_leaves hentries hmask
  obtain ⟨-, -, -, -, -, hteam, -⟩ := ctx_holds h.1
  have hrun := exit_run h (by rw [heq]; exact hd) (by rw [heq]; exact hh) (by simp [hleft])
  have hteam' : (c.g.afterExit c).team = c.g.team := by simp [heq, Group.loseLanes]
  have hlive' : (c.g.afterExit c).live = 0 := by simp [heq, Group.loseLanes, hlive]
  have hrr' : (c.g.afterExit c).rr = [] := by simp [heq, Group.loseLanes, Group.commit, Group.leaveRegion, hrr, Tbl.mapVals]
  have hover' : (c.g.afterExit c).overflow = [] := by simp [heq, Group.loseLanes, Group.commit, Group.leaveRegion, hover]
  have hsus' : (c.g.afterExit c).suspended = [] := by simp [heq, Group.loseLanes, hsus]
  have hhere := (putStack_teamStep c.k (stackOf c.t (c.g.afterExit c)) s).here
  have hteamAt := putStack_team (s := s) (k := c.k) (x := stackOf c.t (c.g.afterExit c)) (by simpa [stackOf, hteam'] using hteam)
  generalize ((putStack c.k (stackOf c.t (c.g.afterExit c))).run s).2 = s1 at hrun hhere hteamAt
  have hend : (settleGroup c.k).run s1 = (groupEnded c.k).run s1 := by
    simp [settleGroup, hhere, stackOf, hlive', hrr', hover']
  obtain ⟨hgroup, hgone⟩ := groupEnded_gone hhere hteamAt (by simp [stackOf, hleft, hsus', Tbl.vals]) hk hclt hp
  refine ⟨_, hrun, by rw [hend]; exact hgroup, ?_⟩
  rw [hend, ← hteam']
  exact hgone

/-! ### exit.save (R192, R193, R331) -/

/-- The team as a group of it saves its state. -/
def Team.savedOf (t : Team) (g : Group) : Team :=
  { t with saved := true, priv := t.priv.writeBack g.ownsPriv, restart := Tbl.put t.restart g.ident g.restart }

/-- No check at issue refuses exit.save in the PREEMPT handler of a group of one split. -/
theorem executes_exitSave {m : Option Mod} {s : State} {c : Ctx} (hc : ctxOf s m = some c) (hm : modIllegal m = false)
    (hh : c.g.hnd = true) (hx : c.g.xcause = cPreempt) (hentries : c.g.entries = [(c.n, c.e)]) :
    Executes (.exitSave m) (fun c => !(c.g.hnd && c.g.xcause == cPreempt)) s c := by
  refine ⟨hc, ?_⟩
  have hmod : modIllegal (instrMod (.exitSave m)) = false := hm
  have hlen : ¬ c.g.entries.length > 1 := by simp [hentries]
  simp only [issueCheck, hh, hx, beq_self_eq_true, Bool.and_self, Bool.not_true, Bool.false_eq_true, if_false, hmod, hlen,
    decide_false, Bool.and_false]
  rfl

theorem exitSave_ends {m : Option Mod} {s : State} {c : Ctx} {p : Packet}
    (h : Executes (.exitSave m) (fun c => !(c.g.hnd && c.g.xcause == cPreempt)) s c)
    (hw : ∀ e ∈ Tbl.vals c.g.entries ++ Tbl.vals c.g.suspended, e.wait = .run) (hk : c.t.groups = [c.k]) (hclt : c.t.clt = 0)
    (hpre : c.t.preempting = true) (hp : packetAt s.dev c.t.queue c.t.packet = some p) (hph : p.phase = 1) :
    ∃ t, exec (.exitSave m) s = .next t ∧ Tbl.find? t.groups c.k = none ∧
      Tbl.find? t.teams c.g.team = some (((c.t.savedOf c.g).without c.k c.g).toRestart) := by
  obtain ⟨-, -, -, hgroup, -, hteam, -⟩ := ctx_holds h.1
  have hbody : exec (.exitSave m) s =
      .next ((leaveTeam c.k).run ((modTeam c.g.team fun t => t.savedOf c.g).run s).2).2 := by
    show (issue _ _ _).outcome s = _
    rw [issue_outcome h]
    simp only [monad_bind, run_bind]
    rfl
  have hrun : ((modTeam c.g.team fun t => t.savedOf c.g).run s).2 = (Upd.team c.g.team (c.t.savedOf c.g)).apply s := by
    simp [modTeam, hteam]
  rw [hrun] at hbody
  obtain ⟨u, hgone, hleft, hpackets, hleave⟩ := leaveTeam_last (s := (Upd.team c.g.team (c.t.savedOf c.g)).apply s)
    hgroup (find?_put_self _ _ _) hw hk hclt
  have hpacket : packetAt u.dev c.t.queue c.t.packet = some p := by rw [packetAt, hpackets]; exact hp
  obtain ⟨hsaved, hgroups⟩ := teamEnded_saved hleft hpre rfl hpacket hph
  exact ⟨_, hbody, by rw [hleave, hgroups]; exact hgone, by rw [hleave]; exact hsaved⟩

/-- Settles O16: with lanes left the group goes on behind the exit; without one it leaves, and its team with it, which a
saved one outlives to be placed again. -/
theorem exitLanes : Obligations.ExitLanes := by
  refine ⟨fun m s c h hentries hd hh => ⟨exit_stays h hentries hd hh, ?_⟩, ?_⟩
  · intro hmask hlive hrr hover hsus _ hk hclt hp
    exact exit_ends h hentries hd hh hmask hlive hrr hover hsus hk hclt hp
  · intro m s c p hc hm hh hx hentries hwait hsus _ hk hclt hpre hp hph
    obtain ⟨t, hrun, hgroup, hteam⟩ := exitSave_ends (executes_exitSave hc hm hh hx hentries)
      (by simpa [hentries, hsus, Tbl.vals] using hwait) hk hclt hpre hp hph
    exact ⟨t, _, c.g.restart, hrun, hgroup, hteam, rfl, rfl, rfl, find?_put_self _ _ _, rfl, rfl⟩

end Sys2Proof.Machine
end

section
/-! SUPPORT. Width changes (R178, R179, R334, R335): the halves of a group, the fused group, and the codes that wfuse writes. -/

namespace Sys2Proof.Machine

/-! ### The two halves -/

section
variable (g : Group) (f : Focus) (e : Entry) (w : Nat) (upper : Bool) (n : Fin 64)

@[simp] theorem halfOf_live :
    (g.halfOf f e w upper (.s n)).live = (g.live >>> (if upper then w else 0)) &&& allLanes w := rfl

theorem sreg_halfOf (r : Nat) :
    (g.halfOf f e w upper (.s n)).sreg r = if r = n.val then BitVec.ofNat 64 upper.toNat else g.sreg r := sreg_setS g n.val r _

/-- A lane of a half is the lane of the group that it was. -/
theorem lane_vreg_halfOf (r : Nat) {l : Nat} (hl : l < w) (h64 : l < 64) :
    lane ((g.halfOf f e w upper (.s n)).vreg r) l = lane (g.vreg r) ((if upper then w else 0) + l) := by
  have hrows : (g.halfOf f e w upper (.s n)).v =
      packRows (Tbl.mapVals g.v fun _ r => rowFrom r (if upper then w else 0) w) := rfl
  rw [Group.vreg, hrows, packRows, getD_pack, Tbl.getD, find?_mapVals, Group.vreg, Tbl.getD]
  cases Tbl.find? g.v r with
  | none => simp
  | some row => simp [rowFrom, lane_rowOf _ h64, hl]

end

theorem upperKey_ne (k w : Nat) : upperKey k w ≠ k := by
  rw [upperKey]
  split <;> omega

/-- What wsplit does to a group of two live halves: it becomes its lower half, the upper half stands beside it, and memory is as
it was. -/
theorem wsplit_halves {m : Option Mod} {n : Fin 64} {s : State} {c : Ctx} (h : Executes (.wsplit m (.s n)) never s c)
    (hg : GroupGuardPasses c) (href : splitRefused c.g = false) (hidle : c.g.idle = true)
    (hlo : c.g.live &&& allLanes (c.g.width / 2) ≠ 0) (hhi : (c.g.live >>> (c.g.width / 2)) &&& allLanes (c.g.width / 2) ≠ 0) :
    let w := c.g.width / 2
    ∃ t, exec (.wsplit m (.s n)) s = .next t ∧ Tbl.find? t.groups c.k = some (c.g.halfOf c.f c.e w false (.s n)) ∧
      Tbl.find? t.groups (upperKey c.k w) = some (c.g.halfOf c.f c.e w true (.s n)) ∧ t.mem = s.mem := by
  intro w
  let j := upperKey c.k w
  let s1 := (Upd.group j (c.g.halfOf c.f c.e w true (.s n))).apply ((Upd.group c.k (c.g.halfOf c.f c.e w false (.s n))).apply s)
  obtain ⟨ts, hts⟩ := modTeam_fields c.g.team
    (fun t => { t with groups := t.groups.flatMap fun x => if x == c.k then [x, j] else [x] }) s1
  let s2 := ((cutRuns c.k).run { s1 with teams := ts }).2
  have hlow : Tbl.find? s2.groups c.k = some (c.g.halfOf c.f c.e w false (.s n)) :=
    (find?_put_ne _ _ (upperKey_ne c.k w).symm).trans (find?_put_self _ _ _)
  have hup : Tbl.find? s2.groups j = some (c.g.halfOf c.f c.e w true (.s n)) := find?_put_self _ _ _
  have hlowLive : (c.g.halfOf c.f c.e w false (.s n)).live ≠ 0 := by simpa using hlo
  have hrun : exec (.wsplit m (.s n)) s = .next s2 := by
    show (issue _ _ _).outcome s = _
    rw [issue_outcome h, groupGuarded, if_pos hg, href, hidle]
    simp only [Bool.false_eq_true, if_false, Bool.not_true, monad_bind, run_bind, run_emit]
    rw [hts]
    rw [settleGroup_live hlow hlowLive, settleGroup_live hup (by simpa using hhi)]
  exact ⟨s2, hrun, hlow, hup, rfl⟩

/-! ### Codes of wfuse -/

/-- A code in D (R349). -/
theorem retire_resultS_done {s : State} {c : Ctx} {d : SDst} {x : Word64} (h : Tbl.find? c.g.entries c.n = some c.e) :
    ScalarDone s c d x (.next ((retire c (c.g.resultS d x)).run s).2) := by
  obtain ⟨v, p, hx⟩ := resultS_fields c.g d x
  have he : (c.g.resultS d x).entries = c.g.entries := by rw [hx]
  refine ⟨_, _, rfl, emit_group_step s _ _, ?_⟩
  rw [retired_eq (by rw [he]; exact h)]
  refine ⟨at_next he _, by rw [hx]; rfl, fun n => sreg_resultS _ _ _ _, ?_⟩
  rw [hx]
  exact ⟨fun _ _ _ => rfl, fun _ => rfl, rfl, rfl⟩

/-- wfuse without a partner writes 5 and goes on. -/
theorem wfuse_alone {m : Option Mod} {d : SDst} {sel : Bool} {s : State} {c : Ctx} (h : Executes (.wfuse m d sel) never s c)
    (hg : GroupGuardPasses c) (hwidth : c.g.width ≠ 64) (hidle : c.g.idle = true) (hp : partnerOf s c.k c.g sel = none) :
    ScalarDone s c d 5 (exec (.wfuse m d sel) s) := by
  have hrun : exec (.wfuse m d sel) s = .next ((retire c (c.g.resultS d 5)).run s).2 := by
    show (issue _ _ _).outcome s = _
    rw [issue_outcome h, groupGuarded, if_pos hg, if_neg (by simpa using hwidth), hidle]
    simp only [Bool.not_true, Bool.false_eq_true, if_false, monad_bind, run_bind, run_look, id, hp]
    rfl
  rw [hrun]
  exact retire_resultS_done h.entry

/-- wfuse waits for a partner that has not come. -/
theorem wfuse_waits {m : Option Mod} {n : Fin 64} {sel : Bool} {s : State} {c : Ctx} {p : Group}
    (h : Executes (.wfuse m (.s n) sel) never s c) (hg : GroupGuardPasses c) (hwidth : c.g.width ≠ 64) (hidle : c.g.idle = true)
    (hp : partnerOf s c.k c.g sel = some p) (hf : p.entries.find? (fun x => waitsFuse x.2) = none) :
    Moved s c c.f.pc (.wfuse sel (some n) (clockAt s (dieOf (keyCore c.k)) + 4096) c.f.next) (exec (.wfuse m (.s n) sel) s) := by
  have hrun : exec (.wfuse m (.s n) sel) s = .next ((emit (.group c.k (c.g.setEntry c.n { c.e with
      pc := c.f.pc, wait := .wfuse sel (some n) (clockAt s (dieOf (keyCore c.k)) + 4096) c.f.next,
      run := none }))).run s).2 := by
    show (issue _ _ _).outcome s = _
    rw [issue_outcome h, groupGuarded, if_pos hg, if_neg (by simpa using hwidth), hidle]
    simp only [Bool.not_true, Bool.false_eq_true, if_false, monad_bind, run_bind, run_look, id, hp, hf]
  rw [hrun]
  exact moved_setEntry s rfl rfl rfl rfl

/-! ### The fused group -/

section
variable (lo hi : Group) (f : Focus) (el eh : Entry) (n : Fin 64)

@[simp] theorem fuse_width : (fuse lo hi f el eh (.s n)).width = 2 * lo.width := rfl

@[simp] theorem sreg_fuse : (fuse lo hi f el eh (.s n)).sreg n.val = 0 := by
  have h := sreg_setS lo n.val n.val 0
  rw [if_pos rfl] at h
  exact h

end

theorem partnerKey_ne (k : Nat) (sel : Bool) : partnerKey k sel ≠ k := by
  cases sel
  all_goals
    simp only [partnerKey, Bool.false_eq_true, if_true, if_false]
    split
    next => omega
    next hodd =>
      simp only [beq_iff_eq] at hodd
      omega

/-- A partner is a group of the same team and width, at its key. -/
theorem partnerOf_some {s : State} {k : Nat} {g p : Group} {sel : Bool} (h : partnerOf s k g sel = some p) :
    Tbl.find? s.groups (partnerKey k sel) = some p ∧ p.team = g.team ∧ p.width = g.width := by
  rw [partnerOf] at h
  by_cases hw : (g.width != (if sel then 32 else 16)) = true
  · rw [if_pos hw] at h
    cases h
  · rw [if_neg hw] at h
    split at h
    next q hq =>
      split at h
      next hsame =>
        cases h
        obtain ⟨hteam, hwidth⟩ := Bool.and_eq_true_iff.1 hsame
        exact ⟨hq, by simpa using hteam, by simpa using hwidth⟩
      next => cases h
    · cases h

/-- Barriers of a team at which no group waits, outside clusters, let none pass. -/
theorem checkBars_none {s : State} {k : Nat} {t : Team} (ht : Tbl.find? s.teams k = some t) (ha : t.arrivals = [])
    (hca : t.cluArrivals = []) (hc : t.clt = 0) : (checkBars k).run s = ((), s) := by
  simp [checkBars, ht, ha, hca, clusterTeams, hc, Tbl.keys, id]

/-- The team that a group has left by fusing with another. -/
def Team.outOf (t : Team) (k : Nat) : Team := { t with groups := t.groups.filter (· != k) }

/-- The state once two groups have become x at the lower of their keys. -/
def State.fused (s : State) (c : Ctx) (j : Nat) (x : Group) : State :=
  let s1 := (Upd.noGroup (max c.k j)).apply ((Upd.group (min c.k j) x).apply s)
  ((cutRuns j).run ((cutRuns c.k).run ((Upd.team c.g.team (c.t.outOf (max c.k j))).apply s1)).2).2

theorem fused_low {s : State} {c : Ctx} {j : Nat} {x : Group} (hne : j ≠ c.k) :
    Tbl.find? (s.fused c j x).groups (min c.k j) = some x := (find?_del_ne _ (by omega)).trans (find?_put_self _ _ _)

theorem fused_high {s : State} {c : Ctx} {j : Nat} {x : Group} : Tbl.find? (s.fused c j x).groups (max c.k j) = none :=
  find?_del_self _ _

theorem fused_team {s : State} {c : Ctx} {j : Nat} {x : Group} :
    Tbl.find? (s.fused c j x).teams c.g.team = some (c.t.outOf (max c.k j)) := find?_put_self _ _ _

/-- What two groups become, the lower key's first. -/
def Ctx.fusedGroup (c : Ctx) (g p : Group) (e : Entry) (n : Fin 64) (j : Nat) : Group :=
  if c.k < j then fuse g p c.f c.e e (.s n) else fuse p g c.f e c.e (.s n)

/-- wfuse of two groups that agree: the higher key gives its leases up, and the groups become one. -/
theorem wfuse_run {m : Option Mod} {n : Fin 64} {sel : Bool} {s : State} {c : Ctx} {p : Group} {i : Nat} {e : Entry}
    (h : Executes (.wfuse m (.s n) sel) never s c) (hg : GroupGuardPasses c) (hwidth : c.g.width ≠ 64) (hidle : c.g.idle = true)
    (hp : partnerOf s c.k c.g sel = some p) (hf : p.entries.find? (fun x => waitsFuse x.2) = some (i, e))
    (hcode : fuseCode c.g p c.f.pc e.pc c.e e = 0) (ha : c.t.arrivals = []) (hca : c.t.cluArrivals = []) (hc : c.t.clt = 0)
    {g1 p1 : Group} :
    let j := partnerKey c.k sel
    let s1 := ((dropLeases (max c.k j)).run s).2
    Tbl.find? s1.groups c.k = some g1 → Tbl.find? s1.groups j = some p1 → Tbl.find? s1.teams c.g.team = some c.t →
    exec (.wfuse m (.s n) sel) s = .next (s1.fused c j (c.fusedGroup g1 p1 e n j)) := by
  intro j s1 hk hj hteam
  let s2 := (Upd.noGroup (max c.k j)).apply ((Upd.group (min c.k j) (c.fusedGroup g1 p1 e n j)).apply s1)
  have hteam2 : Tbl.find? s2.teams c.g.team = some c.t := hteam
  have hmod : ((modTeam c.g.team fun t => t.outOf (max c.k j)).run s2).2 =
      (Upd.team c.g.team (c.t.outOf (max c.k j))).apply s2 := by simp [modTeam, hteam2]
  have hbars := checkBars_none (fused_team (s := s1) (c := c) (j := j) (x := c.fusedGroup g1 p1 e n j)) ha hca hc
  have hend : ((checkBars c.g.team).run ((cutRuns j).run ((cutRuns c.k).run ((modTeam c.g.team fun t =>
      t.outOf (max c.k j)).run s2).2).2).2).2 = s1.fused c j (c.fusedGroup g1 p1 e n j) := by
    rw [hmod]
    exact congrArg Prod.snd hbars
  show (issue _ _ _).outcome s = _
  rw [issue_outcome h, groupGuarded, if_pos hg, if_neg (by simpa using hwidth), hidle]
  simp only [Bool.not_true, Bool.false_eq_true, if_false, monad_bind, run_bind, run_look, id, hp, hf, hcode, bne_self_eq_false,
    run_emit]
  show Host.Outcome.next _ = _
  rw [hj, hk, Option.getD_some, Option.getD_some]
  exact congrArg Host.Outcome.next hend

/-- Two groups that agree at wfuse become one, of twice the width, at the lower of their keys. -/
theorem wfuse_fuses {m : Option Mod} {n : Fin 64} {sel : Bool} {s : State} {c : Ctx} {p : Group} {i : Nat} {e : Entry}
    (h : Executes (.wfuse m (.s n) sel) never s c) (hg : GroupGuardPasses c) (hwidth : c.g.width ≠ 64) (hidle : c.g.idle = true)
    (hp : partnerOf s c.k c.g sel = some p) (hf : p.entries.find? (fun x => waitsFuse x.2) = some (i, e))
    (hcode : fuseCode c.g p c.f.pc e.pc c.e e = 0) (ha : c.t.arrivals = []) (hca : c.t.cluArrivals = []) (hc : c.t.clt = 0) :
    let j := partnerKey c.k sel
    ∃ t g, exec (.wfuse m (.s n) sel) s = .next t ∧ Tbl.find? t.groups (min c.k j) = some g ∧
      Tbl.find? t.groups (max c.k j) = none ∧ g.width = 2 * c.g.width ∧ g.sreg n.val = 0 ∧ g.rgnentry = c.f.next := by
  intro j
  obtain ⟨-, -, -, hgroup, -, hteam, -⟩ := ctx_holds h.1
  obtain ⟨hpartner, -, hpw⟩ := partnerOf_some hp
  have hdrop := dropLeases_leasesOnly (max c.k j) s
  obtain ⟨g1, hg1, hgw⟩ := hdrop.group hgroup
  obtain ⟨p1, hp1, hpw1⟩ := hdrop.group hpartner
  refine ⟨_, _, wfuse_run h hg hwidth hidle hp hf hcode ha hca hc hg1 hp1 (by rw [hdrop.teams]; exact hteam),
    fused_low (partnerKey_ne c.k sel), fused_high, ?_⟩
  rw [Ctx.fusedGroup]
  by_cases hlow : c.k < partnerKey c.k sel
  · rw [if_pos hlow]
    exact ⟨by rw [fuse_width, hgw], sreg_fuse _ _ _ _ _ _, rfl⟩
  · rw [if_neg hlow]
    exact ⟨by rw [fuse_width, hpw1, hpw], sreg_fuse _ _ _ _ _ _, rfl⟩

/-! ### The deadline of wfuse -/

/-- A group that has waited at wfuse goes on behind it with the code in D. -/
theorem fuseResult_eq (g : Group) (i code : Nat) {e : Entry} {sel : Bool} {n : Fin 64} {dl : Nat} {next : Word64}
    (hw : e.wait = .wfuse sel (some n) dl next) :
    g.fuseResult i e code = (g.writeS n.val (BitVec.ofNat 64 code)).setEntry i (e.after next e.pc) := by
  rw [Group.fuseResult, hw]

theorem wfuseTimeout_run {s : State} {k i dl : Nat} {g : Group} {e : Entry} {sel : Bool} {n : Fin 64} {next : Word64}
    (hg : Tbl.find? s.groups k = some g) (hf : g.entries.find? (fun x => waitsFuse x.2) = some (i, e))
    (hw : e.wait = .wfuse sel (some n) dl next) (hdl : dl ≤ clockAt s (dieOf (keyCore k))) :
    exec (.wfuseTimeout k) s =
      .next ((Upd.group k ((g.writeS n.val 6).setEntry i (e.after next e.pc))).apply s) := by
  show Prog.outcome _ s = _
  have hcode : g.fuseResult i e fuTimeout = (g.writeS n.val 6).setEntry i (e.after next e.pc) := fuseResult_eq g i fuTimeout hw
  simp only [Prog.outcome, monad_bind, run_bind, run_look, run_modGroup hg, hf, hw]
  exact congrArg (fun x => Host.Outcome.next ((Upd.group k x).apply s)) ((if_pos hdl).trans hcode)

/-- Settles O18: the halves that wsplit makes, and the ends of wfuse by what the partner does. -/
theorem widthChange : Obligations.WidthChange := by
  intro m d sel n k s c hg w j
  refine ⟨fun h href hidle hlo hhi => ?_, fun h => wfuse_alone h hg, fun p h => wfuse_waits h hg, ?_, ?_⟩
  · obtain ⟨t, hrun, hlow, hup, hmem⟩ := wsplit_halves h hg href hidle hlo hhi
    refine ⟨t, _, _, hrun, hlow, hup, rfl, rfl, ?_, ?_, fun r hr => ?_, fun r l hl h64 => ?_, by simp [w], by simp [w], rfl, rfl,
      fun a => by rw [hmem]⟩
    · rw [sreg_halfOf, if_pos rfl]; rfl
    · rw [sreg_halfOf, if_pos rfl]; rfl
    · exact ⟨by rw [sreg_halfOf, if_neg hr], by rw [sreg_halfOf, if_neg hr]⟩
    · have hl64 : l < 64 := by omega
      exact ⟨by rw [lane_vreg_halfOf _ _ _ _ _ _ _ hl hl64]; simp, by rw [lane_vreg_halfOf _ _ _ _ _ _ _ hl hl64]; simp⟩
  · intro p i e h hwidth hidle hp hf hcode _ _ ha hca hc
    exact wfuse_fuses h hg hwidth hidle hp hf hcode ha hca hc
  · intro g i e dl next hgroup hf hw hdl
    refine ⟨_, _, wfuseTimeout_run hgroup hf hw hdl, emit_group_step s _ _, ?_, _, find?_setEntry_self _ _ _, rfl, rfl⟩
    have hs := sreg_writeS g n.val n.val 6
    rw [if_pos rfl] at hs
    exact hs

end Sys2Proof.Machine
end

section
/-! SUPPORT. A refutation of O14: its clause on an arrival that waits speaks of the other entries by their numbers, and no
hypothesis says that the split table lists a number once. -/

namespace Sys2Proof.Machine

/-! ### A split table that lists an entry twice -/

/-- The one split of a group as it starts. -/
def startedEntry : Entry :=
  { pc := BitVec.ofNat 64 probeVa, via := .transfer, src := BitVec.ofNat 64 probeVa, mask := allLanes 32, mode := 0, join := 0,
    jseq := 0, wait := .run, run := none }

/-- The split that stands at the join of its binding. -/
def arrivingEntry : Entry :=
  { startedEntry with pc := 0x10010, mask := 0x0000FFFF, join := 0x10010 }

/-- Another split of the binding, which has not come. -/
def comingEntry : Entry := { arrivingEntry with pc := 0x10020, mask := 0x00FF0000 }

/-- A split that waits at the join of another binding, the only one of it. -/
def loneWaiter : Entry :=
  { arrivingEntry with pc := 0x10044, mask := 0xFF000000, join := 0x10040, wait := .join 0x10044 none 0 }

/-- A group of team 1 as it starts on core 0. -/
def startedGroup : Group :=
  Group.start 1 0 32 0 0 (allLanes 32) (BitVec.ofNat 64 probeVa) (probeTeam 1) (BitVec.allOnes 64)

/-- Number 0 stands for the arriving split, and again for the lone waiter. -/
def twiceListed : Group :=
  { startedGroup with entries := [(0, arrivingEntry), (1, comingEntry), (0, loneWaiter)] }

/-- The split of number 0 is to execute the instruction at slot 0 of its line. -/
def slotFocus : Focus := { group := 0, entry := 0, pc := 0x10010, word := 0x10010, next := 0x10014, nextFall := false }

def twiceListedState : State :=
  { State.reset with focus := some slotFocus, groups := [(0, twiceListed)], teams := [(1, probeTeam 1)] }

def twiceListedCtx : Ctx :=
  { k := 0, f := slotFocus, n := 0, t := probeTeam 1, g := twiceListed, e := arrivingEntry, eff := effMode 0 none,
    act := activeMask twiceListed (effMode 0 none) arrivingEntry.mask }

theorem twiceListed_executes : Executes (.join none 0) never twiceListedState twiceListedCtx ∧ GuardPasses twiceListedCtx :=
  ⟨⟨rfl, rfl⟩, rfl⟩

theorem twiceListed_others : (∀ y ∈ twiceListed.entries, y.1 ≠ 0 → y.2.wait.estate ≠ 1) ∧
    ∃ y ∈ twiceListed.entries, y.1 ≠ 0 ∧ y.2.binding = arrivingEntry.binding :=
  ⟨by decide, (1, comingEntry), by decide, by decide, rfl⟩

/-- The lone waiter merges, and with it the number that it shares with the split that has come. -/
theorem twiceListed_merges : Gives (exec (.join none 0) twiceListedState) fun t =>
    (Tbl.find? t.groups 0).bind (fun g => (Tbl.find? g.entries 0).map (·.wait)) = some .run :=
  ⟨_, rfl, by decide⟩

/-- Refutes O14: in a table that lists its number twice, a split that has come to its join need not wait there. -/
theorem not_joining : ¬ Obligations.Joining := by
  intro h
  obtain ⟨arrivals, -⟩ := h
  obtain ⟨executes, guard⟩ := twiceListed_executes
  obtain ⟨-, -, -, waits⟩ := arrivals none 0 twiceListedState twiceListedCtx executes guard
  obtain ⟨notWaiting, another⟩ := twiceListed_others
  obtain ⟨t, g, ht, ⟨here, -⟩, ⟨⟨e, he, -, hwait, -⟩, -⟩, -⟩ := waits rfl (by decide) rfl rfl notWaiting another
  obtain ⟨t', ht', merged⟩ := twiceListed_merges
  obtain rfl : t = t' := Host.Outcome.next.inj (ht.symm.trans ht')
  have here0 : Tbl.find? t.groups 0 = some g := here
  have he0 : Tbl.find? g.entries 0 = some e := he
  rw [here0, Option.bind_some, he0, Option.map_some, hwait] at merged
  cases merged

end Sys2Proof.Machine
end

section
/-! SUPPORT. A refutation of O19: its clause on a participant mask without the own group holds of a team that lists its groups
once; nothing says that it does. -/

namespace Sys2Proof.Machine

/-! ### A team that lists its group twice -/

/-- The group is the first of the team and the second. -/
def twiceCounted : Team := { probeTeam 1 with groups := [0, 0] }

def twiceCountedState : State :=
  { State.reset with focus := some slotFocus, groups := [(0, startedGroup)], teams := [(1, twiceCounted)] }

def twiceCountedCtx : Ctx :=
  { k := 0, f := slotFocus, n := 0, t := twiceCounted, g := startedGroup, e := startedEntry, eff := effMode 0 none,
    act := activeMask startedGroup (effMode 0 none) (allLanes 32) }

theorem twiceCounted_executes : Executes (.lpc none .zero 0 0) never twiceCountedState twiceCountedCtx := ⟨rfl, rfl⟩

theorem twiceCounted_groups : ∀ k ∈ twiceCounted.groups, k = 0 := by decide

/-- The group traps twice, the second time in its handler, which ends the team. -/
theorem twiceCounted_ends : Gives (exec (.lpc none .zero 0 0) twiceCountedState) fun t => Tbl.find? t.groups 0 = none :=
  ⟨_, rfl, by decide +kernel⟩

/-- Refutes O19: a rendezvous that fails traps a group as often as its team lists it, and the second trap is fatal. -/
theorem not_laneCompaction : ¬ Obligations.LaneCompaction := by
  intro h
  obtain ⟨rendezvous, -⟩ := h
  obtain ⟨-, refused, -⟩ := rendezvous none .zero 0 0 twiceCountedState twiceCountedCtx twiceCounted_executes (by decide) (by decide)
  obtain ⟨t, g, ht, ⟨here, -⟩, -⟩ := refused (.inl rfl) (fun k _ hk hne => absurd (twiceCounted_groups k hk) hne) (by decide)
    (by decide)
  obtain ⟨t', ht', gone⟩ := twiceCounted_ends
  obtain rfl : t = t' := Host.Outcome.next.inj (ht.symm.trans ht')
  cases gone.symm.trans here

end Sys2Proof.Machine
end

section
/-! SUPPORT. A refutation of O20: its clause on the cluster barrier holds where the table of teams lists a team once; nothing says
that it does. -/

namespace Sys2Proof.Machine

/-! ### A team that is listed twice -/

/-- A team of one group, alone in its cluster. -/
def loneTeam : Team := { probeTeam 1 with clt := 1 }

/-- The group's split stands at its barrier; a split that a handler has put aside waits at one of the same number. -/
def asideGroup : Group := { startedGroup with suspended := [(0, { startedEntry with wait := .bar 0 true 0x20000 })] }

def twiceHeldState : State :=
  { State.reset with focus := some slotFocus, groups := [(0, asideGroup)], teams := [(1, loneTeam), (1, loneTeam)] }

def twiceHeldCtx : Ctx :=
  { k := 0, f := slotFocus, n := 0, t := loneTeam, g := asideGroup, e := startedEntry, eff := effMode 0 none,
    act := activeMask asideGroup (effMode 0 none) (allLanes 32) }

theorem twiceHeld_executes : Executes (.barClu none 0) never twiceHeldState twiceHeldCtx ∧ GroupGuardPasses twiceHeldCtx :=
  ⟨⟨rfl, rfl⟩, rfl⟩

/-- No other team is in the cluster. -/
theorem twiceHeld_alone : ∀ x ∈ twiceHeldState.teams, x.1 = 1 := by decide

/-- A core whose lines are clean publishes nothing, whatever order the device chooses (R9, R452). -/
theorem publish_clean {s : State} {core : Nat} (h : dirtyLines s core = []) (who : Option Nat) :
    (publish core who).run s = (Prog.bind (look fun s => coreTeams s core) fun ts =>
      Prog.bind (each ts fun k => writeBackPriv k fun _ => true) fun _ =>
      Prog.bind (modDie (dieOf core) fun d => { d with rdc := d.rdc.filter fun x => x.2.dirty != 0 }) fun _ =>
      .pure false).run { s with free := s.free + 1 } := by
  have hfree : dirtyLines { s with free := s.free + 1 } core = [] := h
  simp only [publish, monad_bind, monad_pure, run_bind, run_fresh, run_look, hfree, List.drop_nil, List.take_nil, List.append_nil,
    anyOf, run_pure, Bool.false_eq_true, if_false]

/-- What barClu does in a team of a cluster, where its guard passes. -/
theorem barClu_run {m : Option Mod} {n : Fin 16} {s : State} {c : Ctx} (h : Executes (.barClu m n) (fun c => c.t.clt == 0) s c)
    (hg : GroupGuardPasses c) : exec (.barClu m n) s = .next ((arriveBar c n true).run s).2 := issue_runs h (if_pos hg)

/-- Where the barrier finds the group once the core has published. -/
def twiceHeldPublished : State := { twiceHeldState with free := 1, dies := Tbl.put [] 0 (dieAt twiceHeldState 0) }

theorem twiceHeld_publishes : (publish 0 (some 0)).run twiceHeldState = (false, twiceHeldPublished) :=
  (publish_clean (by decide) _).trans rfl

/-- The group passes as often as its team is listed: the second time with the split that was put aside. -/
theorem twiceHeld_passes : Gives (exec (.barClu none 0) twiceHeldState) fun t =>
    (Tbl.find? t.groups 0).map (·.rgnentry) = some 0x20000 := by
  have hcontext : Executes (.barClu none 0) (fun c => c.t.clt == 0) twiceHeldState twiceHeldCtx := ⟨rfl, rfl⟩
  have hrelease : (releaseCore twiceHeldCtx.k twiceHeldCtx.g .clu).run twiceHeldState = (false, twiceHeldPublished) :=
    twiceHeld_publishes
  refine ⟨_, barClu_run hcontext rfl, ?_⟩
  simp only [arriveBar, monad_bind, run_bind, if_true, hrelease]
  decide +kernel

/-- Refutes O20: where a team is listed twice its group passes a barrier twice, and its region begins elsewhere. -/
theorem not_barriersAndBlocks : ¬ Obligations.BarriersAndBlocks := by
  intro h
  obtain ⟨executes, guard⟩ := twiceHeld_executes
  obtain ⟨-, -, clusterBarrier, -, -⟩ := h none 0 0 twiceHeldState twiceHeldCtx rfl
  obtain ⟨t, g, ht, here, -, region, -⟩ := clusterBarrier executes guard rfl (by decide) rfl rfl
    (fun k u hu hne => absurd (twiceHeld_alone (k, u) hu) hne) (by decide)
  obtain ⟨t', ht', passed⟩ := twiceHeld_passes
  obtain rfl : t = t' := Host.Outcome.next.inj (ht.symm.trans ht')
  have here0 : Tbl.find? t.groups 0 = some g := here
  rw [here0, Option.map_some, region] at passed
  exact absurd passed (by decide)

end Sys2Proof.Machine
end

section
/-! SUPPORT. A refutation of O23: a PREEMPT withdraws the accesses of its group that wait at homes (R187, R217) before it takes the
region's snapshot, and a home may then grant the group's own lease begin, which commits. The frame is that of the new snapshot. -/

namespace Sys2Proof.Machine

/-! ### A group whose own lease begin waits behind an access of it -/

/-- The one split of the group waits at its lease begin; the snapshot, of four splits, does not fit the stack with the 510 records
below it, though a snapshot of the split as it is does. -/
def committingWaiter : Group :=
  let g := leaseWaiter 1
  { g with depth := 510, snap := { g.snap with
      depth := 510, entries := [(0, startedEntry), (1, startedEntry), (2, startedEntry), (3, startedEntry)] } }

/-- An access of the group, then its begin, wait at the line, which no group holds. -/
def ownHold : LeaseHold :=
  { holder := none, deadline := 0, image := 0, written := 0, queue := [.access (.group 0), .lease 0 raceLine] }

def committingState : State :=
  { State.reset with
    groups := [(0, committingWaiter)], teams := [(1, probeTeam 1)]
    dev := { Dev.reset with leases := [(raceLine, ownHold)] } }

/-- The frame of the snapshot as it stands does not fit. -/
theorem committing_noFrame :
    recFits (stkTop (probeTeam 1).kernel.priv) (committingWaiter.snap.depth + committingWaiter.snap.entries.length) = false := by
  decide

/-- The group enters its handler, and its team goes on. -/
theorem committing_survives :
    (Tbl.find? ((takeTrap 0 0 cPreempt 0 0).run committingState).2.teams 1).isSome = true := by decide +kernel

/-- Refutes O23: the pre-emption finds the snapshot that the grant has left, whose frame fits. -/
theorem not_fatalTraps : ¬ Obligations.FatalTraps := by
  intro h
  obtain ⟨gone, -⟩ := h 0 0 cPreempt 0 0 committingState committingWaiter (probeTeam 1) rfl rfl (.inr (.inr committing_noFrame))
  have gone1 : Tbl.find? ((takeTrap 0 0 cPreempt 0 0).run committingState).2.teams 1 = none := gone
  have survives := committing_survives
  rw [gone1] at survives
  cases survives

end Sys2Proof.Machine
end
